-- ==== Sys2Proof/Word.lean ====
section
/-! DEFINITION. The word types of the LD226: bytes, identities, generations, and the numbers of slots and stations. -/

namespace Sys2Proof

/-- One byte of a frame. -/
abbrev Byte := BitVec 8

/-- A 48-bit factory-set identity (00 0.5). -/
abbrev Identity := BitVec 48

/-- The 8-bit wrapping count carried by a slot (R8). -/
abbrev Gen := BitVec 8

/-- The number of a slot, 0..255 (R1). -/
abbrev Handle := Fin 256

/-- The place of a station in its line's map: the value v stands for station v + 1, so the 126 values are
exactly the stations 1..126 (R12: station 0 and station 127 have no entry). -/
abbrev Station := Fin 126

end Sys2Proof
end

