-- ==== Sys2Proof/Syntax.lean ====
section
/-! DEFINITION. The commands of the block: one constructor for each row of spec/opcode_table.json, with the
operands that come from outside the part. A row that carries out a claim or a host command takes its operands
from the state (the outstanding claim, the accepted command frame): log 3. -/

namespace Sys2Proof

/-- One of the two field lines. -/
inductive Line where
  | A
  | B
  deriving DecidableEq, Repr

/-- What the command of an SPI exchange stands for: the whole exchange, with what follows its kind byte; SCS going LOW,
when the status byte is sampled; the kind byte being complete, when it takes effect; or the rest of the exchange and SCS
going HIGH, when its result is decided (R160, R161, R162, R165; log 5). -/
inductive ExchangePart (Sent : Type) where
  | whole (sent : Sent)
  | opens
  | kindByte
  | closes (sent : Sent)
  deriving DecidableEq, Repr

/-- The 80 operations and events of the part, in the table's order. -/
inductive Instr where
  /-- RST_ASSERTED (R172). -/
  | rstAsserted
  /-- RST_RELEASED (R172); `scsLow`: SCS is LOW at the release. -/
  | rstReleased (scsLow : Bool)
  /-- WRITE_COMMAND (R162): the exchange or a part of it; the whole bytes sent after the kind byte, and the bits of an
  incomplete last byte. -/
  | writeCommand (part : ExchangePart (List Byte)) (extraBits : Nat)
  /-- READ_RESPONSE (R165): the exchange or a part of it; the number of bytes clocked beyond the kind byte. -/
  | readResponse (part : ExchangePart Nat)
  /-- READ_STATUS (R161): the exchange or a part of it; the number of bytes clocked beyond the kind byte. -/
  | readStatus (part : ExchangePart Nat)
  /-- UNKNOWN_KIND_BYTE (R160): the kind byte, or none where the exchange ended before it was complete; and the exchange
  or a part of it, with the number of bytes clocked beyond the kind byte. -/
  | unknownKindByte (kind : Option Byte) (part : ExchangePart Nat)
  /-- COMMAND_BEGIN (R164). -/
  | commandBegin
  /-- RESERVE (R175). -/
  | reserve
  /-- PIN (R39). -/
  | pin
  /-- UNPIN (R40). -/
  | unpin
  /-- RETIRE (R144). -/
  | retire
  /-- REASSIGN (R137). -/
  | reassign
  /-- PURGE (R177). -/
  | purge
  /-- LOOKUP (R178). -/
  | lookup
  /-- FIND (R155). -/
  | find
  /-- SET_LEASE (R179). -/
  | setLease
  /-- SET_GROUPS (R157). -/
  | setGroups
  /-- SET_GROUP_LIMIT (R158). -/
  | setGroupLimit
  /-- SET_TAG (R159). -/
  | setTag
  /-- NEXT_CHANGE (R187). -/
  | nextChange
  /-- ACK_CHANGE (R188). -/
  | ackChange
  /-- READ_ALARMS (R167). -/
  | readAlarms
  /-- ACK_ALARMS (R167). -/
  | ackAlarms
  /-- LINE_START (R79). -/
  | lineStart
  /-- LINE_STOP (R82). -/
  | lineStop
  /-- LINE_PAUSE (R81). -/
  | linePause
  /-- LINE_RESUME (R81). -/
  | lineResume
  /-- SET_CALL_POLICY (R181). -/
  | setCallPolicy
  /-- CLEAR_EXCLUSION (R105). -/
  | clearExclusion
  /-- LINE_STATUS (R183). -/
  | lineStatus
  /-- CLEAR_COUNTERS (R184). -/
  | clearCounters
  /-- CONFIGURE (R170). -/
  | configure
  /-- STATUS (R171). -/
  | status
  /-- RESET_DEVICE (R173). -/
  | resetDevice
  /-- TICK_PERIOD_END (R51). -/
  | tickPeriodEnd
  /-- LEASE_TICK (R52). -/
  | leaseTick
  /-- LAPSE (R53): the slot of the record whose lease remaining has reached 0. -/
  | lapse (h : Handle)
  /-- QUARANTINE_EXPIRY (R61): the line and the station whose hold remaining has reached 0. -/
  | quarantineExpiry (l : Line) (st : Station)
  /-- NEXT_TRANSACTION (R92). -/
  | nextTransaction (l : Line)
  /-- ROUND_REST_END (R92). -/
  | roundRestEnd (l : Line)
  /-- DATA_LEAD_RECESSIVE (R77). -/
  | dataLeadRecessive (l : Line)
  /-- STUCK_LINE (R77). -/
  | stuckLine (l : Line)
  /-- COLLISION (R72). -/
  | collision (l : Line)
  /-- HEAD_FRAME_SENT (R73). -/
  | headFrameSent (l : Line)
  /-- IDLE (R96): the bytes received after the kind byte 11H. -/
  | idle (l : Line) (body : List Byte)
  /-- REQUEST (R96): the bytes received after the kind byte 12H. -/
  | request (l : Line) (body : List Byte)
  /-- CONFIRM (R97): the bytes received after the kind byte 13H. -/
  | confirm (l : Line) (body : List Byte)
  /-- DECLINE (R97): the bytes received after the kind byte 14H. -/
  | decline (l : Line) (body : List Byte)
  /-- HOLD (R74): the bytes received after the kind byte 15H. -/
  | hold (l : Line) (body : List Byte)
  /-- CHECK_ERROR (R75): a reply broken off, or of a kind byte outside 11H..15H. -/
  | checkError (l : Line)
  /-- REPLY_WINDOW_TIMEOUT (R73). -/
  | replyWindowTimeout (l : Line)
  /-- HOLD_OFF_TIMEOUT (R74). -/
  | holdOffTimeout (l : Line)
  /-- ORDER_EXHAUSTED (R97). -/
  | orderExhausted (l : Line)
  /-- ARBITRATION_END (R103): the identity the head read. -/
  | arbitrationEnd (l : Line) (identity : Identity)
  /-- JOIN_BODY (R103): the bytes received, from the count byte on. -/
  | joinBody (l : Line) (body : List Byte)
  /-- JOIN_BODY_TIMEOUT (R103). -/
  | joinBodyTimeout (l : Line)
  /-- CLASH_SETTLED (R104). -/
  | clashSettled (l : Line)
  /-- PRESENCE_CLAIM (R98). -/
  | presenceClaim
  /-- MISS_CLAIM (R98). -/
  | missClaim
  /-- MISS_LIMIT (R98). -/
  | missLimit
  /-- JOIN_CLAIM (R108). -/
  | joinClaim
  /-- RENEW (R125). -/
  | renew
  /-- LEAVE (R126, R127). -/
  | leave
  /-- RESOLVE (R128). -/
  | resolve
  /-- NODE_FIND (R129). -/
  | nodeFind
  /-- MEMBERS (R129). -/
  | members
  /-- CAPS_REQUEST (R130). -/
  | capsRequest
  /-- ASSIGN_CONFIRMED (R119). -/
  | assignConfirmed
  /-- ASSIGN_DECLINED (R120). -/
  | assignDeclined
  /-- ASSIGN_EXHAUSTED (R121). -/
  | assignExhausted
  /-- MOVED (R140). -/
  | moved
  /-- MOVE_DECLINED (R141). -/
  | moveDeclined
  /-- PROBE_OUTCOME (R142). -/
  | probeOutcome
  /-- RELEASE_OUTCOME (R149). -/
  | releaseOutcome
  /-- ANSWER_OUTCOME (R133). -/
  | answerOutcome
  /-- IDLE_CHECK_PASS (R79). -/
  | idleCheckPass (l : Line)
  /-- IDLE_CHECK_TIMEOUT (R79). -/
  | idleCheckTimeout (l : Line)
  /-- LINE_CLAIM (R84). -/
  | lineClaim
  /-- FLUSH_CLAIM (R85). -/
  | flushClaim
  /-- DATA_LEAD_DOMINANT (R79). -/
  | dataLeadDominant (l : Line)
  deriving DecidableEq, Repr

end Sys2Proof
end

