-- ==== Sys2Proof/Decode.lean ====
section
/-! DEFINITION. Reading a command: from a word of the table, and from the bytes the host sends in an SPI exchange. -/

namespace Sys2Proof

/-- The command a word spells by the bits spec/opcode_table.json gives its rows. No row of this block gives bits: its
commands are pin levels, exchanges, line events and steps, so no word spells one. -/
def decodeTableWord (_nbits _w : Nat) : Option Instr := none

/-- The three kinds of SPI exchange (R160). -/
inductive ExchangeKind where
  | writeCommand
  | readResponse
  | readStatus
  deriving DecidableEq, Repr

/-- The kind byte of an exchange (R194). -/
def ExchangeKind.code : ExchangeKind → Byte
  | .writeCommand => 0x5A
  | .readResponse => 0xA5
  | .readStatus => 0x3C

/-- The kind of exchange a kind byte picks, if it is one of the three (R160, R194). -/
def exchangeKind? (k : Byte) : Option ExchangeKind :=
  if k = 0x5A then some .writeCommand else if k = 0xA5 then some .readResponse
  else if k = 0x3C then some .readStatus else none

/-- What the host sends after the kind byte, where a part of an exchange reaches its end. -/
def ExchangePart.sent? {Sent : Type} : ExchangePart Sent → Option Sent
  | .whole x => some x
  | .opens => none
  | .kindByte => none
  | .closes x => some x

/-- The command that a whole SPI exchange is: the whole bytes the host sent between SCS going LOW and HIGH, the kind byte
first, and the bits of an incomplete last byte (R160, R194). -/
def exchangeCommand (bytes : List Byte) (extraBits : Nat) : Instr :=
  match bytes with
  | [] => .unknownKindByte none (.whole 0)
  | k :: rest =>
    match exchangeKind? k with
    | some .writeCommand => .writeCommand (.whole rest) extraBits
    | some .readResponse => .readResponse (.whole rest.length)
    | some .readStatus => .readStatus (.whole rest.length)
    | none => .unknownKindByte (some k) (.whole rest.length)

end Sys2Proof
end

