-- ==== Sys2Proof/Machine/Types.lean ====
section
/-! DEFINITION. The parts of the state of the LD226: the directory, the claim arbiter, the lease clock, the line
engines, the host port and the configuration store, as plain data. -/

namespace Sys2Proof.Machine

/-- One value for each field line. -/
structure PerLine (α : Type) where
  a : α
  b : α
  deriving DecidableEq, Repr

/-! ### The directory (Chapters 1, 2, 3, 12) -/

/-- The seven record states (R32 to R38). The target station exists in MOVING only (R31), so it stands in that
state; move sent is read from the REASSIGN order (R31). -/
inductive RecState where
  | reserved
  | joining
  | bound
  | moving (target : Station)
  | quiet
  | retiring
  | lapsed
  deriving DecidableEq, Repr

/-- Table 2-2. -/
inductive RecOutcome where
  | none
  | moved
  | moveDeclined
  | moveFailed
  | moveUncertain
  | moveAborted
  | retired
  | releaseUnconfirmed
  | left
  | lapsed
  | rebound
  | migrated
  | joinAbandoned
  deriving DecidableEq, Repr

/-- A capability entry as it is carried in a frame: class, version, instances (R152, R192). -/
structure CapEntry where
  cls : Byte
  version : BitVec 4
  instances : BitVec 4
  deriving DecidableEq, Repr

/-- A record (Table 2-1). `station` is the station, and in LAPSED the last station: the two pass into one another
with the state (R24), so one field holds both. -/
structure Record where
  identity : Identity
  state : RecState
  pinned : Bool
  line : Line
  station : Station
  leaseLength : Nat
  leaseRemaining : Nat
  missCount : Nat
  joinCount : Nat
  caps : List CapEntry
  groups : BitVec 16
  tag : Option (List Byte)
  outcome : RecOutcome
  requestPending : Bool
  deriving DecidableEq, Repr

/-- A handle with a generation: the name of one record (R8). -/
structure Ref where
  handle : Handle
  gen : Gen
  deriving DecidableEq, Repr

/-- A set of change aspects, in the encoding of Table 13-7: bit 0 STATE, 1 STATION, 2 CAPS, 3 OUTCOME, 4 FREED,
5 SUPERSEDED. -/
abbrev ChangeMask := BitVec 6

/-- A slot (R1, R186). -/
structure Slot where
  content : Option Record
  gen : Gen
  lastIdentity : Option Identity
  keptOutcome : Option RecOutcome
  mask : ChangeMask
  deriving DecidableEq, Repr

/-- An entry of a station map (R12). -/
inductive MapEntry where
  | free
  | held (h : Handle)
  | target (h : Handle)
  | quarantined
  deriving DecidableEq, Repr

/-- An entry of a quarantine list (R59). -/
structure QuarEntry where
  station : Station
  hold : Nat
  ref : Option Ref
  deriving DecidableEq, Repr

/-- An entry of the group table (R17). -/
structure GroupEntry where
  count : Nat
  limit : Nat
  deriving DecidableEq, Repr

/-- The directory (R1, R12, R17, R18, R59, R185). -/
structure Directory where
  slots : Vector Slot 256
  maps : PerLine (Vector MapEntry 126)
  quar : PerLine (List QuarEntry)
  groups : Vector GroupEntry 16
  changeSet : List Handle
  setFull : Nat
  staleRef : Nat
  deriving DecidableEq, Repr

/-! ### The configuration store (Table 10-2) -/

/-- Table 3-1. -/
inductive TickPeriod where
  | ms250
  | ms500
  | s1
  | s2
  | s4
  deriving DecidableEq, Repr

/-- Table 4-1: 31.25, 62.5, 125 and 250 kbit/s. -/
inductive Rate where
  | k31
  | k62
  | k125
  | k250
  deriving DecidableEq, Repr

/-- R101. -/
inductive CallPolicy where
  | callOpen
  | callClosed
  | reservedOnly
  deriving DecidableEq, Repr

/-- The nine alarm flags, as the flags and enables fields hold them (R166, Chapter 13). -/
abbrev AlarmSet := BitVec 9

/-- The configuration store (R169). -/
structure ConfigStore where
  tickPeriod : TickPeriod
  leaseLength : Nat
  quarHold : Nat
  missLimit : Nat
  retryLimit : Nat
  backoff : Nat
  holdOff : Nat
  rates : PerLine Rate
  policies : PerLine CallPolicy
  enables : AlarmSet
  changeAttention : Bool
  deriving DecidableEq, Repr

/-! ### The claim arbiter and the lease clock -/

/-- The four requesters of the directory engine (R19). -/
inductive Requester where
  | host
  | line (l : Line)
  | clock
  deriving DecidableEq, Repr

/-- The claim arbiter (R20): the requester whose claim is being carried out, the rotation position, and the
configuration store as it stood when that claim was granted (R169). -/
structure Arbiter where
  engine : Option Requester
  rotation : Requester
  grantCfg : ConfigStore
  deriving DecidableEq, Repr

/-- The lease clock (3.1). `divider` counts milliseconds. -/
structure LeaseClock where
  period : TickPeriod
  divider : Nat
  ticksDue : Nat
  claim : Bool
  deriving DecidableEq, Repr

/-! ### The line engines (Chapters 4 to 8) -/

/-- Table 6-1. -/
inductive JoinKind where
  | new
  | reserved
  | restart
  | rebound
  | migrated
  deriving DecidableEq, Repr

/-- Table 6-2. -/
inductive RefusalReason where
  | notReserved
  | full
  | noStation
  | wrongLine
  | duplicate
  | retiring
  deriving DecidableEq, Repr

/-- A request of a node, as its frame carries it (Table 13-3). -/
inductive NodeRequest where
  | renew (ticks : Nat)
  | leave
  | resolve (identity : Identity)
  | find (cls start : Byte)
  | members (group start : Byte)
  | caps (entries : List CapEntry)
  deriving DecidableEq, Repr

/-- What an order's frame carries, by its kind (R88, R118, R131, R106). -/
inductive OrderPayload where
  | assign (station : Station) (leaseLength : Nat) (joinKind : JoinKind)
  | reassign (newStation : Station)
  | release
  | answer (request : Byte) (content : List Byte)
  | refuse (reason : RefusalReason) (backoff : Nat)
  deriving DecidableEq, Repr

/-- The kind of an order (R88). -/
inductive OrderKind where
  | assign
  | reassign
  | release
  | answer
  | refuse
  deriving DecidableEq, Repr

/-- Where an order is addressed (R88). -/
inductive Dest where
  | station (st : Station)
  | pair (old second : Station)
  | identity (id : Identity)
  deriving DecidableEq, Repr

/-- R88. -/
inductive Phase where
  | send
  | probe
  deriving DecidableEq, Repr

/-- R88. -/
inductive Progress where
  | waiting
  | sending
  | concluding
  deriving DecidableEq, Repr

/-- An order of the order queue (R88). Besides the fields of R88: `withdrawn` is the mark of R91; `onSecond` is the
note of R148 (the second station of the pair is due next); `targetMissed` says that the target probe of R99 has
ended without finding the node; `chosen` is the model's own: this order is the work of the transaction in
progress (log 10). -/
structure Order where
  ref : Option Ref
  dest : Dest
  payload : OrderPayload
  retryLimit : Nat
  attempts : Nat
  phase : Phase
  transmitted : Bool
  deferred : Bool
  terminal : Bool
  progress : Progress
  withdrawn : Bool
  onSecond : Bool
  targetMissed : Bool
  chosen : Bool
  deriving DecidableEq, Repr

/-- What a reservation is attributed to (R89). -/
inductive Reservation where
  | call
  | poll (ref : Ref)
  deriving DecidableEq, Repr

/-- What a transaction is about (R73, R92). -/
inductive TxWork where
  | order
  | poll (st : Station) (ref : Ref) (solicited : Bool)
  | call (policy : CallPolicy)
  | flush
  deriving DecidableEq, Repr

/-- The course of a transaction: waiting at the stuck-line check (R77), its head frame being sent, its reply window
open, waiting after a HOLD (R74), in the arbitration field of a call, or waiting for the JOIN body (R103). -/
inductive TxPhase where
  | check
  | sending
  | window
  | holdOff
  | arbitration
  | joinWait (identity : Identity)
  deriving DecidableEq, Repr

/-- The transaction in progress on a line (R73 to R76). -/
structure Tx where
  work : TxWork
  phase : TxPhase
  frame : List Byte
  idCheck : Byte
  repeated : Bool
  held : Bool
  holdOffLimit : Nat
  deriving DecidableEq, Repr

/-- Table 4-4. -/
inductive LineState where
  | off
  | starting
  | running
  | paused
  | fault
  deriving DecidableEq, Repr

/-- The course of a line start (R79, R80): none, the idle check, the FLUSH transactions (with the number that have
ended), or everything of its own done. -/
inductive StartStage where
  | none
  | idleCheck
  | flushing (ended : Nat)
  | ready
  deriving DecidableEq, Repr

/-- How an order ended (R97, R132, R142): `probed target old` carries whether each probe found the node. -/
inductive OrderResult where
  | confirm
  | decline
  | exhausted
  | dropped
  | probed (target old : Bool)
  deriving DecidableEq, Repr

/-- The claims of a line engine (Table 1-7). -/
inductive LineClaim where
  | presence (st : Station) (ref : Ref)
  | miss (st : Station) (ref : Ref)
  | request (st : Station) (ref : Ref) (req : NodeRequest)
  | join (identity : Identity) (caps : List CapEntry) (policy : CallPolicy)
  | outcome (kind : OrderKind) (ref : Ref) (result : OrderResult)
  | line
  | flush
  deriving DecidableEq, Repr

/-- The clash tracker (R104). -/
structure ClashTracker where
  identity : Option Identity
  count : Nat
  deriving DecidableEq, Repr

/-- A line engine (R87, R88, R89, R94, R104, R105). -/
structure LineEngine where
  state : LineState
  stopDue : Bool
  flushDue : Bool
  stage : StartStage
  startFlush : Bool
  rate : Rate
  leadDominant : Bool
  tx : Option Tx
  orders : List Order
  reservations : List Reservation
  position : Nat
  roundCounter : BitVec 2
  resting : Bool
  txSinceRound : Bool
  exclusions : List Identity
  tracker : ClashTracker
  callNumber : BitVec 8
  counters : Vector Nat 32
  claim : Option LineClaim
  waiting : Option LineClaim
  deriving DecidableEq, Repr

/-! ### The host port (Chapter 10) -/

/-- Table 11-2. -/
inductive Status where
  | ok
  | accepted
  | notFound
  | stale
  | state
  | stationBusy
  | noStation
  | full
  | lineBusy
  | lineDown
  | groupFull
  | duplicate
  | badArgument
  | endOfList
  deriving DecidableEq, Repr

/-- An accepted command frame: code, tag and operands (R162). -/
structure CmdFrame where
  code : Byte
  tag : Byte
  operands : List Byte
  deriving DecidableEq, Repr

/-- The response of a command (R164). -/
structure Response where
  tag : Byte
  status : Status
  payload : List Byte
  deriving DecidableEq, Repr

/-- A command slot (R163). An ACTIVE slot keeps, beside its command, stop due of each line as it stood when the command was
begun (R164): a line command begun before a stop's line claim has been carried out gives LINE_BUSY (R180). -/
inductive CmdSlot where
  | empty
  | queued (f : CmdFrame)
  | active (f : CmdFrame) (stopsDue : PerLine Bool)
  | answered (r : Response)
  deriving DecidableEq, Repr

/-- The last exchange error (R161). -/
inductive ExchangeError where
  | none
  | frame
  | slots
  deriving DecidableEq, Repr

/-- How far an exchange in progress has come: its kind byte is coming in, or has picked a WRITE COMMAND, a READ RESPONSE
with the response it chose, or a READ STATUS, or was none of these (R160). A chosen response stands with the slot that holds
it; no slot where a reset has discarded that response (R165, R173). -/
inductive ExchangePhase where
  | kindByte
  | writing
  | reading (chosen : Option (Option (Fin 4) × Response))
  | status
  | ignored
  deriving DecidableEq, Repr

/-- An exchange in progress: the status byte sampled when SCS went LOW, and how far it has come (R160, R161). -/
structure Exchange where
  statusByte : Byte
  phase : ExchangePhase
  deriving DecidableEq, Repr

/-- The host port (R160, R163, R165, R166, R168, R172). `exchange` is the exchange in progress; `sdo` is the bytes sent on
SDO in it, or in the last one. -/
structure HostPort where
  slots : Vector CmdSlot 4
  acceptance : List (Fin 4)
  lastError : ExchangeError
  flags : AlarmSet
  changesWaiting : Bool
  ignoreExchange : Bool
  exchange : Option Exchange
  sdo : List Byte
  deriving DecidableEq, Repr

end Sys2Proof.Machine
end

