-- ==== Sys2Proof/Machine/Reset.lean ====
section
/-! DEFINITION. The value each part of the state takes at power-on reset. -/

namespace Sys2Proof.Machine

/-- The same value for both lines. -/
def PerLine.both {α : Type} (x : α) : PerLine α := ⟨x, x⟩

/-- An empty slot of the given generation: FREE, no last identity, empty mask (R1, R8, R9, R186). -/
def Slot.fresh (g : Gen) : Slot :=
  { content := none, gen := g, lastIdentity := none, keptOutcome := none, mask := 0 }

/-- The directory over the given slots, everything else empty (R13, R17, R18, R59, R185). -/
def Directory.fresh (slots : Vector Slot 256) : Directory :=
  { slots := slots
    maps := .both (Vector.replicate 126 .free)
    quar := .both []
    groups := Vector.replicate 16 { count := 0, limit := 0 }
    changeSet := []
    setFull := 0
    staleRef := 0 }

/-- Every generation is 0 after power-on reset (R8). -/
def Directory.reset : Directory := .fresh (Vector.replicate 256 (.fresh 0))

/-- The defaults of the configuration store (R169). -/
def ConfigStore.default : ConfigStore :=
  { tickPeriod := .s1
    leaseLength := 300
    quarHold := 30
    missLimit := 3
    retryLimit := 3
    backoff := 16
    holdOff := 5
    rates := .both .k62
    policies := .both .callClosed
    enables := 0x1FF
    changeAttention := true }

/-- R23: idle, no claim outstanding, the rotation position names the lease clock. The store kept from the last grant
is not read before a grant writes it (log 21). -/
def Arbiter.reset (cfg : ConfigStore) : Arbiter :=
  { engine := none, rotation := .clock, grantCfg := cfg }

/-- R49: the first period begins, with the tick period held in the configuration store. -/
def LeaseClock.reset (cfg : ConfigStore) : LeaseClock :=
  { period := cfg.tickPeriod, divider := 0, ticksDue := 0, claim := false }

/-- R104: no identity and count 0. -/
def ClashTracker.empty : ClashTracker := { identity := none, count := 0 }

/-- R87. The data lead is driven by the nodes and the pull-up, so its level is given. -/
def LineEngine.reset (leadDominant : Bool) : LineEngine :=
  { state := .off
    stopDue := false
    flushDue := false
    stage := .none
    startFlush := false
    rate := .k62
    leadDominant := leadDominant
    tx := none
    orders := []
    reservations := []
    position := 0
    roundCounter := 0
    resting := false
    txSinceRound := false
    exclusions := []
    tracker := .empty
    callNumber := 0
    counters := Vector.replicate 32 0
    claim := none
    waiting := none }

/-- R172. -/
def HostPort.reset : HostPort :=
  { slots := Vector.replicate 4 .empty
    acceptance := []
    lastError := .none
    flags := 0
    changesWaiting := false
    ignoreExchange := false
    exchange := none
    sdo := [] }

end Sys2Proof.Machine
end

