-- ==== Sys2Proof/Machine/State.lean ====
section
/-! DEFINITION. The state of the LD226, the reasons a step can stop, and the state after power-on reset. -/

namespace Sys2Proof.Machine

/-- The reasons a step can fault. The spec names none: a line in FAULT, a refused command and a check error are
effects, with a next state each, so no meaning ever faults. Safe: a claim can lose nothing by it. -/
inductive Fault where
  deriving DecidableEq, Repr

/-- The reasons a step can be refused. -/
inductive Refusal where
  /-- Raised by an arm of exec whose command has no meaning yet. Safe: the machine stops. No arm raises it now. -/
  | notModelled (mnemonic : String)
  deriving DecidableEq, Repr

/-- The whole part: the commands waiting, the RST pin, the directory, the claim arbiter, the lease clock, the two
line engines, the host port and the configuration store. -/
structure State where
  pending : List Instr
  rst : Bool
  dir : Directory
  arb : Arbiter
  clock : LeaseClock
  lines : PerLine LineEngine
  host : HostPort
  cfg : ConfigStore
  deriving DecidableEq, Repr

/-- The machine right after power-on reset: RST released, every block at the values of R172, R87, R49, R48, R23,
R13, R17, R18, R59, R169 and R185, and no command waiting. The data leads are recessive (log 8). -/
def State.reset : State :=
  { pending := []
    rst := false
    dir := .reset
    arb := .reset .default
    clock := .reset .default
    lines := .both (.reset false)
    host := .reset
    cfg := .default }

end Sys2Proof.Machine
end

