-- ==== Sys2Proof/Machine/Formats.lean ====
section
/-! DEFINITION. Byte layouts, check values and code encodings (Chapter 13): what the part sends, and how it reads
what it receives. -/

namespace Sys2Proof.Machine

/-! ### Fields (R190) -/

/-- Two bytes, most significant first (R190). -/
def be16 (n : Nat) : List Byte := [BitVec.ofNat 8 (n / 256), BitVec.ofNat 8 n]

/-- The number in two bytes, most significant first (R190). -/
def u16 (hi lo : Byte) : Nat := hi.toNat * 256 + lo.toNat

/-- A count or a number below 256 as one byte. -/
def byteOf (n : Nat) : Byte := BitVec.ofNat 8 n

/-- The six bytes of an identity, most significant first (R190). -/
def identityBytes (id : Identity) : List Byte :=
  [id.extractLsb' 40 8, id.extractLsb' 32 8, id.extractLsb' 24 8,
    id.extractLsb' 16 8, id.extractLsb' 8 8, id.extractLsb' 0 8]

/-- The identity in six bytes, most significant first (R190). -/
def identityOf (b5 b4 b3 b2 b1 b0 : Byte) : Identity := b5 ++ b4 ++ b3 ++ b2 ++ b1 ++ b0

/-- 000000000000H and FFFFFFFFFFFFH are invalid (R3). -/
def identityInvalid (id : Identity) : Bool := id == 0 || id == BitVec.allOnes 48

/-- The number 1..126 of a station (R190). -/
def stationByte (st : Station) : Byte := byteOf (st.val + 1)

/-- The station of a number, if it is in 1..126 (R15). -/
def stationOfNat? (n : Nat) : Option Station :=
  if h : 1 ≤ n ∧ n ≤ 126 then some ⟨n - 1, by omega⟩ else none

/-- The station of a station byte, if it is in 1..126 (R15, R195). -/
def stationOf? (b : Byte) : Option Station := stationOfNat? b.toNat

/-- 00H for A, 01H for B (R190). -/
def lineByte : Line → Byte
  | .A => 0
  | .B => 1

/-- The line of a line byte, if it is one of the two (R190, R195). -/
def lineOf? (b : Byte) : Option Line :=
  if b = 0 then some .A else if b = 1 then some .B else none

/-- A yes or no byte: 00H no, 01H yes. -/
def flagByte (b : Bool) : Byte := if b then 1 else 0

/-- A handle as one byte (R1). -/
def handleByte (h : Handle) : Byte := byteOf h.val

/-- The handle in one byte (R11: every handle in the range names a slot). -/
def handleOf (b : Byte) : Handle := ⟨b.toNat, b.isLt⟩

/-! ### Check values (R191) -/

/-- One data bit into the check register: shift left; if the bit shifted out differs from the data bit, exclusive-OR
with 8005H (R191). -/
def checkBit (r : BitVec 16) (b : Bool) : BitVec 16 :=
  if r.msb != b then (r <<< 1) ^^^ 0x8005 else r <<< 1

/-- One byte into the check register, most significant bit first (R191). -/
def checkByte (r : BitVec 16) (b : Byte) : BitVec 16 :=
  [7, 6, 5, 4, 3, 2, 1, 0].foldl (fun r i => checkBit r (b.getLsbD i)) r

/-- The 16-bit check of a sequence of bytes; the register starts at FFFFH (R191). -/
def checkValue (bs : List Byte) : BitVec 16 := bs.foldl checkByte 0xFFFF

/-- The check as it is sent, most significant byte first (R190, R191). -/
def checkBytes (bs : List Byte) : List Byte :=
  [(checkValue bs).extractLsb' 8 8, (checkValue bs).extractLsb' 0 8]

/-- A frame: its bytes and then their check (R192, R194). -/
def withCheck (bs : List Byte) : List Byte := bs ++ checkBytes bs

/-- The identity check: the exclusive-OR of the six bytes of an identity (R191). -/
def identityCheck (id : Identity) : Byte := (identityBytes id).foldl (· ^^^ ·) 0

/-! ### Codes (R197, Table 13-8) -/

def RecState.code : RecState → Byte
  | .reserved => 0x01
  | .joining => 0x02
  | .bound => 0x03
  | .moving _ => 0x04
  | .quiet => 0x05
  | .retiring => 0x06
  | .lapsed => 0x07

def RecOutcome.code : RecOutcome → Byte
  | .none => 0x00
  | .moved => 0x01
  | .moveDeclined => 0x02
  | .moveFailed => 0x03
  | .moveUncertain => 0x04
  | .moveAborted => 0x05
  | .retired => 0x06
  | .releaseUnconfirmed => 0x07
  | .left => 0x08
  | .lapsed => 0x09
  | .rebound => 0x0A
  | .migrated => 0x0B
  | .joinAbandoned => 0x0C

def RefusalReason.code : RefusalReason → Byte
  | .notReserved => 0x01
  | .full => 0x02
  | .noStation => 0x03
  | .wrongLine => 0x04
  | .duplicate => 0x05
  | .retiring => 0x06

def Status.code : Status → Byte
  | .ok => 0x00
  | .accepted => 0x01
  | .notFound => 0x02
  | .stale => 0x03
  | .state => 0x04
  | .stationBusy => 0x05
  | .noStation => 0x06
  | .full => 0x07
  | .lineBusy => 0x08
  | .lineDown => 0x09
  | .groupFull => 0x0A
  | .duplicate => 0x0B
  | .badArgument => 0x0C
  | .endOfList => 0x0D

def LineState.code : LineState → Byte
  | .off => 0x00
  | .starting => 0x01
  | .running => 0x02
  | .paused => 0x03
  | .fault => 0x04

def Rate.code : Rate → Nat
  | .k31 => 0
  | .k62 => 1
  | .k125 => 2
  | .k250 => 3

def Rate.ofCode? (n : Nat) : Option Rate :=
  if n = 0 then some .k31 else if n = 1 then some .k62
  else if n = 2 then some .k125 else if n = 3 then some .k250 else none

def CallPolicy.code : CallPolicy → Nat
  | .callOpen => 0
  | .callClosed => 1
  | .reservedOnly => 2

def CallPolicy.ofCode? (n : Nat) : Option CallPolicy :=
  if n = 0 then some .callOpen else if n = 1 then some .callClosed
  else if n = 2 then some .reservedOnly else none

def TickPeriod.code : TickPeriod → Nat
  | .ms250 => 0
  | .ms500 => 1
  | .s1 => 2
  | .s2 => 3
  | .s4 => 4

def TickPeriod.ofCode? (n : Nat) : Option TickPeriod :=
  if n = 0 then some .ms250 else if n = 1 then some .ms500 else if n = 2 then some .s1
  else if n = 3 then some .s2 else if n = 4 then some .s4 else none

/-- The length of a tick period in milliseconds (Table 3-1). -/
def TickPeriod.ms : TickPeriod → Nat
  | .ms250 => 250
  | .ms500 => 500
  | .s1 => 1000
  | .s2 => 2000
  | .s4 => 4000

/-! ### Capability entries (R192) -/

/-- The class; then the version in the upper four bits and the instances count in the lower four (R192). -/
def CapEntry.bytes (e : CapEntry) : List Byte := [e.cls, e.version ++ e.instances]

def capOf (cls b : Byte) : CapEntry :=
  { cls := cls, version := b.extractLsb' 4 4, instances := b.extractLsb' 0 4 }

/-- The entries in a sequence of bytes, two bytes each (R192). -/
def capsOf : List Byte → List CapEntry
  | c :: b :: rest => capOf c b :: capsOf rest
  | _ => []

def capsBytes (es : List CapEntry) : List Byte := es.flatMap CapEntry.bytes

/-! ### Head frames (Table 13-1) -/

def pollFrame (st : Station) (solicit : Bool) : List Byte :=
  withCheck [0x01, stationByte st, flagByte solicit]

def callFrame (number : BitVec 8) (exclusions : List Identity) : List Byte :=
  withCheck ([0x02, number, byteOf exclusions.length] ++ exclusions.flatMap identityBytes)

def assignFrame (id : Identity) (st : Station) (leaseLength : Nat) : List Byte :=
  withCheck ([0x03] ++ identityBytes id ++ [stationByte st] ++ be16 leaseLength)

def reassignFrame (old new : Station) : List Byte :=
  withCheck [0x04, stationByte old, stationByte new]

def releaseFrame (st : Station) : List Byte := withCheck [0x05, stationByte st]

def answerFrame (st : Station) (request : Byte) (content : List Byte) : List Byte :=
  withCheck ([0x06, stationByte st, request] ++ content)

def refuseFrame (id : Identity) (reason : RefusalReason) (backoff : Nat) : List Byte :=
  withCheck ([0x07] ++ identityBytes id ++ [reason.code, byteOf backoff])

def flushFrame : List Byte := withCheck [0x08, 0x7F]

/-! ### Reading node frames (R72, R123, R193) -/

/-- A valid node reply, as the head has read it. -/
inductive NodeReply where
  | idle (check : Byte)
  | request (check : Byte) (req : NodeRequest)
  | confirm
  | decline
  | hold
  deriving DecidableEq, Repr

/-- The `n` bytes that follow the kind byte of a frame whose check, over the kind byte and these bytes, is correct;
none where the frame breaks off before its stated length or the check is wrong (R72). Bytes beyond the stated
length are not taken (R193). -/
def readFrame? (kind : Byte) (n : Nat) (body : List Byte) : Option (List Byte) :=
  if n + 2 ≤ body.length ∧ (body.drop n).take 2 = checkBytes (kind :: body.take n) then some (body.take n)
  else none

/-- The number of bytes between the kind byte of a REQUEST and its check; none for a request kind outside 01H..06H, a
CAPS count above 6, or a frame broken off before it fixes its length (R193, Table 13-3). -/
def requestLength? : List Byte → Option Nat
  | _ :: kind :: rest =>
    if kind = 1 then some 4
    else if kind = 2 then some 2
    else if kind = 3 then some 8
    else if kind = 4 ∨ kind = 5 then some 4
    else if kind = 6 then
      match rest with
      | n :: _ => if n.toNat ≤ 6 then some (3 + 2 * n.toNat) else none
      | [] => none
    else none
  | _ => none

/-- The request in the bytes between the kind byte of a REQUEST and its check (Table 13-3). -/
def requestOf? : List Byte → Option (Byte × NodeRequest)
  | chk :: kind :: ops =>
    if kind = 1 then
      match ops with
      | [hi, lo] => some (chk, .renew (u16 hi lo))
      | _ => none
    else if kind = 2 then
      match ops with
      | [] => some (chk, .leave)
      | _ => none
    else if kind = 3 then
      match ops with
      | [b5, b4, b3, b2, b1, b0] => some (chk, .resolve (identityOf b5 b4 b3 b2 b1 b0))
      | _ => none
    else if kind = 4 then
      match ops with
      | [c, st] => some (chk, .find c st)
      | _ => none
    else if kind = 5 then
      match ops with
      | [g, st] => some (chk, .members g st)
      | _ => none
    else if kind = 6 then
      match ops with
      | _ :: entries => some (chk, .caps (capsOf entries))
      | [] => none
    else none
  | _ => none

/-- Kind 11H (Table 13-2). -/
def readIdle? (body : List Byte) : Option NodeReply :=
  match readFrame? 0x11 1 body with
  | some [c] => some (.idle c)
  | _ => none

/-- Kind 12H (Table 13-2, R193). -/
def readRequest? (body : List Byte) : Option NodeReply :=
  match requestLength? body with
  | none => none
  | some n =>
    match readFrame? 0x12 n body with
    | none => none
    | some content => (requestOf? content).map fun (c, r) => .request c r

/-- Kinds 13H, 14H and 15H carry nothing but their check (Table 13-2). -/
def readBare? (kind : Byte) (reply : NodeReply) (body : List Byte) : Option NodeReply :=
  (readFrame? kind 0 body).map fun _ => reply

/-- The capability entries of a JOIN body that is complete, holds 0..6 entries and has a correct check, taken over
the six arbitration bytes followed by the body (R103, R191, R193). -/
def readJoinBody? (id : Identity) (body : List Byte) : Option (List CapEntry) :=
  match body with
  | [] => none
  | n :: _ =>
    let len := 1 + 2 * n.toNat
    if n.toNat ≤ 6 ∧ len + 2 ≤ body.length
        ∧ (body.drop len).take 2 = checkBytes (identityBytes id ++ body.take len)
    then some (capsOf ((body.take len).drop 1))
    else none

/-! ### Response frames (R194) -/

/-- A response frame: a length byte that counts the whole frame, the command tag, the status, the payload and the
check (R194). -/
def Response.frame (r : Response) : List Byte :=
  withCheck ([byteOf (r.payload.length + 5), r.tag, r.status.code] ++ r.payload)

/-- The command frame in the bytes of a WRITE COMMAND exchange, by tests 1 and 2 of R162: the length field lies in
5..48, the exchange ended exactly at that length, and the check is correct. -/
def readCommandFrame? (bytes : List Byte) (extraBits : Nat) : Option CmdFrame :=
  match bytes with
  | len :: code :: tag :: rest =>
    if 5 ≤ len.toNat ∧ len.toNat ≤ 48 ∧ bytes.length = len.toNat ∧ extraBits = 0
        ∧ bytes.drop (bytes.length - 2) = checkBytes (bytes.take (bytes.length - 2))
    then some { code := code, tag := tag, operands := rest.take (rest.length - 2) }
    else none
  | _ => none

end Sys2Proof.Machine
end

