-- ==== Sys2Proof/Machine/Flags.lean ====
section
/-! DEFINITION. Flags, masks and counters: alarm flags, change aspects, saturating counters, line counters, the
levels of the output pins and the status byte. -/

namespace Sys2Proof.Machine

/-! ### Saturating counters (R18, R69) -/

/-- One more, stopping at the given maximum. -/
def satInc (max n : Nat) : Nat := if n < max then n + 1 else max

/-- One more, stopping at 65535 (R18, R69). -/
def satInc16 (n : Nat) : Nat := satInc 65535 n

/-- The line counters, in the order LINE STATUS reports them (R69, R107, Table 6-3, Table 7-2). -/
inductive Ctr where
  | silences | checkErrors | repetitions | holdOffs | holdOffFailures | strangers | collisions | faults
  | polls | unsolicitedRequests | ordersExhausted | discardedResults | calls | callsSkipped | noBidCalls
  | joinsWon | garbledCalls | invalidBids | clashesExcluded | clashesNotExcluded
  | refusedNotReserved | refusedFull | refusedNoStation | refusedWrongLine | refusedDuplicate
  | refusedRetiring | invalidCaps | duplicateCaps
  | requestsTaken | requestsDiscarded | staleAnswers | answersDeclined
  deriving DecidableEq, Repr

/-- The place of a counter in LINE STATUS. -/
def Ctr.idx : Ctr → Fin 32
  | .silences => 0 | .checkErrors => 1 | .repetitions => 2 | .holdOffs => 3 | .holdOffFailures => 4
  | .strangers => 5 | .collisions => 6 | .faults => 7 | .polls => 8 | .unsolicitedRequests => 9
  | .ordersExhausted => 10 | .discardedResults => 11 | .calls => 12 | .callsSkipped => 13
  | .noBidCalls => 14 | .joinsWon => 15 | .garbledCalls => 16 | .invalidBids => 17
  | .clashesExcluded => 18 | .clashesNotExcluded => 19 | .refusedNotReserved => 20 | .refusedFull => 21
  | .refusedNoStation => 22 | .refusedWrongLine => 23 | .refusedDuplicate => 24 | .refusedRetiring => 25
  | .invalidCaps => 26 | .duplicateCaps => 27 | .requestsTaken => 28 | .requestsDiscarded => 29
  | .staleAnswers => 30 | .answersDeclined => 31

/-- The counter of a refusal reason (R116, Table 6-3). -/
def RefusalReason.ctr : RefusalReason → Ctr
  | .notReserved => .refusedNotReserved
  | .full => .refusedFull
  | .noStation => .refusedNoStation
  | .wrongLine => .refusedWrongLine
  | .duplicate => .refusedDuplicate
  | .retiring => .refusedRetiring

/-- The value of a line counter. -/
def LineEngine.counter (e : LineEngine) (c : Ctr) : Nat := e.counters.get c.idx

/-- A line counter rises by 1, saturating at 65535 (R69). -/
def LineEngine.bump (c : Ctr) (e : LineEngine) : LineEngine :=
  { e with counters := e.counters.set c.idx.val (satInc16 (e.counter c)) c.idx.isLt }

/-- A line counter rises by 1 the given number of times (R117). -/
def LineEngine.bumpBy (c : Ctr) : Nat → LineEngine → LineEngine
  | 0, e => e
  | n + 1, e => (e.bump c).bumpBy c n

/-! ### Alarm flags (R166) -/

/-- Table 10-1. -/
inductive Alarm where
  | lineFault (l : Line)
  | clash (l : Line)
  | refusedFull
  | noStation (l : Line)
  | frameError
  | slotsExhausted
  deriving DecidableEq, Repr

/-- The bit of an alarm flag in a flags field (Chapter 13, 13.3). -/
def Alarm.bit : Alarm → AlarmSet
  | .lineFault .A => 0x001
  | .lineFault .B => 0x002
  | .clash .A => 0x004
  | .clash .B => 0x008
  | .refusedFull => 0x010
  | .noStation .A => 0x020
  | .noStation .B => 0x040
  | .frameError => 0x080
  | .slotsExhausted => 0x100

/-- The two bytes of a flags or enables field (13.3). -/
def AlarmSet.bytes (a : AlarmSet) : List Byte := be16 a.toNat

/-- The flags field in two bytes, or none where one of bits 9..15 is set (R195). -/
def alarmSetOf? (n : Nat) : Option AlarmSet := if n < 512 then some (BitVec.ofNat 9 n) else none

/-- An alarm flag is set, whether or not it was set (R166). -/
def HostPort.setAlarm (a : Alarm) (p : HostPort) : HostPort := { p with flags := p.flags ||| a.bit }

/-! ### Change aspects (R46, Table 13-7) -/

def ChangeMask.state : ChangeMask := 0x01
def ChangeMask.station : ChangeMask := 0x02
def ChangeMask.caps : ChangeMask := 0x04
def ChangeMask.outcome : ChangeMask := 0x08
def ChangeMask.freed : ChangeMask := 0x10
def ChangeMask.superseded : ChangeMask := 0x20

/-- The byte of a change mask (Table 13-7). -/
def ChangeMask.byte (m : ChangeMask) : Byte := m.setWidth 8

/-! ### Output pins -/

/-- ATN is driven LOW while an alarm flag is set whose enable is on, or the change set is not empty and the change
attention enable is on (R168); it is released while RST is asserted. -/
def State.atnDriven (s : State) : Bool :=
  !s.rst && ((s.host.flags &&& s.cfg.enables) != 0 || (s.host.changesWaiting && s.cfg.changeAttention))

/-- The clock lead of a line toggles from the first bit of a head frame to the end of the transaction; it rests LOW
otherwise, while a frame waits at its stuck-line check too (R67, R77). -/
def LineEngine.clockRuns (e : LineEngine) : Bool :=
  match e.tx with
  | some t => t.phase != .check
  | none => false

/-- The head drives its own bits onto the data lead while it sends a head frame and releases the lead otherwise
(R67). -/
def LineEngine.headDrives (e : LineEngine) : Bool :=
  match e.tx with
  | some t => t.phase == .sending
  | none => false

/-! ### The status byte (R161, Table 13-4) -/

def ExchangeError.code : ExchangeError → BitVec 2
  | .none => 0
  | .frame => 1
  | .slots => 2

/-- The number of EMPTY command slots (R161). -/
def HostPort.freeSlots (p : HostPort) : Nat := p.slots.toList.countP (fun x => x = .empty)

/-- Whether the slot is ANSWERED (R163). -/
def CmdSlot.isAnswered : CmdSlot → Bool
  | .answered _ => true
  | _ => false

/-- The status byte (Table 13-4): bit 7 is 0; bits 6..5 the last exchange error; bit 4 ATN driven; bit 3 response
ready; bits 2..0 the free slots. -/
def State.statusByte (s : State) : Byte :=
  (0#1 ++ s.host.lastError.code ++ BitVec.ofBool s.atnDriven
    ++ BitVec.ofBool (s.host.slots.toList.any CmdSlot.isAnswered) ++ BitVec.ofNat 3 s.host.freeSlots)

end Sys2Proof.Machine
end

