-- ==== Sys2Proof/Machine/Operands.lean ====
section
/-! DEFINITION. The operands of host commands (Table 13-5, R195): the length each code needs, and every operand
form. -/

namespace Sys2Proof.Machine

/-- A reference as the frame carries it: form 00H an identity, form 01H a handle and a generation, any other form an
operand fault (R10, R11, R195). -/
inductive RefOperand where
  | identity (id : Identity)
  | handle (h : Handle) (g : Gen)
  | badForm
  deriving DecidableEq, Repr

/-- What LOOKUP names: a reference, or form 02H, a line and a station (R178). -/
inductive LookupOperand where
  | ref (r : RefOperand)
  | station (line st : Byte)
  deriving DecidableEq, Repr

/-- A host command with its operand fields, of the right length; the values are not yet checked (R164, R195). -/
inductive HostCmd where
  | reserve (id : Identity) (line st : Byte) (lease : Nat)
  | pin (r : RefOperand)
  | unpin (r : RefOperand)
  | retire (r : RefOperand) (option : Byte)
  | reassign (r : RefOperand) (target : Byte)
  | purge (r : RefOperand)
  | lookup (r : LookupOperand)
  | find (cls line st : Byte)
  | setLease (r : RefOperand) (lease : Nat) (option : Byte)
  | setGroups (r : RefOperand) (groups : BitVec 16)
  | setGroupLimit (group limit : Byte)
  | setTag (r : RefOperand) (bytes : List Byte)
  | nextChange
  | ackChange (h : Handle) (g : Gen)
  | readAlarms
  | ackAlarms (flags : Nat)
  | lineStart (line option : Byte)
  | lineStop (line : Byte)
  | linePause (line : Byte)
  | lineResume (line : Byte)
  | setCallPolicy (line policy : Byte)
  | clearExclusion (line form : Byte) (id : Identity)
  | lineStatus (line : Byte)
  | clearCounters (line : Byte)
  | configure (items : List (Byte × Nat))
  | status
  | resetDevice
  deriving DecidableEq, Repr

/-- The seven bytes of a reference (13.3). The padding of a reference by handle is not examined (R195). -/
def refOf (form b5 b4 b3 b2 b1 b0 : Byte) : RefOperand :=
  if form = 0 then .identity (identityOf b5 b4 b3 b2 b1 b0)
  else if form = 1 then .handle (handleOf b5) b4
  else .badForm

/-- A reference of seven bytes and the operands after it. -/
def splitRef? : List Byte → Option (RefOperand × List Byte)
  | f :: b5 :: b4 :: b3 :: b2 :: b1 :: b0 :: rest => some (refOf f b5 b4 b3 b2 b1 b0, rest)
  | _ => none

/-- A command whose operands are one reference. -/
def parseRef? (mk : RefOperand → HostCmd) (ops : List Byte) : Option HostCmd :=
  match splitRef? ops with
  | some (r, []) => some (mk r)
  | _ => none

/-- A command whose operand is one line byte. -/
def parseLine? (mk : Byte → HostCmd) : List Byte → Option HostCmd
  | [l] => some (mk l)
  | _ => none

/-- A command without operands. -/
def parseNone? (c : HostCmd) : List Byte → Option HostCmd
  | [] => some c
  | _ => none

/-- The items of CONFIGURE, three bytes each: an item code and a value (Table 13-5). -/
def parseItems? : List Byte → Option (List (Byte × Nat))
  | [] => some []
  | c :: hi :: lo :: rest => (parseItems? rest).map fun is => (c, u16 hi lo) :: is
  | _ => none

def parseReserve? : List Byte → Option HostCmd
  | [b5, b4, b3, b2, b1, b0, l, st, hi, lo] =>
    some (.reserve (identityOf b5 b4 b3 b2 b1 b0) l st (u16 hi lo))
  | _ => none

def parseRetire? (ops : List Byte) : Option HostCmd :=
  match splitRef? ops with
  | some (r, [o]) => some (.retire r o)
  | _ => none

def parseReassign? (ops : List Byte) : Option HostCmd :=
  match splitRef? ops with
  | some (r, [t]) => some (.reassign r t)
  | _ => none

/-- A reference, or form 02H with a line, a station and four bytes that are not examined (Table 13-5, R195). -/
def parseLookup? : List Byte → Option HostCmd
  | [f, b5, b4, b3, b2, b1, b0] =>
    if f = 2 then some (.lookup (.station b5 b4)) else some (.lookup (.ref (refOf f b5 b4 b3 b2 b1 b0)))
  | _ => none

def parseFind? : List Byte → Option HostCmd
  | [c, l, st] => some (.find c l st)
  | _ => none

def parseSetLease? (ops : List Byte) : Option HostCmd :=
  match splitRef? ops with
  | some (r, [hi, lo, o]) => some (.setLease r (u16 hi lo) o)
  | _ => none

def parseSetGroups? (ops : List Byte) : Option HostCmd :=
  match splitRef? ops with
  | some (r, [hi, lo]) => some (.setGroups r (hi ++ lo))
  | _ => none

def parseSetGroupLimit? : List Byte → Option HostCmd
  | [g, n] => some (.setGroupLimit g n)
  | _ => none

/-- The expected length is the reference plus one byte plus the tag length (R195). -/
def parseSetTag? (ops : List Byte) : Option HostCmd :=
  match splitRef? ops with
  | some (r, n :: bytes) => if bytes.length = n.toNat then some (.setTag r bytes) else none
  | _ => none

def parseAckChange? : List Byte → Option HostCmd
  | [h, g] => some (.ackChange (handleOf h) g)
  | _ => none

def parseAckAlarms? : List Byte → Option HostCmd
  | [hi, lo] => some (.ackAlarms (u16 hi lo))
  | _ => none

def parseLineStart? : List Byte → Option HostCmd
  | [l, o] => some (.lineStart l o)
  | _ => none

def parseSetCallPolicy? : List Byte → Option HostCmd
  | [l, p] => some (.setCallPolicy l p)
  | _ => none

def parseClearExclusion? : List Byte → Option HostCmd
  | [l, f, b5, b4, b3, b2, b1, b0] => some (.clearExclusion l f (identityOf b5 b4 b3 b2 b1 b0))
  | _ => none

/-- The command of a frame, by Table 13-5; none for an unknown code or an operand length that is not the code's
(R164, R195). -/
def parseCommand? (f : CmdFrame) : Option HostCmd :=
  match f.code.toNat with
  | 0x01 => parseReserve? f.operands
  | 0x02 => parseRef? .pin f.operands
  | 0x03 => parseRef? .unpin f.operands
  | 0x04 => parseRetire? f.operands
  | 0x05 => parseReassign? f.operands
  | 0x06 => parseRef? .purge f.operands
  | 0x07 => parseLookup? f.operands
  | 0x08 => parseFind? f.operands
  | 0x09 => parseSetLease? f.operands
  | 0x0A => parseSetGroups? f.operands
  | 0x0B => parseSetGroupLimit? f.operands
  | 0x0C => parseSetTag? f.operands
  | 0x0D => parseNone? .nextChange f.operands
  | 0x0E => parseAckChange? f.operands
  | 0x0F => parseNone? .readAlarms f.operands
  | 0x10 => parseAckAlarms? f.operands
  | 0x11 => parseLineStart? f.operands
  | 0x12 => parseLine? .lineStop f.operands
  | 0x13 => parseLine? .linePause f.operands
  | 0x14 => parseLine? .lineResume f.operands
  | 0x15 => parseSetCallPolicy? f.operands
  | 0x16 => parseClearExclusion? f.operands
  | 0x17 => parseLine? .lineStatus f.operands
  | 0x18 => parseLine? .clearCounters f.operands
  | 0x19 => (parseItems? f.operands).map .configure
  | 0x1A => parseNone? .status f.operands
  | 0x1B => parseNone? .resetDevice f.operands
  | _ => none

/-- The commands the host port carries out itself: READ ALARMS, ACK ALARMS, and a CONFIGURE that carries no miss limit
item, code 04H (R164). -/
def HostCmd.isLocal : HostCmd → Bool
  | .readAlarms => true
  | .ackAlarms _ => true
  | .configure items => !items.any (fun i => i.1 == 0x04)
  | _ => false

end Sys2Proof.Machine
end

