-- ==== Sys2Proof/Machine/Ops.lean ====
section
/-! DEFINITION. The named operations over the state: access to its parts, the claim arbiter, the order queue, lookup
and placement, the station maps and quarantine lists, marking, freeing and the return to RESERVED. Every meaning
goes through these. -/

namespace Sys2Proof.Machine

/-! ### Access -/

def PerLine.get {α : Type} (p : PerLine α) : Line → α
  | .A => p.a
  | .B => p.b

def PerLine.set {α : Type} (p : PerLine α) (l : Line) (x : α) : PerLine α :=
  match l with
  | .A => { p with a := x }
  | .B => { p with b := x }

/-- The other line. -/
def otherLine : Line → Line
  | .A => .B
  | .B => .A

def State.line (s : State) (l : Line) : LineEngine := s.lines.get l

def State.setLine (s : State) (l : Line) (e : LineEngine) : State := { s with lines := s.lines.set l e }

/-- A change of one line engine. -/
def State.modLine (s : State) (l : Line) (f : LineEngine → LineEngine) : State := s.setLine l (f (s.line l))

def State.slot (s : State) (h : Handle) : Slot := s.dir.slots.get h

def State.setSlot (s : State) (h : Handle) (x : Slot) : State :=
  { s with dir := { s.dir with slots := s.dir.slots.set h.val x h.isLt } }

/-- The record in a slot, if it holds one. -/
def State.record? (s : State) (h : Handle) : Option Record := (s.slot h).content

/-- The record of a slot becomes the given one; the rest of the slot stays. -/
def State.setRecord (s : State) (h : Handle) (r : Record) : State :=
  s.setSlot h { s.slot h with content := some r }

/-- A change of the record in a slot; a FREE slot stays as it is. -/
def State.modRecord (s : State) (h : Handle) (f : Record → Record) : State :=
  match s.record? h with
  | some r => s.setRecord h (f r)
  | none => s

/-- The name of the record that stands in a slot: its handle with the slot's generation (R8). -/
def State.refOf (s : State) (h : Handle) : Ref := { handle := h, gen := (s.slot h).gen }

/-- The record a handle and generation name: the slot holds a record and its generation is the same (R11). -/
def State.current? (s : State) (ref : Ref) : Option Record :=
  if (s.slot ref.handle).gen = ref.gen then s.record? ref.handle else none

def State.mapAt (s : State) (l : Line) (st : Station) : MapEntry := (s.dir.maps.get l).get st

def State.setMap (s : State) (l : Line) (st : Station) (e : MapEntry) : State :=
  { s with dir := { s.dir with maps := s.dir.maps.set l ((s.dir.maps.get l).set st.val e st.isLt) } }

def State.quarOf (s : State) (l : Line) : List QuarEntry := s.dir.quar.get l

def State.setQuar (s : State) (l : Line) (q : List QuarEntry) : State :=
  { s with dir := { s.dir with quar := s.dir.quar.set l q } }

def State.modHost (s : State) (f : HostPort → HostPort) : State := { s with host := f s.host }

/-- The directory engine or a line engine reaches into the host port and sets an alarm flag (R166). -/
def State.raiseAlarm (s : State) (a : Alarm) : State := s.modHost (HostPort.setAlarm a)

/-- A line counter of a line rises by 1 (R69). -/
def State.bump (s : State) (l : Line) (c : Ctr) : State := s.modLine l (LineEngine.bump c)

/-- Every handle in ascending order. -/
def allHandles : List Handle := List.finRange 256

/-- Every station in ascending order. -/
def allStations : List Station := List.finRange 126

/-! ### The claim arbiter (R19 to R22) -/

/-- Whether a slot is ACTIVE (R163). -/
def CmdSlot.isActive : CmdSlot → Bool
  | .active _ _ => true
  | _ => false

/-- The ACTIVE slot and its command (R163: at most one). -/
def HostPort.activeSlot? (p : HostPort) : Option (Fin 4 × CmdFrame) :=
  (List.finRange 4).findSome? fun i =>
    match p.slots.get i with
    | .active f _ => some (i, f)
    | _ => none

/-- Whether a slot's command was begun while stop due of the line was set (R164, R180). -/
def CmdSlot.begunStopDue (l : Line) : CmdSlot → Bool
  | .active _ stopsDue => stopsDue.get l
  | _ => false

/-- Whether the command in the ACTIVE slot was begun while stop due of the line was set (R163, R164, R180). -/
def HostPort.begunStopDue (l : Line) (p : HostPort) : Bool :=
  (List.finRange 4).any fun i => (p.slots.get i).begunStopDue l

/-- Stop due of both lines as it stands (R78). -/
def State.stopsDue (s : State) : PerLine Bool := ⟨s.lines.a.stopDue, s.lines.b.stopDue⟩

/-- Whether a requester has a claim outstanding (R19). The host port's claim is the command in its ACTIVE slot
(R164). -/
def State.outstanding (s : State) : Requester → Bool
  | .host => s.host.activeSlot?.isSome
  | .line l => (s.line l).claim.isSome
  | .clock => s.clock.claim

/-- The requesters in cyclic order after the given one (R20). -/
def Requester.cycleAfter : Requester → List Requester
  | .host => [.line .A, .line .B, .clock, .host]
  | .line .A => [.line .B, .clock, .host, .line .A]
  | .line .B => [.clock, .host, .line .A, .line .B]
  | .clock => [.host, .line .A, .line .B, .clock]

/-- When no claim is being carried out, the first requester after the rotation position that has a claim outstanding
is granted and becomes the rotation position (R20). The claim's reads see the configuration store as it stands
now (R169). -/
def State.grant (s : State) : State :=
  match s.arb.engine with
  | some _ => s
  | none =>
    match s.arb.rotation.cycleAfter.find? s.outstanding with
    | some r => { s with arb := { engine := some r, rotation := r, grantCfg := s.cfg } }
    | none => s

/-- The directory engine is no longer carrying out a claim (R22). -/
def State.engineIdle (s : State) : State := { s with arb := { s.arb with engine := none } }

/-- The claim of a line engine that is being carried out, with its line (R21). -/
def State.lineClaim? (s : State) : Option (Line × LineClaim) :=
  match s.arb.engine with
  | some (.line l) => (s.line l).claim.map fun c => (l, c)
  | _ => none

/-- The host command that is being carried out as the host port's claim (R164). -/
def State.hostClaim? (s : State) : Option HostCmd :=
  match s.arb.engine with
  | some .host =>
    match s.host.activeSlot? with
    | some (_, f) => parseCommand? f
    | none => none
  | _ => none

/-! ### What a line engine owes (R84, R85, R93) -/

/-- Whether FLUSH frames of the line start remain to be sent (R85). -/
def StartStage.flushRemains : StartStage → Bool
  | .flushing _ => true
  | _ => false

/-- A line engine with no claim outstanding raises what it owes: first a waiting result (R93), then the line claim
of a stop (R84), then the flush claim (R85). -/
def LineEngine.raiseOwed (e : LineEngine) : LineEngine :=
  match e.claim with
  | some _ => e
  | none =>
    match e.waiting with
    | some c => { e with claim := some c, waiting := none }
    | none =>
      if e.stopDue then { e with claim := some .line }
      else if e.flushDue && !e.stage.flushRemains then { e with claim := some .flush }
      else e

/-- A line engine raises what it owes, and the arbiter grants (R20, R84, R85, R93). -/
def State.raiseOwed (s : State) (l : Line) : State := (s.modLine l LineEngine.raiseOwed).grant

/-- A transaction result becomes a claim: raised at once if the line engine has no claim outstanding, else it waits
(R93). -/
def State.handOver (s : State) (l : Line) (c : LineClaim) : State :=
  (s.modLine l fun e =>
    match e.claim with
    | none => { e with claim := some c }
    | some _ => { e with waiting := some c }).grant

/-- A claim of a line engine stops being outstanding, the line engine raises what it owes next, and the arbiter makes the
next grant (R22, R93). -/
def State.endClaim (s : State) (l : Line) : State :=
  (s.engineIdle.modLine l fun e => { e with claim := none }).raiseOwed l

/-! ### Host responses (R164) -/

/-- A status with a payload: what a command completes with (R174). -/
structure Reply where
  status : Status
  payload : List Byte
  deriving DecidableEq, Repr

/-- A reply without payload. -/
def Reply.bare (st : Status) : Reply := { status := st, payload := [] }

/-- The response of a command is written into its slot, which becomes ANSWERED (R164). -/
def State.answerSlot (s : State) (i : Fin 4) (tag : Byte) (r : Reply) : State :=
  s.modHost fun p =>
    { p with slots := p.slots.set i.val (.answered ⟨tag, r.status, r.payload⟩) i.isLt }

/-- The host port's claim completes: its response is written and the arbiter makes the next grant (R22, R164). -/
def State.completeHost (x : State × Reply) : State :=
  match x.1.host.activeSlot? with
  | some (i, f) => ((x.1.answerSlot i f.tag x.2).engineIdle).grant
  | none => x.1.engineIdle.grant

/-! ### The order queue (R88 to R91) -/

def OrderPayload.kind : OrderPayload → OrderKind
  | .assign .. => .assign
  | .reassign .. => .reassign
  | .release => .release
  | .answer .. => .answer
  | .refuse .. => .refuse

def Order.kind (o : Order) : OrderKind := o.payload.kind

/-- A new order: attempts 0, phase SEND, transmitted no, deferred no, progress WAITING (R88). -/
def Order.fresh (ref : Option Ref) (dest : Dest) (payload : OrderPayload) (retryLimit : Nat)
    (terminal : Bool) : Order :=
  { ref := ref
    dest := dest
    payload := payload
    retryLimit := retryLimit
    attempts := 0
    phase := .send
    transmitted := false
    deferred := false
    terminal := terminal
    progress := .waiting
    withdrawn := false
    onSecond := false
    targetMissed := false
    chosen := false }

/-- The free entries: 8 less the orders, less the reservations (R89). -/
def LineEngine.freeCount (e : LineEngine) : Nat := 8 - e.orders.length - e.reservations.length

/-- A reservation is made when the free count is above 0 (R89). -/
def LineEngine.reserve (x : Reservation) (e : LineEngine) : LineEngine :=
  if 0 < e.freeCount then { e with reservations := e.reservations ++ [x] } else e

/-- One reservation of the given attribution is released; one already released is not released again (R30, R90). -/
def LineEngine.release (x : Reservation) (e : LineEngine) : LineEngine :=
  { e with reservations := e.reservations.erase x }

/-- Every reservation attributed to a solicited poll of the record is released (R30). -/
def LineEngine.releasePolls (ref : Ref) (e : LineEngine) : LineEngine :=
  { e with reservations := e.reservations.filter fun x => x != .poll ref }

/-- An order is appended at the tail of the queue. An order is placed only where an entry is free (R89, R90): the
reservation it fills has just been removed, or the free count has just been tested. -/
def LineEngine.place (o : Order) (e : LineEngine) : LineEngine :=
  if 0 < e.freeCount then { e with orders := e.orders ++ [o] } else e

/-- An order fills a reservation: the reservation is removed and the order is appended (R90). -/
def LineEngine.fill (x : Reservation) (o : Order) (e : LineEngine) : LineEngine := (e.release x).place o

/-- Whether an order is the live order of the given kind for the given record (R90, R91: an order marked withdrawn is
no longer any record's order). -/
def Order.isLive (k : OrderKind) (ref : Ref) (o : Order) : Bool :=
  o.kind == k && o.ref == some ref && !o.withdrawn

/-- The withdrawal of an order by its kind and its record reference (R91): WAITING and CONCLUDING orders are removed
at once, a SENDING order is marked withdrawn. -/
def LineEngine.withdraw (k : OrderKind) (ref : Ref) (e : LineEngine) : LineEngine :=
  { e with orders := e.orders.filterMap fun o =>
      if o.isLive k ref then
        (if o.progress = .sending then some { o with withdrawn := true } else none)
      else some o }

/-- The live order of the given kind for the given record (R100, R31). -/
def LineEngine.liveOrder? (e : LineEngine) (k : OrderKind) (ref : Ref) : Option Order :=
  e.orders.find? (Order.isLive k ref)

/-- The order an outcome claim names: live and CONCLUDING (R100). -/
def Order.isConcluding (k : OrderKind) (ref : Ref) (o : Order) : Bool :=
  o.isLive k ref && o.progress == .concluding

/-- The order an outcome claim names is removed (R100). -/
def LineEngine.removeConcluded (k : OrderKind) (ref : Ref) (e : LineEngine) : LineEngine :=
  { e with orders := e.orders.eraseP (Order.isConcluding k ref) }

/-! ### The set index, lookup and placement (R2 to R7) -/

/-- The exclusive-OR of the eight pieces of 6 bits (R2). -/
def setIndex (id : Identity) : BitVec 6 :=
  id.extractLsb' 42 6 ^^^ id.extractLsb' 36 6 ^^^ id.extractLsb' 30 6 ^^^ id.extractLsb' 24 6
    ^^^ id.extractLsb' 18 6 ^^^ id.extractLsb' 12 6 ^^^ id.extractLsb' 6 6 ^^^ id.extractLsb' 0 6

/-- The slot in set s and way w has the handle s × 4 + w (R1). -/
def handleAt (set : BitVec 6) (way : Fin 4) : Handle :=
  ⟨set.toNat * 4 + way.val, by have := set.isLt; have := way.isLt; omega⟩

/-- The four handles of a set, lowest way first (R1). -/
def waysOf (set : BitVec 6) : List Handle :=
  [handleAt set 0, handleAt set 1, handleAt set 2, handleAt set 3]

/-- Whether a slot holds the record of an identity (R4). -/
def Slot.holds (id : Identity) (x : Slot) : Bool :=
  match x.content with
  | some r => r.identity == id
  | none => false

/-- Lookup by identity: the one way of its set that holds its record (R4). -/
def State.lookup? (s : State) (id : Identity) : Option Handle :=
  (waysOf (setIndex id)).find? fun h => (s.slot h).holds id

/-- The way a placement takes: the lowest FREE way with an empty mask, else the lowest FREE way, else none: the set is
full (R5, R6). -/
def State.freeWay? (s : State) (id : Identity) : Option Handle :=
  match (waysOf (setIndex id)).find? fun h => (s.slot h).content.isNone && (s.slot h).mask == 0 with
  | some h => some h
  | none => (waysOf (setIndex id)).find? fun h => (s.slot h).content.isNone

/-- Placement into a slot (R7, R186, R189): the record takes the slot's generation as it stands; the last identity and
the kept outcome become absent; a pending notice becomes SUPERSEDED alone and keeps its place. -/
def State.placeRecord (s : State) (h : Handle) (r : Record) : State :=
  s.setSlot h
    { content := some r
      gen := (s.slot h).gen
      lastIdentity := none
      keptOutcome := none
      mask := if (s.slot h).mask = 0 then 0 else ChangeMask.superseded }

/-- The lowest-numbered station whose entry on the line's map is FREE (R14). -/
def State.freeStation? (s : State) (l : Line) : Option Station :=
  allStations.find? fun st => s.mapAt l st == .free

/-- A line and a station resolve to a record: a HELD entry, or a TARGET entry (R16). The Boolean says whether the role
is target. -/
def State.resolveStation? (s : State) (l : Line) (st : Station) : Option (Handle × Bool) :=
  match s.mapAt l st with
  | .held h => some (h, false)
  | .target h => some (h, true)
  | .free => none
  | .quarantined => none

/-! ### The change set (R45, R185) -/

/-- Aspects are added to a slot's change mask; a mask that was empty appends the handle at the tail of the change set
and the changes-waiting indication is set (R185). -/
def State.mark (s : State) (h : Handle) (a : ChangeMask) : State :=
  let x := s.slot h
  let s1 := s.setSlot h { x with mask := x.mask ||| a }
  if x.mask = 0 ∧ a ≠ 0 then
    { s1 with
      dir := { s1.dir with changeSet := s1.dir.changeSet ++ [h] }
      host := { s1.host with changesWaiting := true } }
  else s1

/-! ### Quarantine (R60) -/

/-- A station enters quarantine: an entry with the configured hold is appended at the tail of the line's list, and the
map entry becomes QUARANTINED (R60). -/
def State.quarantine (s : State) (l : Line) (st : Station) (ref : Option Ref) : State :=
  (s.setQuar l (s.quarOf l ++ [{ station := st, hold := s.arb.grantCfg.quarHold, ref := ref }])).setMap l st
    .quarantined

/-- The quarantine entry that references the record loses its reference, and keeps its station, its place and its hold
(R63). -/
def State.dropQuarRef (s : State) (l : Line) (ref : Ref) : State :=
  s.setQuar l ((s.quarOf l).map fun q => if q.ref = some ref then { q with ref := none } else q)

/-- The quarantine entry that references the record is removed, wherever it stands (R64). -/
def State.takeQuarEntry (s : State) (l : Line) (ref : Ref) : State :=
  s.setQuar l ((s.quarOf l).eraseP fun q => q.ref == some ref)

/-! ### Requests and moves of a record (R30, R31) -/

/-- The withdrawal of a record's pending request (R30, R135): the ANSWER order is withdrawn where a request is
pending, every reservation of a solicited poll of the record is released, and request pending becomes no. -/
def State.withdrawRequest (s : State) (h : Handle) : State :=
  match s.record? h with
  | none => s
  | some r =>
    let ref := s.refOf h
    let s1 := if r.requestPending then s.modLine r.line (LineEngine.withdraw .answer ref) else s
    (s1.modLine r.line (LineEngine.releasePolls ref)).setRecord h { r with requestPending := false }

/-- Move sent of a MOVING record: the transmitted field of its REASSIGN order (R31). -/
def State.moveSent (s : State) (h : Handle) : Bool :=
  match s.record? h with
  | none => false
  | some r =>
    match (s.line r.line).liveOrder? .reassign (s.refOf h) with
    | some o => o.transmitted
    | none => false

/-- A move is abandoned: the REASSIGN order is withdrawn, and the target becomes QUARANTINED without a reference where
it was sent, FREE where it was not (R31, R55, R113, R126, R146). -/
def State.abandonMove (s : State) (h : Handle) (l : Line) (target : Station) : State :=
  let sent := s.moveSent h
  let s1 := s.modLine l (LineEngine.withdraw .reassign (s.refOf h))
  if sent then s1.quarantine l target none else s1.setMap l target .free

/-- The kind of a record's directed order, by its state (R90). -/
def RecState.directed : RecState → Option OrderKind
  | .joining => some .assign
  | .moving _ => some .reassign
  | .retiring => some .release
  | .reserved => none
  | .bound => none
  | .quiet => none
  | .lapsed => none

/-- A record's directed order, if it still has one in the queue, is withdrawn (R41, R42). -/
def State.withdrawDirected (s : State) (h : Handle) : State :=
  match s.record? h with
  | none => s
  | some r =>
    match r.state.directed with
    | some k => s.modLine r.line (LineEngine.withdraw k (s.refOf h))
    | none => s

/-! ### The return to RESERVED and freeing (R41 to R43) -/

/-- The return of a pinned record to RESERVED, within the claim of its cause (R41); it is marked STATE and OUTCOME
(R45). -/
def State.returnToReserved (s : State) (h : Handle) (o : RecOutcome) : State :=
  (((s.withdrawDirected h).withdrawRequest h).modRecord h fun r =>
    { r with
      state := .reserved
      leaseRemaining := r.leaseLength
      missCount := 0
      outcome := o }).mark h (ChangeMask.state ||| ChangeMask.outcome)

/-- The member counts after a record with the given group set is gone (R42 step 4). -/
def dropMembers (v : Vector GroupEntry 16) (groups : BitVec 16) : Vector GroupEntry 16 :=
  Vector.ofFn fun g : Fin 16 =>
    if groups.getLsbD g.val then { v.get g with count := (v.get g).count - 1 } else v.get g

/-- The slot is emptied: FREE, the generation one more, the last identity the record's; the mask stays; the member
counts of the record's groups fall (R42 steps 4 to 6, R8, R9). -/
def State.emptySlot (s : State) (h : Handle) (r : Record) : State :=
  let s1 := s.setSlot h
    { content := none
      gen := (s.slot h).gen + 1
      lastIdentity := some r.identity
      keptOutcome := none
      mask := (s.slot h).mask }
  { s1 with dir := { s1.dir with groups := dropMembers s1.dir.groups r.groups } }

/-- FREED, with the given further aspects, is added to the mask of an emptied slot, and the slot keeps the record's
outcome (R43, R186). -/
def State.markFreed (s : State) (h : Handle) (o : RecOutcome) (more : ChangeMask) : State :=
  (s.setSlot h { s.slot h with keptOutcome := some o }).mark h (ChangeMask.freed ||| more)

/-- The freeing of a record by a marked change (R42, R43): `more` is OUTCOME where the cause sets one. The cause has
dealt with the record's map entries. -/
def State.freeMarked (s : State) (h : Handle) (more : ChangeMask) : State :=
  match s.record? h with
  | none => s
  | some r => ((((s.withdrawDirected h).withdrawRequest h).emptySlot h r).markFreed h r.outcome more)

/-- The freeing of a record by the direct effect of a host command (R42, R43): FREED is added only to a mask that is
not empty. -/
def State.freeByHost (s : State) (h : Handle) : State :=
  match s.record? h with
  | none => s
  | some r =>
    let s1 := ((s.withdrawDirected h).withdrawRequest h).emptySlot h r
    if (s.slot h).mask = 0 then s1 else s1.markFreed h r.outcome 0

/-- The outcome field of a record is set (R29). -/
def State.setOutcome (s : State) (h : Handle) (o : RecOutcome) : State :=
  s.modRecord h fun r => { r with outcome := o }

/-- A cause that ends a record without keeping it (R41, R42): a pinned record returns to RESERVED and keeps its
station; any other has its station QUARANTINED without a reference and is freed, marked OUTCOME and FREED. -/
def State.endRecord (s : State) (h : Handle) (o : RecOutcome) : State :=
  match s.record? h with
  | none => s
  | some r =>
    if r.pinned then s.returnToReserved h o
    else ((s.setOutcome h o).quarantine r.line r.station none).freeMarked h ChangeMask.outcome

/-! ### Lapse and expiry (R53 to R55, R61, R62) -/

/-- The lapse of a BOUND, QUIET or MOVING record: a move is abandoned first (R55); a pinned record returns to RESERVED
(R54); any other has its station quarantined with a reference to it and becomes LAPSED (R53). STATE is marked with
OUTCOME here, also where the same tick claim frees the record (log 29). -/
def State.lapseRecord (s : State) (h : Handle) : State :=
  match s.record? h with
  | none => s
  | some r =>
    let s1 := match r.state with
      | .moving t => s.abandonMove h r.line t
      | _ => s
    if r.pinned then s1.returnToReserved h .lapsed
    else
      ((((s1.quarantine r.line r.station (some (s1.refOf h))).withdrawRequest h).modRecord h fun r =>
        { r with state := .lapsed, leaseRemaining := 0, outcome := .lapsed }).mark h
          (ChangeMask.state ||| ChangeMask.outcome))

/-- The expiry of a quarantine entry, already removed from its list: the station becomes FREE, and the record it
references is freed with FREED marked (R61, R62); what its lapse marked stays in the mask, STATE too where both fall in
one tick claim (log 29). -/
def State.expireEntry (s : State) (l : Line) (q : QuarEntry) : State :=
  let s1 := s.setMap l q.station .free
  match q.ref with
  | none => s1
  | some ref =>
    match s1.current? ref with
    | some _ => s1.freeMarked ref.handle 0
    | none => s1

/-! ### Capability intake (R117) -/

/-- An entry is valid when its class is 1..254 and its instances count is 1..15 (R152). -/
def CapEntry.valid (e : CapEntry) : Bool := e.cls != 0x00 && e.cls != 0xFF && e.instances != 0

/-- The result of an intake: the entries kept, the number dropped as invalid, and as duplicate classes. -/
structure Intake where
  kept : List CapEntry
  invalid : Nat
  duplicate : Nat
  deriving DecidableEq, Repr

/-- One entry of a list is examined (R117). -/
def Intake.take (i : Intake) (e : CapEntry) : Intake :=
  if !e.valid then { i with invalid := i.invalid + 1 }
  else if i.kept.any (fun k => k.cls == e.cls) then { i with duplicate := i.duplicate + 1 }
  else { i with kept := i.kept ++ [e] }

/-- The intake of a list, entry by entry in the order received (R117). -/
def intake (es : List CapEntry) : Intake := es.foldl Intake.take { kept := [], invalid := 0, duplicate := 0 }

/-- The counters of a line after an intake (R117). -/
def State.countIntake (s : State) (l : Line) (i : Intake) : State :=
  s.modLine l fun e => (e.bumpBy .invalidCaps i.invalid).bumpBy .duplicateCaps i.duplicate

/-- A record that existed takes in a list: the list replaces its own, and CAPS is marked where they differ (R117,
R130, R153). -/
def State.takeCaps (s : State) (l : Line) (h : Handle) (es : List CapEntry) : State :=
  match s.record? h with
  | none => s
  | some r =>
    let i := intake es
    let s1 := (s.countIntake l i).setRecord h { r with caps := i.kept }
    if i.kept = r.caps then s1 else s1.mark h ChangeMask.caps

/-! ### Searches (R154) -/

/-- A record matches class c when its list holds an entry of that class (R154). -/
def Record.matchesClass (c : Byte) (r : Record) : Bool := r.caps.any fun e => e.cls == c

/-- A record matches group g when its group set includes it (R154). -/
def Record.matchesGroup (g : Nat) (r : Record) : Bool := r.groups.getLsbD g

/-- The HELD stations of a line from a station number upward whose records pass a test, with their handles, in
ascending order (R154). -/
def State.search (s : State) (l : Line) (start : Nat) (test : Record → Bool) : List (Station × Handle) :=
  allStations.filterMap fun st =>
    if start ≤ st.val + 1 then
      match s.mapAt l st with
      | .held h =>
        match s.record? h with
        | some r => if test r then some (st, h) else none
        | none => none
      | _ => none
    else none

end Sys2Proof.Machine
end

