-- ==== Sys2Proof/Machine/Clock.lean ====
section
/-! DEFINITION. The lease clock and the tick sweep: TICK_PERIOD_END, LEASE_TICK, LAPSE, QUARANTINE_EXPIRY (Chapter
3), and the passing of time on an empty queue. -/

namespace Sys2Proof.Machine

/-- A tick period ends: the next begins at once, with the tick period held in the store, and its divider runs from
zero (R49, R50); a tick claim is raised, or ticks due rises by 1, stopping at 255, where one is outstanding (R51). -/
def LeaseClock.endPeriod (c : LeaseClock) (cfg : ConfigStore) : LeaseClock :=
  if c.claim then
    { period := cfg.tickPeriod, divider := 0, ticksDue := satInc 255 c.ticksDue, claim := true }
  else { period := cfg.tickPeriod, divider := 0, ticksDue := c.ticksDue, claim := true }

/-- The tick claim completes: with ticks due above 0, ticks due falls by 1 and the next tick claim is raised at once
(R51). -/
def LeaseClock.complete (c : LeaseClock) : LeaseClock :=
  if 0 < c.ticksDue then { c with ticksDue := c.ticksDue - 1, claim := true }
  else { c with claim := false }

/-- The lease clock's claim completes and the arbiter makes the next grant (R22, R51). -/
def State.completeClock (s : State) : State :=
  ({ s.engineIdle with clock := s.clock.complete }).grant

/-- BOUND, MOVING and QUIET are the states whose lease runs (R52). -/
def RecState.leaseRuns : RecState → Bool
  | .bound => true
  | .moving _ => true
  | .quiet => true
  | .reserved => false
  | .joining => false
  | .retiring => false
  | .lapsed => false

/-- RUNNING or PAUSED (R52, R137). -/
def LineState.isUp : LineState → Bool
  | .running => true
  | .paused => true
  | .off => false
  | .starting => false
  | .fault => false

/-- A record ages when its lease runs and its line is RUNNING or PAUSED (R52). -/
def State.ages (s : State) (r : Record) : Bool := r.state.leaseRuns && (s.line r.line).state.isUp

/-- The lease stage at one slot: a record that ages loses one tick, and lapses where that leaves 0 (R52). -/
def State.ageSlot (s : State) (h : Handle) : State :=
  match s.record? h with
  | none => s
  | some r =>
    if s.ages r then
      let s1 := s.setRecord h { r with leaseRemaining := r.leaseRemaining - 1 }
      if r.leaseRemaining - 1 = 0 then s1.lapseRecord h else s1
    else s

/-- The lease stage visits the records in ascending order of handle (R52). -/
def State.leaseStage (s : State) : State := allHandles.foldl State.ageSlot s

/-- An entry's hold after the sweep has visited it (R61). -/
def QuarEntry.age (q : QuarEntry) : QuarEntry := { q with hold := q.hold - 1 }

/-- The quarantine stage on one line: every entry's hold falls by 1, the entries that reach 0 leave the list, which
keeps its order, and expire in list order (R61). -/
def State.quarStageOf (s : State) (l : Line) : State :=
  let aged := (s.quarOf l).map QuarEntry.age
  (aged.filter fun q => q.hold == 0).foldl (fun s q => s.expireEntry l q)
    (s.setQuar l (aged.filter fun q => q.hold != 0))

/-- The quarantine stage: line A's list and then line B's (R61). -/
def State.quarStage (s : State) : State := (s.quarStageOf .A).quarStageOf .B

/-- When the divider reaches the tick period, the period ends and the next one begins at once (R49); the arbiter may
grant the tick claim (R20). -/
def State.endIfReached (s : State) : State :=
  if s.clock.period.ms ≤ s.clock.divider then ({ s with clock := s.clock.endPeriod s.cfg }).grant else s

/-- TICK_PERIOD_END (R49 to R51): what is left of the tick period in progress passes, so that the divider reaches the tick
period (log 1). While RST is asserted the lease clock does not run. -/
def execTickPeriodEnd (s : State) : Host.Outcome State Fault Refusal :=
  .next (if s.rst then s
    else State.endIfReached { s with clock := { s.clock with divider := s.clock.period.ms } })

/-- LEASE_TICK (R52, R61): the granted tick claim is carried out whole, the lease stage and then the quarantine stage,
and completes. -/
def execLeaseTick (s : State) : Host.Outcome State Fault Refusal :=
  .next (if s.arb.engine = some .clock then s.leaseStage.quarStage.completeClock else s)

/-- LAPSE (R53 to R55): the record of a slot, BOUND, QUIET or MOVING with its lease remaining at 0, lapses. The tick
sweep does this to each record it brings to 0 (log 14). -/
def execLapse (h : Handle) (s : State) : Host.Outcome State Fault Refusal :=
  .next (match s.record? h with
    | some r => if r.state.leaseRuns ∧ r.leaseRemaining = 0 then s.lapseRecord h else s
    | none => s)

/-- QUARANTINE_EXPIRY (R61, R62): the quarantine entry of a station, with its hold remaining at 0, is removed and
expires. The tick sweep does this to each entry it brings to 0 (log 14). -/
def execQuarantineExpiry (l : Line) (st : Station) (s : State) : Host.Outcome State Fault Refusal :=
  .next (match (s.quarOf l).find? fun q => q.station == st && q.hold == 0 with
    | some q =>
      (s.setQuar l ((s.quarOf l).eraseP fun q => q.station == st && q.hold == 0)).expireEntry l q
    | none => s)

/-- Time passes while no command waits: the divider of the lease clock advances by one millisecond, and the period ends
when it reaches the tick period, unless RST is asserted (R49, R51; log 1). -/
def State.passTime (s : State) : State :=
  if s.rst then s
  else State.endIfReached { s with clock := { s.clock with divider := s.clock.divider + 1 } }

end Sys2Proof.Machine
end

