-- ==== Sys2Proof/Machine/Frames.lean ====
section
/-! DEFINITION. The transaction in progress: the order that is its work, the stuck-line check, and the beginning of a
frame (Chapters 4 and 5), and the completion of a line engine's claim, with which a FLUSH frame held back begins. -/

namespace Sys2Proof.Machine

/-! ### Orders in a transaction (R88, R92, R97) -/

/-- The first element that passes a test is changed. -/
def updateFirst {α : Type} (p : α → Bool) (f : α → α) : List α → List α
  | [] => []
  | x :: xs => if p x then f x :: xs else x :: updateFirst p f xs

/-- An order the choice of R92 can take: WAITING and not deferred. -/
def Order.sendable (o : Order) : Bool := o.progress == .waiting && !o.deferred

/-- The order of the transaction in progress. -/
def LineEngine.chosen? (e : LineEngine) : Option Order := e.orders.find? fun o => o.chosen

/-- A change of the order of the transaction in progress. -/
def LineEngine.modChosen (f : Order → Order) (e : LineEngine) : LineEngine :=
  { e with orders := e.orders.map fun o => if o.chosen then f o else o }

/-- The order of the transaction in progress is removed from the queue. -/
def LineEngine.removeChosen (e : LineEngine) : LineEngine :=
  { e with orders := e.orders.filter fun o => !o.chosen }

/-- The oldest order that can be taken is taken (R92 step 1). -/
def LineEngine.choose (e : LineEngine) : LineEngine :=
  { e with orders := updateFirst Order.sendable (fun o => { o with chosen := true }) e.orders }

/-- The station an order's next frame goes to: for a probe the target and then the old station (R99), for a pair the
station the order notes (R148). An order addressed by identity goes to no station. -/
def Order.station? (o : Order) : Option Station :=
  match o.dest with
  | .station st =>
    match o.phase, o.payload with
    | .probe, .reassign target => some (if o.targetMissed then st else target)
    | _, _ => some st
  | .pair old second => some (if o.onSecond then second else old)
  | .identity _ => none

/-- The identity an order is addressed to, as its frame carries it. -/
def Order.identity (o : Order) : Identity :=
  match o.dest with
  | .identity id => id
  | _ => 0

/-- The head frame of an order, built as its frame begins (R70, R99, Table 13-1): a probe is an unsolicited POLL. -/
def Order.frame (o : Order) : List Byte :=
  match o.payload, o.station? with
  | .assign st len _, _ => assignFrame o.identity st len
  | .refuse reason backoff, _ => refuseFrame o.identity reason backoff
  | .reassign target, some st => if o.phase = .probe then pollFrame st false else reassignFrame st target
  | .release, some st => releaseFrame st
  | .answer request content, some st => answerFrame st request content
  | _, none => []

/-- An order is sent: SENDING, and transmitted from its first frame on (R97, R31). -/
def Order.sent (o : Order) : Order := { o with progress := .sending, transmitted := true }

/-! ### Frames and transactions (R70, R73, R77) -/

/-- The transaction in progress is abandoned: no outcome is handed over, and no order is in it any longer (R82,
R83). -/
def LineEngine.abandonTx (e : LineEngine) : LineEngine :=
  { e with tx := none, orders := e.orders.map fun o => { o with chosen := false } }

/-- The transaction in progress is over. -/
def LineEngine.endTx (e : LineEngine) : LineEngine := e.abandonTx

/-- A head frame begins: the stuck-line check has found the lead recessive. A repetition carries the same contents and
is counted (R70, R75); a first frame is built now, with the hold-off limit of the store (R70, R74). A poll of a
round becomes the position of the round and is counted (R94, R95); a FLUSH sets flush due (R79); an order is sent
(R97). A transaction whose order was withdrawn before its first frame began sends nothing and is over (R91; log 10). -/
def LineEngine.beginFrame (holdOff : Nat) (e : LineEngine) : LineEngine :=
  match e.tx with
  | none => e
  | some t =>
    if t.repeated then { e with tx := some { t with phase := .sending } }.bump .repetitions
    else
      let begun := fun frame => some { t with phase := .sending, frame := frame, holdOffLimit := holdOff }
      match t.work with
      | .order =>
        match e.chosen? with
        | none => e.endTx
        | some o => { e.modChosen Order.sent with tx := begun o.frame, txSinceRound := true }
      | .poll st _ solicited =>
        { e with tx := begun (pollFrame st solicited), txSinceRound := true, position := st.val + 1 }.bump .polls
      | .call _ => { e with tx := begun (callFrame e.callNumber e.exclusions), txSinceRound := true }
      | .flush => { e with tx := begun flushFrame, txSinceRound := true, flushDue := true }

/-- A transaction, before its first frame has begun. -/
def Tx.fresh (work : TxWork) (idCheck : Byte) : Tx :=
  { work := work
    phase := .check
    frame := []
    idCheck := idCheck
    repeated := false
    held := false
    holdOffLimit := 0 }

/-- The stuck-line check before a frame of the given transaction: with the lead recessive the frame begins at once, with
the lead dominant it waits (R77). -/
def LineEngine.checkLead (holdOff : Nat) (t : Tx) (e : LineEngine) : LineEngine :=
  let e1 := { e with tx := some { t with phase := .check } }
  if e.leadDominant then e1 else e1.beginFrame holdOff

/-- Whether the line engine makes a stuck-line check: of any frame, but in PAUSED of a repetition only (R77, R81; log
11). -/
def LineEngine.checks (e : LineEngine) : Bool :=
  match e.tx with
  | some t => t.phase == .check && (t.repeated || e.state != .paused)
  | none => false

/-- A transaction starts, with its stuck-line check (R73, R77). -/
def State.startTx (s : State) (l : Line) (work : TxWork) (idCheck : Byte) : State :=
  s.modLine l (LineEngine.checkLead s.cfg.holdOff (Tx.fresh work idCheck))

/-! ### FLUSH frames and waiting results (R79, R93) -/

/-- The next FLUSH transaction of a line start begins (R79), unless a transaction result waits to be raised as a claim:
while one waits the line engine begins no new transaction, and the FLUSH is held back (R93; log 26). -/
def State.nextFlush (s : State) (l : Line) : State :=
  if (s.line l).waiting.isSome then s else s.startTx l .flush 0

/-- Whether a waiting result holds back a FLUSH transaction of a line start (R79, R93). -/
def LineEngine.flushHeld (e : LineEngine) : Bool :=
  e.waiting.isSome && e.state == .starting && e.stage.flushRemains && e.tx.isNone

/-- A claim of a line engine completes, and a FLUSH transaction held back by the result that is now raised begins (R22,
R79, R93; log 26). -/
def State.completeLine (s : State) (l : Line) : State :=
  if (s.line l).flushHeld then (s.endClaim l).startTx l .flush 0 else s.endClaim l

end Sys2Proof.Machine
end

