-- ==== Sys2Proof/Machine/Joins.lean ====
section
/-! DEFINITION. JOIN_CLAIM: the policy test, the case table and the refusals (Chapter 6). -/

namespace Sys2Proof.Machine

/-! ### Refusal (R106, R116) -/

/-- What a refusal does beyond the line: FULL counts a failed placement and raises REFUSED_FULL, NO_STATION raises the
line's alarm (R6, R116, Table 6-2). -/
def State.refusalAlso (s : State) (l : Line) : RefusalReason → State
  | .full =>
    ({ s with dir := { s.dir with setFull := satInc16 s.dir.setFull } }).raiseAlarm .refusedFull
  | .noStation => s.raiseAlarm (.noStation l)
  | _ => s

/-- A refused join fills the call's reservation with a REFUSE order and counts the reason (R106, R116). -/
def State.refuseJoin (s : State) (l : Line) (id : Identity) (reason : RefusalReason) : State :=
  let cfg := s.arb.grantCfg
  ((s.modLine l (LineEngine.fill .call
      (Order.fresh none (.identity id) (.refuse reason cfg.backoff) cfg.retryLimit false))).bump l
    reason.ctr).refusalAlso l reason

/-! ### Accepted joins (R111 to R115, R117, R118) -/

/-- An ASSIGN order for the record of a slot fills the call's reservation (R118). -/
def State.placeAssign (s : State) (l : Line) (h : Handle) (kind : JoinKind) : State :=
  match s.record? h with
  | some r =>
    s.modLine l (LineEngine.fill .call
      (Order.fresh (some (s.refOf h)) (.identity r.identity) (.assign r.station r.leaseLength kind)
        s.arb.grantCfg.retryLimit false))
  | none => s

/-- The record of an identity that joins for the first time (R111). -/
def Record.joining (id : Identity) (l : Line) (st : Station) (lease : Nat) (caps : List CapEntry) : Record :=
  { identity := id
    state := .joining
    pinned := false
    line := l
    station := st
    leaseLength := lease
    leaseRemaining := lease
    missCount := 0
    joinCount := 0
    caps := caps
    groups := 0
    tag := none
    outcome := .none
    requestPending := false }

/-- An identity with no record: FULL, NO_STATION, or a new record at the lowest FREE station (R111). -/
def State.joinNew (s : State) (l : Line) (id : Identity) (caps : List CapEntry) : State :=
  match s.freeWay? id with
  | none => s.refuseJoin l id .full
  | some h =>
    match s.freeStation? l with
    | none => s.refuseJoin l id .noStation
    | some st =>
      let i := intake caps
      (((s.countIntake l i).placeRecord h
        (Record.joining id l st s.arb.grantCfg.leaseLength i.kept)).setMap l st (.held h)).placeAssign l h .new

/-- The record of a slot becomes JOINING at its station on the line, its request withdrawn and its list replaced, and an
ASSIGN is placed (R112, R113). -/
def State.rejoin (s : State) (l : Line) (h : Handle) (caps : List CapEntry) (kind : JoinKind) : State :=
  (((s.withdrawRequest h).modRecord h fun r => { r with state := .joining }).takeCaps l h caps).placeAssign l h kind

/-- A LAPSED record takes its station back from quarantine (R64, R112). -/
def State.takeBack (s : State) (l : Line) (h : Handle) (r : Record) : State :=
  (s.takeQuarEntry l (s.refOf h)).setMap l r.station (.held h)

/-- The old station of a record that migrates: QUARANTINED without a reference for a QUIET record, whose request is
withdrawn; the quarantine entry of a LAPSED record loses its reference (R63, R114 step 1). -/
def State.leaveOldLine (s : State) (h : Handle) (r : Record) : State :=
  match r.state with
  | .lapsed => s.dropQuarRef r.line (s.refOf h)
  | _ => (s.withdrawRequest h).quarantine r.line r.station none

/-- A LAPSED or QUIET record of the other line joins on this one: NO_STATION, or migration (R114). -/
def State.migrate (s : State) (l : Line) (h : Handle) (r : Record) (caps : List CapEntry) : State :=
  match s.freeStation? l with
  | none => s.refuseJoin l r.identity .noStation
  | some st =>
    (((((s.leaveOldLine h r).modRecord h fun r => { r with line := l, station := st, state := .joining }).setMap l
      st (.held h)).takeCaps l h caps).placeAssign l h .migrated)

/-- The ASSIGN of a JOINING record whose node has bid again: attempts 0 and the payload refreshed, with its join kind
kept; a CONCLUDING order stays as it stands (R115, R118). -/
def Order.refreshed (r : Record) (o : Order) : Order :=
  match o.payload with
  | .assign _ _ kind =>
    if o.progress = .concluding then o
    else { o with attempts := 0, payload := .assign r.station r.leaseLength kind }
  | _ => o

/-- A winner whose record is JOINING on the line: its ASSIGN is refreshed, its list replaced, the reservation released
(R115). -/
def State.joinAgain (s : State) (l : Line) (h : Handle) (r : Record) (caps : List CapEntry) : State :=
  ((s.modLine l fun e =>
    { e with orders := e.orders.map fun o => if o.isLive .assign (s.refOf h) then o.refreshed r else o }).takeCaps l
      h caps).modLine l (LineEngine.release .call)

/-- The case table for a record found, by its state and its line (R110, Table 6-1). -/
def State.joinFound (s : State) (l : Line) (h : Handle) (r : Record) (caps : List CapEntry) : State :=
  if r.line = l then
    match r.state with
    | .reserved => s.rejoin l h caps .reserved
    | .bound => s.rejoin l h caps .restart
    | .quiet => s.rejoin l h caps .restart
    | .lapsed => (s.takeBack l h r).rejoin l h caps .rebound
    | .moving t => (s.abandonMove h l t).rejoin l h caps .restart
    | .joining => s.joinAgain l h r caps
    | .retiring => s.refuseJoin l r.identity .retiring
  else
    match r.state with
    | .lapsed => s.migrate l h r caps
    | .quiet => s.migrate l h r caps
    | .reserved => s.refuseJoin l r.identity .wrongLine
    | .bound => s.refuseJoin l r.identity .duplicate
    | .moving _ => s.refuseJoin l r.identity .duplicate
    | .joining => s.refuseJoin l r.identity .duplicate
    | .retiring => s.refuseJoin l r.identity .retiring

/-- The record a lookup of the identity finds, with its handle (R4). -/
def State.found? (s : State) (id : Identity) : Option (Handle × Record) :=
  match s.lookup? id with
  | some h => (s.record? h).map fun r => (h, r)
  | none => none

/-- Whether RESERVED_ONLY lets a join proceed on the line: the lookup found a RESERVED record of that line (R109). -/
def reservedHere (l : Line) : Option (Handle × Record) → Bool
  | some (_, r) => r.state == .reserved && r.line == l
  | none => false

/-- A join claim: the lookup, the policy test, the case table (R108 to R110). -/
def State.joinClaim (s : State) (l : Line) (id : Identity) (caps : List CapEntry) (policy : CallPolicy) : State :=
  let found := s.found? id
  if policy = .reservedOnly ∧ reservedHere l found = false then s.refuseJoin l id .notReserved
  else
    match found with
    | some (h, r) => s.joinFound l h r caps
    | none => s.joinNew l id caps

/-- JOIN_CLAIM (R108). -/
def execJoinClaim (s : State) : Host.Outcome State Fault Refusal :=
  .next (match s.lineClaim? with
    | some (l, .join id caps policy) => (s.joinClaim l id caps policy).completeLine l
    | _ => s)

end Sys2Proof.Machine
end

