-- ==== Sys2Proof/Machine/LineCommands.lean ====
section
/-! DEFINITION. The host commands that act on a line: LINE_START, LINE_STOP, LINE_PAUSE, LINE_RESUME,
SET_CALL_POLICY, CLEAR_EXCLUSION, LINE_STATUS, CLEAR_COUNTERS (Chapters 4, 5, 11). -/

namespace Sys2Proof.Machine

/-! ### Line control (R78 to R82, R180) -/

/-- A line command whose line operand is checked first (R174, R180). -/
def State.withLine (s : State) (line : Byte) (act : Line → State × Reply) : State × Reply :=
  match lineOf? line with
  | some l => act l
  | none => (s, .bare .badArgument)

/-- Whether a line owes directory work (R78, R180). -/
def LineEngine.owes (e : LineEngine) : Bool := e.stopDue || e.flushDue

/-- Whether LINE START, LINE PAUSE and LINE RESUME give LINE_BUSY: the line owes directory work as the command is carried
out, or the command was begun before a stop's line claim had been carried out (R78, R180; what the second takes in:
log 35). -/
def State.lineBusy (s : State) (l : Line) : Bool := s.host.begunStopDue l || (s.line l).owes

/-- LINE STOP at the line engine: OFF; a transaction in progress, an idle check and FLUSH frames are abandoned; stop
due is set, except in FAULT, where the stop is a change of state only (R80, R82; log 12). -/
def LineEngine.stop (e : LineEngine) : LineEngine :=
  { e.abandonTx with
    state := .off
    stage := .none
    resting := false
    stopDue := e.stopDue || e.state != .fault }

/-- LINE START at the line engine: a RUNNING or PAUSED line stops first; then STARTING, the rate taken, and the idle
check begun (R79 steps 1 to 3, R68). -/
def LineEngine.start (flush : Bool) (rate : Rate) (e : LineEngine) : LineEngine :=
  let e1 := if e.state.isUp then e.stop else e
  { e1 with
    state := .starting
    rate := rate
    stage := .idleCheck
    startFlush := flush }

/-- LINE START (R79, R180). -/
def State.lineStartCommand (s : State) (line option : Byte) : State × Reply :=
  s.withLine line fun l =>
    if option ≠ 0 ∧ option ≠ 1 then (s, .bare .badArgument)
    else if s.lineBusy l then (s, .bare .lineBusy)
    else if (s.line l).state = .starting then (s, .bare .state)
    else
      ((s.modLine l (LineEngine.start (option == 1) (s.arb.grantCfg.rates.get l))).raiseOwed l, .bare .ok)

/-- Whether a LINE STOP meets owed work: stop due, or flush due in a state other than STARTING (R78). -/
def LineEngine.stopBusy (e : LineEngine) : Bool := e.stopDue || (e.flushDue && e.state != .starting)

/-- Whether LINE STOP gives LINE_BUSY: it meets owed work as it is carried out, or it was begun before a stop's line claim
had been carried out (R78, R180; log 35). -/
def State.lineStopBusy (s : State) (l : Line) : Bool := s.host.begunStopDue l || (s.line l).stopBusy

/-- LINE STOP (R82, R180). -/
def State.lineStopCommand (s : State) (line : Byte) : State × Reply :=
  s.withLine line fun l =>
    if s.lineStopBusy l then (s, .bare .lineBusy)
    else if (s.line l).state = .off then (s, .bare .state)
    else ((s.modLine l LineEngine.stop).raiseOwed l, .bare .ok)

/-- LINE PAUSE (R81, R180): a transaction in progress runs on, and the queue, the reservations and the round are kept. A
1 ms rest in progress runs on too (log 28). -/
def State.linePauseCommand (s : State) (line : Byte) : State × Reply :=
  s.withLine line fun l =>
    if s.lineBusy l then (s, .bare .lineBusy)
    else if (s.line l).state ≠ .running then (s, .bare .state)
    else (s.modLine l fun e => { e with state := .paused }, .bare .ok)

/-- LINE RESUME at the line engine (R81): RUNNING. A transaction whose first frame still waited at its stuck-line check
was not begun in PAUSED: the CALL of a round end, whose reservation stands, is checked again; an order or a poll is
given back to the choice of R92, the poll with its reservation released (R77; log 11). -/
def LineEngine.resume (holdOff : Nat) (e : LineEngine) : LineEngine :=
  let e1 := { e with state := .running }
  match e.tx with
  | none => e1
  | some t =>
    if t.phase = .check ∧ t.repeated = false then
      match t.work with
      | .call _ => e1.checkLead holdOff t
      | .poll _ ref solicited => (if solicited then e1.release (.poll ref) else e1).endTx
      | _ => e1.endTx
    else e1

/-- LINE RESUME (R81, R180). -/
def State.lineResumeCommand (s : State) (line : Byte) : State × Reply :=
  s.withLine line fun l =>
    if s.lineBusy l then (s, .bare .lineBusy)
    else if (s.line l).state ≠ .paused then (s, .bare .state)
    else (s.modLine l (LineEngine.resume s.cfg.holdOff), .bare .ok)

/-! ### The call policy (R181) -/

/-- SET CALL POLICY writes the configuration store (R181). -/
def State.setCallPolicyCommand (s : State) (line policy : Byte) : State × Reply :=
  s.withLine line fun l =>
    match CallPolicy.ofCode? policy.toNat with
    | none => (s, .bare .badArgument)
    | some p => ({ s with cfg := { s.cfg with policies := s.cfg.policies.set l p } }, .bare .ok)

/-! ### The exclusion list (R105, R182) -/

/-- CLEAR EXCLUSION: form 00H is ALL, and its identity bytes are not examined; form 01H names an identity (R105, R182,
R195). -/
def State.clearExclusionCommand (s : State) (line form : Byte) (id : Identity) : State × Reply :=
  s.withLine line fun l =>
    if form = 0 then (s.modLine l fun e => { e with exclusions := [] }, .bare .ok)
    else if form = 1 then
      if identityInvalid id then (s, .bare .badArgument)
      else if id ∈ (s.line l).exclusions then
        (s.modLine l fun e => { e with exclusions := e.exclusions.erase id }, .bare .ok)
      else (s, .bare .notFound)
    else (s, .bare .badArgument)

/-! ### LINE STATUS (R183, Table 13-5) -/

/-- The identity in the clash tracker as LINE STATUS reports it: a flag and six bytes, all 00H when absent. -/
def ClashTracker.bytes (t : ClashTracker) : List Byte :=
  match t.identity with
  | some id => 1 :: identityBytes id ++ [byteOf t.count]
  | none => 0 :: identityBytes 0 ++ [byteOf t.count]

/-- The rate LINE STATUS reports: the rate taken, or the configured rate while the line is OFF (R183). -/
def State.reportedRate (s : State) (l : Line) : Rate :=
  if (s.line l).state = .off then s.arb.grantCfg.rates.get l else (s.line l).rate

/-- The payload of LINE STATUS (R183, Table 13-5, R197). -/
def State.lineStatusPayload (s : State) (l : Line) : List Byte :=
  let e := s.line l
  [e.state.code, (0#6 ++ BitVec.ofBool e.flushDue ++ BitVec.ofBool e.stopDue),
    byteOf (s.reportedRate l).code, byteOf (s.arb.grantCfg.policies.get l).code,
    e.roundCounter.setWidth 8, byteOf e.position, e.callNumber,
    byteOf e.orders.length, byteOf e.reservations.length, byteOf e.freeCount,
    byteOf e.exclusions.length]
    ++ e.exclusions.flatMap identityBytes ++ e.tracker.bytes
    ++ e.counters.toList.flatMap be16

/-- LINE STATUS (R183). -/
def State.lineStatusCommand (s : State) (line : Byte) : State × Reply :=
  s.withLine line fun l => (s, ⟨.ok, s.lineStatusPayload l⟩)

/-! ### CLEAR COUNTERS (R184) -/

/-- CLEAR COUNTERS (R69, R184). -/
def State.clearCountersCommand (s : State) (line : Byte) : State × Reply :=
  s.withLine line fun l => (s.modLine l fun e => { e with counters := Vector.replicate 32 0 }, .bare .ok)

/-! ### The meanings -/

/-- LINE_START (R79). -/
def execLineStart (s : State) : Host.Outcome State Fault Refusal :=
  .next (match s.hostClaim? with
    | some (.lineStart line option) => State.completeHost (s.lineStartCommand line option)
    | _ => s)

/-- LINE_STOP (R82). -/
def execLineStop (s : State) : Host.Outcome State Fault Refusal :=
  .next (match s.hostClaim? with
    | some (.lineStop line) => State.completeHost (s.lineStopCommand line)
    | _ => s)

/-- LINE_PAUSE (R81). -/
def execLinePause (s : State) : Host.Outcome State Fault Refusal :=
  .next (match s.hostClaim? with
    | some (.linePause line) => State.completeHost (s.linePauseCommand line)
    | _ => s)

/-- LINE_RESUME (R81). -/
def execLineResume (s : State) : Host.Outcome State Fault Refusal :=
  .next (match s.hostClaim? with
    | some (.lineResume line) => State.completeHost (s.lineResumeCommand line)
    | _ => s)

/-- SET_CALL_POLICY (R181). -/
def execSetCallPolicy (s : State) : Host.Outcome State Fault Refusal :=
  .next (match s.hostClaim? with
    | some (.setCallPolicy line policy) => State.completeHost (s.setCallPolicyCommand line policy)
    | _ => s)

/-- CLEAR_EXCLUSION (R105, R182). -/
def execClearExclusion (s : State) : Host.Outcome State Fault Refusal :=
  .next (match s.hostClaim? with
    | some (.clearExclusion line form id) => State.completeHost (s.clearExclusionCommand line form id)
    | _ => s)

/-- LINE_STATUS (R183). -/
def execLineStatus (s : State) : Host.Outcome State Fault Refusal :=
  .next (match s.hostClaim? with
    | some (.lineStatus line) => State.completeHost (s.lineStatusCommand line)
    | _ => s)

/-- CLEAR_COUNTERS (R184). -/
def execClearCounters (s : State) : Host.Outcome State Fault Refusal :=
  .next (match s.hostClaim? with
    | some (.clearCounters line) => State.completeHost (s.clearCountersCommand line)
    | _ => s)

end Sys2Proof.Machine
end

