-- ==== Sys2Proof/Machine/LineEngine.lean ====
section
/-! DEFINITION. The line engine at work: choosing the next transaction, the ends of polls, orders and calls, faults,
and the way of a starting line to RUNNING (Chapters 4 and 5). The commands of LineEvents.lean are made of these. -/

namespace Sys2Proof.Machine

/-! ### The ends of orders (R91, R97, R99, R148) -/

/-- The order in transaction is CONCLUDING and its outcome is handed over (R93, R97); a terminal ANSWER is removed
instead (R97, R134). -/
def State.concludeOrder (s : State) (l : Line) (result : OrderResult) : State :=
  match (s.line l).chosen? with
  | none => s
  | some o =>
    match o.ref with
    | none => s.modLine l LineEngine.removeChosen
    | some ref =>
      (s.modLine l (LineEngine.modChosen fun o => { o with progress := .concluding, chosen := false })).handOver l
        (.outcome o.kind ref result)

/-- The order after an attempt that met no reply, below its retry limit: the note of a pair is at the old station again
(R97, R148 step 3). -/
def Order.deferredOrder (o : Order) : Order :=
  { o with attempts := o.attempts + 1, deferred := true, progress := .waiting, onSecond := false, chosen := false }

/-- The order going into its probe (R99). -/
def Order.probing (o : Order) : Order :=
  { o with attempts := 0, phase := .probe, deferred := false, progress := .waiting, chosen := false }

/-- The order after the attempt without reply that brings it to its retry limit: attempts one more, and the note of a
pair at the old station again (R97, R148 step 3). -/
def Order.spentOrder (o : Order) : Order := { o with attempts := o.attempts + 1, onSecond := false }

/-- Whether a further attempt without reply exhausts the order (R97). -/
def Order.lastAttempt (o : Order) : Bool := decide (o.retryLimit ≤ o.attempts + 1)

/-- An attempt of the order in transaction ends without reply: it is deferred, or exhausted at its retry limit; an
exhausted REASSIGN goes into its probe, any other exhausted order is handed over, a terminal ANSWER removed (R97, R99,
R148 step 3). -/
def State.attemptEnd (s : State) (l : Line) : State :=
  match (s.line l).chosen? with
  | none => s
  | some o =>
    if o.lastAttempt then
      let s1 := s.bump l .ordersExhausted
      match o.kind with
      | .reassign => s1.modLine l (LineEngine.modChosen Order.probing)
      | _ => (s1.modLine l (LineEngine.modChosen Order.spentOrder)).concludeOrder l .exhausted
    else s.modLine l (LineEngine.modChosen Order.deferredOrder)

/-- Whether the order's transaction is the first of an attempt to a pair of stations (R148). -/
def Order.firstOfPair (o : Order) : Bool :=
  match o.dest with
  | .pair _ _ => !o.onSecond
  | _ => false

/-- How the transaction of an order ended, as far as the order is concerned. -/
inductive OrderEnd where
  | confirm
  | decline
  | sent
  | noReply
  | found
  | stranger
  deriving DecidableEq, Repr

/-- A probe transaction ended (R99): a node found at the target, or the end of the old-station probe, concludes; a
target probe that found no node leaves the old-station probe due. -/
def State.probeEnd (s : State) (l : Line) (o : Order) (found : Bool) : State :=
  if o.targetMissed then s.concludeOrder l (.probed false found)
  else if found then s.concludeOrder l (.probed true false)
  else
    s.modLine l (LineEngine.modChosen fun o =>
      { o with progress := .waiting, targetMissed := true, chosen := false })

/-- A transaction of an order in phase SEND ended (R97, R148). -/
def State.sendEnd (s : State) (l : Line) (o : Order) : OrderEnd → State
  | .confirm => s.concludeOrder l .confirm
  | .decline => s.concludeOrder l .decline
  | .sent => s.modLine l LineEngine.removeChosen
  | _ =>
    if o.firstOfPair then
      s.modLine l (LineEngine.modChosen fun o =>
        { o with progress := .waiting, onSecond := true, chosen := false })
    else s.attemptEnd l

/-- The order of the transaction in progress meets its transaction's end: a withdrawn order is removed and its result
discarded (R91); another goes on by its phase. The transaction is over. -/
def State.orderEnd (s : State) (l : Line) (how : OrderEnd) : State :=
  (match (s.line l).chosen? with
    | none => s
    | some o =>
      if o.withdrawn then (s.modLine l LineEngine.removeChosen).bump l .discardedResults
      else
        match o.phase with
        | .send => s.sendEnd l o how
        | .probe => s.probeEnd l o (how == OrderEnd.found)).modLine l LineEngine.endTx

/-! ### The ends of polls (R96) -/

/-- A poll of the round ends, and its result is handed over; a reservation made for it is released unless a request
claim carries it (R96). -/
def State.pollEnd (s : State) (l : Line) (ref : Ref) (keep : Bool) (claim : LineClaim) : State :=
  ((s.modLine l fun e => if keep then e else e.release (.poll ref)).modLine l LineEngine.endTx).handOver l claim

/-- Whether a HOLD has been received in the transaction (R74). -/
def Tx.afterHold (t : Tx) : Bool := t.held || t.phase == .holdOff

/-- The transaction in progress, of a poll or an order, ends as NO_REPLY (R73 to R75, R96, R97); after a HOLD it counts
as a hold-off failure (R69). -/
def State.noReplyEnd (s : State) (l : Line) (t : Tx) : State :=
  let s1 := if t.afterHold then s.bump l .holdOffFailures else s
  match t.work with
  | .poll st ref solicited => s1.pollEnd l ref (!solicited) (.miss st ref)
  | _ => s1.orderEnd l .noReply

/-! ### Replies (R72 to R76) -/

/-- Whether the transaction in progress is a poll of the round or a probe (R99). -/
def LineEngine.polling (e : LineEngine) (t : Tx) : Bool :=
  match t.work with
  | .poll .. => true
  | _ =>
    match e.chosen? with
    | some o => o.phase == .probe
    | none => false

/-- The replies a head frame admits: IDLE, REQUEST and HOLD to a POLL, CONFIRM, DECLINE and HOLD to an order (Table
4-2). -/
def NodeReply.admitted (polling : Bool) : NodeReply → Bool
  | .idle _ => polling
  | .request _ _ => polling
  | .confirm => !polling
  | .decline => !polling
  | .hold => true

/-- A check error or a collision of a transaction that admits a reply: the frame is repeated once, after its stuck-line
check; a transaction already repeated ends as NO_REPLY (R75). -/
def State.repeatOrEnd (s : State) (l : Line) (t : Tx) : State :=
  if t.repeated then s.noReplyEnd l t
  else s.modLine l (LineEngine.checkLead s.cfg.holdOff { t with repeated := true })

/-- A check error (R72, R75). -/
def State.checkErrorOn (s : State) (l : Line) (t : Tx) : State :=
  (s.bump l .checkErrors).repeatOrEnd l t

/-- A HOLD: the wait for the final reply begins; a second HOLD ends the transaction as NO_REPLY (R74). -/
def State.holdOn (s : State) (l : Line) (t : Tx) : State :=
  let s1 := s.bump l .holdOffs
  if t.held then s1.noReplyEnd l t
  else s1.modLine l fun e => { e with tx := some { t with phase := .holdOff, held := true } }

/-- An IDLE or a REQUEST that a POLL or a probe admits, compared by identity check (R76, R96, R99, R142). -/
def State.pollReply (s : State) (l : Line) (t : Tx) (check : Byte) (req : Option NodeRequest) : State :=
  match t.work with
  | .poll st ref solicited =>
    if check ≠ t.idCheck then (s.bump l .strangers).pollEnd l ref (!solicited) (.miss st ref)
    else
      match req with
      | none => s.pollEnd l ref (!solicited) (.presence st ref)
      | some r =>
        if solicited then s.pollEnd l ref true (.request st ref r)
        else (s.bump l .unsolicitedRequests).pollEnd l ref true (.presence st ref)
  | _ =>
    if check ≠ t.idCheck then (s.bump l .strangers).orderEnd l .stranger
    else if req.isSome then (s.bump l .unsolicitedRequests).orderEnd l .found
    else s.orderEnd l .found

/-- A valid reply of an admitted kind (R73, R74, R76, R97). -/
def State.validReply (s : State) (l : Line) (t : Tx) : NodeReply → State
  | .idle check => s.pollReply l t check none
  | .request check req => s.pollReply l t check (some req)
  | .confirm => s.orderEnd l .confirm
  | .decline => s.orderEnd l .decline
  | .hold => s.holdOn l t

/-- Whether a reply may begin: the reply window is open, or the head waits after a HOLD (R73, R74). -/
def Tx.awaitsReply (t : Tx) : Bool := t.phase == .window || t.phase == .holdOff

/-- A node frame has been received: none where it was broken off, had a bad check or was no frame of a node (R72). A
frame that begins outside a reply window is not seen (log 24). -/
def State.receive (s : State) (l : Line) (reply : Option NodeReply) : State :=
  match (s.line l).tx with
  | none => s
  | some t =>
    if t.awaitsReply then
      match reply with
      | some r => if r.admitted ((s.line l).polling t) then s.validReply l t r else s.checkErrorOn l t
      | none => s.checkErrorOn l t
    else s

/-! ### Faults (R77, R83) -/

/-- The line enters FAULT (R77, R83): what was in progress is abandoned, and stop due is set. -/
def LineEngine.fault (e : LineEngine) : LineEngine :=
  { e.abandonTx.bump .faults with
    state := .fault
    stage := .none
    resting := false
    stopDue := true }

/-- The line enters FAULT, with its alarm, and the line engine raises what it owes (R77, R83, R84). -/
def State.enterFault (s : State) (l : Line) : State :=
  ((s.modLine l LineEngine.fault).raiseAlarm (.lineFault l)).raiseOwed l

/-! ### A starting line (R79, R80, R85) -/

/-- A STARTING line whose own steps are done, with no stop due and no flush due, becomes RUNNING (R80). The FLUSH
transactions of the start are not counted as begun in its first round (R92; log 27). -/
def LineEngine.tryRunning (e : LineEngine) : LineEngine :=
  if e.state = .starting ∧ e.stage = .ready ∧ e.stopDue = false ∧ e.flushDue = false then
    { e with state := .running, stage := .none, txSinceRound := false }
  else e

/-- A FLUSH transaction of the line start ends: the next of the three follows, once no result waits, or the line's own
steps are done and the flush claim is owed (R79, R80, R85, R93). -/
def State.flushSent (s : State) (l : Line) : State :=
  match (s.line l).stage with
  | .flushing ended =>
    if ended + 1 < 3 then
      (s.modLine l fun e => { e.endTx with stage := .flushing (ended + 1) }).nextFlush l
    else
      ((s.modLine l fun e => { e.endTx with stage := .ready }).raiseOwed l).modLine l LineEngine.tryRunning
  | _ => s.modLine l LineEngine.endTx

/-! ### Choosing the next transaction (R92, R94, R95, R101, R102, R132, R148) -/

/-- Whether an ANSWER may be sent: its record is current, on this line, and holds the order's destination as HELD
(R132). -/
def State.answerPasses (s : State) (l : Line) (ref : Ref) (st : Station) : Bool :=
  match s.current? ref with
  | some r => r.line == l && r.station == st && s.mapAt l st == .held ref.handle
  | none => false

/-- What the choice does with an order it has taken. -/
inductive Choice where
  | send
  | dropGone
  | dropCurrent
  | skip
  deriving DecidableEq, Repr

/-- The checks an order undergoes before it is sent: the staleness check of an ANSWER (R132), and the second station of
a pair, which is skipped once it is no longer QUARANTINED (R148). -/
def State.examine (s : State) (l : Line) (o : Order) : Choice :=
  match o.payload, o.ref, o.dest with
  | .answer _ _, some ref, .station st =>
    if s.answerPasses l ref st then .send else if (s.current? ref).isSome then .dropCurrent else .dropGone
  | .release, _, .pair _ second =>
    if o.onSecond && s.mapAt l second != .quarantined then .skip else .send
  | _, _, _ => .send

/-- The identity check an order's replies are compared with: that of its record (R76, R99). -/
def State.orderCheck (s : State) (o : Order) : Byte :=
  match o.ref with
  | some ref => ((s.current? ref).map fun r => identityCheck r.identity).getD 0
  | none => 0

/-- Step 1 of the choice (R92): the oldest order that can be sent is sent; an order dropped or skipped lets the choice
begin again. The Boolean says that the choice has ended: a transaction has started, or a result waits (R93, R132). -/
def State.chooseOrder (l : Line) : Nat → State → State × Bool
  | 0, s => (s, (s.line l).waiting.isSome)
  | n + 1, s =>
    if (s.line l).waiting.isSome then (s, true)
    else
      match (s.line l).orders.find? Order.sendable with
      | none => (s, false)
      | some o =>
        let s1 := s.modLine l LineEngine.choose
        match s.examine l o with
        | .send => (s1.startTx l .order (s.orderCheck o), true)
        | .dropGone => State.chooseOrder l n ((s1.bump l .staleAnswers).modLine l LineEngine.removeChosen)
        | .dropCurrent => State.chooseOrder l n ((s1.bump l .staleAnswers).concludeOrder l .dropped)
        | .skip => State.chooseOrder l n (s1.attemptEnd l)

/-- Whether a station is polled in the current round, by the record that holds it (R94). -/
def RecState.polled (roundCounter : BitVec 2) : RecState → Bool
  | .bound => true
  | .moving _ => true
  | .quiet => roundCounter == 0
  | _ => false

/-- The handle and the record of a station that is polled in the current round (R94). -/
def State.pollable? (s : State) (l : Line) (st : Station) : Option (Handle × Record) :=
  match s.mapAt l st with
  | .held h =>
    match s.record? h with
    | some r => if r.state.polled (s.line l).roundCounter then some (h, r) else none
    | none => none
  | _ => none

/-- The next station of the round: the lowest pollable station above the position, as the map and the records stand at the
choice (R94). A record that became BOUND in the course of the round is polled in it where its station is above the
position, although R119 has it polled from the next round; and a record moved to its target in the course of the round
is polled at the target in it where the target is above the position, although R140 has it polled at its new station
from the next round (log 33). -/
def State.nextStation? (s : State) (l : Line) : Option Station :=
  allStations.find? fun st => decide ((s.line l).position < st.val + 1) && (s.pollable? l st).isSome

/-- Whether a solicited poll of the record still holds its reservation: its request has not been taken yet (R89, R95,
R124; log 18). -/
def LineEngine.awaitsRequest (ref : Ref) (e : LineEngine) : Bool := e.reservations.contains (.poll ref)

/-- A station of the round is polled: the poll is solicited where the record has no request pending, no request of it is
still to be taken, and an entry is free; a reservation is then made (R94, R95). It is so in the round in which the record
became BOUND or its ANSWER ended too, although R119 and R133 have it solicited from the next round (log 33). -/
def State.startPoll (s : State) (l : Line) (st : Station) : State :=
  match s.pollable? l st with
  | none => s
  | some (h, r) =>
    let ref := s.refOf h
    let solicited :=
      !r.requestPending && !(s.line l).awaitsRequest ref && decide (0 < (s.line l).freeCount)
    (if solicited then s.modLine l (LineEngine.reserve (.poll ref)) else s).startTx l (.poll st ref solicited)
      (identityCheck r.identity)

/-- Steps 1, 2 and 4 of the round end (R94): the counter advances, the deferred flags clear, the position becomes 0. -/
def LineEngine.roundEnd (e : LineEngine) : LineEngine :=
  { e with
    roundCounter := e.roundCounter + 1
    orders := e.orders.map fun o => { o with deferred := false }
    position := 0
    txSinceRound := false }

/-- The round end (R94): its step 3 makes an open call where the policy allows one and a reservation can be made (R101,
R102); without a call, the 1 ms rest begins where no transaction has begun since the previous round completed (R92;
log 13). -/
def State.roundEnd (s : State) (l : Line) : State :=
  let idleRound := !(s.line l).txSinceRound
  let s1 := s.modLine l LineEngine.roundEnd
  let policy := s.cfg.policies.get l
  let rest := fun (s : State) => s.modLine l fun e => { e with resting := idleRound }
  match policy with
  | .callClosed => rest s1
  | _ =>
    if 0 < (s1.line l).freeCount then (s1.modLine l (LineEngine.reserve .call)).startTx l (.call policy) 0
    else rest (s1.bump l .callsSkipped)

/-- The choice (R92): an order, else a poll, else the round end and the choice again in the next round. After two round
ends without a transaction the line rests, so the count bounds nothing. -/
def State.chooseTx (l : Line) : Nat → State → State
  | 0, s => s
  | n + 1, s =>
    match s.chooseOrder l ((s.line l).orders.length + 1) with
    | (s1, true) => s1
    | (s1, false) =>
      match s1.nextStation? l with
      | some st => s1.startPoll l st
      | none =>
        let s2 := s1.roundEnd l
        if (s2.line l).tx.isSome || (s2.line l).resting then s2 else State.chooseTx l n s2

/-- Whether the line engine may choose: RUNNING, no transaction in progress, no result waiting, and not resting (R92,
R93). -/
def LineEngine.mayChoose (e : LineEngine) : Bool :=
  e.state == .running && e.tx.isNone && e.waiting.isNone && !e.resting

/-! ### The open call (R102 to R104) -/

/-- The tracker and the exclusion list after a GARBLED call (R104). The Boolean says that an identity was added to the
exclusion list. -/
def LineEngine.trackClash (id : Identity) (e : LineEngine) : LineEngine × Bool :=
  if e.tracker.identity = some id then
    if e.tracker.count + 1 < 4 then ({ e with tracker := { identity := some id, count := e.tracker.count + 1 } }, false)
    else if id ∉ e.exclusions ∧ e.exclusions.length < 4 then
      ({ e with exclusions := e.exclusions ++ [id], tracker := .empty }.bump .clashesExcluded, true)
    else ({ e with tracker := .empty }.bump .clashesNotExcluded, false)
  else ({ e with tracker := { identity := some id, count := 1 } }, false)

/-- A call ends NO_BID: its reservation is released and the no-bid counter rises (R102, R103). -/
def LineEngine.noBid (e : LineEngine) : LineEngine := ((e.endTx).release .call).bump .noBidCalls

/-- A call ends GARBLED (R103, R104): its reservation is released, and the tracker deals with the identity read; an
identity added to the exclusion list raises the line's CLASH alarm. -/
def State.garbled (s : State) (l : Line) (id : Identity) : State :=
  let e := (((s.line l).endTx).release .call).bump .garbledCalls
  let (e1, added) := e.trackClash id
  if added then (s.setLine l e1).raiseAlarm (.clash l) else s.setLine l e1

/-- A call ends WIN: the tracker becomes empty and the join claim is handed over with the call's reservation (R103,
R104). -/
def State.joinWon (s : State) (l : Line) (id : Identity) (caps : List CapEntry) (policy : CallPolicy) : State :=
  ((s.modLine l fun e => { e.endTx with tracker := .empty }).bump l .joinsWon).handOver l (.join id caps policy)

end Sys2Proof.Machine
end

