-- ==== Sys2Proof/Machine/LineClaims.lean ====
section
/-! DEFINITION. The claims a line's own changes of state owe: LINE_CLAIM and FLUSH_CLAIM (Chapter 4). -/

namespace Sys2Proof.Machine

/-- The line claim at one record of the line: a join is abandoned, a move aborted, a retirement concluded, and a pending
request withdrawn (R84). -/
def State.stopRecord (s : State) (l : Line) (h : Handle) (r : Record) : State :=
  match r.state with
  | .joining => s.endRecord h .joinAbandoned
  | .moving t =>
    (((s.abandonMove h l t).modRecord h fun r => { r with state := .bound, outcome := .moveAborted }).mark h
      (ChangeMask.state ||| ChangeMask.outcome)).withdrawRequest h
  | .retiring => s.endRecord h .releaseUnconfirmed
  | _ => if r.requestPending then s.withdrawRequest h else s

/-- The line claim at one slot: records of the other line are not visited. -/
def State.stopSlot (l : Line) (s : State) (h : Handle) : State :=
  match s.record? h with
  | some r => if r.line = l then s.stopRecord l h r else s
  | none => s

/-- The line engine after the records have been visited: the queue, the reservations, the round, the exclusion list and
the tracker are emptied, and stop due is cleared (R84). -/
def LineEngine.cleared (e : LineEngine) : LineEngine :=
  { e with
    orders := []
    reservations := []
    position := 0
    roundCounter := 0
    exclusions := []
    tracker := .empty
    stopDue := false }

/-- The directory work of a stop or a fault: the records of the line in ascending order of handle, then the line engine
(R84). -/
def State.lineWork (s : State) (l : Line) : State :=
  (allHandles.foldl (State.stopSlot l) s).modLine l LineEngine.cleared

/-- LINE_CLAIM (R84): where the line is STARTING and nothing else is owed, it becomes RUNNING (R80). -/
def execLineClaim (s : State) : Host.Outcome State Fault Refusal :=
  .next (match s.lineClaim? with
    | some (l, .line) => ((s.lineWork l).modLine l LineEngine.tryRunning).completeLine l
    | _ => s)

/-- The flush claim at one slot: a BOUND or QUIET record of the line lapses, or returns to RESERVED if it is pinned
(R85). -/
def State.flushSlot (l : Line) (s : State) (h : Handle) : State :=
  match s.record? h with
  | some r => if r.line = l ∧ (r.state = .bound ∨ r.state = .quiet) then s.lapseRecord h else s
  | none => s

/-- The directory work of a flush, and flush due cleared (R85). -/
def State.flushWork (s : State) (l : Line) : State :=
  (allHandles.foldl (State.flushSlot l) s).modLine l fun e => { e with flushDue := false }

/-- FLUSH_CLAIM (R85): where the line is STARTING and nothing else is owed, it becomes RUNNING (R80). -/
def execFlushClaim (s : State) : Host.Outcome State Fault Refusal :=
  .next (match s.lineClaim? with
    | some (l, .flush) => ((s.flushWork l).modLine l LineEngine.tryRunning).completeLine l
    | _ => s)

end Sys2Proof.Machine
end

