-- ==== Sys2Proof/Machine/LineEvents.lean ====
section
/-! DEFINITION. The events of a line: NEXT_TRANSACTION, ROUND_REST_END, DATA_LEAD_RECESSIVE, DATA_LEAD_DOMINANT,
STUCK_LINE, COLLISION, HEAD_FRAME_SENT, IDLE, REQUEST, CONFIRM, DECLINE, HOLD, CHECK_ERROR, REPLY_WINDOW_TIMEOUT,
HOLD_OFF_TIMEOUT, ORDER_EXHAUSTED, ARBITRATION_END, JOIN_BODY, JOIN_BODY_TIMEOUT, CLASH_SETTLED, IDLE_CHECK_PASS,
IDLE_CHECK_TIMEOUT (Chapters 4 and 5). -/

namespace Sys2Proof.Machine

/-- NEXT_TRANSACTION (R92): a line engine that may choose chooses and begins its next transaction. -/
def execNextTransaction (l : Line) (s : State) : Host.Outcome State Fault Refusal :=
  .next (if (s.line l).mayChoose then s.chooseTx l 2 else s)

/-- ROUND_REST_END (R92): the 1 ms rest ends and the next round begins; in PAUSED the rest ends too, and the choice waits
for LINE RESUME (log 28). -/
def execRoundRestEnd (l : Line) (s : State) : Host.Outcome State Fault Refusal :=
  .next (if (s.line l).resting then s.modLine l fun e => { e with resting := false, position := 0 } else s)

/-- The data lead becomes recessive, and a frame waiting at its stuck-line check begins (R77). -/
def LineEngine.leadRecessive (holdOff : Nat) (e : LineEngine) : LineEngine :=
  let e1 := { e with leadDominant := false }
  if e.checks then e1.beginFrame holdOff else e1

/-- DATA_LEAD_RECESSIVE (R77). -/
def execDataLeadRecessive (l : Line) (s : State) : Host.Outcome State Fault Refusal :=
  .next (s.modLine l (LineEngine.leadRecessive s.cfg.holdOff))

/-- Whether the line engine watches a lead that is dominant: at a stuck-line check, or in the idle check of a line start
(R77, R79). -/
def LineEngine.sticks (e : LineEngine) : Bool :=
  e.leadDominant && (e.stage == .idleCheck || e.checks)

/-- STUCK_LINE (R77, R79, R83): the data lead has stayed dominant for 8 ms while the line engine watched it. -/
def execStuckLine (l : Line) (s : State) : Host.Outcome State Fault Refusal :=
  .next (if (s.line l).sticks then s.enterFault l else s)

/-- A collision in the head frame of a transaction: a CALL ends NO_BID with its tracker and call number unchanged (R102,
R104); a REFUSE or a FLUSH ends as SENT (R75); any other frame is treated as after a check error (R72, R75). -/
def State.collisionOn (s : State) (l : Line) (t : Tx) : State :=
  let s1 := (s.bump l .collisions).modLine l fun e => { e with leadDominant := true }
  match t.work with
  | .call _ => s1.modLine l LineEngine.noBid
  | .flush => s1.flushSent l
  | .poll _ _ _ => s1.repeatOrEnd l t
  | .order =>
    match (s.line l).chosen? with
    | some o => if o.kind = .refuse then s1.orderEnd l .sent else s1.repeatOrEnd l t
    | none => s1.repeatOrEnd l t

/-- COLLISION (R72): a bit of the head frame being sent, sent recessive, reads back dominant (log 8). -/
def execCollision (l : Line) (s : State) : Host.Outcome State Fault Refusal :=
  .next (match (s.line l).tx with
    | some t => if t.phase = .sending then s.collisionOn l t else s
    | none => s)

/-- The last bit of the head frame of a transaction has been sent (R73): a REFUSE or a FLUSH ends as SENT; a CALL is
counted and goes into its arbitration field (R102, R103); any other frame opens its reply window. -/
def State.frameSent (s : State) (l : Line) (t : Tx) : State :=
  let openWindow := s.modLine l fun e => { e with tx := some { t with phase := .window } }
  match t.work with
  | .call _ =>
    (s.modLine l fun e =>
      { e with callNumber := e.callNumber + 1, tx := some { t with phase := .arbitration } }).bump l .calls
  | .flush => s.flushSent l
  | .poll _ _ _ => openWindow
  | .order =>
    match (s.line l).chosen? with
    | some o => if o.kind = .refuse then s.orderEnd l .sent else openWindow
    | none => openWindow

/-- HEAD_FRAME_SENT (R73). -/
def execHeadFrameSent (l : Line) (s : State) : Host.Outcome State Fault Refusal :=
  .next (match (s.line l).tx with
    | some t => if t.phase = .sending then s.frameSent l t else s
    | none => s)

/-- IDLE (R72, R74, R76, R96, R99): a frame of kind 11H is received. -/
def execIdle (l : Line) (body : List Byte) (s : State) : Host.Outcome State Fault Refusal :=
  .next (s.receive l (readIdle? body))

/-- REQUEST (R72, R74, R76, R96, R99, R123): a frame of kind 12H is received. -/
def execRequest (l : Line) (body : List Byte) (s : State) : Host.Outcome State Fault Refusal :=
  .next (s.receive l (readRequest? body))

/-- CONFIRM (R72, R74, R97): a frame of kind 13H is received. -/
def execConfirm (l : Line) (body : List Byte) (s : State) : Host.Outcome State Fault Refusal :=
  .next (s.receive l (readBare? 0x13 .confirm body))

/-- DECLINE (R72, R74, R97): a frame of kind 14H is received. -/
def execDecline (l : Line) (body : List Byte) (s : State) : Host.Outcome State Fault Refusal :=
  .next (s.receive l (readBare? 0x14 .decline body))

/-- HOLD (R72, R74): a frame of kind 15H is received. -/
def execHold (l : Line) (body : List Byte) (s : State) : Host.Outcome State Fault Refusal :=
  .next (s.receive l (readBare? 0x15 .hold body))

/-- CHECK_ERROR (R72, R75, R193): something received in the window is no valid frame of a node. -/
def execCheckError (l : Line) (s : State) : Host.Outcome State Fault Refusal := .next (s.receive l none)

/-- The reply window closes without a reply (R73). -/
def State.windowTimeout (s : State) (l : Line) (t : Tx) : State := (s.bump l .silences).noReplyEnd l t

/-- The hold-off limit passes without a final reply (R69, R74): a silence, and, after a HOLD, a hold-off failure. -/
def State.holdOffTimeout (s : State) (l : Line) (t : Tx) : State := (s.bump l .silences).noReplyEnd l t

/-- REPLY_WINDOW_TIMEOUT (R73). -/
def execReplyWindowTimeout (l : Line) (s : State) : Host.Outcome State Fault Refusal :=
  .next (match (s.line l).tx with
    | some t => if t.phase = .window then s.windowTimeout l t else s
    | none => s)

/-- HOLD_OFF_TIMEOUT (R74). -/
def execHoldOffTimeout (l : Line) (s : State) : Host.Outcome State Fault Refusal :=
  .next (match (s.line l).tx with
    | some t => if t.phase = .holdOff then s.holdOffTimeout l t else s
    | none => s)

/-- Whether the order of the transaction in progress is exhausted if the transaction meets no reply (R97, R148). -/
def LineEngine.exhausts (e : LineEngine) : Bool :=
  match e.chosen? with
  | some o => o.phase == .send && !o.withdrawn && !o.firstOfPair && o.lastAttempt
  | none => false

/-- ORDER_EXHAUSTED (R97): the silence that exhausts the order of the transaction in progress (log 14). -/
def execOrderExhausted (l : Line) (s : State) : Host.Outcome State Fault Refusal :=
  .next (match (s.line l).tx with
    | some t =>
      if t.work = .order ∧ (s.line l).exhausts then
        if t.phase = .window then s.windowTimeout l t
        else if t.phase = .holdOff then s.holdOffTimeout l t
        else s
      else s
    | none => s)

/-- The arbitration field of a call has ended (R103): every bit recessive ends the call NO_BID and empties the tracker
(R104); any other identity awaits the JOIN body, an identity of 000000000000H counted as an invalid bid. -/
def State.arbitrationOn (s : State) (l : Line) (t : Tx) (id : Identity) : State :=
  if id = BitVec.allOnes 48 then s.modLine l fun e => { e.noBid with tracker := .empty }
  else
    let s1 := s.modLine l fun e => { e with tx := some { t with phase := .joinWait id } }
    if id = 0 then s1.bump l .invalidBids else s1

/-- ARBITRATION_END (R103). -/
def execArbitrationEnd (l : Line) (id : Identity) (s : State) : Host.Outcome State Fault Refusal :=
  .next (match (s.line l).tx with
    | some t => if t.phase = .arbitration then s.arbitrationOn l t id else s
    | none => s)

/-- The identity and the call policy of a call that awaits its JOIN body (R101, R103). -/
def LineEngine.awaitedJoin? (e : LineEngine) : Option (Identity × CallPolicy) :=
  match e.tx with
  | some t =>
    match t.phase, t.work with
    | .joinWait id, .call policy => some (id, policy)
    | _, _ => none
  | none => none

/-- JOIN_BODY (R103): a JOIN body that is valid ends the call WIN, unless the identity read is 000000000000H; any other
ends it GARBLED. -/
def execJoinBody (l : Line) (body : List Byte) (s : State) : Host.Outcome State Fault Refusal :=
  .next (match (s.line l).awaitedJoin? with
    | some (id, policy) =>
      match readJoinBody? id body with
      | some caps => if id = 0 then s.garbled l id else s.joinWon l id caps policy
      | none => s.garbled l id
    | none => s)

/-- JOIN_BODY_TIMEOUT (R103): no JOIN body begins, and the call ends GARBLED. -/
def execJoinBodyTimeout (l : Line) (s : State) : Host.Outcome State Fault Refusal :=
  .next (match (s.line l).awaitedJoin? with
    | some (id, _) => s.garbled l id
    | none => s)

/-- Whether a GARBLED call for an identity settles the clash (R104). -/
def ClashTracker.settles (t : ClashTracker) (id : Identity) : Bool :=
  t.identity == some id && decide (4 ≤ t.count + 1)

/-- CLASH_SETTLED (R104): the fourth GARBLED call in a row for one identity (log 14). -/
def execClashSettled (l : Line) (s : State) : Host.Outcome State Fault Refusal :=
  .next (match (s.line l).awaitedJoin? with
    | some (id, _) => if (s.line l).tracker.settles id then s.garbled l id else s
    | none => s)

/-- IDLE_CHECK_PASS (R79, R80): with FLUSH the first FLUSH transaction starts, once no result waits (R93); with KEEP the
line's own steps are done. -/
def execIdleCheckPass (l : Line) (s : State) : Host.Outcome State Fault Refusal :=
  .next (
    let e := s.line l
    if e.state = .starting ∧ e.stage = .idleCheck ∧ e.leadDominant = false then
      if e.startFlush then (s.modLine l fun e => { e with stage := .flushing 0 }).nextFlush l
      else s.modLine l fun e => LineEngine.tryRunning { e with stage := .ready }
    else s)

/-- IDLE_CHECK_TIMEOUT (R79, R83): 200 ms pass without the idle check passing. -/
def execIdleCheckTimeout (l : Line) (s : State) : Host.Outcome State Fault Refusal :=
  .next (if (s.line l).state = .starting ∧ (s.line l).stage = .idleCheck then s.enterFault l else s)

/-- DATA_LEAD_DOMINANT (R77, R79): the data lead becomes dominant. The counts it restarts are durations (log 9). -/
def execDataLeadDominant (l : Line) (s : State) : Host.Outcome State Fault Refusal :=
  .next (s.modLine l fun e => { e with leadDominant := true })

end Sys2Proof.Machine
end

