-- ==== Sys2Proof/Machine/Outcomes.lean ====
section
/-! DEFINITION. The outcome claims of orders: ASSIGN_CONFIRMED, ASSIGN_DECLINED, ASSIGN_EXHAUSTED, MOVED,
MOVE_DECLINED, PROBE_OUTCOME, RELEASE_OUTCOME, ANSWER_OUTCOME (Chapters 6, 7, 8). -/

namespace Sys2Proof.Machine

/-- The order an outcome claim names: of its kind and record reference, CONCLUDING, not withdrawn (R100). -/
def State.concluding? (s : State) (l : Line) (kind : OrderKind) (ref : Ref) : Option Order :=
  (s.line l).orders.find? (Order.isConcluding kind ref)

/-- An outcome claim (R100): where its order is gone it has no effect; where it is there, the order is removed and the
conclusion carried out on the record it names. -/
def State.outcomeClaim (s : State) (l : Line) (kind : OrderKind) (ref : Ref)
    (conclude : State → Order → Record → State) : State :=
  match s.concluding? l kind ref with
  | none => s
  | some o =>
    let s1 := s.modLine l (LineEngine.removeConcluded kind ref)
    match s1.current? ref with
    | some r => conclude s1 o r
    | none => s1

/-! ### ASSIGN (R119 to R121) -/

/-- The outcome a join kind sets at CONFIRM (R119). -/
def JoinKind.outcome? : JoinKind → Option RecOutcome
  | .rebound => some .rebound
  | .migrated => some .migrated
  | .new => none
  | .reserved => none
  | .restart => none

/-- The join kind an ASSIGN order keeps (R118). -/
def Order.joinKind (o : Order) : JoinKind :=
  match o.payload with
  | .assign _ _ k => k
  | _ => .new

/-- A confirmed join: BOUND with a full lease, miss count 0, join count one more, the outcome by the join kind (R119). -/
def State.joinConfirmed (s : State) (h : Handle) (kind : JoinKind) (r : Record) : State :=
  (s.setRecord h
    { r with
      state := .bound
      leaseRemaining := r.leaseLength
      missCount := 0
      joinCount := satInc 255 r.joinCount
      outcome := kind.outcome?.getD r.outcome }).mark h
    (if kind.outcome?.isSome then ChangeMask.state ||| ChangeMask.outcome else ChangeMask.state)

/-- A declined join: a pinned record returns to RESERVED; any other is freed with its station FREE (R120). -/
def State.joinDeclined (s : State) (h : Handle) (r : Record) : State :=
  if r.pinned then s.returnToReserved h .joinAbandoned
  else ((s.setOutcome h .joinAbandoned).setMap r.line r.station .free).freeMarked h ChangeMask.outcome

/-! ### REASSIGN (R140 to R142) -/

/-- MOVED: the old station is quarantined, the target becomes the station, and the record is BOUND there (R140). -/
def State.moveDone (s : State) (h : Handle) (r : Record) (target : Station) : State :=
  (((s.quarantine r.line r.station none).setMap r.line target (.held h)).setRecord h
    { r with state := .bound, station := target, outcome := .moved }).mark h
    (ChangeMask.station ||| ChangeMask.state ||| ChangeMask.outcome)

/-- The move ends at the old station with the target FREE (R141, R142). -/
def State.moveBack (s : State) (h : Handle) (r : Record) (target : Station) (outcome : RecOutcome) : State :=
  ((s.setMap r.line target .free).setRecord h { r with state := .bound, outcome := outcome }).mark h
    (ChangeMask.state ||| ChangeMask.outcome)

/-- MOVE_UNCERTAIN: the target is quarantined, and the record is QUIET at the old station with its miss count at the
limit (R142). -/
def State.moveUncertain (s : State) (h : Handle) (r : Record) (target : Station) : State :=
  ((s.quarantine r.line target none).setRecord h
    { r with state := .quiet, missCount := s.arb.grantCfg.missLimit, outcome := .moveUncertain }).mark h
    (ChangeMask.state ||| ChangeMask.outcome)

/-- The conclusion of a probed move (R142, Table 8-1). -/
def State.probeConclusion (s : State) (h : Handle) (r : Record) (target : Station) (atTarget atOld : Bool) : State :=
  if atTarget then s.moveDone h r target
  else if atOld then s.moveBack h r target .moveFailed
  else s.moveUncertain h r target

/-- The outcome claim of a REASSIGN, for the MOVING record it names. -/
def State.moveClaim (s : State) (l : Line) (ref : Ref) (conclude : State → Record → Station → State) : State :=
  s.outcomeClaim l .reassign ref fun s _ r =>
    match r.state with
    | .moving t => conclude s r t
    | _ => s

/-! ### RELEASE and ANSWER (R133, R149) -/

/-- The outcome of a retirement (R149). -/
def OrderResult.retirement : OrderResult → RecOutcome
  | .confirm => .retired
  | .decline => .retired
  | _ => .releaseUnconfirmed

/-- The outcome claim of an ANSWER: the order is removed and request pending becomes no; a DECLINE is counted (R133). -/
def State.answerClaim (s : State) (l : Line) (ref : Ref) (result : OrderResult) : State :=
  match s.concluding? l .answer ref with
  | none => s
  | some _ =>
    let s1 := s.modLine l (LineEngine.removeConcluded .answer ref)
    let s2 := match s1.current? ref with
      | some r => s1.setRecord ref.handle { r with requestPending := false }
      | none => s1
    if result = .decline then s2.bump l .answersDeclined else s2

/-! ### The meanings -/

/-- ASSIGN_CONFIRMED (R119). -/
def execAssignConfirmed (s : State) : Host.Outcome State Fault Refusal :=
  .next (match s.lineClaim? with
    | some (l, .outcome .assign ref .confirm) =>
      (s.outcomeClaim l .assign ref fun s o r =>
        if r.state = .joining then s.joinConfirmed ref.handle o.joinKind r else s).completeLine l
    | _ => s)

/-- ASSIGN_DECLINED (R120). -/
def execAssignDeclined (s : State) : Host.Outcome State Fault Refusal :=
  .next (match s.lineClaim? with
    | some (l, .outcome .assign ref .decline) =>
      (s.outcomeClaim l .assign ref fun s _ r =>
        if r.state = .joining then s.joinDeclined ref.handle r else s).completeLine l
    | _ => s)

/-- ASSIGN_EXHAUSTED (R121). -/
def execAssignExhausted (s : State) : Host.Outcome State Fault Refusal :=
  .next (match s.lineClaim? with
    | some (l, .outcome .assign ref .exhausted) =>
      (s.outcomeClaim l .assign ref fun s _ r =>
        if r.state = .joining then s.endRecord ref.handle .joinAbandoned else s).completeLine l
    | _ => s)

/-- MOVED (R140). -/
def execMoved (s : State) : Host.Outcome State Fault Refusal :=
  .next (match s.lineClaim? with
    | some (l, .outcome .reassign ref .confirm) =>
      (s.moveClaim l ref fun s r t => s.moveDone ref.handle r t).completeLine l
    | _ => s)

/-- MOVE_DECLINED (R141). -/
def execMoveDeclined (s : State) : Host.Outcome State Fault Refusal :=
  .next (match s.lineClaim? with
    | some (l, .outcome .reassign ref .decline) =>
      (s.moveClaim l ref fun s r t => s.moveBack ref.handle r t .moveDeclined).completeLine l
    | _ => s)

/-- PROBE_OUTCOME (R142). -/
def execProbeOutcome (s : State) : Host.Outcome State Fault Refusal :=
  .next (match s.lineClaim? with
    | some (l, .outcome .reassign ref (.probed atTarget atOld)) =>
      (s.moveClaim l ref fun s r t => s.probeConclusion ref.handle r t atTarget atOld).completeLine l
    | _ => s)

/-- RELEASE_OUTCOME (R149). -/
def execReleaseOutcome (s : State) : Host.Outcome State Fault Refusal :=
  .next (match s.lineClaim? with
    | some (l, .outcome .release ref result) =>
      (s.outcomeClaim l .release ref fun s _ r =>
        if r.state = .retiring then s.endRecord ref.handle result.retirement else s).completeLine l
    | _ => s)

/-- ANSWER_OUTCOME (R133). -/
def execAnswerOutcome (s : State) : Host.Outcome State Fault Refusal :=
  .next (match s.lineClaim? with
    | some (l, .outcome .answer ref result) => (s.answerClaim l ref result).completeLine l
    | _ => s)

end Sys2Proof.Machine
end

