-- ==== Sys2Proof/Config.lean ====
section
/-! DEFINITION. What an implementation fixes and the spec does not state: free values with no body, so that no
proof can see what they are. -/

namespace Sys2Proof

/-- The revision of the part, reported by STATUS (R171). The spec states no value: FREE VALUE, log 15. -/
opaque Config.partRevision : BitVec 8

end Sys2Proof
end

