-- ==== Sys2Proof/Machine/PartCommands.lean ====
section
/-! DEFINITION. The host commands that act on the part as a whole: STATUS and RESET_DEVICE (Chapter 10). -/

namespace Sys2Proof.Machine

/-! ### STATUS (R18, R171) -/

/-- The directory use: the slots holding a record (R18). -/
def Directory.use (d : Directory) : Nat := d.slots.toList.countP fun x => x.content.isSome

/-- The sets whose four ways all hold records (R18). -/
def State.fullSets (s : State) : Nat :=
  (List.range 64).countP fun i => (waysOf (BitVec.ofNat 6 i)).all fun h => (s.slot h).content.isSome

/-- The FREE entries of a line's map (R18). -/
def State.freeStations (s : State) (l : Line) : Nat := (s.dir.maps.get l).toList.countP fun e => e == .free

/-- The slots occupied, the STATUS command's own among them (R163, R171). -/
def HostPort.occupied (p : HostPort) : Nat := 4 - p.freeSlots

/-- The payload of STATUS (R171, Table 13-5). The revision is a free value (log 15). -/
def State.statusPayload (s : State) : List Byte :=
  [0x26, Config.partRevision] ++ be16 s.dir.use
    ++ [byteOf s.fullSets, byteOf (s.freeStations .A), byteOf (s.freeStations .B)]
    ++ be16 s.dir.setFull ++ be16 s.dir.staleRef
    ++ [byteOf s.host.freeSlots, byteOf s.host.occupied] ++ AlarmSet.bytes s.host.flags

/-- STATUS (R171): the payload is formed at completion, while the command's slot is ACTIVE; nothing changes. -/
def execStatus (s : State) : Host.Outcome State Fault Refusal :=
  .next (match s.hostClaim? with
    | some .status => State.completeHost (s, ⟨.ok, s.statusPayload⟩)
    | _ => s)

/-! ### RESET DEVICE (R173) -/

/-- Every slot's generation rises by 1 and the slot is emptied (R8, R9, R48). -/
def Directory.softReset (d : Directory) : Directory := .fresh (d.slots.map fun x => .fresh (x.gen + 1))

/-- An exchange in progress meets a soft reset: it goes on, with the status byte it began with. A READ RESPONSE clocks out
the frame it had chosen, and its end empties no slot (R173). -/
def Exchange.softReset (x : Exchange) : Exchange :=
  match x.phase with
  | .reading chosen => { x with phase := .reading (chosen.map fun c => (none, c.2)) }
  | _ => x

/-- The host port after soft reset: every slot EMPTY but the given one, which keeps its command (R173). -/
def HostPort.softReset (own : Fin 4) (p : HostPort) : HostPort :=
  { p with
    slots := (Vector.replicate 4 CmdSlot.empty).set own.val (p.slots.get own) own.isLt
    acceptance := [own]
    lastError := .none
    flags := 0
    changesWaiting := false
    exchange := p.exchange.map Exchange.softReset }

/-- The soft-reset values of the whole part, within the claim of the RESET DEVICE command in the given slot. Every
claim of another requester is discarded with its requester's state, the configuration store is kept (R23, R48, R49,
R87, R173), and the arbiter still carries out this claim. -/
def State.softReset (s : State) (own : Fin 4) : State :=
  { s with
    dir := s.dir.softReset
    arb := { engine := some .host, rotation := .clock, grantCfg := s.arb.grantCfg }
    clock := .reset s.cfg
    lines := ⟨.reset s.lines.a.leadDominant, .reset s.lines.b.leadDominant⟩
    host := s.host.softReset own }

/-- RESET_DEVICE (R173): the claim completes with OK, and its response is the one occupied slot. -/
def execResetDevice (s : State) : Host.Outcome State Fault Refusal :=
  .next (match s.hostClaim?, s.host.activeSlot? with
    | some .resetDevice, some (i, _) => State.completeHost (s.softReset i, Reply.bare .ok)
    | _, _ => s)

end Sys2Proof.Machine
end

