-- ==== Sys2Proof/Machine/Port.lean ====
section
/-! DEFINITION. The RST pin, the SPI exchanges and the beginning of commands: RST_ASSERTED, RST_RELEASED,
WRITE_COMMAND, READ_RESPONSE, READ_STATUS, UNKNOWN_KIND_BYTE, COMMAND_BEGIN, and the local commands READ_ALARMS,
ACK_ALARMS and CONFIGURE (Chapter 10). -/

namespace Sys2Proof.Machine

/-! ### RST (R172) -/

/-- Every block at its power-on values (R172, R87, R49, R48, R23, R169); the queue of commands and the levels of the
data leads come from outside the part and stay. -/
def State.powerOn (s : State) (rst : Bool) : State :=
  { pending := s.pending
    rst := rst
    dir := .reset
    arb := .reset .default
    clock := .reset .default
    lines := ⟨.reset s.lines.a.leadDominant, .reset s.lines.b.leadDominant⟩
    host := .reset
    cfg := .default }

/-- RST_ASSERTED (R172): the part is held in power-on reset: its state is at the power-on values, SDO carries nothing,
ATN is released, the lease clock does not run and the SPI inputs are ignored while RST stays asserted. -/
def execRstAsserted (s : State) : Host.Outcome State Fault Refusal := .next (s.powerOn true)

/-- RST_RELEASED (R172): operation starts from the power-on values; an exchange in which SCS was already LOW is
ignored until SCS goes HIGH. -/
def execRstReleased (scsLow : Bool) (s : State) : Host.Outcome State Fault Refusal :=
  .next (if s.rst then
      (s.powerOn false).modHost fun p => { p with ignoreExchange := scsLow }
    else s)

/-! ### SPI exchanges (R160 to R165) -/

/-- SCS goes LOW: the status byte is sampled, and no byte has been sent yet (R160, R161). -/
def State.openExchange (s : State) : State :=
  s.modHost fun p => { p with exchange := some ⟨s.statusByte, .kindByte⟩, sdo := [] }

/-- A part of an exchange, given what the complete kind byte does and what the end does; both leave the host port where the
exchange in progress is not at the phase they are for. While RST is asserted no exchange is seen; the one that was in
progress when RST was released is ignored to its end, and the part sends no byte in it (R172; log 34); and no exchange
begins within another (R160; log 5). A whole exchange is its parts in turn. -/
def State.exchange {Sent : Type} (s : State) (kind : HostPort → HostPort) (close : Sent → HostPort → HostPort)
    (part : ExchangePart Sent) : State :=
  if s.rst then s
  else if s.host.ignoreExchange then
    if part.sent?.isSome then s.modHost fun p => { p with ignoreExchange := false, sdo := [] } else s
  else
    match part with
    | .whole sent => if s.host.exchange.isSome then s else (s.openExchange.modHost kind).modHost (close sent)
    | .opens => if s.host.exchange.isSome then s else s.openExchange
    | .kindByte => s.modHost kind
    | .closes sent => s.modHost (close sent)

/-- The ANSWERED slot whose command is oldest in acceptance order, and its response (R165). -/
def HostPort.oldestAnswer? (p : HostPort) : Option (Fin 4 × Response) :=
  p.acceptance.findSome? fun i =>
    match p.slots.get i with
    | .answered r => some (i, r)
    | _ => none

/-- The phase a complete kind byte brings an exchange to: a READ RESPONSE chooses the oldest response then (R160, R165). -/
def HostPort.phaseOf (p : HostPort) : Option ExchangeKind → ExchangePhase
  | some .writeCommand => .writing
  | some .readResponse => .reading (p.oldestAnswer?.map fun x => (some x.1, x.2))
  | some .readStatus => .status
  | none => .ignored

/-- The kind byte is complete: the status byte has been sent meanwhile; a kind byte that is none of the three raises
FRAME_ERROR (R160). -/
def HostPort.takeKind (kind : Option ExchangeKind) (p : HostPort) : HostPort :=
  match p.exchange with
  | some ⟨b, .kindByte⟩ =>
    { (if kind = none then p.setAlarm .frameError else p) with
      exchange := some ⟨b, p.phaseOf kind⟩, sdo := [b] }
  | _ => p

/-- SCS goes HIGH: no exchange is in progress, and SDO carried the status byte and then the given bytes (R160). -/
def HostPort.endExchange (statusByte : Byte) (bytes : List Byte) (p : HostPort) : HostPort :=
  { p with exchange := none, sdo := statusByte :: bytes }

/-- The lowest-numbered EMPTY slot (R162). -/
def HostPort.emptySlot? (p : HostPort) : Option (Fin 4) :=
  (List.finRange 4).find? fun i => p.slots.get i == .empty

/-- A command frame is placed in a slot, which becomes QUEUED, and takes the next place in acceptance order (R162). -/
def HostPort.accept (i : Fin 4) (f : CmdFrame) (p : HostPort) : HostPort :=
  { p with
    slots := p.slots.set i.val (.queued f) i.isLt
    acceptance := p.acceptance ++ [i]
    lastError := .none }

/-- The tests of a WRITE COMMAND exchange at its end, and what follows each (R162). -/
def HostPort.writeCommand (bytes : List Byte) (extraBits : Nat) (p : HostPort) : HostPort :=
  match readCommandFrame? bytes extraBits with
  | none => { p.setAlarm .frameError with lastError := .frame }
  | some f =>
    match p.emptySlot? with
    | none => { p.setAlarm .slotsExhausted with lastError := .slots }
    | some i => p.accept i f

/-- The end of a WRITE COMMAND: the frame is tested against the slots as they are then; SDO carried filler after the
status byte (R162). -/
def HostPort.closeWrite (extraBits : Nat) (bytes : List Byte) (p : HostPort) : HostPort :=
  match p.exchange with
  | some ⟨b, .writing⟩ => (p.writeCommand bytes extraBits).endExchange b (List.replicate bytes.length 0)
  | _ => p

/-- WRITE_COMMAND (R162). -/
def execWriteCommand (part : ExchangePart (List Byte)) (extraBits : Nat) (s : State) :
    Host.Outcome State Fault Refusal :=
  .next (s.exchange (HostPort.takeKind (some .writeCommand)) (HostPort.closeWrite extraBits) part)

/-- A slot becomes EMPTY and leaves the acceptance order (R163, R165). -/
def HostPort.emptySlot (i : Fin 4) (p : HostPort) : HostPort :=
  { p with slots := p.slots.set i.val .empty i.isLt, acceptance := p.acceptance.filter fun j => j != i }

/-- The first n bytes of a frame, with filler beyond its end (R165, R194). -/
def withFiller (n : Nat) (frame : List Byte) : List Byte :=
  frame.take n ++ List.replicate (n - frame.length) 0

/-- What a READ RESPONSE sends after the status byte, for the number of bytes clocked: the chosen response with filler
beyond its end, or the empty marker 00H and filler (R165, R194). -/
def responseBytes (clocked : Nat) (chosen : Option (Option (Fin 4) × Response)) : List Byte :=
  match chosen with
  | some (_, r) => withFiller clocked r.frame
  | none => List.replicate clocked 0

/-- The slot that the end of a READ RESPONSE empties: the one that holds the response chosen, if the last byte of its check
was sent and no reset has discarded it (R165, R173). -/
def HostPort.readWhole? (clocked : Nat) (chosen : Option (Option (Fin 4) × Response)) (p : HostPort) :
    Option (Fin 4) :=
  match chosen with
  | some (some i, r) => if r.frame.length ≤ clocked ∧ p.slots.get i = .answered r then some i else none
  | _ => none

/-- The slot of a response that was read whole is emptied (R165). -/
def HostPort.emptyRead (clocked : Nat) (chosen : Option (Option (Fin 4) × Response)) (p : HostPort) : HostPort :=
  match p.readWhole? clocked chosen with
  | some i => p.emptySlot i
  | none => p

/-- The end of a READ RESPONSE: the last exchange error becomes NONE (R161, R165). -/
def HostPort.closeRead (clocked : Nat) (p : HostPort) : HostPort :=
  match p.exchange with
  | some ⟨b, .reading chosen⟩ =>
    { (p.emptyRead clocked chosen).endExchange b (responseBytes clocked chosen) with lastError := .none }
  | _ => p

/-- READ_RESPONSE (R165). -/
def execReadResponse (part : ExchangePart Nat) (s : State) : Host.Outcome State Fault Refusal :=
  .next (s.exchange (HostPort.takeKind (some .readResponse)) HostPort.closeRead part)

/-- The end of a READ STATUS: SDO carried the status byte, repeated for every byte clocked beyond it; nothing else changes
(R161). -/
def HostPort.closeStatus (clocked : Nat) (p : HostPort) : HostPort :=
  match p.exchange with
  | some ⟨b, .status⟩ => p.endExchange b (List.replicate clocked b)
  | _ => p

/-- READ_STATUS (R161). -/
def execReadStatus (part : ExchangePart Nat) (s : State) : Host.Outcome State Fault Refusal :=
  .next (s.exchange (HostPort.takeKind (some .readStatus)) HostPort.closeStatus part)

/-- The end of an exchange with an unknown kind byte: the last exchange error becomes FRAME; SDO carried filler after the
status byte (R160, R161; log 5). -/
def HostPort.closeUnknown (clocked : Nat) (p : HostPort) : HostPort :=
  match p.exchange with
  | some ⟨b, .ignored⟩ => { p.endExchange b (List.replicate clocked 0) with lastError := .frame }
  | _ => p

/-- The end of an exchange before its kind byte is complete: the exchange is ignored (R160). -/
def HostPort.closeEarly (p : HostPort) : HostPort :=
  match p.exchange with
  | some ⟨_, .kindByte⟩ => { p with exchange := none }
  | _ => p

/-- UNKNOWN_KIND_BYTE (R160), or an exchange that ends before its kind byte is complete. A kind byte that is known is
another command. -/
def execUnknownKindByte (kind : Option Byte) (part : ExchangePart Nat) (s : State) :
    Host.Outcome State Fault Refusal :=
  .next (match kind with
    | none => s.exchange id (fun _ => HostPort.closeEarly) part
    | some k =>
      match exchangeKind? k with
      | some _ => s
      | none => s.exchange (HostPort.takeKind none) HostPort.closeUnknown part)

/-! ### The configuration store (R170) -/

/-- The value of each item, in code order (Table 13-8). -/
def ConfigStore.values (c : ConfigStore) : List Nat :=
  [c.tickPeriod.code, c.leaseLength, c.quarHold, c.missLimit, c.retryLimit, c.backoff, c.holdOff,
    c.rates.a.code, c.rates.b.code, c.policies.a.code, c.policies.b.code, c.enables.toNat,
    if c.changeAttention then 1 else 0]

/-- The payload of CONFIGURE: every item in code order (Table 13-5). -/
def ConfigStore.bytes (c : ConfigStore) : List Byte := c.values.flatMap be16

/-- The store with one item written; none for an unknown code or a value outside the item's range (R170, Table
13-8). -/
def ConfigStore.write? (c : ConfigStore) (item : Byte × Nat) : Option ConfigStore :=
  let v := item.2
  match item.1.toNat with
  | 0x01 => (TickPeriod.ofCode? v).map fun p => { c with tickPeriod := p }
  | 0x02 => if 1 ≤ v ∧ v ≤ 65535 then some { c with leaseLength := v } else none
  | 0x03 => if 1 ≤ v ∧ v ≤ 255 then some { c with quarHold := v } else none
  | 0x04 => if 1 ≤ v ∧ v ≤ 15 then some { c with missLimit := v } else none
  | 0x05 => if 1 ≤ v ∧ v ≤ 7 then some { c with retryLimit := v } else none
  | 0x06 => if 1 ≤ v ∧ v ≤ 255 then some { c with backoff := v } else none
  | 0x07 => if 1 ≤ v ∧ v ≤ 15 then some { c with holdOff := v } else none
  | 0x08 => (Rate.ofCode? v).map fun r => { c with rates := c.rates.set .A r }
  | 0x09 => (Rate.ofCode? v).map fun r => { c with rates := c.rates.set .B r }
  | 0x0A => (CallPolicy.ofCode? v).map fun p => { c with policies := c.policies.set .A p }
  | 0x0B => (CallPolicy.ofCode? v).map fun p => { c with policies := c.policies.set .B p }
  | 0x0C => (alarmSetOf? v).map fun a => { c with enables := a }
  | 0x0D => if v ≤ 1 then some { c with changeAttention := v == 1 } else none
  | _ => none

/-- Every item written, or none where one item fails (R170). -/
def ConfigStore.writeAll? (c : ConfigStore) : List (Byte × Nat) → Option ConfigStore
  | [] => some c
  | i :: is =>
    match c.write? i with
    | some c' => c'.writeAll? is
    | none => none

/-- Whether an item code stands twice in a list (R170). -/
def hasRepeat : List Byte → Bool
  | [] => false
  | c :: cs => cs.contains c || hasRepeat cs

/-- Whether a list writes the rate of a line that is not OFF (R170). -/
def State.rateBlocked (s : State) (items : List (Byte × Nat)) : Bool :=
  items.any fun i =>
    (i.1 == 0x08 && (s.line .A).state != .off) || (i.1 == 0x09 && (s.line .B).state != .off)

/-- The checks and writes of CONFIGURE; its payload is the whole store after the command, whatever the status
(R170). -/
def State.configureStore (s : State) (items : List (Byte × Nat)) : State × Reply :=
  match s.cfg.writeAll? items with
  | none => (s, ⟨.badArgument, s.cfg.bytes⟩)
  | some c =>
    if hasRepeat (items.map Prod.fst) then (s, ⟨.badArgument, s.cfg.bytes⟩)
    else if s.rateBlocked items then (s, ⟨.state, s.cfg.bytes⟩)
    else ({ s with cfg := c }, ⟨.ok, c.bytes⟩)

/-- The clamp of a record's miss count to a limit (R26). -/
def Slot.clampMiss (limit : Nat) (x : Slot) : Slot :=
  match x.content with
  | some r => { x with content := some { r with missCount := min r.missCount limit } }
  | none => x

/-- Every record whose miss count exceeds the limit has it set to the limit (R26); nothing is marked. -/
def State.clampMisses (s : State) (limit : Nat) : State :=
  { s with dir := { s.dir with slots := s.dir.slots.map (Slot.clampMiss limit) } }

/-- CONFIGURE as a directory claim: the checks and the writes, and where it passes the clamp to the new limit
(R26, R170). -/
def State.configureClaim (s : State) (items : List (Byte × Nat)) : State × Reply :=
  match s.configureStore items with
  | (t, r) => if r.status = .ok then (t.clampMisses t.cfg.missLimit, r) else (t, r)

/-! ### Alarms (R167) -/

/-- READ ALARMS: the flags, the enables and the change attention enable (R167). -/
def State.readAlarms (s : State) : Reply :=
  ⟨.ok, AlarmSet.bytes s.host.flags ++ AlarmSet.bytes s.cfg.enables ++ [flagByte s.cfg.changeAttention]⟩

/-- ACK ALARMS: the named flags are cleared and the flags as they then stand are returned; a field with one of bits
9..15 set clears nothing and still returns them (R167, R195). -/
def State.ackAlarms (s : State) (flags : Nat) : State × Reply :=
  match alarmSetOf? flags with
  | none => (s, ⟨.badArgument, AlarmSet.bytes s.host.flags⟩)
  | some a =>
    (s.modHost fun p => { p with flags := p.flags &&& ~~~a },
      ⟨.ok, AlarmSet.bytes (s.host.flags &&& ~~~a)⟩)

/-! ### The beginning of a command (R164) -/

/-- The command that would be begun: no slot is ACTIVE, and it is the QUEUED command oldest in acceptance order
(R164). -/
def HostPort.nextQueued? (p : HostPort) : Option (Fin 4 × CmdFrame) :=
  match p.activeSlot? with
  | some _ => none
  | none =>
    p.acceptance.findSome? fun i =>
      match p.slots.get i with
      | .queued f => some (i, f)
      | _ => none

/-- A command the host port carries out itself (R164). The other commands are claims and are not carried out here. -/
def State.runLocal (s : State) : HostCmd → State × Reply
  | .readAlarms => (s, s.readAlarms)
  | .ackAlarms flags => s.ackAlarms flags
  | .configure items => s.configureStore items
  | _ => (s, Reply.bare .badArgument)

/-- A local command is begun and completes at once (R164). -/
def State.completeLocal (x : State × Reply) (i : Fin 4) (tag : Byte) : State := x.1.answerSlot i tag x.2

/-- The response to a frame with an unknown code or a wrong operand length: BAD_ARGUMENT (R164, R195). The responses of
CONFIGURE and ACK ALARMS carry their payload whatever the status (R174; log 16). -/
def State.badFrameReply (s : State) (f : CmdFrame) : Reply :=
  if f.code = 0x19 then ⟨.badArgument, s.cfg.bytes⟩
  else if f.code = 0x10 then ⟨.badArgument, AlarmSet.bytes s.host.flags⟩
  else .bare .badArgument

/-- A directory command is begun: its slot becomes ACTIVE, which is the host port's claim, stop due of the lines is kept with
it, and the arbiter grants (R164, R180, R19, R20). -/
def State.beginClaim (s : State) (i : Fin 4) (f : CmdFrame) : State :=
  (s.modHost fun p => { p with slots := p.slots.set i.val (.active f s.stopsDue) i.isLt }).grant

/-- COMMAND_BEGIN (R164): the oldest QUEUED command is begun, when no slot is ACTIVE. -/
def execCommandBegin (s : State) : Host.Outcome State Fault Refusal :=
  .next (match s.host.nextQueued? with
    | none => s
    | some (i, f) =>
      match parseCommand? f with
      | none => s.answerSlot i f.tag (s.badFrameReply f)
      | some c => if c.isLocal then State.completeLocal (s.runLocal c) i f.tag else s.beginClaim i f)

/-- READ_ALARMS (R167): the command that would be begun next is READ ALARMS; it is begun and completes at once. -/
def execReadAlarms (s : State) : Host.Outcome State Fault Refusal :=
  .next (match s.host.nextQueued? with
    | none => s
    | some (i, f) =>
      match parseCommand? f with
      | some .readAlarms => State.completeLocal (s, s.readAlarms) i f.tag
      | _ => s)

/-- ACK_ALARMS (R167): the command that would be begun next is ACK ALARMS; it is begun and completes at once. -/
def execAckAlarms (s : State) : Host.Outcome State Fault Refusal :=
  .next (match s.host.nextQueued? with
    | none => s
    | some (i, f) =>
      match parseCommand? f with
      | some (.ackAlarms flags) => State.completeLocal (s.ackAlarms flags) i f.tag
      | _ => s)

/-- CONFIGURE (R170): as a claim where it carries a miss limit item and has been granted; otherwise the command that
would be begun next is a local CONFIGURE, which is begun and completes at once (R164). -/
def execConfigure (s : State) : Host.Outcome State Fault Refusal :=
  .next (match s.hostClaim? with
    | some (.configure items) => State.completeHost (s.configureClaim items)
    | _ =>
      match s.host.nextQueued? with
      | none => s
      | some (i, f) =>
        match parseCommand? f with
        | some (.configure items) =>
          if (HostCmd.configure items).isLocal then State.completeLocal (s.configureStore items) i f.tag else s
        | _ => s)

end Sys2Proof.Machine
end

