-- ==== Sys2Proof/Machine/Presence.lean ====
section
/-! DEFINITION. The claims of polls: PRESENCE_CLAIM, MISS_CLAIM, MISS_LIMIT (Chapter 5). -/

namespace Sys2Proof.Machine

/-- The record a claim of a poll concerns, if it still stands as it stood when the poll began: its slot holds a record
of the reference's generation, on the line, that holds the station as HELD (R98, R123). -/
def State.polledRecord? (s : State) (l : Line) (st : Station) (ref : Ref) : Option Record :=
  match s.current? ref with
  | some r => if r.line = l ∧ r.station = st ∧ s.mapAt l st = .held ref.handle then some r else none
  | none => none

/-- BOUND, QUIET or MOVING: the states whose station is polled and whose presences and misses count (R98). -/
def RecState.inService : RecState → Bool
  | .bound => true
  | .quiet => true
  | .moving _ => true
  | _ => false

/-- A presence is applied to a record: the miss count becomes 0, and a QUIET record becomes BOUND with STATE marked
(R98). -/
def State.applyPresence (s : State) (h : Handle) (r : Record) : State :=
  if r.state = .quiet then
    (s.setRecord h { r with missCount := 0, state := .bound }).mark h ChangeMask.state
  else s.setRecord h { r with missCount := 0 }

/-- The miss count after a miss: one more, but not beyond the limit, in every state that takes a miss (R98); so it is
for a QUIET record whose count is below the limit, after CONFIGURE has raised it, where R36 has the count at the limit
(log 32). -/
def State.missed (s : State) (r : Record) : Nat := satInc s.arb.grantCfg.missLimit r.missCount

/-- Whether a miss makes the record QUIET (R98). -/
def State.fallsQuiet (s : State) (r : Record) : Bool :=
  r.state == .bound && decide (s.arb.grantCfg.missLimit ≤ s.missed r)

/-- A miss is applied to a record: the miss count rises by 1, but not beyond the miss limit, and a BOUND record whose
count is then at the limit becomes QUIET with STATE marked (R98). -/
def State.applyMiss (s : State) (h : Handle) (r : Record) : State :=
  if s.fallsQuiet r then
    (s.setRecord h { r with missCount := s.missed r, state := .quiet }).mark h ChangeMask.state
  else s.setRecord h { r with missCount := s.missed r }

/-- A presence claim (R98): without effect where a test fails. -/
def State.presence (s : State) (l : Line) (st : Station) (ref : Ref) : State :=
  match s.polledRecord? l st ref with
  | some r => if r.state.inService then s.applyPresence ref.handle r else s
  | none => s

/-- A miss claim (R98): without effect where a test fails. -/
def State.miss (s : State) (l : Line) (st : Station) (ref : Ref) : State :=
  match s.polledRecord? l st ref with
  | some r => if r.state.inService then s.applyMiss ref.handle r else s
  | none => s

/-- PRESENCE_CLAIM (R98). -/
def execPresenceClaim (s : State) : Host.Outcome State Fault Refusal :=
  .next (match s.lineClaim? with
    | some (l, .presence st ref) => (s.presence l st ref).completeLine l
    | _ => s)

/-- MISS_CLAIM (R98). -/
def execMissClaim (s : State) : Host.Outcome State Fault Refusal :=
  .next (match s.lineClaim? with
    | some (l, .miss st ref) => (s.miss l st ref).completeLine l
    | _ => s)

/-- MISS_LIMIT (R98): the granted miss claim that makes a BOUND record QUIET (log 14). -/
def execMissLimit (s : State) : Host.Outcome State Fault Refusal :=
  .next (match s.lineClaim? with
    | some (l, .miss st ref) =>
      match s.polledRecord? l st ref with
      | some r => if s.fallsQuiet r then (s.miss l st ref).completeLine l else s
      | none => s
    | _ => s)

end Sys2Proof.Machine
end

