-- ==== Sys2Proof/Machine/RecordCommands.lean ====
section
/-! DEFINITION. The host commands that act on records and searches: RESERVE, PIN, UNPIN, RETIRE, REASSIGN, PURGE,
LOOKUP, FIND, SET_LEASE, SET_GROUPS, SET_GROUP_LIMIT, SET_TAG, NEXT_CHANGE, ACK_CHANGE (Chapters 1, 2, 3, 8, 9, 11,
12). Each is a function from the command's operands to the state and the reply its claim leaves; the meaning carries
out the granted claim of the host port and completes it. -/

namespace Sys2Proof.Machine

/-! ### References (R3, R10, R11) -/

/-- A command refused with STALE: nothing changes but the stale-reference counter (R11, R174). -/
def State.staleReply (s : State) : State × Reply :=
  ({ s with dir := { s.dir with staleRef := satInc16 s.dir.staleRef } }, .bare .stale)

/-- A command that names a record: the reference is resolved and the command acts on the record found (R3, R10, R11,
R195). -/
def State.withReference (s : State) (r : RefOperand) (act : Handle → Record → State × Reply) :
    State × Reply :=
  match r with
  | .badForm => (s, .bare .badArgument)
  | .identity id =>
    if identityInvalid id then (s, .bare .badArgument)
    else
      match s.lookup? id with
      | none => (s, .bare .notFound)
      | some h =>
        match s.record? h with
        | none => (s, .bare .notFound)
        | some rec => act h rec
  | .handle h g =>
    match s.current? { handle := h, gen := g } with
    | none => s.staleReply
    | some rec => act h rec

/-! ### RESERVE (R175, R176) -/

/-- The record RESERVE creates (R176). -/
def Record.reserved (id : Identity) (l : Line) (st : Station) (lease : Nat) : Record :=
  { identity := id
    state := .reserved
    pinned := true
    line := l
    station := st
    leaseLength := lease
    leaseRemaining := lease
    missCount := 0
    joinCount := 0
    caps := []
    groups := 0
    tag := none
    outcome := .none
    requestPending := false }

/-- A RESERVE whose checks have passed: placement, the HELD entry, and the payload (R176). A lease length operand of
0000H is absent and takes the default (R25, Table 13-5). -/
def State.reserveAt (s : State) (id : Identity) (l : Line) (h : Handle) (st : Station) (lease : Nat) :
    State × Reply :=
  let len := if lease = 0 then s.arb.grantCfg.leaseLength else lease
  ((s.placeRecord h (Record.reserved id l st len)).setMap l st (.held h),
    ⟨.ok, [handleByte h, (s.slot h).gen, stationByte st]⟩)

/-- RESERVE with its line and station operands decoded: identity, set and station are checked in this order (R175). The
station operand 00H is ANY (R195). -/
def State.reserveOn (s : State) (id : Identity) (l : Line) (station : Option Station) (lease : Nat) :
    State × Reply :=
  match s.lookup? id with
  | some _ => (s, .bare .duplicate)
  | none =>
    match s.freeWay? id with
    | none => ({ s with dir := { s.dir with setFull := satInc16 s.dir.setFull } }, .bare .full)
    | some h =>
      match station with
      | some st =>
        if s.mapAt l st = .free then s.reserveAt id l h st lease else (s, .bare .stationBusy)
      | none =>
        match s.freeStation? l with
        | some st => s.reserveAt id l h st lease
        | none => (s, .bare .noStation)

/-- RESERVE: the operand checks (R175 step 1, R3, R15), then the rest. -/
def State.reserve (s : State) (id : Identity) (line st : Byte) (lease : Nat) : State × Reply :=
  if identityInvalid id then (s, .bare .badArgument)
  else
    match lineOf? line with
    | none => (s, .bare .badArgument)
    | some l =>
      if st = 0 then s.reserveOn id l none lease
      else
        match stationOf? st with
        | none => (s, .bare .badArgument)
        | some st => s.reserveOn id l (some st) lease

/-! ### PIN and UNPIN (R39, R40) -/

/-- PIN: taken in BOUND and QUIET (R39). -/
def State.pinCommand (s : State) (r : RefOperand) : State × Reply :=
  s.withReference r fun h rec =>
    match rec.state with
    | .bound => (s.setRecord h { rec with pinned := true }, .bare .ok)
    | .quiet => (s.setRecord h { rec with pinned := true }, .bare .ok)
    | _ => (s, .bare .state)

/-- UNPIN: a record not pinned gives STATE; a RESERVED one is freed, its station QUARANTINED where its join count is
above 0 and FREE otherwise; any other loses its pin (R40). -/
def State.unpinCommand (s : State) (r : RefOperand) : State × Reply :=
  s.withReference r fun h rec =>
    if !rec.pinned then (s, .bare .state)
    else
      match rec.state with
      | .reserved =>
        let s1 := if 0 < rec.joinCount then s.quarantine rec.line rec.station none
          else s.setMap rec.line rec.station .free
        (s1.freeByHost h, .bare .ok)
      | _ => (s.setRecord h { rec with pinned := false }, .bare .ok)

/-! ### RETIRE (R144 to R146) -/

/-- Whether the record's REASSIGN order is WAITING or CONCLUDING, so that its withdrawal frees its entry at once (R144
step 4). -/
def State.reassignFreesEntry (s : State) (h : Handle) (l : Line) : Bool :=
  match (s.line l).liveOrder? .reassign (s.refOf h) with
  | some o => o.progress != .sending
  | none => false

/-- Whether the line engine can take a RELEASE for the record (R144 step 4). -/
def State.canTakeRelease (s : State) (h : Handle) (rec : Record) : Bool :=
  match rec.state with
  | .moving _ => decide (0 < (s.line rec.line).freeCount) || s.reassignFreesEntry h rec.line
  | _ => decide (0 < (s.line rec.line).freeCount)

/-- The record becomes RETIRING and its RELEASE order is placed (R146). -/
def State.placeRelease (s : State) (h : Handle) (l : Line) (dest : Dest) : State :=
  (s.modRecord h fun r => { r with state := .retiring }).modLine l
    (LineEngine.place (Order.fresh (some (s.refOf h)) dest .release s.arb.grantCfg.retryLimit false))

/-- A RETIRE that has passed its checks, with FORGET applied (R145, R146). -/
def State.retireTaken (s : State) (h : Handle) (rec : Record) : State × Reply :=
  match rec.state with
  | .joining => (s.endRecord h .joinAbandoned, .bare .ok)
  | .moving t =>
    let sent := s.moveSent h
    let s1 := s.abandonMove h rec.line t
    (s1.placeRelease h rec.line (if sent then .pair rec.station t else .station rec.station),
      .bare .accepted)
  | _ => (s.placeRelease h rec.line (.station rec.station), .bare .accepted)

/-- RETIRE: the option, the reference, the record's state, its line and the queue are checked in this order; then
FORGET clears the pin and the retirement is carried out (R144). -/
def State.retireCommand (s : State) (r : RefOperand) (option : Byte) : State × Reply :=
  if option ≠ 0 ∧ option ≠ 1 then (s, .bare .badArgument)
  else
    s.withReference r fun h rec =>
      match rec.state with
      | .reserved => (s, .bare .state)
      | .retiring => (s, .bare .state)
      | .lapsed => (s, .bare .state)
      | st =>
        if !(s.line rec.line).state.isUp then (s, .bare .lineDown)
        else if st ≠ .joining ∧ !s.canTakeRelease h rec then (s, .bare .lineBusy)
        else
          let rec1 := if option = 1 then { rec with pinned := false } else rec
          (s.setRecord h rec1).retireTaken h rec1

/-! ### REASSIGN (R137, R138) -/

/-- A REASSIGN that has passed its checks: MOVING, the TARGET entry, and the REASSIGN order (R138). -/
def State.reassignTaken (s : State) (h : Handle) (rec : Record) (target : Station) : State :=
  ((s.setRecord h { rec with state := .moving target }).setMap rec.line target (.target h)).modLine rec.line
    (LineEngine.place (Order.fresh (some (s.refOf h)) (.station rec.station) (.reassign target)
      s.arb.grantCfg.retryLimit false))

/-- REASSIGN: the seven checks of R137, in order. -/
def State.reassignCommand (s : State) (r : RefOperand) (target : Byte) : State × Reply :=
  match stationOf? target with
  | none => (s, .bare .badArgument)
  | some t =>
    s.withReference r fun h rec =>
      if rec.state ≠ .bound then (s, .bare .state)
      else if t = rec.station then (s, .bare .badArgument)
      else if !(s.line rec.line).state.isUp then (s, .bare .lineDown)
      else if s.mapAt rec.line t ≠ .free then (s, .bare .stationBusy)
      else if (s.line rec.line).freeCount = 0 then (s, .bare .lineBusy)
      else (s.reassignTaken h rec t, .bare .accepted)

/-! ### PURGE (R177) -/

/-- PURGE: a LAPSED record's quarantine entry loses its reference and the record is freed (R177). -/
def State.purgeCommand (s : State) (r : RefOperand) : State × Reply :=
  s.withReference r fun h rec =>
    match rec.state with
    | .lapsed => ((s.dropQuarRef rec.line (s.refOf h)).freeByHost h, .bare .ok)
    | _ => (s, .bare .state)

/-! ### LOOKUP (R47, R178, R196) -/

/-- The role byte of a snapshot (Table 13-7). -/
inductive Role where
  | none
  | held
  | target
  deriving DecidableEq, Repr

def Role.code : Role → Byte
  | .none => 0
  | .held => 1
  | .target => 2

/-- The target station of a MOVING record. -/
def RecState.target? : RecState → Option Station
  | .moving t => some t
  | _ => none

/-- The snapshot of a record (Table 13-7). -/
def State.snapshot (s : State) (h : Handle) (rec : Record) (role : Role) : List Byte :=
  let moving := rec.state.target?
  let flags : Byte :=
    (0#3 ++ BitVec.ofBool rec.tag.isSome ++ BitVec.ofBool (rec.state == .lapsed)
      ++ BitVec.ofBool (moving.isSome && s.moveSent h) ++ BitVec.ofBool rec.requestPending
      ++ BitVec.ofBool rec.pinned)
  [handleByte h, (s.slot h).gen] ++ identityBytes rec.identity ++ [rec.state.code, flags]
    ++ [lineByte rec.line, stationByte rec.station, (moving.map stationByte).getD 0, role.code]
    ++ be16 rec.leaseLength ++ be16 rec.leaseRemaining
    ++ [byteOf rec.missCount, byteOf rec.joinCount, rec.outcome.code, (s.slot h).mask.byte]
    ++ be16 rec.groups.toNat ++ [byteOf rec.caps.length] ++ capsBytes rec.caps
    ++ [byteOf (rec.tag.getD []).length] ++ rec.tag.getD []

/-- LOOKUP by reference, or by line and station (R16, R178). -/
def State.lookupCommand (s : State) : LookupOperand → State × Reply
  | .ref r => s.withReference r fun h rec => (s, ⟨.ok, s.snapshot h rec .none⟩)
  | .station line st =>
    match lineOf? line, stationOf? st with
    | some l, some st =>
      match s.resolveStation? l st with
      | none => (s, .bare .notFound)
      | some (h, isTarget) =>
        match s.record? h with
        | none => (s, .bare .notFound)
        | some rec => (s, ⟨.ok, s.snapshot h rec (if isTarget then .target else .held)⟩)
    | _, _ => (s, .bare .badArgument)

/-! ### FIND (R155) -/

/-- The records a host FIND admits: BOUND, QUIET and MOVING (R154). -/
def Record.foundByHost (c : Byte) (r : Record) : Bool := r.state.leaseRuns && r.matchesClass c

/-- The matches of a host search from a start point: the start line from the start station upward, and, where that is
line A, line B from station 1 (R155). -/
def State.hostMatches (s : State) (c : Byte) (l : Line) (st : Station) : List (Line × Station × Handle) :=
  (s.search l (st.val + 1) (Record.foundByHost c)).map (fun x => (l, x.1, x.2))
    ++ match l with
      | .A => (s.search .B 1 (Record.foundByHost c)).map (fun x => (.B, x.1, x.2))
      | .B => []

/-- The payload of FIND: the first 8 matches and the continuation point, which is the ninth match (R155, Table 13-5). The
continuation flag is 00H where there is none (R195), and 01H where there is one (log 30). -/
def State.findPayload (s : State) (ms : List (Line × Station × Handle)) : List Byte :=
  [byteOf (ms.take 8).length]
    ++ (ms.take 8).flatMap (fun m => [lineByte m.1, stationByte m.2.1, handleByte m.2.2, (s.slot m.2.2).gen])
    ++ match ms[8]? with
      | some m => [1, lineByte m.1, stationByte m.2.1]
      | none => [0, 0, 0]

/-- FIND (R155). An END response carries no payload. -/
def State.findCommand (s : State) (cls line st : Byte) : State × Reply :=
  if cls = 0x00 ∨ cls = 0xFF then (s, .bare .badArgument)
  else
    match lineOf? line, stationOf? st with
    | some l, some st =>
      match s.hostMatches cls l st with
      | [] => (s, .bare .endOfList)
      | ms => (s, ⟨.ok, s.findPayload ms⟩)
    | _, _ => (s, .bare .badArgument)

/-! ### SET LEASE (R58, R179) -/

/-- The record after SET LEASE (R58). -/
def Record.setLease (r : Record) (len : Nat) (renewNow : Bool) : Record :=
  { r with
    leaseLength := len
    leaseRemaining :=
      match r.state with
      | .reserved => len
      | .lapsed => 0
      | _ => if renewNow then len else min r.leaseRemaining len }

/-- SET LEASE (R179). -/
def State.setLeaseCommand (s : State) (r : RefOperand) (lease : Nat) (option : Byte) : State × Reply :=
  if lease = 0 ∨ 65535 < lease ∨ (option ≠ 0 ∧ option ≠ 1) then (s, .bare .badArgument)
  else
    s.withReference r fun h rec =>
      let rec1 := rec.setLease lease (option == 1)
      (s.setRecord h rec1, ⟨.ok, be16 rec1.leaseLength ++ be16 rec1.leaseRemaining⟩)

/-! ### Groups and tags (R157 to R159) -/

/-- Whether an addition to a group would exceed its non-zero limit (R157). -/
def GroupEntry.refusesAddition (g : GroupEntry) : Bool := g.limit != 0 && decide (g.limit < g.count + 1)

/-- Whether one of the groups added to a record's set refuses the addition (R157). -/
def groupsRefuse (v : Vector GroupEntry 16) (old new : BitVec 16) : Bool :=
  (List.finRange 16).any fun g => new.getLsbD g.val && !old.getLsbD g.val && (v.get g).refusesAddition

/-- The member counts after a record's group set changes (R156, R157). -/
def changeMembers (v : Vector GroupEntry 16) (old new : BitVec 16) : Vector GroupEntry 16 :=
  Vector.ofFn fun g : Fin 16 =>
    let e := v.get g
    if new.getLsbD g.val && !old.getLsbD g.val then { e with count := e.count + 1 }
    else if old.getLsbD g.val && !new.getLsbD g.val then { e with count := e.count - 1 }
    else e

/-- SET GROUPS (R157). -/
def State.setGroupsCommand (s : State) (r : RefOperand) (groups : BitVec 16) : State × Reply :=
  s.withReference r fun h rec =>
    if groupsRefuse s.dir.groups rec.groups groups then (s, .bare .groupFull)
    else
      let s1 := s.setRecord h { rec with groups := groups }
      ({ s1 with dir := { s1.dir with groups := changeMembers s1.dir.groups rec.groups groups } }, .bare .ok)

/-- SET GROUP LIMIT (R158). A limit byte is always in 0..255. -/
def State.setGroupLimitCommand (s : State) (group limit : Byte) : State × Reply :=
  if h : group.toNat < 16 then
    let e := s.dir.groups.get ⟨group.toNat, h⟩
    if limit ≠ 0 ∧ limit.toNat < e.count then (s, .bare .badArgument)
    else
      ({ s with dir := { s.dir with
          groups := s.dir.groups.set group.toNat { e with limit := limit.toNat } h } }, .bare .ok)
  else (s, .bare .badArgument)

/-- SET TAG (R159): a length of 0 removes the tag. A length above 12 gives BAD_ARGUMENT before the reference is resolved
(R174; log 31). -/
def State.setTagCommand (s : State) (r : RefOperand) (bytes : List Byte) : State × Reply :=
  if 12 < bytes.length then (s, .bare .badArgument)
  else
    s.withReference r fun h rec =>
      (s.setRecord h { rec with tag := if bytes = [] then none else some bytes }, .bare .ok)

/-! ### The change set (R186 to R188) -/

/-- The generation a slot's notice reports (R186). -/
def Slot.noticeGen (x : Slot) : Gen := if x.content.isSome then x.gen else x.gen - 1

/-- The payload of a notice (R186, Table 13-5). -/
def Slot.notice (x : Slot) (h : Handle) : List Byte :=
  [handleByte h, x.noticeGen, x.mask.byte]
    ++ match x.content with
      | some r =>
        [r.state.code, stationByte r.station, flagByte (r.state == .lapsed), r.outcome.code]
          ++ identityBytes r.identity
      | none =>
        [0, 0, 0, (x.keptOutcome.getD .none).code] ++ identityBytes (x.lastIdentity.getD 0)

/-- NEXT CHANGE (R187). -/
def State.nextChangeCommand (s : State) : State × Reply :=
  match s.dir.changeSet with
  | [] => (s, .bare .endOfList)
  | h :: _ => (s, ⟨.ok, (s.slot h).notice h⟩)

/-- A notice is removed: its handle leaves the list, its mask becomes empty, and the changes-waiting indication is
cleared where the list becomes empty (R185, R188). -/
def State.acknowledge (s : State) (h : Handle) : State :=
  let s1 := s.setSlot h { s.slot h with mask := 0 }
  let rest := s.dir.changeSet.erase h
  { s1 with
    dir := { s1.dir with changeSet := rest }
    host := { s1.host with changesWaiting := !rest.isEmpty } }

/-- ACK CHANGE (R188). -/
def State.ackChangeCommand (s : State) (h : Handle) (g : Gen) : State × Reply :=
  if h ∈ s.dir.changeSet ∧ (s.slot h).noticeGen = g then (s.acknowledge h, .bare .ok) else s.staleReply

/-! ### The meanings -/

/-- RESERVE (R175, R176). -/
def execReserve (s : State) : Host.Outcome State Fault Refusal :=
  .next (match s.hostClaim? with
    | some (.reserve id line st lease) => State.completeHost (s.reserve id line st lease)
    | _ => s)

/-- PIN (R39). -/
def execPin (s : State) : Host.Outcome State Fault Refusal :=
  .next (match s.hostClaim? with
    | some (.pin r) => State.completeHost (s.pinCommand r)
    | _ => s)

/-- UNPIN (R40). -/
def execUnpin (s : State) : Host.Outcome State Fault Refusal :=
  .next (match s.hostClaim? with
    | some (.unpin r) => State.completeHost (s.unpinCommand r)
    | _ => s)

/-- RETIRE (R144 to R146). -/
def execRetire (s : State) : Host.Outcome State Fault Refusal :=
  .next (match s.hostClaim? with
    | some (.retire r option) => State.completeHost (s.retireCommand r option)
    | _ => s)

/-- REASSIGN (R137, R138). -/
def execReassign (s : State) : Host.Outcome State Fault Refusal :=
  .next (match s.hostClaim? with
    | some (.reassign r target) => State.completeHost (s.reassignCommand r target)
    | _ => s)

/-- PURGE (R177). -/
def execPurge (s : State) : Host.Outcome State Fault Refusal :=
  .next (match s.hostClaim? with
    | some (.purge r) => State.completeHost (s.purgeCommand r)
    | _ => s)

/-- LOOKUP (R178). -/
def execLookup (s : State) : Host.Outcome State Fault Refusal :=
  .next (match s.hostClaim? with
    | some (.lookup r) => State.completeHost (s.lookupCommand r)
    | _ => s)

/-- FIND (R155). -/
def execFind (s : State) : Host.Outcome State Fault Refusal :=
  .next (match s.hostClaim? with
    | some (.find cls line st) => State.completeHost (s.findCommand cls line st)
    | _ => s)

/-- SET_LEASE (R179). -/
def execSetLease (s : State) : Host.Outcome State Fault Refusal :=
  .next (match s.hostClaim? with
    | some (.setLease r lease option) => State.completeHost (s.setLeaseCommand r lease option)
    | _ => s)

/-- SET_GROUPS (R157). -/
def execSetGroups (s : State) : Host.Outcome State Fault Refusal :=
  .next (match s.hostClaim? with
    | some (.setGroups r groups) => State.completeHost (s.setGroupsCommand r groups)
    | _ => s)

/-- SET_GROUP_LIMIT (R158). -/
def execSetGroupLimit (s : State) : Host.Outcome State Fault Refusal :=
  .next (match s.hostClaim? with
    | some (.setGroupLimit group limit) => State.completeHost (s.setGroupLimitCommand group limit)
    | _ => s)

/-- SET_TAG (R159). -/
def execSetTag (s : State) : Host.Outcome State Fault Refusal :=
  .next (match s.hostClaim? with
    | some (.setTag r bytes) => State.completeHost (s.setTagCommand r bytes)
    | _ => s)

/-- NEXT_CHANGE (R187). -/
def execNextChange (s : State) : Host.Outcome State Fault Refusal :=
  .next (match s.hostClaim? with
    | some .nextChange => State.completeHost s.nextChangeCommand
    | _ => s)

/-- ACK_CHANGE (R188). -/
def execAckChange (s : State) : Host.Outcome State Fault Refusal :=
  .next (match s.hostClaim? with
    | some (.ackChange h g) => State.completeHost (s.ackChangeCommand h g)
    | _ => s)

end Sys2Proof.Machine
end

