-- ==== Sys2Proof/Machine/Requests.lean ====
section
/-! DEFINITION. The request claims: RENEW, LEAVE, RESOLVE, NODE_FIND, MEMBERS, CAPS_REQUEST (Chapter 7). -/

namespace Sys2Proof.Machine

/-- BOUND, QUIET, MOVING or RETIRING: the states in which a request is taken (R123). -/
def RecState.takesRequests : RecState → Bool
  | .retiring => true
  | st => st.inService

/-- The record of a request claim that passes its tests: the four of R123, and the reservation it carries stands, since a
claim whose reservation a withdrawal has released fails its tests (R30, R135). -/
def State.requester? (s : State) (l : Line) (st : Station) (ref : Ref) : Option Record :=
  match s.polledRecord? l st ref with
  | some r =>
    if r.state.takesRequests && (s.line l).reservations.contains (.poll ref) then some r else none
  | none => none

/-- A request claim that fails its tests: its reservation is released, unless a withdrawal has released it, and it is
counted (R123, R135). -/
def State.discardRequest (s : State) (l : Line) (ref : Ref) : State :=
  (s.modLine l (LineEngine.release (.poll ref))).bump l .requestsDiscarded

/-- The ANSWER fills the poll's reservation and the record has a request pending (R124, R131). -/
def State.answer (s : State) (l : Line) (st : Station) (ref : Ref) (code : Byte) (content : List Byte) : State :=
  (s.modRecord ref.handle fun r => { r with requestPending := true }).modLine l
    (LineEngine.fill (.poll ref)
      (Order.fresh (some ref) (.station st) (.answer code content) s.arb.grantCfg.retryLimit false))

/-- The terminal ANSWER to a LEAVE fills the poll's reservation; it is attributed to no record (R124, R131). -/
def State.answerLeave (s : State) (l : Line) (st : Station) (ref : Ref) : State :=
  s.modLine l (LineEngine.fill (.poll ref)
    (Order.fresh none (.station st) (.answer 0x02 []) s.arb.grantCfg.retryLimit true))

/-- The presence part of a request claim: not applied to a RETIRING record (R123). -/
def State.requestPresence (s : State) (h : Handle) (r : Record) : State :=
  if r.state.inService then s.applyPresence h r else s

/-- A request claim other than LEAVE (R123, R124): where it passes its tests it is counted, the presence is applied, the
request is handled, and the ANSWER carries the content the handling gives. -/
def State.requestClaim (s : State) (l : Line) (st : Station) (ref : Ref) (code : Byte)
    (handle : State → Record → State × List Byte) : State :=
  match s.requester? l st ref with
  | none => s.discardRequest l ref
  | some r =>
    let s1 := (s.bump l .requestsTaken).requestPresence ref.handle r
    let out := handle s1 r
    out.1.answer l st ref code out.2

/-! ### The kinds (R125 to R130) -/

/-- The granted ticks of a RENEW (R57, R125). -/
def Record.granted (r : Record) (ticks : Nat) : Nat :=
  if r.state = .retiring then 0 else if ticks = 0 then r.leaseLength else min ticks r.leaseLength

/-- RENEW: the lease remaining is set, except for a RETIRING record (R125). -/
def State.renewRequest (ref : Ref) (ticks : Nat) (s : State) (r : Record) : State × List Byte :=
  let g := r.granted ticks
  (if r.state = .retiring then s else s.modRecord ref.handle fun r => { r with leaseRemaining := g },
    be16 g ++ be16 r.leaseLength)

/-- The line, station and state class of a RESOLVE answer (R128, Table 13-3). -/
def State.resolveContent (s : State) (id : Identity) : List Byte :=
  if identityInvalid id then [0, 0, 3]
  else
    match (s.lookup? id).bind s.record? with
    | none => [0, 0, 3]
    | some r =>
      match r.state with
      | .lapsed => [0, 0, 3]
      | .bound => [lineByte r.line, stationByte r.station, 0]
      | .quiet => [lineByte r.line, stationByte r.station, 1]
      | _ => [lineByte r.line, stationByte r.station, 2]

/-- The answer to a FIND or a MEMBERS: the first 8 stations of the line from the start station whose BOUND records pass
the test, and whether a further match lies above (R129, Table 13-3). -/
def State.searchContent (s : State) (l : Line) (start : Byte) (valid : Bool) (test : Record → Bool) : List Byte :=
  if valid = false ∨ 126 < start.toNat then [0, 0]
  else
    let found := s.search l (max 1 start.toNat) fun r => r.state == .bound && test r
    [byteOf (found.take 8).length, flagByte (decide (8 < found.length))]
      ++ (found.take 8).map fun x => stationByte x.1

/-- CAPS: the list is taken in, and the number of entries kept is answered (R130). -/
def State.capsRequest (l : Line) (ref : Ref) (es : List CapEntry) (s : State) (_ : Record) : State × List Byte :=
  (s.takeCaps l ref.handle es, [byteOf (intake es).kept.length])

/-- What a LEAVE does to the record: a retirement concludes as RETIRED (R127); a move is abandoned first, and the record
ends as LEFT (R126). -/
def State.leaveRecord (s : State) (l : Line) (h : Handle) (r : Record) : State :=
  match r.state with
  | .retiring => s.endRecord h .retired
  | .moving t => (s.abandonMove h l t).endRecord h .left
  | _ => s.endRecord h .left

/-- A LEAVE claim (R123, R126, R127). -/
def State.leaveClaim (s : State) (l : Line) (st : Station) (ref : Ref) : State :=
  match s.requester? l st ref with
  | none => s.discardRequest l ref
  | some r => ((s.bump l .requestsTaken).leaveRecord l ref.handle r).answerLeave l st ref

/-! ### The meanings -/

/-- RENEW (R125). -/
def execRenew (s : State) : Host.Outcome State Fault Refusal :=
  .next (match s.lineClaim? with
    | some (l, .request st ref (.renew ticks)) =>
      (s.requestClaim l st ref 0x01 (State.renewRequest ref ticks)).completeLine l
    | _ => s)

/-- LEAVE (R126, R127). -/
def execLeave (s : State) : Host.Outcome State Fault Refusal :=
  .next (match s.lineClaim? with
    | some (l, .request st ref .leave) => (s.leaveClaim l st ref).completeLine l
    | _ => s)

/-- RESOLVE (R128). -/
def execResolve (s : State) : Host.Outcome State Fault Refusal :=
  .next (match s.lineClaim? with
    | some (l, .request st ref (.resolve id)) =>
      (s.requestClaim l st ref 0x03 fun s _ => (s, s.resolveContent id)).completeLine l
    | _ => s)

/-- NODE_FIND (R129). -/
def execNodeFind (s : State) : Host.Outcome State Fault Refusal :=
  .next (match s.lineClaim? with
    | some (l, .request st ref (.find cls start)) =>
      (s.requestClaim l st ref 0x04 fun s _ =>
        (s, s.searchContent l start (cls != 0x00 && cls != 0xFF) (Record.matchesClass cls))).completeLine l
    | _ => s)

/-- MEMBERS (R129). -/
def execMembers (s : State) : Host.Outcome State Fault Refusal :=
  .next (match s.lineClaim? with
    | some (l, .request st ref (.members group start)) =>
      (s.requestClaim l st ref 0x05 fun s _ =>
        (s, s.searchContent l start (decide (group.toNat ≤ 15)) (Record.matchesGroup group.toNat))).completeLine l
    | _ => s)

/-- CAPS_REQUEST (R130). -/
def execCapsRequest (s : State) : Host.Outcome State Fault Refusal :=
  .next (match s.lineClaim? with
    | some (l, .request st ref (.caps entries)) =>
      (s.requestClaim l st ref 0x06 (State.capsRequest l ref entries)).completeLine l
    | _ => s)

end Sys2Proof.Machine
end

