-- ==== Sys2Proof/Machine/Dispatch.lean ====
section
/-! DEFINITION. Which meaning each command has: one arm per constructor of Instr. -/

namespace Sys2Proof.Machine

/-- The effect of a command on everything but the queue. -/
def exec (i : Instr) (s : State) : Host.Outcome State Fault Refusal :=
  match i with
  | .rstAsserted => Sys2Proof.Machine.execRstAsserted s
  | .rstReleased scsLow => Sys2Proof.Machine.execRstReleased scsLow s
  | .writeCommand part extraBits => Sys2Proof.Machine.execWriteCommand part extraBits s
  | .readResponse part => Sys2Proof.Machine.execReadResponse part s
  | .readStatus part => Sys2Proof.Machine.execReadStatus part s
  | .unknownKindByte kind part => Sys2Proof.Machine.execUnknownKindByte kind part s
  | .commandBegin => Sys2Proof.Machine.execCommandBegin s
  | .reserve => Sys2Proof.Machine.execReserve s
  | .pin => Sys2Proof.Machine.execPin s
  | .unpin => Sys2Proof.Machine.execUnpin s
  | .retire => Sys2Proof.Machine.execRetire s
  | .reassign => Sys2Proof.Machine.execReassign s
  | .purge => Sys2Proof.Machine.execPurge s
  | .lookup => Sys2Proof.Machine.execLookup s
  | .find => Sys2Proof.Machine.execFind s
  | .setLease => Sys2Proof.Machine.execSetLease s
  | .setGroups => Sys2Proof.Machine.execSetGroups s
  | .setGroupLimit => Sys2Proof.Machine.execSetGroupLimit s
  | .setTag => Sys2Proof.Machine.execSetTag s
  | .nextChange => Sys2Proof.Machine.execNextChange s
  | .ackChange => Sys2Proof.Machine.execAckChange s
  | .readAlarms => Sys2Proof.Machine.execReadAlarms s
  | .ackAlarms => Sys2Proof.Machine.execAckAlarms s
  | .lineStart => Sys2Proof.Machine.execLineStart s
  | .lineStop => Sys2Proof.Machine.execLineStop s
  | .linePause => Sys2Proof.Machine.execLinePause s
  | .lineResume => Sys2Proof.Machine.execLineResume s
  | .setCallPolicy => Sys2Proof.Machine.execSetCallPolicy s
  | .clearExclusion => Sys2Proof.Machine.execClearExclusion s
  | .lineStatus => Sys2Proof.Machine.execLineStatus s
  | .clearCounters => Sys2Proof.Machine.execClearCounters s
  | .configure => Sys2Proof.Machine.execConfigure s
  | .status => Sys2Proof.Machine.execStatus s
  | .resetDevice => Sys2Proof.Machine.execResetDevice s
  | .tickPeriodEnd => Sys2Proof.Machine.execTickPeriodEnd s
  | .leaseTick => Sys2Proof.Machine.execLeaseTick s
  | .lapse h => Sys2Proof.Machine.execLapse h s
  | .quarantineExpiry l st => Sys2Proof.Machine.execQuarantineExpiry l st s
  | .nextTransaction l => Sys2Proof.Machine.execNextTransaction l s
  | .roundRestEnd l => Sys2Proof.Machine.execRoundRestEnd l s
  | .dataLeadRecessive l => Sys2Proof.Machine.execDataLeadRecessive l s
  | .stuckLine l => Sys2Proof.Machine.execStuckLine l s
  | .collision l => Sys2Proof.Machine.execCollision l s
  | .headFrameSent l => Sys2Proof.Machine.execHeadFrameSent l s
  | .idle l body => Sys2Proof.Machine.execIdle l body s
  | .request l body => Sys2Proof.Machine.execRequest l body s
  | .confirm l body => Sys2Proof.Machine.execConfirm l body s
  | .decline l body => Sys2Proof.Machine.execDecline l body s
  | .hold l body => Sys2Proof.Machine.execHold l body s
  | .checkError l => Sys2Proof.Machine.execCheckError l s
  | .replyWindowTimeout l => Sys2Proof.Machine.execReplyWindowTimeout l s
  | .holdOffTimeout l => Sys2Proof.Machine.execHoldOffTimeout l s
  | .orderExhausted l => Sys2Proof.Machine.execOrderExhausted l s
  | .arbitrationEnd l identity => Sys2Proof.Machine.execArbitrationEnd l identity s
  | .joinBody l body => Sys2Proof.Machine.execJoinBody l body s
  | .joinBodyTimeout l => Sys2Proof.Machine.execJoinBodyTimeout l s
  | .clashSettled l => Sys2Proof.Machine.execClashSettled l s
  | .presenceClaim => Sys2Proof.Machine.execPresenceClaim s
  | .missClaim => Sys2Proof.Machine.execMissClaim s
  | .missLimit => Sys2Proof.Machine.execMissLimit s
  | .joinClaim => Sys2Proof.Machine.execJoinClaim s
  | .renew => Sys2Proof.Machine.execRenew s
  | .leave => Sys2Proof.Machine.execLeave s
  | .resolve => Sys2Proof.Machine.execResolve s
  | .nodeFind => Sys2Proof.Machine.execNodeFind s
  | .members => Sys2Proof.Machine.execMembers s
  | .capsRequest => Sys2Proof.Machine.execCapsRequest s
  | .assignConfirmed => Sys2Proof.Machine.execAssignConfirmed s
  | .assignDeclined => Sys2Proof.Machine.execAssignDeclined s
  | .assignExhausted => Sys2Proof.Machine.execAssignExhausted s
  | .moved => Sys2Proof.Machine.execMoved s
  | .moveDeclined => Sys2Proof.Machine.execMoveDeclined s
  | .probeOutcome => Sys2Proof.Machine.execProbeOutcome s
  | .releaseOutcome => Sys2Proof.Machine.execReleaseOutcome s
  | .answerOutcome => Sys2Proof.Machine.execAnswerOutcome s
  | .idleCheckPass l => Sys2Proof.Machine.execIdleCheckPass l s
  | .idleCheckTimeout l => Sys2Proof.Machine.execIdleCheckTimeout l s
  | .lineClaim => Sys2Proof.Machine.execLineClaim s
  | .flushClaim => Sys2Proof.Machine.execFlushClaim s
  | .dataLeadDominant l => Sys2Proof.Machine.execDataLeadDominant l s

end Sys2Proof.Machine
end

