-- ==== Sys2Proof/Safety.lean ====
section
/-! DEFINITION. What the statements are said in: the situations in which a command acts, and the laws every step
keeps. -/

namespace Sys2Proof.Machine

/-! ### Situations -/

/-- The directory engine carries out a host command: its claim is granted, and its frame stands in the ACTIVE slot (R163,
R164, R20). -/
def State.HostRuns (s : State) (i : Fin 4) (f : CmdFrame) (c : HostCmd) : Prop :=
  s.arb.engine = some .host ∧ s.host.activeSlot? = some (i, f) ∧ parseCommand? f = some c

/-- The directory engine carries out a claim of a line engine (R19, R20). -/
def State.LineRuns (s : State) (l : Line) (c : LineClaim) : Prop :=
  s.arb.engine = some (.line l) ∧ (s.line l).claim = some c

/-- A reference resolves to the record of a slot (R3, R10, R11). -/
def State.Names (s : State) : RefOperand → Handle → Record → Prop
  | .badForm, _, _ => False
  | .identity id, h, r => identityInvalid id = false ∧ s.lookup? id = some h ∧ s.record? h = some r
  | .handle h' g, h, r => h' = h ∧ s.current? { handle := h, gen := g } = some r

/-- The state a host command leaves that made the given one and answers in its slot: the response is written, the engine
is free, and the next claim is granted (R22, R164). -/
def State.answered (s : State) (i : Fin 4) (f : CmdFrame) (st : Status) (payload : List Byte) : State :=
  ((s.answerSlot i f.tag ⟨st, payload⟩).engineIdle).grant

/-- The order in transaction is the given one. -/
def LineEngine.InTransaction (e : LineEngine) (t : Tx) (o : Order) : Prop :=
  e.tx = some t ∧ t.work = .order ∧ e.chosen? = some o

/-- A poll of the round is in transaction. -/
def LineEngine.Polling (e : LineEngine) (t : Tx) (st : Station) (ref : Ref) (solicited : Bool) : Prop :=
  e.tx = some t ∧ t.work = .poll st ref solicited

/-- A line engine to which a transaction result has been handed over: the result is its claim where it had none
outstanding, and waits behind the claim outstanding where it had one (R93). -/
def LineEngine.handed (e : LineEngine) (c : LineClaim) : LineEngine :=
  { e with claim := some (e.claim.getD c), waiting := if e.claim.isSome then some c else e.waiting }

/-- A record ages: it is BOUND, QUIET or MOVING, on a line that is RUNNING or PAUSED (R52). -/
def State.Ages (s : State) (r : Record) : Prop :=
  (r.state = .bound ∨ r.state = .quiet ∨ ∃ x, r.state = .moving x)
    ∧ ((s.line r.line).state = .running ∨ (s.line r.line).state = .paused)

/-- A record that has lapsed (R53). -/
def Record.lapsed (r : Record) : Record :=
  { r with state := .lapsed, leaseRemaining := 0, outcome := .lapsed, requestPending := false }

/-- A pinned record that has returned to RESERVED, with its outcome (R41). -/
def Record.returned (r : Record) (o : RecOutcome) : Record :=
  { r with
    state := .reserved, leaseRemaining := r.leaseLength, missCount := 0, outcome := o, requestPending := false }

/-- A line engine from which a record's request is withdrawn (R30, R91, R135): where one was pending, the record's ANSWER
leaves the queue, or is marked withdrawn where it is being sent; every reservation of a solicited poll of the record is
released. -/
def LineEngine.unrequested (e : LineEngine) (ref : Ref) (pending : Bool) : LineEngine :=
  { e with
    orders := if pending then e.orders.filterMap fun o =>
        if o.isLive .answer ref = true then
          (if o.progress = .sending then some { o with withdrawn := true } else none)
        else some o
      else e.orders
    reservations := e.reservations.filter fun x => x != .poll ref }

/-- A line engine from which a record that ends, or returns to RESERVED, is gone: its directed order and its request are
withdrawn (R41, R42, R91). -/
def LineEngine.without (e : LineEngine) (ref : Ref) (r : Record) : LineEngine :=
  (match r.state with
    | .joining => e.withdraw .assign ref
    | .moving _ => e.withdraw .reassign ref
    | .retiring => e.withdraw .release ref
    | _ => e).unrequested ref r.requestPending

/-- A slot after the freeing of its record by a marked change: FREE, the generation one more, the last identity the
record's, the outcome kept, FREED with the further aspects added to the mask (R8, R42, R43). -/
def Slot.FreedFrom (y x : Slot) (r : Record) (o : RecOutcome) (more : ChangeMask) : Prop :=
  y.content = none ∧ y.gen = x.gen + 1 ∧ y.lastIdentity = some r.identity ∧ y.keptOutcome = some o
    ∧ y.mask = x.mask ||| (ChangeMask.freed ||| more)

/-- A line engine that makes the choice of its next transaction (R92, R93). -/
def LineEngine.Chooses (e : LineEngine) : Prop :=
  e.state = .running ∧ e.tx = none ∧ e.waiting = none ∧ e.resting = false

/-- Orders of which none can be taken by the choice: each is not WAITING, or is deferred (R92). -/
def NoneSendable (os : List Order) : Prop := ∀ o ∈ os, o.progress ≠ .waiting ∨ o.deferred = true

/-- A record holds the station and is polled in the current round: BOUND, MOVING, or QUIET in a round whose counter is 0
(R94). -/
def State.PollsAt (s : State) (l : Line) (st : Station) (h : Handle) (r : Record) : Prop :=
  s.mapAt l st = .held h ∧ s.record? h = some r
    ∧ (r.state = .bound ∨ (∃ x, r.state = .moving x) ∨ r.state = .quiet ∧ (s.line l).roundCounter = 0)

/-- The station is the next of the round: the lowest above the position that is polled (R94). -/
def State.NextPolled (s : State) (l : Line) (st : Station) (h : Handle) (r : Record) : Prop :=
  (s.line l).position < st.val + 1 ∧ s.PollsAt l st h r
    ∧ ∀ st' : Station, (s.line l).position < st'.val + 1 → (∃ h' r', s.PollsAt l st' h' r') → st ≤ st'

/-- No station above the position is polled: the round is at its end (R94). -/
def State.RoundOver (s : State) (l : Line) : Prop :=
  ∀ (st : Station) (h : Handle) (r : Record), (s.line l).position < st.val + 1 → ¬ s.PollsAt l st h r

/-! ### Laws -/

/-- On each line, the orders in the queue plus the reservations never exceed 8 (R89). -/
def State.QueueLaw (s : State) : Prop :=
  ∀ l : Line, (s.line l).orders.length + (s.line l).reservations.length ≤ 8

/-- The change set holds each slot at most once, and a slot is in it exactly when its change mask is not empty (R185). -/
def State.ChangeSetLaw (s : State) : Prop :=
  s.dir.changeSet.Nodup ∧ ∀ h : Handle, h ∈ s.dir.changeSet ↔ (s.slot h).mask ≠ 0

/-- The changes-waiting indication is set exactly while the change set is not empty (R168, R185). -/
def State.WaitingLaw (s : State) : Prop := s.host.changesWaiting = !s.dir.changeSet.isEmpty

/-- The exclusion list holds at most 4 identities, each at most once (R105). -/
def State.ExclusionLaw (s : State) : Prop :=
  ∀ l : Line, (s.line l).exclusions.length ≤ 4 ∧ (s.line l).exclusions.Nodup

/-- The lease remaining of a record does not exceed its lease length (R25, Table 2-1). -/
def State.LeaseLaw (s : State) : Prop :=
  ∀ (h : Handle) (r : Record), s.record? h = some r → r.leaseRemaining ≤ r.leaseLength

/-- The group set of the record in a slot; no group for a FREE slot. -/
def Slot.groupSet (x : Slot) : BitVec 16 :=
  match x.content with
  | some r => r.groups
  | none => 0

/-- The number of records whose group set includes a group. -/
def State.members (s : State) (g : Fin 16) : Nat := allHandles.countP fun h => (s.slot h).groupSet.getLsbD g.val

/-- Each group's member count is the number of records whose group set includes it, and does not exceed the group's
member limit when that limit is non-zero (R156). -/
def State.GroupLaw (s : State) : Prop :=
  ∀ g : Fin 16, (s.dir.groups.get g).count = s.members g
    ∧ ((s.dir.groups.get g).limit ≠ 0 → (s.dir.groups.get g).count ≤ (s.dir.groups.get g).limit)

/-- The counters stay in 0..65535 (R18, R69). -/
def State.CounterLaw (s : State) : Prop :=
  s.dir.setFull ≤ 65535 ∧ s.dir.staleRef ≤ 65535 ∧ ∀ (l : Line) (c : Ctr), (s.line l).counter c ≤ 65535

/-- Every item of the configuration store is in its range (Table 10-2). -/
def ConfigStore.InRange (c : ConfigStore) : Prop :=
  (1 ≤ c.leaseLength ∧ c.leaseLength ≤ 65535) ∧ (1 ≤ c.quarHold ∧ c.quarHold ≤ 255)
    ∧ (1 ≤ c.missLimit ∧ c.missLimit ≤ 15) ∧ (1 ≤ c.retryLimit ∧ c.retryLimit ≤ 7)
    ∧ (1 ≤ c.backoff ∧ c.backoff ≤ 255) ∧ (1 ≤ c.holdOff ∧ c.holdOff ≤ 15)

/-- The store, and the store as the last grant saw it, are in range (R169, R170). -/
def State.ConfigLaw (s : State) : Prop := s.cfg.InRange ∧ s.arb.grantCfg.InRange

/-- A line in OFF or in FAULT has no transaction in progress and no line start under way (R78, R82, R83, Table 4-4). -/
def State.QuietLineLaw (s : State) : Prop :=
  ∀ l : Line, ((s.line l).state = .off ∨ (s.line l).state = .fault) →
    (s.line l).tx = none ∧ (s.line l).stage = .none

/-- The engine carries out only an outstanding claim, and is idle only while no claim is outstanding (R19 to R22). -/
def State.ArbiterLaw (s : State) : Prop :=
  match s.arb.engine with
  | some r => s.outstanding r = true ∧ s.arb.rotation = r
  | none => ∀ r : Requester, s.outstanding r = false

/-- At most one command slot is ACTIVE, and the acceptance order names each occupied slot once (R163). -/
def State.SlotLaw (s : State) : Prop :=
  s.host.acceptance.Nodup ∧ (∀ i : Fin 4, i ∈ s.host.acceptance ↔ s.host.slots.get i ≠ .empty)
    ∧ ∀ i j : Fin 4, (s.host.slots.get i).isActive = true → (s.host.slots.get j).isActive = true → i = j

/-- On each line's map, a station is HELD by a record exactly when the record is on that line, not LAPSED, with that
station, and TARGET of a record exactly when the record is MOVING there on that line (R12). -/
def State.MapLaw (s : State) : Prop :=
  ∀ (l : Line) (st : Station) (h : Handle),
    (s.mapAt l st = .held h ↔
      ∃ r : Record, s.record? h = some r ∧ r.line = l ∧ r.state ≠ .lapsed ∧ r.station = st)
    ∧ (s.mapAt l st = .target h ↔ ∃ r : Record, s.record? h = some r ∧ r.line = l ∧ r.state = .moving st)

/-- A station is QUARANTINED on a line exactly when the line's quarantine list has an entry for it, and the list holds
each station at most once (R59). -/
def State.QuarantineLaw (s : State) : Prop :=
  ∀ l : Line,
    (∀ st : Station, s.mapAt l st = .quarantined ↔ ∃ q : QuarEntry, q ∈ s.quarOf l ∧ q.station = st)
    ∧ ((s.quarOf l).map QuarEntry.station).Nodup

/-- The quarantine entry of a LAPSED record's last station references the record, and every reference names a current
LAPSED record whose last station is the entry's (R63). -/
def State.LapsedLaw (s : State) : Prop :=
  (∀ (h : Handle) (r : Record), s.record? h = some r → r.state = .lapsed →
    ∃ q : QuarEntry, q ∈ s.quarOf r.line ∧ q.station = r.station ∧ q.ref = some (s.refOf h))
  ∧ ∀ (l : Line) (q : QuarEntry) (ref : Ref), q ∈ s.quarOf l → q.ref = some ref →
    ∃ r : Record, s.current? ref = some r ∧ r.state = .lapsed ∧ r.line = l ∧ r.station = q.station

/-- A record stands in a slot of its identity's set, and no two records have the same identity (R1, R4). -/
def State.IdentityLaw (s : State) : Prop :=
  (∀ (h : Handle) (r : Record), s.record? h = some r → h ∈ waysOf (setIndex r.identity))
  ∧ ∀ (h k : Handle) (r q : Record), s.record? h = some r → s.record? k = some q → r.identity = q.identity → h = k

/-- The records, the station maps and the quarantine lists agree. -/
def State.DirectoryLaw (s : State) : Prop :=
  s.MapLaw ∧ s.QuarantineLaw ∧ s.LapsedLaw ∧ s.IdentityLaw

/-- While a claim is carried out, the miss limit it reads is that of the store (R169, R170). -/
def State.LimitLaw (s : State) : Prop :=
  s.arb.engine.isSome = true → s.arb.grantCfg.missLimit = s.cfg.missLimit

/-- No record's miss count exceeds the miss limit in the store (R26). -/
def State.MissLaw (s : State) : Prop :=
  s.LimitLaw ∧ ∀ (h : Handle) (r : Record), s.record? h = some r → r.missCount ≤ s.cfg.missLimit

/-- At most one order of a line is the work of its transaction in progress, and none where no transaction is in progress
(R73, R92; the mark is the model's own, log 10). -/
def State.ChosenLaw (s : State) : Prop :=
  ∀ l : Line, (s.line l).orders.countP Order.chosen ≤ 1
    ∧ ((s.line l).tx = none → ∀ o ∈ (s.line l).orders, o.chosen = false)

/-- ASSIGN, REASSIGN and RELEASE: the kinds of a directed order (R90). -/
def OrderKind.isDirected : OrderKind → Bool
  | .assign => true
  | .reassign => true
  | .release => true
  | .answer => false
  | .refuse => false

/-- Whether an order is a directed order of a record, not marked withdrawn (R90, R91). -/
def Order.isDirectedFor (ref : Ref) (o : Order) : Bool := o.kind.isDirected && o.isLive o.kind ref

/-- A record has at most one directed order not marked withdrawn in its line's queue, and none unless it is JOINING, MOVING
or RETIRING, where it is an ASSIGN, a REASSIGN or a RELEASE (R90). -/
def State.DirectedLaw (s : State) : Prop :=
  ∀ (l : Line) (ref : Ref), (s.line l).orders.countP (Order.isDirectedFor ref) ≤ 1
    ∧ ∀ o ∈ (s.line l).orders, o.isDirectedFor ref = true →
      ∃ r : Record, s.current? ref = some r ∧ r.line = l ∧ r.state.directed = some o.kind

/-- A record with request pending is in a state in which a request is taken, each of which holds a station, and has exactly
one entry in its line's queue attributed to the request, its ANSWER; no other record has an ANSWER that is not withdrawn
(R124). That a record has at most one reservation of a solicited poll on a line, and none on its own while a request is
pending, rests on the model's reading of R95, by which no record with such a reservation is solicited again: log 18. -/
def State.RequestLaw (s : State) : Prop :=
  (∀ (h : Handle) (r : Record), s.record? h = some r → r.requestPending = true → r.state.takesRequests = true
    ∧ (s.line r.line).orders.countP (Order.isLive .answer (s.refOf h)) = 1)
  ∧ ∀ (l : Line) (ref : Ref),
    (∀ o ∈ (s.line l).orders, o.isLive .answer ref = true →
      ∃ r : Record, s.current? ref = some r ∧ r.line = l ∧ r.requestPending = true)
    ∧ (s.line l).reservations.count (.poll ref) ≤ 1
    ∧ (.poll ref ∈ (s.line l).reservations → ∀ r : Record, s.current? ref = some r → r.line = l →
      r.requestPending = false)

/-- What the order queues hold for the records: their bound, the orders in transaction (log 10), the directed orders, and
the ANSWERs with the reservations of polls (R89, R90, R124; log 18). -/
def State.OrderLaw (s : State) : Prop := s.QueueLaw ∧ s.ChosenLaw ∧ s.DirectedLaw ∧ s.RequestLaw

/-- A law is kept by every step. -/
def KeptByStep (law : State → Prop) : Prop :=
  ∀ s t : State, law s → step s = .next t → law t

end Sys2Proof.Machine
end

