-- ==== Sys2Proof/Certificates/Slice0/Obligations.lean ====
section
/-! DEFINITION. The statements for the provers. A statement about a command gives, where its hypotheses hold, the whole
next state: what is not named in it is unchanged. -/

open Sys2Proof Sys2Proof.Machine

/-! ### The step -/

/-- A step carries out the command at the front of the queue on the queue's rest. -/
def Obligations.StepRunsFrontCommand : Prop :=
  ∀ (c : Instr) (rest : List Instr) (s : State),
    s.pending = c :: rest → step s = exec c { s with pending := rest }

/-- Every command completes from every state, and leaves the commands that wait. That a command whose condition does not
hold completes too, and changes nothing, is the model's choice: log 2. -/
def Obligations.EveryCommandCompletesAndKeepsTheQueue : Prop :=
  ∀ (c : Instr) (s : State), ∃ t, exec c s = .next t ∧ t.pending = s.pending

/-! ### Resets -/

/-- The machine right after reset: every slot FREE with generation 0, every map entry FREE, no quarantine entry, empty
change set, both lines OFF with empty queues and counters at 0, the store at its defaults, no claim outstanding, the
rotation position at the lease clock. That no command waits then is the model's choice: log 22. -/
def Obligations.ResetState : Prop :=
  (∀ h : Handle, State.reset.slot h = Slot.fresh 0)
    ∧ (∀ (l : Line) (st : Station), State.reset.mapAt l st = .free)
    ∧ (∀ l : Line, State.reset.quarOf l = [])
    ∧ (∀ g : Fin 16, State.reset.dir.groups.get g = { count := 0, limit := 0 })
    ∧ State.reset.dir.changeSet = [] ∧ State.reset.dir.setFull = 0 ∧ State.reset.dir.staleRef = 0
    ∧ (∀ l : Line, (State.reset.line l).state = .off ∧ (State.reset.line l).tx = none
        ∧ (State.reset.line l).orders = [] ∧ (State.reset.line l).reservations = []
        ∧ (State.reset.line l).stopDue = false ∧ (State.reset.line l).flushDue = false
        ∧ (State.reset.line l).position = 0 ∧ (State.reset.line l).roundCounter = 0
        ∧ (State.reset.line l).exclusions = [] ∧ (State.reset.line l).callNumber = 0
        ∧ ∀ c : Ctr, (State.reset.line l).counter c = 0)
    ∧ State.reset.cfg = ConfigStore.default
    ∧ (∀ r : Requester, State.reset.outstanding r = false)
    ∧ State.reset.arb.engine = none ∧ State.reset.arb.rotation = .clock
    ∧ State.reset.pending = []

/-- RST_ASSERTED puts every block at its power-on values and releases ATN; RST_RELEASED leaves the power-on values, and
an exchange in which SCS was already LOW is to be ignored. That the values are loaded at the assertion is the model's
choice: log 7. So are the values of the fields no rule gives one (the rate taken, the start option, the store kept at a
grant, the last SDO bytes: log 21) and of the data lead (log 8). -/
def Obligations.PowerOnReset : Prop :=
  ∀ s : State,
    (∃ t, exec .rstAsserted s = .next t ∧ t.rst = true ∧ t.atnDriven = false ∧ t.dir = State.reset.dir
      ∧ t.cfg = State.reset.cfg ∧ t.host = State.reset.host ∧ t.clock = State.reset.clock ∧ t.arb = State.reset.arb
      ∧ t.pending = s.pending ∧ ∀ l : Line, t.line l = LineEngine.reset (s.line l).leadDominant)
    ∧ ∀ scsLow : Bool, s.rst = true →
      ∃ t, exec (.rstReleased scsLow) s = .next t ∧ t.rst = false ∧ t.atnDriven = false
        ∧ (∀ i : Fin 4, t.host.slots.get i = .empty) ∧ t.host.lastError = .none ∧ t.host.flags = 0
        ∧ t.host.changesWaiting = false ∧ t.host.ignoreExchange = scsLow ∧ t.host.exchange = none
        ∧ t.cfg = ConfigStore.default
        ∧ (∀ r : Requester, t.outstanding r = false) ∧ t.dir = State.reset.dir ∧ t.clock = State.reset.clock
        ∧ t.arb = State.reset.arb ∧ t.pending = s.pending
        ∧ ∀ l : Line, t.line l = LineEngine.reset (s.line l).leadDominant

/-- RESET_DEVICE: every slot is FREE with its generation one more; maps, lists, groups, change set, counters and lines
take their reset values; the store is kept; the command's own slot is the one occupied slot, ANSWERED with OK; an
exchange in progress goes on with its status byte, and a READ RESPONSE keeps the frame it had chosen, with no slot to
empty. The rate and the start option of a line after it are the model's choice (log 21), and the level of its data lead
(log 8). -/
def Obligations.SoftReset : Prop :=
  ∀ (s : State) (i : Fin 4) (f : CmdFrame), s.HostRuns i f .resetDevice →
    ∃ t, exec .resetDevice s = .next t
      ∧ (∀ h : Handle, t.slot h = Slot.fresh ((s.slot h).gen + 1))
      ∧ (∀ (l : Line) (st : Station), t.mapAt l st = .free) ∧ (∀ l : Line, t.quarOf l = [])
      ∧ (∀ g : Fin 16, t.dir.groups.get g = { count := 0, limit := 0 })
      ∧ t.dir.changeSet = [] ∧ t.dir.setFull = 0 ∧ t.dir.staleRef = 0
      ∧ (∀ l : Line, t.line l = LineEngine.reset (s.line l).leadDominant)
      ∧ t.clock = LeaseClock.reset s.cfg ∧ t.cfg = s.cfg
      ∧ t.arb.engine = none ∧ t.arb.rotation = .clock
      ∧ t.host.slots.get i = .answered ⟨f.tag, .ok, []⟩ ∧ (∀ j : Fin 4, j ≠ i → t.host.slots.get j = .empty)
      ∧ t.host.acceptance = [i] ∧ t.host.flags = 0 ∧ t.host.changesWaiting = false ∧ t.host.lastError = .none
      ∧ (s.host.exchange = none → t.host.exchange = none)
      ∧ (∀ x : Exchange, s.host.exchange = some x → (∀ c, x.phase ≠ .reading c) → t.host.exchange = some x)
      ∧ (∀ b : Byte, s.host.exchange = some ⟨b, .reading none⟩ → t.host.exchange = some ⟨b, .reading none⟩)
      ∧ (∀ (b : Byte) (j : Option (Fin 4)) (r : Response), s.host.exchange = some ⟨b, .reading (some (j, r))⟩ →
        t.host.exchange = some ⟨b, .reading (some (none, r))⟩)
      ∧ t.rst = s.rst ∧ t.pending = s.pending

/-! ### The host port -/

/-- WRITE_COMMAND: a frame that passes its tests goes into the lowest-numbered EMPTY slot and takes the next place in
acceptance order; without an EMPTY slot SLOTS_EXHAUSTED is raised; a frame that fails its tests raises FRAME_ERROR. The
tests are made at the end of the exchange, against the slots as they are then, and SDO carries the status byte sampled
when SCS went LOW, and filler. Nothing but the host port changes. That a whole exchange is one command, and its
beginning, its complete kind byte and its end are commands too, is the model's choice: log 5. -/
def Obligations.WriteCommandTests : Prop :=
  ∀ (s : State) (bytes : List Byte) (extra : Nat), s.rst = false → s.host.ignoreExchange = false →
    let tested := fun (c : Instr) (b : Byte) =>
      let ended : HostPort := { s.host with exchange := none, sdo := b :: List.replicate bytes.length 0 }
      (∀ (f : CmdFrame) (i : Fin 4), readCommandFrame? bytes extra = some f → s.host.slots.get i = .empty →
        (∀ j : Fin 4, j < i → s.host.slots.get j ≠ .empty) →
        exec c s = .next { s with host :=
          { ended with
            slots := s.host.slots.set i.val (.queued f) i.isLt
            acceptance := s.host.acceptance ++ [i]
            lastError := .none } })
      ∧ (∀ f : CmdFrame, readCommandFrame? bytes extra = some f → (∀ i : Fin 4, s.host.slots.get i ≠ .empty) →
        exec c s = .next { s with host := { ended with flags := s.host.flags ||| 0x100, lastError := .slots } })
      ∧ (readCommandFrame? bytes extra = none →
        exec c s = .next { s with host := { ended with flags := s.host.flags ||| 0x080, lastError := .frame } })
    (s.host.exchange = none → tested (.writeCommand (.whole bytes) extra) s.statusByte)
    ∧ ∀ b : Byte,
      (s.host.exchange = some ⟨b, .kindByte⟩ →
        exec (.writeCommand .kindByte extra) s = .next { s with host :=
          { s.host with exchange := some ⟨b, .writing⟩, sdo := [b] } })
      ∧ (s.host.exchange = some ⟨b, .writing⟩ → tested (.writeCommand (.closes bytes) extra) b)

/-- READ_RESPONSE. A whole exchange sends the oldest response in acceptance order, and its slot becomes EMPTY exactly
when the whole frame was clocked out; without a response the empty marker is sent. The complete kind byte chooses the
response; the end of the exchange sends the status byte sampled when SCS went LOW and what was chosen, and empties the
slot that still holds it, or no slot where a soft reset has discarded it. Nothing but the host port changes. That a
whole exchange is one command, and its beginning, its complete kind byte and its end are commands too, is the model's
choice: log 5. -/
def Obligations.ReadResponseSendsTheOldest : Prop :=
  ∀ (s : State) (n : Nat), s.rst = false → s.host.ignoreExchange = false →
    let framed := fun (r : Response) => r.frame.take n ++ List.replicate (n - r.frame.length) 0
    let sends := fun (t : State) (b : Byte) (i : Fin 4) (r : Response) =>
      t.host.sdo = b :: framed r
        ∧ t.host.slots.get i = (if r.frame.length ≤ n then .empty else .answered r)
        ∧ (∀ j : Fin 4, j ≠ i → t.host.slots.get j = s.host.slots.get j)
        ∧ t.host.lastError = .none ∧ t.host.flags = s.host.flags ∧ t.host.exchange = none
        ∧ t.dir = s.dir ∧ t.lines = s.lines ∧ t.arb = s.arb ∧ t.cfg = s.cfg ∧ t.clock = s.clock
    (s.host.exchange = none →
      (∀ (i : Fin 4) (r : Response), s.host.oldestAnswer? = some (i, r) →
        ∃ t, exec (.readResponse (.whole n)) s = .next t ∧ sends t s.statusByte i r)
      ∧ (s.host.oldestAnswer? = none →
        exec (.readResponse (.whole n)) s = .next { s with host :=
          { s.host with lastError := .none, sdo := s.statusByte :: List.replicate n 0 } }))
    ∧ ∀ b : Byte,
      (s.host.exchange = some ⟨b, .kindByte⟩ →
        exec (.readResponse .kindByte) s = .next { s with host :=
          { s.host with
            exchange := some ⟨b, .reading (s.host.oldestAnswer?.map fun x => (some x.1, x.2))⟩
            sdo := [b] } })
      ∧ (∀ (i : Fin 4) (r : Response), s.host.exchange = some ⟨b, .reading (some (some i, r))⟩ →
        s.host.slots.get i = .answered r → ∃ t, exec (.readResponse (.closes n)) s = .next t ∧ sends t b i r)
      ∧ (∀ r : Response, s.host.exchange = some ⟨b, .reading (some (none, r))⟩ →
        exec (.readResponse (.closes n)) s = .next { s with host :=
          { s.host with exchange := none, lastError := .none, sdo := b :: framed r } })
      ∧ (s.host.exchange = some ⟨b, .reading none⟩ →
        exec (.readResponse (.closes n)) s = .next { s with host :=
          { s.host with exchange := none, lastError := .none, sdo := b :: List.replicate n 0 } })

/-- The kind byte picks the exchange: 5AH WRITE COMMAND, A5H READ RESPONSE, 3CH READ STATUS, any other none of them. The
beginning of any exchange samples the status byte. READ_STATUS sends it for every byte clocked and changes nothing else.
An unknown kind byte raises FRAME_ERROR when it is complete, and the end of its exchange sets the last exchange error to
FRAME; an exchange that ends before its kind byte is complete is ignored. The exchange that was in progress when RST was
released is ignored to its end, whatever its kind; that SDO carries no byte in it is the model's choice: log 34. That a
whole exchange is one command, and its beginning, its complete kind byte and its end are commands too, is the model's
choice: log 5. -/
def Obligations.StatusReadsAndUnknownKinds : Prop :=
  (∀ (bytes : List Byte) (extra : Nat),
    exchangeCommand (0x5A :: bytes) extra = .writeCommand (.whole bytes) extra
      ∧ exchangeCommand (0xA5 :: bytes) extra = .readResponse (.whole bytes.length)
      ∧ exchangeCommand (0x3C :: bytes) extra = .readStatus (.whole bytes.length)
      ∧ ∀ k : Byte, k ≠ 0x5A → k ≠ 0xA5 → k ≠ 0x3C →
        exchangeCommand (k :: bytes) extra = .unknownKindByte (some k) (.whole bytes.length))
  ∧ (∀ (s : State) (k : Byte), s.rst = false → s.host.ignoreExchange = true → k ≠ 0x5A → k ≠ 0xA5 → k ≠ 0x3C →
    let exchanges := fun (bytes : ExchangePart (List Byte)) (count : ExchangePart Nat) (c : Instr) =>
      (∃ extra : Nat, c = .writeCommand bytes extra) ∨ c = .readResponse count ∨ c = .readStatus count
        ∨ c = .unknownKindByte none count ∨ c = .unknownKindByte (some k) count
    ∀ (bytes : List Byte) (n : Nat) (c : Instr),
      (exchanges .opens .opens c ∨ exchanges .kindByte .kindByte c → exec c s = .next s)
      ∧ (exchanges (.closes bytes) (.closes n) c ∨ exchanges (.whole bytes) (.whole n) c →
        exec c s = .next { s with host := { s.host with ignoreExchange := false, sdo := [] } }))
  ∧ ∀ (s : State) (n : Nat) (k : Byte), s.rst = false → s.host.ignoreExchange = false →
    k ≠ 0x5A → k ≠ 0xA5 → k ≠ 0x3C →
    let answers := fun (c : Instr) (p : HostPort) => exec c s = .next { s with host := p }
    (s.host.exchange = none →
      (∀ c : Instr, (∃ extra : Nat, c = .writeCommand .opens extra) ∨ c = .readResponse .opens ∨ c = .readStatus .opens
          ∨ c = .unknownKindByte none .opens ∨ c = .unknownKindByte (some k) .opens →
        answers c { s.host with exchange := some ⟨s.statusByte, .kindByte⟩, sdo := [] })
      ∧ answers (.readStatus (.whole n)) { s.host with sdo := List.replicate (n + 1) s.statusByte }
      ∧ answers (.unknownKindByte (some k) (.whole n))
        { s.host with
          flags := s.host.flags ||| 0x080
          lastError := .frame
          sdo := s.statusByte :: List.replicate n 0 }
      ∧ answers (.unknownKindByte none (.whole n)) { s.host with sdo := [] })
    ∧ ∀ b : Byte,
      (s.host.exchange = some ⟨b, .kindByte⟩ →
        answers (.readStatus .kindByte) { s.host with exchange := some ⟨b, .status⟩, sdo := [b] }
        ∧ answers (.unknownKindByte (some k) .kindByte)
          { s.host with flags := s.host.flags ||| 0x080, exchange := some ⟨b, .ignored⟩, sdo := [b] }
        ∧ answers (.unknownKindByte none (.closes n)) { s.host with exchange := none })
      ∧ (s.host.exchange = some ⟨b, .status⟩ →
        answers (.readStatus (.closes n)) { s.host with exchange := none, sdo := List.replicate (n + 1) b })
      ∧ (s.host.exchange = some ⟨b, .ignored⟩ →
        answers (.unknownKindByte (some k) (.closes n))
          { s.host with exchange := none, lastError := .frame, sdo := b :: List.replicate n 0 })

/-- ATN is driven exactly while RST is released and an alarm flag is set whose enable is on, or the change set is not
empty and the change attention enable is on; for a state whose changes-waiting indication follows the change set. -/
def Obligations.AtnIsDrivenExactlyWhen : Prop :=
  ∀ s : State, s.WaitingLaw →
    (s.atnDriven = true ↔ s.rst = false
      ∧ ((∃ i : Fin 9, s.host.flags.getLsbD i = true ∧ s.cfg.enables.getLsbD i = true)
        ∨ (s.dir.changeSet ≠ [] ∧ s.cfg.changeAttention = true)))

/-- COMMAND_BEGIN with no slot ACTIVE takes the QUEUED command oldest in acceptance order: a directory command becomes
the host port's claim, with stop due of each line as it then stands, and the arbiter grants; READ ALARMS, ACK ALARMS and a
CONFIGURE without a miss limit item complete in the host port, as the commands of those names say; a frame with an unknown
code or a wrong length is answered BAD_ARGUMENT at once, CONFIGURE and ACK ALARMS with their payload (log 16). That a local
command is also a command of its own name is the model's choice: log 3. -/
def Obligations.CommandBeginTakesTheOldest : Prop :=
  ∀ (s : State) (i : Fin 4) (f : CmdFrame), s.host.nextQueued? = some (i, f) →
    (∀ c : HostCmd, parseCommand? f = some c → c.isLocal = false →
      exec .commandBegin s = .next ({ s with host :=
        { s.host with slots := s.host.slots.set i.val (.active f ⟨(s.line .A).stopDue, (s.line .B).stopDue⟩) i.isLt } }).grant)
    ∧ (parseCommand? f = some .readAlarms → exec .commandBegin s = exec .readAlarms s)
    ∧ (∀ n : Nat, parseCommand? f = some (.ackAlarms n) → exec .commandBegin s = exec .ackAlarms s)
    ∧ (∀ items : List (Byte × Nat), parseCommand? f = some (.configure items) → (∀ x ∈ items, x.1 ≠ 0x04) →
      exec .commandBegin s = exec .configure s)
    ∧ (parseCommand? f = none →
      exec .commandBegin s = .next (s.answerSlot i f.tag ⟨.badArgument,
        if f.code = 0x19 then s.cfg.bytes else if f.code = 0x10 then AlarmSet.bytes s.host.flags else []⟩))

/-- READ ALARMS and ACK ALARMS complete at once in the host port: READ ALARMS gives the flags and the enables, ACK
ALARMS clears the named flags and leaves the others. -/
def Obligations.AlarmCommandsAreLocal : Prop :=
  ∀ (s : State) (i : Fin 4) (f : CmdFrame), s.host.nextQueued? = some (i, f) →
    (parseCommand? f = some .readAlarms →
      exec .readAlarms s = .next (s.answerSlot i f.tag
        ⟨.ok, AlarmSet.bytes s.host.flags ++ AlarmSet.bytes s.cfg.enables ++ [flagByte s.cfg.changeAttention]⟩))
    ∧ ∀ n : Nat, parseCommand? f = some (.ackAlarms n) → n < 512 →
      exec .ackAlarms s = .next
        (({ s with host := { s.host with flags := s.host.flags &&& ~~~(BitVec.ofNat 9 n) } }).answerSlot i f.tag
          ⟨.ok, AlarmSet.bytes (s.host.flags &&& ~~~(BitVec.ofNat 9 n))⟩)

/-- CONFIGURE: every item is written or none is, the payload is the store after the command, whatever the status; an
item that writes the rate of a line that is not OFF is refused with STATE. With a miss limit item it is carried out as a
claim, and where it passes every record's miss count is cut to the new limit and no other part of a slot changes;
without one it is begun and completes in the host port (log 3), and changes nothing but the store and its own slot. -/
def Obligations.ConfigureWritesAllOrNothing : Prop :=
  ∀ (s : State) (i : Fin 4) (f : CmdFrame) (items : List (Byte × Nat)),
    let broken := s.cfg.writeAll? items = none ∨ hasRepeat (items.map Prod.fst) = true
    let blocked := ∃ x ∈ items,
      x.1 = 0x08 ∧ (s.line .A).state ≠ .off ∨ x.1 = 0x09 ∧ (s.line .B).state ≠ .off
    (s.HostRuns i f (.configure items) →
      (∀ c : ConfigStore, s.cfg.writeAll? items = some c → ¬ broken → ¬ blocked →
        ∃ t, exec .configure s = .next t ∧ t.cfg = c
          ∧ t.host.slots.get i = .answered ⟨f.tag, .ok, c.bytes⟩
          ∧ (∀ h : Handle, t.slot h = { s.slot h with
              content := (s.slot h).content.map fun r => { r with missCount := min r.missCount c.missLimit } })
          ∧ t.dir.maps = s.dir.maps ∧ t.dir.quar = s.dir.quar ∧ t.dir.changeSet = s.dir.changeSet
          ∧ t.lines = s.lines ∧ t.clock = s.clock)
      ∧ (broken → exec .configure s = .next (s.answered i f .badArgument s.cfg.bytes))
      ∧ (¬ broken → blocked → exec .configure s = .next (s.answered i f .state s.cfg.bytes)))
    ∧ (s.host.nextQueued? = some (i, f) → parseCommand? f = some (.configure items) → (∀ x ∈ items, x.1 ≠ 0x04) →
      (∀ c : ConfigStore, s.cfg.writeAll? items = some c → ¬ broken → ¬ blocked →
        exec .configure s = .next (State.answerSlot { s with cfg := c } i f.tag ⟨.ok, c.bytes⟩))
      ∧ (broken → exec .configure s = .next (s.answerSlot i f.tag ⟨.badArgument, s.cfg.bytes⟩))
      ∧ (¬ broken → blocked → exec .configure s = .next (s.answerSlot i f.tag ⟨.state, s.cfg.bytes⟩)))

/-! ### Host commands -/

/-- The commands that only read give their payload and change nothing but their own slot and the arbiter: LOOKUP, by a
reference, or by a line and a station that is HELD or TARGET, with the role it has (NOT_FOUND where it is neither),
FIND, LINE STATUS and STATUS. The revision in the STATUS payload is a free value (log 15), and the value 01H of the flag
of a continuation point that FIND gives is the model's choice: log 30. -/
def Obligations.ReadingCommandsChangeNothing : Prop :=
  ∀ (s : State) (i : Fin 4) (f : CmdFrame),
    (∀ (ref : RefOperand) (h : Handle) (r : Record), s.HostRuns i f (.lookup (.ref ref)) → s.Names ref h r →
      exec .lookup s = .next (s.answered i f .ok (s.snapshot h r .none)))
    ∧ (∀ (lb sb : Byte) (l : Line) (st : Station), s.HostRuns i f (.lookup (.station lb sb)) →
      lineOf? lb = some l → stationOf? sb = some st → (s.mapAt l st = .free ∨ s.mapAt l st = .quarantined) →
      exec .lookup s = .next (s.answered i f .notFound []))
    ∧ (∀ (lb sb : Byte) (l : Line) (st : Station) (h : Handle) (r : Record),
      s.HostRuns i f (.lookup (.station lb sb)) → lineOf? lb = some l → stationOf? sb = some st →
      s.record? h = some r →
      (s.mapAt l st = .held h → exec .lookup s = .next (s.answered i f .ok (s.snapshot h r .held)))
      ∧ (s.mapAt l st = .target h → exec .lookup s = .next (s.answered i f .ok (s.snapshot h r .target))))
    ∧ (∀ (cls lb sb : Byte) (l : Line) (st : Station), s.HostRuns i f (.find cls lb sb) → cls ≠ 0 → cls ≠ 0xFF →
      lineOf? lb = some l → stationOf? sb = some st →
      exec .find s = .next (if s.hostMatches cls l st = [] then s.answered i f .endOfList []
        else s.answered i f .ok (s.findPayload (s.hostMatches cls l st))))
    ∧ (∀ (lb : Byte) (l : Line), s.HostRuns i f (.lineStatus lb) → lineOf? lb = some l →
      exec .lineStatus s = .next (s.answered i f .ok (s.lineStatusPayload l)))
    ∧ (s.HostRuns i f .status → exec .status s = .next (s.answered i f .ok s.statusPayload))

/-- NEXT CHANGE gives the notice at the head of the change set, or END with no payload, and removes nothing (R187). -/
def Obligations.NextChangeReadsTheHead : Prop :=
  ∀ (s : State) (i : Fin 4) (f : CmdFrame), s.HostRuns i f .nextChange →
    (∀ (h : Handle) (rest : List Handle), s.dir.changeSet = h :: rest →
      exec .nextChange s = .next (s.answered i f .ok ((s.slot h).notice h)))
    ∧ (s.dir.changeSet = [] → exec .nextChange s = .next (s.answered i f .endOfList []))

/-- ACK CHANGE: a handle in the change set, named with the generation its notice reports, leaves the list, and its
slot's mask becomes empty; anything else is STALE and counted, and changes nothing else. -/
def Obligations.AckChangeRemovesTheNotice : Prop :=
  ∀ (s : State) (i : Fin 4) (f : CmdFrame) (h : Handle) (g : Gen), s.HostRuns i f (.ackChange h g) →
    (h ∈ s.dir.changeSet → (s.slot h).noticeGen = g →
      exec .ackChange s = .next (State.answered
        { s with
          dir := { s.dir with
            slots := s.dir.slots.set h.val { s.slot h with mask := 0 } h.isLt
            changeSet := s.dir.changeSet.erase h }
          host := { s.host with changesWaiting := !(s.dir.changeSet.erase h).isEmpty } } i f .ok []))
    ∧ ((h ∉ s.dir.changeSet ∨ (s.slot h).noticeGen ≠ g) →
      exec .ackChange s = .next (State.answered
        { s with dir := { s.dir with staleRef := min 65535 (s.dir.staleRef + 1) } } i f .stale []))

/-- PIN sets pinned on a BOUND or QUIET record and refuses any other state with STATE, changing nothing. UNPIN refuses
an unpinned record with STATE and clears the pin of a pinned record that is not RESERVED; a RESERVED one it frees: the
generation rises by 1, its identity becomes the slot's last identity, and its station is FREE where its join count is 0
and QUARANTINED with the configured hold and no reference otherwise. -/
def Obligations.PinAndUnpin : Prop :=
  ∀ (s : State) (i : Fin 4) (f : CmdFrame) (ref : RefOperand) (h : Handle) (r : Record), s.Names ref h r →
    (s.HostRuns i f (.pin ref) →
      exec .pin s = .next (if r.state = .bound ∨ r.state = .quiet
        then (s.setRecord h { r with pinned := true }).answered i f .ok [] else s.answered i f .state []))
    ∧ (s.HostRuns i f (.unpin ref) → r.pinned = false →
      exec .unpin s = .next (s.answered i f .state []))
    ∧ (s.HostRuns i f (.unpin ref) → r.pinned = true → r.state ≠ .reserved →
      exec .unpin s = .next ((s.setRecord h { r with pinned := false }).answered i f .ok []))
    ∧ (s.HostRuns i f (.unpin ref) → r.pinned = true → r.state = .reserved →
      ∃ t, exec .unpin s = .next t ∧ t.host.slots.get i = .answered ⟨f.tag, .ok, []⟩
        ∧ t.record? h = none ∧ (t.slot h).gen = (s.slot h).gen + 1 ∧ (t.slot h).lastIdentity = some r.identity
        ∧ (∀ h' : Handle, h' ≠ h → t.slot h' = s.slot h')
        ∧ t.mapAt r.line r.station = (if 0 < r.joinCount then .quarantined else .free)
        ∧ (∀ (l : Line) (st : Station), (l, st) ≠ (r.line, r.station) → t.mapAt l st = s.mapAt l st)
        ∧ t.quarOf r.line = (if 0 < r.joinCount
            then s.quarOf r.line ++ [⟨r.station, s.arb.grantCfg.quarHold, none⟩] else s.quarOf r.line)
        ∧ t.quarOf (otherLine r.line) = s.quarOf (otherLine r.line)
        ∧ t.dir.changeSet = s.dir.changeSet)

/-- A reference by handle and generation that names no current record is refused with STALE by every command that takes
a reference: the stale-reference counter rises by 1 and nothing else changes. -/
def Obligations.StaleReferenceIsRefused : Prop :=
  ∀ (s : State) (i : Fin 4) (f : CmdFrame) (h : Handle) (g : Gen),
    s.current? { handle := h, gen := g } = none →
    let stale := State.answered
      { s with dir := { s.dir with staleRef := min 65535 (s.dir.staleRef + 1) } } i f .stale []
    (s.HostRuns i f (.pin (.handle h g)) → exec .pin s = .next stale)
    ∧ (s.HostRuns i f (.unpin (.handle h g)) → exec .unpin s = .next stale)
    ∧ (∀ o : Byte, o = 0 ∨ o = 1 → s.HostRuns i f (.retire (.handle h g) o) → exec .retire s = .next stale)
    ∧ (∀ (b : Byte) (st : Station), stationOf? b = some st → s.HostRuns i f (.reassign (.handle h g) b) →
        exec .reassign s = .next stale)
    ∧ (s.HostRuns i f (.purge (.handle h g)) → exec .purge s = .next stale)
    ∧ (s.HostRuns i f (.lookup (.ref (.handle h g))) → exec .lookup s = .next stale)
    ∧ (∀ (n : Nat) (o : Byte), 1 ≤ n → n ≤ 65535 → o = 0 ∨ o = 1 → s.HostRuns i f (.setLease (.handle h g) n o) →
        exec .setLease s = .next stale)
    ∧ (∀ v : BitVec 16, s.HostRuns i f (.setGroups (.handle h g) v) → exec .setGroups s = .next stale)
    ∧ (∀ bs : List Byte, bs.length ≤ 12 → s.HostRuns i f (.setTag (.handle h g) bs) → exec .setTag s = .next stale)

/-- RESERVE with its operands in range, the checks in their order: an identity that has a record is DUPLICATE; a full
set is FULL and counted; a named station that is not FREE is STATION_BUSY, and without a named one a line with no FREE
station is NO_STATION; otherwise the record is placed pinned and RESERVED in the way R5 gives, at the named station or
the lowest FREE one. -/
def Obligations.ReservePlacesARecord : Prop :=
  ∀ (s : State) (i : Fin 4) (f : CmdFrame) (id : Identity) (lb sb : Byte) (lease : Nat) (l : Line),
    s.HostRuns i f (.reserve id lb sb lease) → identityInvalid id = false → lineOf? lb = some l →
    (∀ h : Handle, s.lookup? id = some h → (sb = 0 ∨ (stationOf? sb).isSome = true) →
      exec .reserve s = .next (s.answered i f .duplicate []))
    ∧ (s.lookup? id = none →
    (s.freeWay? id = none → (sb = 0 ∨ (stationOf? sb).isSome = true) →
      exec .reserve s = .next (State.answered
        { s with dir := { s.dir with setFull := min 65535 (s.dir.setFull + 1) } } i f .full []))
    ∧ (∀ (h : Handle) (st : Station), s.freeWay? id = some h → stationOf? sb = some st → s.mapAt l st ≠ .free →
      exec .reserve s = .next (s.answered i f .stationBusy []))
    ∧ (∀ h : Handle, s.freeWay? id = some h → sb = 0 → s.freeStation? l = none →
      exec .reserve s = .next (s.answered i f .noStation []))
    ∧ (∀ (h : Handle) (st : Station), s.freeWay? id = some h →
      (stationOf? sb = some st ∧ s.mapAt l st = .free ∨ sb = 0 ∧ s.freeStation? l = some st) →
      exec .reserve s = .next (State.answered
        ((s.setSlot h
          { content := some
              { identity := id, state := .reserved, pinned := true, line := l, station := st
                leaseLength := if lease = 0 then s.arb.grantCfg.leaseLength else lease
                leaseRemaining := if lease = 0 then s.arb.grantCfg.leaseLength else lease
                missCount := 0, joinCount := 0, caps := [], groups := 0, tag := none, outcome := .none
                requestPending := false }
            gen := (s.slot h).gen
            lastIdentity := none
            keptOutcome := none
            mask := if (s.slot h).mask = 0 then 0 else ChangeMask.superseded }).setMap l st (.held h))
        i f .ok [handleByte h, (s.slot h).gen, stationByte st])))

/-- RETIRE. RESERVED, RETIRING and LAPSED records are refused with STATE. A BOUND or QUIET record is refused with
LINE_DOWN where its line is not RUNNING or PAUSED and with LINE_BUSY where the queue has no free entry; otherwise it is
RETIRING, FORGET has cleared its pin, and a RELEASE order to its station stands at the tail of the queue. A JOINING
record is refused with LINE_DOWN alone, and ends with JOIN_ABANDONED: back to RESERVED where it is still pinned, else
freed with its station quarantined; its ASSIGN and its request are withdrawn. A MOVING record is refused with LINE_DOWN,
and with LINE_BUSY where no entry is free and its own REASSIGN does not free one; otherwise it is RETIRING, its target
QUARANTINED or FREE as its REASSIGN was sent or not, and the RELEASE goes to both stations or to the old one. -/
def Obligations.RetireByState : Prop :=
  ∀ (s : State) (i : Fin 4) (f : CmdFrame) (ref : RefOperand) (o : Byte) (h : Handle) (r : Record),
    s.HostRuns i f (.retire ref o) → s.Names ref h r → o = 0 ∨ o = 1 →
    let up := (s.line r.line).state = .running ∨ (s.line r.line).state = .paused
    let pin := if o = 1 then false else r.pinned
    let release := fun (d : Dest) => Order.fresh (some (s.refOf h)) d .release s.arb.grantCfg.retryLimit false
    (r.state = .reserved ∨ r.state = .retiring ∨ r.state = .lapsed →
      exec .retire s = .next (s.answered i f .state []))
    ∧ (r.state = .bound ∨ r.state = .quiet → exec .retire s = .next (
      if ¬ up then s.answered i f .lineDown []
      else if (s.line r.line).freeCount = 0 then s.answered i f .lineBusy []
      else ((s.setRecord h { r with state := .retiring, pinned := pin }).setLine r.line
        { s.line r.line with
          orders := (s.line r.line).orders ++ [release (.station r.station)] }).answered i f .accepted []))
    ∧ (r.state = .joining ∨ (∃ x, r.state = .moving x) → ¬ up → exec .retire s = .next (s.answered i f .lineDown []))
    ∧ (∀ x : Station, r.state = .moving x → up → (s.line r.line).freeCount = 0 →
      (∀ y : Order, (s.line r.line).liveOrder? .reassign (s.refOf h) = some y → y.progress = .sending) →
      exec .retire s = .next (s.answered i f .lineBusy []))
    ∧ (r.state = .joining → up → ∃ t, exec .retire s = .next t
      ∧ t.host.slots.get i = .answered ⟨f.tag, .ok, []⟩
      ∧ (∀ h' : Handle, h' ≠ h → t.slot h' = s.slot h') ∧ t.line (otherLine r.line) = s.line (otherLine r.line)
      ∧ t.line r.line = (s.line r.line).without (s.refOf h) r
      ∧ (pin = false → t.record? h = none ∧ (t.slot h).gen = (s.slot h).gen + 1
        ∧ (t.slot h).keptOutcome = some .joinAbandoned
        ∧ (t.slot h).mask = (s.slot h).mask ||| (ChangeMask.freed ||| ChangeMask.outcome)
        ∧ t.mapAt r.line r.station = .quarantined
        ∧ t.quarOf r.line = s.quarOf r.line ++ [⟨r.station, s.arb.grantCfg.quarHold, none⟩])
      ∧ (pin = true → t.record? h = some { r with
          state := .reserved, leaseRemaining := r.leaseLength, missCount := 0, outcome := .joinAbandoned
          requestPending := false }
        ∧ (t.slot h).mask = (s.slot h).mask ||| (ChangeMask.state ||| ChangeMask.outcome)
        ∧ t.dir.maps = s.dir.maps ∧ t.dir.quar = s.dir.quar))
    ∧ ∀ x : Station, r.state = .moving x → up → s.canTakeRelease h r = true →
      (s.line r.line).orders.length + (s.line r.line).reservations.length ≤ 8 →
      ∃ t, exec .retire s = .next t ∧ t.host.slots.get i = .answered ⟨f.tag, .accepted, []⟩
        ∧ t.record? h = some { r with state := .retiring, pinned := pin }
        ∧ (t.slot h).mask = (s.slot h).mask ∧ (∀ h' : Handle, h' ≠ h → t.slot h' = s.slot h')
        ∧ t.mapAt r.line x = (if s.moveSent h then .quarantined else .free)
        ∧ t.quarOf r.line = (if s.moveSent h then s.quarOf r.line ++ [⟨x, s.arb.grantCfg.quarHold, none⟩]
            else s.quarOf r.line)
        ∧ (t.line r.line).orders = ((s.line r.line).withdraw .reassign (s.refOf h)).orders
            ++ [release (if s.moveSent h then .pair r.station x else .station r.station)]
        ∧ t.line (otherLine r.line) = s.line (otherLine r.line)

/-- REASSIGN, its checks in their order: a record that is not BOUND is refused with STATE, its own station as target
with BAD_ARGUMENT, a line that is not RUNNING or PAUSED with LINE_DOWN, a target that is not FREE with STATION_BUSY, a
queue without a free entry with LINE_BUSY; otherwise the record is MOVING, the target's entry is TARGET, and a REASSIGN
order to the old station stands at the tail of the queue. -/
def Obligations.ReassignStartsAMove : Prop :=
  ∀ (s : State) (i : Fin 4) (f : CmdFrame) (ref : RefOperand) (b : Byte) (target : Station) (h : Handle)
    (r : Record), s.HostRuns i f (.reassign ref b) → stationOf? b = some target → s.Names ref h r →
    exec .reassign s = .next (
      if r.state ≠ .bound then s.answered i f .state []
      else if target = r.station then s.answered i f .badArgument []
      else if (s.line r.line).state ≠ .running ∧ (s.line r.line).state ≠ .paused then s.answered i f .lineDown []
      else if s.mapAt r.line target ≠ .free then s.answered i f .stationBusy []
      else if (s.line r.line).freeCount = 0 then s.answered i f .lineBusy []
      else (((s.setRecord h { r with state := .moving target }).setMap r.line target (.target h)).setLine r.line
        { s.line r.line with
          orders := (s.line r.line).orders ++
            [Order.fresh (some (s.refOf h)) (.station r.station) (.reassign target) s.arb.grantCfg.retryLimit
              false] }).answered i f .accepted [])

/-- PURGE frees a LAPSED record: its quarantine entry loses its reference and keeps its station, place and hold; the
station stays as it is; a mask that is not empty gains FREED. Any other state is refused with STATE. -/
def Obligations.PurgeFreesLapsed : Prop :=
  ∀ (s : State) (i : Fin 4) (f : CmdFrame) (ref : RefOperand) (h : Handle) (r : Record),
    s.HostRuns i f (.purge ref) → s.Names ref h r →
    (r.state ≠ .lapsed → exec .purge s = .next (s.answered i f .state []))
    ∧ (r.state = .lapsed → ∃ t, exec .purge s = .next t
      ∧ t.host.slots.get i = .answered ⟨f.tag, .ok, []⟩
      ∧ t.record? h = none ∧ (t.slot h).gen = (s.slot h).gen + 1 ∧ (t.slot h).lastIdentity = some r.identity
      ∧ (t.slot h).mask = (if (s.slot h).mask = 0 then 0 else (s.slot h).mask ||| ChangeMask.freed)
      ∧ (∀ h' : Handle, h' ≠ h → t.slot h' = s.slot h') ∧ t.dir.maps = s.dir.maps
      ∧ t.quarOf r.line
          = (s.quarOf r.line).map (fun q => if q.ref = some (s.refOf h) then { q with ref := none } else q)
      ∧ t.quarOf (otherLine r.line) = s.quarOf (otherLine r.line) ∧ t.dir.changeSet = s.dir.changeSet)

/-- SET LEASE sets the lease length, and the lease remaining by the record's state and RENEW NOW: the new length for a
RESERVED record, 0 for a LAPSED one, and otherwise the new length with RENEW NOW or the lesser of the two. SET GROUPS
replaces the group set whole and adjusts the member counts of the groups added and removed, or is refused with
GROUP_FULL where an addition would exceed a non-zero limit; SET GROUP LIMIT sets a limit that is 0 or not below the
member count; SET TAG sets or removes the tag, and refuses a length above 12 with BAD_ARGUMENT, whether its reference
resolves or not, which is the model's reading (log 31). -/
def Obligations.LeaseGroupsAndTagsAreSet : Prop :=
  ∀ (s : State) (i : Fin 4) (f : CmdFrame),
    (∀ (ref : RefOperand) (v : BitVec 16) (h : Handle) (r : Record), s.HostRuns i f (.setGroups ref v) →
      s.Names ref h r →
      ((∃ g : Fin 16, v.getLsbD g = true ∧ r.groups.getLsbD g = false ∧ (s.dir.groups.get g).limit ≠ 0
          ∧ (s.dir.groups.get g).limit < (s.dir.groups.get g).count + 1) →
        exec .setGroups s = .next (s.answered i f .groupFull []))
      ∧ ((∀ g : Fin 16, v.getLsbD g = true → r.groups.getLsbD g = false →
          (s.dir.groups.get g).limit = 0 ∨ (s.dir.groups.get g).count + 1 ≤ (s.dir.groups.get g).limit) →
        ∃ t, exec .setGroups s = .next t ∧ t.host.slots.get i = .answered ⟨f.tag, .ok, []⟩
          ∧ t.record? h = some { r with groups := v } ∧ (∀ h' : Handle, h' ≠ h → t.slot h' = s.slot h')
          ∧ (∀ g : Fin 16, t.dir.groups.get g = { s.dir.groups.get g with
              count := if v.getLsbD g && !r.groups.getLsbD g then (s.dir.groups.get g).count + 1
                else if r.groups.getLsbD g && !v.getLsbD g then (s.dir.groups.get g).count - 1
                else (s.dir.groups.get g).count })
          ∧ t.dir.maps = s.dir.maps ∧ t.dir.changeSet = s.dir.changeSet ∧ t.lines = s.lines))
    ∧ (∀ (gb n : Byte) (g : Fin 16), s.HostRuns i f (.setGroupLimit gb n) → gb.toNat = g.val →
      exec .setGroupLimit s = .next
        (if n ≠ 0 ∧ n.toNat < (s.dir.groups.get g).count then s.answered i f .badArgument []
         else ({ s with dir := { s.dir with
            groups := s.dir.groups.set g.val { s.dir.groups.get g with limit := n.toNat } g.isLt } }).answered i f
              .ok []))
    ∧ (∀ (ref : RefOperand) (bs : List Byte), s.HostRuns i f (.setTag ref bs) → 12 < bs.length →
      exec .setTag s = .next (s.answered i f .badArgument []))
    ∧ (∀ (ref : RefOperand) (bs : List Byte) (h : Handle) (r : Record), s.HostRuns i f (.setTag ref bs) →
      bs.length ≤ 12 → s.Names ref h r →
      exec .setTag s = .next ((s.setRecord h { r with tag := if bs = [] then none else some bs }).answered i f .ok
        []))
    ∧ (∀ (ref : RefOperand) (n : Nat) (o : Byte) (h : Handle) (r : Record), s.HostRuns i f (.setLease ref n o) →
      1 ≤ n → n ≤ 65535 → o = 0 ∨ o = 1 → s.Names ref h r →
      let left := if r.state = .reserved then n else if r.state = .lapsed then 0
        else if o = 1 then n else min r.leaseRemaining n
      exec .setLease s = .next ((s.setRecord h { r with leaseLength := n, leaseRemaining := left }).answered i f .ok
        (be16 n ++ be16 left)))

/-- LINE_START is refused with LINE_BUSY where stop due of its line was set when it was begun, or directory work is owed when
its claim is carried out. Otherwise: from OFF and FAULT the line is STARTING with the configured rate and its idle check
begun; from RUNNING and PAUSED its transaction is abandoned and stop due is set besides; in STARTING the command is refused
with STATE. That the stop due of a fault counts when the command is begun, and flush due does not, is the model's reading:
log 35. -/
def Obligations.LineStartByState : Prop :=
  ∀ (s : State) (i : Fin 4) (f : CmdFrame) (lb o : Byte) (l : Line), s.HostRuns i f (.lineStart lb o) →
    lineOf? lb = some l → o = 0 ∨ o = 1 →
    (s.host.begunStopDue l = true ∨ (s.line l).stopDue = true ∨ (s.line l).flushDue = true →
      exec .lineStart s = .next (s.answered i f .lineBusy []))
    ∧ (s.host.begunStopDue l = false → (s.line l).stopDue = false → (s.line l).flushDue = false →
      ((s.line l).state = .starting → exec .lineStart s = .next (s.answered i f .state []))
      ∧ ((s.line l).state ≠ .starting →
        ∃ t, exec .lineStart s = .next t ∧ t.host.slots.get i = .answered ⟨f.tag, .ok, []⟩
          ∧ (t.line l).state = .starting ∧ (t.line l).stage = .idleCheck
          ∧ (t.line l).rate = s.arb.grantCfg.rates.get l ∧ (t.line l).startFlush = (o == 1)
          ∧ (t.line l).stopDue = ((s.line l).state == .running || (s.line l).state == .paused)
          ∧ ((s.line l).state = .running ∨ (s.line l).state = .paused → (t.line l).tx = none)
          ∧ (t.line l).reservations = (s.line l).reservations
          ∧ (t.line l).orders.map (fun x => { x with chosen := false })
              = (s.line l).orders.map (fun x => { x with chosen := false })
          ∧ (t.line l).counters = (s.line l).counters ∧ (t.line l).position = (s.line l).position
          ∧ t.line (otherLine l) = s.line (otherLine l) ∧ t.dir = s.dir ∧ t.cfg = s.cfg ∧ t.clock = s.clock))

/-- LINE_STOP, LINE_PAUSE and LINE_RESUME are refused with LINE_BUSY where stop due of their line was set when the
command was begun, or directory work is owed when the claim is carried out; flush due alone does not refuse the
LINE_STOP of a STARTING line. That the stop due of a fault counts when the command is begun, and flush due does not,
is the model's reading: log 35. Begun and carried out with no stop due, and no flush due unless the line is STARTING:
LINE_STOP is refused with STATE in OFF, and any other line becomes OFF, its transaction abandoned, with stop due set
except from FAULT. That a stop in FAULT sets no stop due is the model's reading: log 12. Begun with no stop due and
carried out with no directory work owed, LINE_PAUSE makes a RUNNING line PAUSED and LINE_RESUME makes a PAUSED line
RUNNING; every other part of the line engine stays, its transaction, queue and round among it, and a 1 ms rest in
progress too, which is the model's choice (log 28), but for a transaction whose first frame waits at its stuck-line
check: at LINE_RESUME the check of a CALL is made again, and a poll or an order goes back to the choice (log 11). In
other states each is refused with STATE. -/
def Obligations.StopPauseAndResumeByState : Prop :=
  ∀ (s : State) (i : Fin 4) (f : CmdFrame) (lb : Byte) (l : Line), lineOf? lb = some l →
    (s.host.begunStopDue l = true ∨ (s.line l).stopDue = true ∨ (s.line l).flushDue = true →
      (s.HostRuns i f (.lineStop lb) →
        s.host.begunStopDue l = true ∨ (s.line l).stopDue = true ∨ (s.line l).state ≠ .starting →
        exec .lineStop s = .next (s.answered i f .lineBusy []))
      ∧ (s.HostRuns i f (.linePause lb) → exec .linePause s = .next (s.answered i f .lineBusy []))
      ∧ (s.HostRuns i f (.lineResume lb) → exec .lineResume s = .next (s.answered i f .lineBusy [])))
    ∧ (s.host.begunStopDue l = false → (s.line l).stopDue = false →
      let resumed : LineEngine := { s.line l with state := .running }
      let released : LineEngine :=
        { resumed with tx := none, orders := (s.line l).orders.map fun o => { o with chosen := false } }
      let resumes := fun (e : LineEngine) => exec .lineResume s = .next ((s.setLine l e).answered i f .ok [])
      (s.HostRuns i f (.lineStop lb) → (s.line l).flushDue = false ∨ (s.line l).state = .starting →
        ((s.line l).state = .off → exec .lineStop s = .next (s.answered i f .state []))
        ∧ ((s.line l).state ≠ .off →
          ∃ t, exec .lineStop s = .next t ∧ t.host.slots.get i = .answered ⟨f.tag, .ok, []⟩
            ∧ (t.line l).state = .off ∧ (t.line l).stage = .none ∧ (t.line l).tx = none
            ∧ (t.line l).stopDue = ((s.line l).state != .fault) ∧ (t.line l).flushDue = (s.line l).flushDue
            ∧ (t.line l).orders.length = (s.line l).orders.length
            ∧ (t.line l).reservations = (s.line l).reservations
            ∧ (t.line l).exclusions = (s.line l).exclusions ∧ (t.line l).position = (s.line l).position
            ∧ (t.line l).counters = (s.line l).counters
            ∧ t.line (otherLine l) = s.line (otherLine l) ∧ t.dir = s.dir ∧ t.cfg = s.cfg ∧ t.clock = s.clock))
      ∧ (s.HostRuns i f (.linePause lb) → (s.line l).flushDue = false →
        exec .linePause s = .next (if (s.line l).state = .running
          then (s.setLine l { s.line l with state := .paused }).answered i f .ok [] else s.answered i f .state []))
      ∧ (s.HostRuns i f (.lineResume lb) → (s.line l).flushDue = false →
        ((s.line l).state ≠ .paused → exec .lineResume s = .next (s.answered i f .state []))
        ∧ ((s.line l).state = .paused →
          ((∀ t : Tx, (s.line l).tx = some t → t.phase ≠ .check ∨ t.repeated = true) → resumes resumed)
          ∧ ∀ t : Tx, (s.line l).tx = some t → t.phase = .check → t.repeated = false →
            (∀ p : CallPolicy, t.work = .call p → resumes (if (s.line l).leadDominant then resumed else
              { resumed with
                txSinceRound := true
                tx := some { t with
                  phase := .sending, frame := callFrame (s.line l).callNumber (s.line l).exclusions
                  holdOffLimit := s.cfg.holdOff } }))
            ∧ (∀ (st : Station) (ref : Ref) (solicited : Bool), t.work = .poll st ref solicited →
              resumes (if solicited then { released with reservations := (s.line l).reservations.erase (.poll ref) }
                else released))
            ∧ (t.work = .order → resumes released))))

/-- SET CALL POLICY writes the line's policy in the store; CLEAR EXCLUSION with ALL empties the exclusion list, and with
an identity removes it where it is listed and is refused with NOT_FOUND where it is not. -/
def Obligations.CallPolicyAndExclusions : Prop :=
  ∀ (s : State) (i : Fin 4) (f : CmdFrame) (lb : Byte) (l : Line), lineOf? lb = some l →
    (∀ (b : Byte) (p : CallPolicy), s.HostRuns i f (.setCallPolicy lb b) → CallPolicy.ofCode? b.toNat = some p →
      exec .setCallPolicy s = .next
        (({ s with cfg := { s.cfg with policies := s.cfg.policies.set l p } }).answered i f .ok []))
    ∧ (∀ id : Identity, s.HostRuns i f (.clearExclusion lb 0 id) →
      exec .clearExclusion s = .next ((s.setLine l { s.line l with exclusions := [] }).answered i f .ok []))
    ∧ (∀ id : Identity, s.HostRuns i f (.clearExclusion lb 1 id) → identityInvalid id = false →
      exec .clearExclusion s = .next (if id ∈ (s.line l).exclusions
        then (s.setLine l { s.line l with exclusions := (s.line l).exclusions.erase id }).answered i f .ok []
        else s.answered i f .notFound []))

/-- CLEAR COUNTERS makes every line counter of its line 0 and changes nothing else; a line other than A or B gives
BAD_ARGUMENT (R184). -/
def Obligations.ClearCountersClearsOneLine : Prop :=
  ∀ (s : State) (i : Fin 4) (f : CmdFrame) (lb : Byte), s.HostRuns i f (.clearCounters lb) →
    (lineOf? lb = none → exec .clearCounters s = .next (s.answered i f .badArgument []))
    ∧ ∀ l : Line, lineOf? lb = some l →
      ∃ t, exec .clearCounters s = .next t ∧ t.host.slots.get i = .answered ⟨f.tag, .ok, []⟩
        ∧ (∀ c : Ctr, (t.line l).counter c = 0) ∧ t.line l = { s.line l with counters := (t.line l).counters }
        ∧ t.line (otherLine l) = s.line (otherLine l) ∧ t.dir = s.dir ∧ t.cfg = s.cfg ∧ t.clock = s.clock

/-! ### The arbiter -/

/-- Where no claim is being carried out and one is outstanding, the grant goes to the first requester after the rotation
position, in the cyclic order host port, line A, line B, lease clock, that has a claim outstanding, and that requester
becomes the rotation position; otherwise a grant changes nothing. -/
def Obligations.GrantIsCyclic : Prop :=
  ∀ s : State,
    (s.arb.engine ≠ none ∨ (∀ r : Requester, s.outstanding r = false) → s.grant = s)
    ∧ (s.arb.engine = none → ∀ (r : Requester) (before after : List Requester),
      s.arb.rotation.cycleAfter = before ++ r :: after → (∀ x ∈ before, s.outstanding x = false) →
      s.outstanding r = true →
      s.grant = { s with arb := { engine := some r, rotation := r, grantCfg := s.cfg } })
    ∧ Requester.host.cycleAfter = [.line .A, .line .B, .clock, .host]
    ∧ (Requester.line .A).cycleAfter = [.line .B, .clock, .host, .line .A]
    ∧ (Requester.line .B).cycleAfter = [.clock, .host, .line .A, .line .B]
    ∧ Requester.clock.cycleAfter = [.host, .line .A, .line .B, .clock]

/-! ### The lease clock -/

/-- The end of a tick period: the next period begins with the configured length and a divider of 0; with no tick claim
outstanding one is raised, otherwise ticks due rises by 1, stopping at 255. TICK_PERIOD_END ends the period in progress,
and so does the passing of a millisecond that brings the divider to the tick period; any other millisecond only advances
the divider, and while RST is asserted nothing runs. That TICK_PERIOD_END stands for what is left of the period, and a
step on an empty queue for a millisecond, is the model's choice: log 1. -/
def Obligations.TickPeriodEndRaisesOrCounts : Prop :=
  ∀ s : State,
    (s.rst = true → exec .tickPeriodEnd s = .next s ∧ (s.pending = [] → step s = .next s))
    ∧ (s.rst = false →
      let ended : State := State.grant { s with clock :=
        { period := s.cfg.tickPeriod
          divider := 0
          ticksDue := if s.clock.claim then min 255 (s.clock.ticksDue + 1) else s.clock.ticksDue
          claim := true } }
      exec .tickPeriodEnd s = .next ended
      ∧ (s.pending = [] → s.clock.period.ms ≤ s.clock.divider + 1 → step s = .next ended)
      ∧ (s.pending = [] → s.clock.divider + 1 < s.clock.period.ms →
        step s = .next { s with clock := { s.clock with divider := s.clock.divider + 1 } }))

/-- LEASE_TICK completes: the lease stage, the quarantine stage, then the tick claim; u is the state between the stages,
t the one after both (what the maps hold after a lapse is said from a state whose records, maps and lists agree). In the
lease stage a record that does not age is unchanged; one that ages loses a tick; where that leaves none, one that is not
pinned is LAPSED, its station quarantined with a reference to it, and a pinned one returns to RESERVED at its station, a
MOVING one after its move has been abandoned: its REASSIGN and its request are withdrawn, no poll of it keeps a
reservation, and STATE and OUTCOME are marked, also where its entry expires in the same claim (the model's choice: log
29). No other record makes an entry in a list, and no other station changes. In the quarantine stage every hold falls by
1, and an entry that reaches 0 leaves its list, its station is FREE, and the record it references is freed and marked
FREED. Ticks due falls by 1 where it was above 0, and the next tick claim is then outstanding. -/
def Obligations.LeaseTickAgesRunningLeases : Prop :=
  ∀ s : State, s.arb.engine = some .clock →
    let hold := s.arb.grantCfg.quarHold
    let lapses := fun (h : Handle) (r : Record) => s.record? h = some r ∧ s.Ages r ∧ r.leaseRemaining ≤ 1
    let u := s.leaseStage
    let t := u.quarStage
    exec .leaseTick s = .next t.completeClock
      ∧ (∀ (h : Handle) (r : Record), s.record? h = some r →
        (¬ s.Ages r → u.slot h = s.slot h)
        ∧ (s.Ages r → 2 ≤ r.leaseRemaining →
          u.slot h = { s.slot h with content := some { r with leaseRemaining := r.leaseRemaining - 1 } })
        ∧ (s.Ages r → r.leaseRemaining ≤ 1 →
          u.record? h = some (if r.pinned then r.returned .lapsed else r.lapsed)
          ∧ (u.slot h).mask = (s.slot h).mask ||| (ChangeMask.state ||| ChangeMask.outcome)
          ∧ (u.slot h).gen = (s.slot h).gen
          ∧ (r.pinned = false → ⟨r.station, hold, some (s.refOf h)⟩ ∈ u.quarOf r.line)
          ∧ .poll (s.refOf h) ∉ (t.line r.line).reservations
          ∧ (r.requestPending = true → (t.line r.line).liveOrder? .answer (s.refOf h) = none)
          ∧ (∀ x : Station, r.state = .moving x →
            (t.line r.line).liveOrder? .reassign (s.refOf h) = none
            ∧ (s.moveSent h = true → ⟨x, hold, none⟩ ∈ u.quarOf r.line))
          ∧ (s.DirectoryLaw →
            u.mapAt r.line r.station = (if r.pinned then .held h else .quarantined)
            ∧ ∀ x : Station, r.state = .moving x →
              u.mapAt r.line x = (if s.moveSent h then .quarantined else .free))))
      ∧ (∀ h : Handle, s.record? h = none → u.slot h = s.slot h)
      ∧ (∀ (l : Line) (st : Station), (∀ (h : Handle) (r : Record), lapses h r → r.line = l →
          st ≠ r.station ∧ r.state ≠ .moving st) → u.mapAt l st = s.mapAt l st)
      ∧ (∀ l : Line, ∃ made, u.quarOf l = s.quarOf l ++ made ∧ ∀ q ∈ made, q.hold = hold
        ∧ ∃ (h : Handle) (r : Record), lapses h r ∧ r.line = l
          ∧ (q.station = r.station ∧ q.ref = some (s.refOf h) ∧ r.pinned = false
            ∨ r.state = .moving q.station ∧ q.ref = none))
      ∧ (∀ l : Line, t.quarOf l
          = ((u.quarOf l).filter fun q => decide (2 ≤ q.hold)).map fun q => { q with hold := q.hold - 1 })
      ∧ (∀ (l : Line) (st : Station), t.mapAt l st
          = if ∃ q ∈ u.quarOf l, q.station = st ∧ q.hold ≤ 1 then .free else u.mapAt l st)
      ∧ (∀ (l : Line) (q : QuarEntry) (ref : Ref) (r : Record), q ∈ u.quarOf l → q.hold ≤ 1 → q.ref = some ref →
        u.current? ref = some r → (t.slot ref.handle).FreedFrom (u.slot ref.handle) r r.outcome 0)
      ∧ (∀ h : Handle, (∀ (l : Line) (q : QuarEntry), q ∈ u.quarOf l → q.hold ≤ 1 → q.ref ≠ some (u.refOf h)) →
        t.slot h = u.slot h)
      ∧ t.completeClock.clock
        = { s.clock with ticksDue := s.clock.ticksDue - 1, claim := decide (0 < s.clock.ticksDue) }
      ∧ t.completeClock.dir = t.dir ∧ t.completeClock.lines = t.lines ∧ t.cfg = s.cfg
      ∧ ∀ l : Line, (t.line l).state = (s.line l).state ∧ (t.line l).tx = (s.line l).tx

/-- LAPSE of a record with no lease left. A BOUND or QUIET one that is not pinned is LAPSED with outcome LAPSED, its
station quarantined at the tail of the line's list with a reference to it; a pinned one is RESERVED with its full lease,
and its station and the lists stay. A MOVING one first has its move abandoned: its REASSIGN is withdrawn, and its target
is quarantined without a reference where the REASSIGN was sent, and FREE where it was not. Its request is withdrawn, a
pending one's ANSWER with it, and the reservations of its polls are released. STATE and OUTCOME are marked.
QUARANTINE_EXPIRY of the first entry of a list with no hold left: the entry leaves the list, its station is FREE, an
entry without a reference frees no record, and one with a reference frees the LAPSED record it names, with FREED marked.
That the two are commands of their own, on a lease or a hold that is 0 already, is the model's choice: log 14. -/
def Obligations.LapseAndExpiry : Prop :=
  (∀ (s : State) (h : Handle) (r : Record), s.record? h = some r → r.leaseRemaining = 0 →
    let lapses := fun (t : State) (list : List QuarEntry) =>
      (t.slot h).mask = (s.slot h).mask ||| (ChangeMask.state ||| ChangeMask.outcome)
        ∧ (t.slot h).gen = (s.slot h).gen ∧ (∀ h' : Handle, h' ≠ h → t.slot h' = s.slot h')
        ∧ (r.pinned = false → t.record? h = some r.lapsed ∧ t.mapAt r.line r.station = .quarantined
          ∧ t.quarOf r.line = list ++ [⟨r.station, s.arb.grantCfg.quarHold, some (s.refOf h)⟩])
        ∧ (r.pinned = true → t.record? h = some (r.returned .lapsed)
          ∧ t.mapAt r.line r.station = s.mapAt r.line r.station ∧ t.quarOf r.line = list)
        ∧ t.quarOf (otherLine r.line) = s.quarOf (otherLine r.line)
        ∧ t.line r.line = (s.line r.line).without (s.refOf h) r
        ∧ t.line (otherLine r.line) = s.line (otherLine r.line) ∧ t.cfg = s.cfg ∧ t.arb = s.arb
    (r.state = .bound ∨ r.state = .quiet →
      ∃ t, exec (.lapse h) s = .next t ∧ lapses t (s.quarOf r.line)
        ∧ ∀ (k : Line) (st : Station), (k, st) ≠ (r.line, r.station) → t.mapAt k st = s.mapAt k st)
    ∧ ∀ x : Station, r.state = .moving x → x ≠ r.station →
      ∃ t, exec (.lapse h) s = .next t
        ∧ lapses t (if s.moveSent h then s.quarOf r.line ++ [⟨x, s.arb.grantCfg.quarHold, none⟩] else s.quarOf r.line)
        ∧ t.mapAt r.line x = (if s.moveSent h then .quarantined else .free)
        ∧ (t.line r.line).liveOrder? .reassign (s.refOf h) = none
        ∧ ∀ (k : Line) (st : Station), (k, st) ≠ (r.line, r.station) → (k, st) ≠ (r.line, x) →
          t.mapAt k st = s.mapAt k st)
  ∧ ∀ (s : State) (l : Line) (q : QuarEntry) (rest : List QuarEntry), s.quarOf l = q :: rest → q.hold = 0 →
    ∃ t, exec (.quarantineExpiry l q.station) s = .next t ∧ t.quarOf l = rest
      ∧ t.quarOf (otherLine l) = s.quarOf (otherLine l) ∧ t.mapAt l q.station = .free
      ∧ (∀ (k : Line) (st : Station), (k, st) ≠ (l, q.station) → t.mapAt k st = s.mapAt k st)
      ∧ (q.ref = none → t.dir.slots = s.dir.slots ∧ t.dir.changeSet = s.dir.changeSet ∧ t.lines = s.lines
        ∧ t.host = s.host)
      ∧ ∀ (ref : Ref) (r : Record), q.ref = some ref → s.current? ref = some r → r.state = .lapsed →
        (t.slot ref.handle).FreedFrom (s.slot ref.handle) r r.outcome 0
        ∧ (∀ h : Handle, h ≠ ref.handle → t.slot h = s.slot h)
        ∧ t.dir.changeSet = (if (s.slot ref.handle).mask = 0 then s.dir.changeSet ++ [ref.handle] else s.dir.changeSet)

/-! ### Transactions of a line -/

/-- NEXT_TRANSACTION of a line that may choose, the lead recessive. The first order that is WAITING and not deferred is
taken. One that passes its check is SENDING and transmitted, and its frame is being sent: a probe sends an unsolicited
POLL to the target and then to the old station, a RELEASE to a pair goes to the station due. An ANSWER whose record is
gone, or holds the station no longer, is dropped and counted, and a second station no longer QUARANTINED is passed over
as an attempt without reply, which defers the order or exhausts it, its first station due again; the choice then goes
on, unless the outcome waits behind a claim outstanding. With no such order the next station of the round is polled:
with solicitation, and an entry reserved, where the record has no request pending, no request of it is still to be taken
(log 18) and an entry is free, else without; both as the map and the records stand at the choice, also where they
changed within the round, which is the model's reading (log 33). At the end of the round the round counter advances and
every order's deferred flag becomes no; the policies OPEN and RESERVED_ONLY make a call where an entry can be reserved,
and count a call skipped where none can. Without a call, under CLOSED too, the line rests (log 13), or goes on with the
next round, its orders with it, after a round in which a transaction was begun. -/
def Obligations.NextTransactionSendsOrPolls : Prop :=
  ∀ (s : State) (l : Line), (s.line l).Chooses → (s.line l).leadDominant = false →
    (∀ x ∈ (s.line l).orders, x.chosen = false) →
    let e := s.line l
    let begun := fun (work : TxWork) (frame : List Byte) (check : Byte) => some
      { work := work, phase := TxPhase.sending, frame := frame, idCheck := check, repeated := false, held := false
        holdOffLimit := s.cfg.holdOff }
    let goesOn := fun (u : State) => exec (.nextTransaction l) s = exec (.nextTransaction l) u
    let handsOver := fun (x : LineEngine) => (e.claim = none → goesOn (s.setLine l x).grant)
      ∧ (e.claim ≠ none → exec (.nextTransaction l) s = .next (s.setLine l x).grant)
    (∀ (pre rest : List Order) (o : Order), e.orders = pre ++ o :: rest → NoneSendable pre → o.progress = .waiting →
      o.deferred = false →
      let sends := fun (frame : List Byte) => exec (.nextTransaction l) s = .next (s.setLine l
        { e with
          orders := pre ++ { o with progress := .sending, transmitted := true, chosen := true } :: rest
          txSinceRound := true
          tx := begun .order frame (s.orderCheck o) })
      (o.payload.kind = .assign ∨ o.payload.kind = .refuse → sends o.frame)
      ∧ (∀ (target st : Station), o.payload = .reassign target → o.dest = .station st →
        sends (withCheck (if o.phase = .probe then [0x01, stationByte (if o.targetMissed then st else target), 0x00]
          else [0x04, stationByte st, stationByte target])))
      ∧ (∀ st : Station, o.payload = .release → o.dest = .station st → sends (withCheck [0x05, stationByte st]))
      ∧ (∀ first second : Station, o.payload = .release → o.dest = .pair first second →
        (o.onSecond = false → sends (withCheck [0x05, stationByte first]))
        ∧ (o.onSecond = true → s.mapAt l second = .quarantined → sends (withCheck [0x05, stationByte second]))
        ∧ (o.onSecond = true → s.mapAt l second ≠ .quarantined → o.attempts + 1 < o.retryLimit →
          goesOn (s.setLine l { e with orders := pre ++
            { o with attempts := o.attempts + 1, deferred := true, onSecond := false } :: rest }))
        ∧ ∀ ref : Ref, o.ref = some ref → o.onSecond = true → s.mapAt l second ≠ .quarantined →
          o.retryLimit ≤ o.attempts + 1 → handsOver (LineEngine.handed
            { e with
              orders := pre ++ { o with
                attempts := o.attempts + 1, progress := .concluding, onSecond := false } :: rest
              counters := (e.bump .ordersExhausted).counters } (.outcome .release ref .exhausted)))
      ∧ (∀ (code : Byte) (content : List Byte) (st : Station), o.payload = .answer code content →
        o.dest = .station st →
        let answers := sends (withCheck ([0x06, stationByte st, code] ++ content))
        let counted := (e.bump .staleAnswers).counters
        (o.ref = none → answers)
        ∧ ∀ ref : Ref, o.ref = some ref →
          (s.current? ref = none → goesOn (s.setLine l { e with orders := pre ++ rest, counters := counted }))
          ∧ ∀ r : Record, s.current? ref = some r →
            let stands := r.line = l ∧ r.station = st ∧ s.mapAt l st = .held ref.handle
            (stands → answers)
            ∧ (¬ stands → handsOver (LineEngine.handed
              { e with orders := pre ++ { o with progress := .concluding } :: rest, counters := counted }
              (.outcome .answer ref .dropped)))))
    ∧ (NoneSendable e.orders → ∀ (st : Station) (h : Handle) (r : Record), s.NextPolled l st h r →
      let polls := fun (solicited : Bool) (kept : List Reservation) => exec (.nextTransaction l) s = .next (s.setLine l
        { e with
          position := st.val + 1
          reservations := kept
          txSinceRound := true
          tx := begun (.poll st (s.refOf h) solicited)
            (withCheck [0x01, stationByte st, if solicited then 0x01 else 0x00]) (identityCheck r.identity)
          counters := (e.bump .polls).counters })
      (r.requestPending = false → .poll (s.refOf h) ∉ e.reservations →
        e.orders.length + e.reservations.length < 8 → polls true (e.reservations ++ [.poll (s.refOf h)]))
      ∧ (r.requestPending = true ∨ .poll (s.refOf h) ∈ e.reservations ∨ 8 ≤ e.orders.length + e.reservations.length →
        polls false e.reservations))
    ∧ (NoneSendable e.orders → s.RoundOver l →
      let ended : LineEngine := { e with
        roundCounter := e.roundCounter + 1
        position := 0
        orders := e.orders.map fun o => { o with deferred := false } }
      let skipped : LineEngine := { ended with counters := (e.bump .callsSkipped).counters }
      let uncalled := fun (x : LineEngine) =>
        (e.txSinceRound = false → exec (.nextTransaction l) s = .next (s.setLine l { x with resting := true }))
          ∧ (e.txSinceRound = true → goesOn (s.setLine l { x with txSinceRound := false }))
      (s.cfg.policies.get l = .callClosed → uncalled ended)
      ∧ (s.cfg.policies.get l ≠ .callClosed →
        (e.orders.length + e.reservations.length < 8 → exec (.nextTransaction l) s = .next (s.setLine l
          { ended with
            reservations := e.reservations ++ [.call]
            txSinceRound := true
            tx := begun (TxWork.call (s.cfg.policies.get l)) (callFrame e.callNumber e.exclusions) 0 }))
        ∧ (8 ≤ e.orders.length + e.reservations.length → uncalled skipped)))

/-- NEXT_TRANSACTION of a line that may not choose, among them one with a result that waits to be raised, begins nothing
and changes nothing. At a round end with an empty queue and policy CLOSED the counter advances. Where no transaction was
begun since the previous round completed, the line rests for 1 ms; where one was, the next round follows, and if that is
empty it brings the rest. What counts as empty is the model's reading: log 13. The end of the rest lets the line engine
choose again, in PAUSED from LINE_RESUME on (log 28). The levels of the data lead are taken over; in which order events
of one moment are then told is the model's choice (logs 8 and 9). A frame that waits at its stuck-line check begins when
the lead goes recessive: a repetition, with its contents, is counted; a first frame of any work, unless the line is
PAUSED (log 11), is built then, with the hold-off limit of the store. That the position, the polls counter, flush due
and the hold-off limit are taken at that moment is the model's reading: log 23. A transaction whose order was withdrawn
before its first frame began sends nothing and is over (log 10). -/
def Obligations.RestsAndLeads : Prop :=
  ∀ (s : State) (l : Line),
    let recessive : LineEngine := { s.line l with leadDominant := false }
    (¬ (s.line l).Chooses → exec (.nextTransaction l) s = .next s)
    ∧ ((s.line l).Chooses → (s.line l).orders = [] → s.cfg.policies.get l = .callClosed →
      (s.RoundOver l → (s.line l).txSinceRound = false →
        exec (.nextTransaction l) s = .next (s.setLine l
          { s.line l with roundCounter := (s.line l).roundCounter + 1, position := 0, resting := true }))
      ∧ ((∀ (st : Station) (h : Handle), s.mapAt l st ≠ .held h) → (s.line l).txSinceRound = true →
        exec (.nextTransaction l) s = .next (s.setLine l
          { s.line l with
            roundCounter := (s.line l).roundCounter + 2, position := 0, resting := true, txSinceRound := false })))
    ∧ ((s.line l).resting = true →
      exec (.roundRestEnd l) s = .next (s.setLine l { s.line l with resting := false, position := 0 }))
    ∧ ((s.line l).tx = none →
      exec (.dataLeadRecessive l) s = .next (s.setLine l recessive)
      ∧ exec (.dataLeadDominant l) s = .next (s.setLine l { s.line l with leadDominant := true }))
    ∧ ∀ t : Tx, (s.line l).tx = some t → t.phase = .check →
      (t.repeated = true →
        exec (.dataLeadRecessive l) s = .next (s.setLine l
          { recessive with
            tx := some { t with phase := .sending }
            counters := ((s.line l).bump .repetitions).counters }))
      ∧ (t.repeated = false → (s.line l).state = .paused →
        exec (.dataLeadRecessive l) s = .next (s.setLine l recessive))
      ∧ (t.repeated = false → (s.line l).state ≠ .paused →
        let begins := fun (e : LineEngine) (frame : List Byte) => exec (.dataLeadRecessive l) s = .next (s.setLine l
          { e with
            leadDominant := false
            txSinceRound := true
            tx := some { t with phase := .sending, frame := frame, holdOffLimit := s.cfg.holdOff } })
        (∀ (st : Station) (ref : Ref) (b : Bool), t.work = .poll st ref b →
          begins { s.line l with position := st.val + 1, counters := ((s.line l).bump .polls).counters }
            (withCheck [0x01, stationByte st, if b then 0x01 else 0x00]))
        ∧ (∀ p : CallPolicy, t.work = .call p →
          begins (s.line l) (callFrame (s.line l).callNumber (s.line l).exclusions))
        ∧ (t.work = .flush → begins { s.line l with flushDue := true } (withCheck [0x08, 0x7F]))
        ∧ (∀ o : Order, (s.line l).InTransaction t o → begins { s.line l with
            orders := (s.line l).orders.map fun x =>
              if x.chosen then { x with progress := .sending, transmitted := true } else x } o.frame)
        ∧ (t.work = .order → (∀ o ∈ (s.line l).orders, o.chosen = false) →
          exec (.dataLeadRecessive l) s = .next (s.setLine l { recessive with tx := none })))

/-- STUCK_LINE with the lead dominant in the idle check, or at a stuck-line check (in PAUSED that of a repetition: log
11), and IDLE_CHECK_TIMEOUT in the idle check, put the line into FAULT: the faults counter rises, LINE_FAULT is raised,
the transaction is abandoned and stop due is set. In PAUSED STUCK_LINE does nothing to a first frame that waits. -/
def Obligations.FaultsStopTheLine : Prop :=
  ∀ (s : State) (l : Line),
    (∀ c : Instr,
      (c = .stuckLine l ∧ (s.line l).leadDominant = true
          ∧ ((s.line l).stage = .idleCheck ∨ ∃ t, (s.line l).tx = some t ∧ t.phase = .check
            ∧ (t.repeated = true ∨ (s.line l).state ≠ .paused)))
        ∨ (c = .idleCheckTimeout l ∧ (s.line l).state = .starting ∧ (s.line l).stage = .idleCheck) →
      ∃ t, exec c s = .next t ∧ (t.line l).state = .fault ∧ (t.line l).tx = none ∧ (t.line l).stage = .none
        ∧ (t.line l).stopDue = true ∧ (t.line l).flushDue = (s.line l).flushDue
        ∧ (t.line l).counter .faults = min 65535 ((s.line l).counter .faults + 1)
        ∧ (∀ x : Ctr, x ≠ .faults → (t.line l).counter x = (s.line l).counter x)
        ∧ t.host = { s.host with flags := s.host.flags ||| (match l with | .A => 0x001 | .B => 0x002) }
        ∧ (t.line l).orders.length = (s.line l).orders.length ∧ (t.line l).reservations = (s.line l).reservations
        ∧ t.line (otherLine l) = s.line (otherLine l) ∧ t.dir = s.dir ∧ t.cfg = s.cfg ∧ t.clock = s.clock)
    ∧ ∀ t : Tx, (s.line l).state = .paused → (s.line l).stage = .none → (s.line l).tx = some t → t.repeated = false →
      exec (.stuckLine l) s = .next s

/-- COLLISION in the frame of a poll, or of an order that admits a reply, not yet repeated stops it for its repetition,
which waits while the lead is dominant; in a CALL frame it ends the call NO_BID: its reservation is released, the no-bid
counter rises, and the call number and the tracker stay. A collision in a REFUSE or a FLUSH ends that transaction as its
last bit would: as SENT, without a repetition. That the lead then stays dominant is the model's choice: log 8. -/
def Obligations.CollisionsStopTheFrame : Prop :=
  ∀ (s : State) (l : Line) (t : Tx), (s.line l).tx = some t → t.phase = .sending →
    let stopped := exec (.collision l) s = .next (s.setLine l
      { s.line l with
        leadDominant := true
        tx := some { t with phase := .check, repeated := true }
        counters := ((s.line l).bump .collisions).counters })
    let sent := exec (.collision l) s = exec (.headFrameSent l) (s.setLine l
      { s.line l with leadDominant := true, counters := ((s.line l).bump .collisions).counters })
    (∀ (st : Station) (ref : Ref) (b : Bool), t.work = .poll st ref b → t.repeated = false → stopped)
    ∧ (∀ o : Order, (s.line l).InTransaction t o →
      (o.payload.kind ≠ .refuse → t.repeated = false → stopped) ∧ (o.payload.kind = .refuse → sent))
    ∧ (t.work = .flush → sent)
    ∧ (∀ p : CallPolicy, t.work = .call p → ∃ u, exec (.collision l) s = .next u ∧ (u.line l).tx = none
      ∧ (u.line l).reservations = (s.line l).reservations.erase .call
      ∧ (u.line l).counter .noBidCalls = min 65535 ((s.line l).counter .noBidCalls + 1)
      ∧ (u.line l).callNumber = (s.line l).callNumber ∧ (u.line l).tracker = (s.line l).tracker
      ∧ u.line (otherLine l) = s.line (otherLine l) ∧ u.dir = s.dir ∧ u.host = s.host)

/-- HEAD_FRAME_SENT: a poll's frame opens its reply window; a CALL frame raises the call number and the calls counter
and goes into the arbitration field; a REFUSE ends as SENT and is removed. The end of the first and of the second FLUSH
brings the next one to its stuck-line check, and with the lead recessive its frame begins; while a result waits to be
raised the next one does not begin. The end of the third ends the line's own steps, and the line engine raises what it
owes: a result that waits, the line claim of a stop, or the flush claim. When a FLUSH held back begins: log 26; what
counts in the first round: log 27. -/
def Obligations.HeadFrameSentByKind : Prop :=
  ∀ (s : State) (l : Line) (t : Tx), (s.line l).tx = some t → t.phase = .sending →
    (∀ (st : Station) (ref : Ref) (b : Bool), t.work = .poll st ref b →
      exec (.headFrameSent l) s = .next (s.setLine l { s.line l with tx := some { t with phase := .window } }))
    ∧ (∀ p : CallPolicy, t.work = .call p →
      exec (.headFrameSent l) s = .next (s.setLine l
        { s.line l with
          callNumber := (s.line l).callNumber + 1
          tx := some { t with phase := .arbitration }
          counters := ((s.line l).bump .calls).counters }))
    ∧ (∀ o : Order, (s.line l).InTransaction t o → o.payload.kind ≠ .refuse →
      exec (.headFrameSent l) s = .next (s.setLine l { s.line l with tx := some { t with phase := .window } }))
    ∧ (∀ o : Order, (s.line l).InTransaction t o → o.payload.kind = .refuse → o.withdrawn = false →
      o.phase = .send → ∃ u, exec (.headFrameSent l) s = .next u ∧ (u.line l).tx = none
        ∧ (u.line l).orders = (s.line l).orders.filter (fun x => !x.chosen) ∧ u.dir = s.dir ∧ u.host = s.host
        ∧ (u.line l).reservations = (s.line l).reservations ∧ u.line (otherLine l) = s.line (otherLine l))
    ∧ ∀ n : Nat, t.work = .flush → (s.line l).stage = .flushing n → (s.line l).flushDue = true →
      let ended : LineEngine := { s.line l with
        tx := none, orders := (s.line l).orders.map fun o => { o with chosen := false } }
      let waits : Tx := { work := .flush, phase := .check, frame := [], idCheck := 0, repeated := false, held := false
                          holdOffLimit := 0 }
      (n < 2 → (s.line l).waiting = none → exec (.headFrameSent l) s = .next (s.setLine l (if (s.line l).leadDominant
        then { ended with stage := .flushing (n + 1), tx := some waits }
        else { ended with
          stage := .flushing (n + 1)
          txSinceRound := true
          tx := some { waits with
            phase := .sending, frame := withCheck [0x08, 0x7F], holdOffLimit := s.cfg.holdOff } })))
      ∧ (n < 2 → (s.line l).waiting ≠ none →
        exec (.headFrameSent l) s = .next (s.setLine l { ended with stage := .flushing (n + 1) }))
      ∧ (2 ≤ n →
        let raises := fun (claim waiting : Option LineClaim) => exec (.headFrameSent l) s = .next (s.setLine l
          { ended with stage := .ready, claim := claim, waiting := waiting }).grant
        (∀ c : LineClaim, (s.line l).claim = some c → raises (some c) (s.line l).waiting)
        ∧ (∀ c : LineClaim, (s.line l).claim = none → (s.line l).waiting = some c → raises (some c) none)
        ∧ ((s.line l).claim = none → (s.line l).waiting = none →
          raises (some (if (s.line l).stopDue then .line else .flush)) none))

/-- How a poll of the round and a resolution probe end; what is said to be raised waits where a claim of the line is
outstanding. A poll: a reservation made for it is released unless a request claim keeps it. An IDLE with the identity
check taken raises a presence claim. A REQUEST with it raises a request claim where the poll was solicited, and is
otherwise counted and taken as a presence. Another identity check is a STRANGER, counted, and raises a miss claim. So
does the end without a reply: silence in the window or after a HOLD, which raises the silences counter (after a HOLD by
the model's reading: log 17), a second HOLD, and a check error of a transaction already repeated; each, after a HOLD,
raises the hold-off failures counter too. A probe: an IDLE or a REQUEST with the identity check of the record finds the
node, the REQUEST counted as unsolicited (only there, by the model's reading: log 20) and discarded; every other end
finds it not, counted as for a poll. A node found at the target, or any end of the probe at the old station, concludes
the order with the results of the probes; a node not found at the target leaves the probe of the old station due. -/
def Obligations.PollsEndByReplyOrSilence : Prop :=
  ∀ (s : State) (l : Line) (t : Tx),
    let unanswered := fun (e : LineEngine) =>
      if t.held = true ∨ t.phase = .holdOff then e.bump .holdOffFailures else e
    let silences := fun (ends : LineEngine → State) =>
      (t.phase = .window ∨ t.phase = .holdOff →
        (t.held = true →
          exec (.hold l (checkBytes [0x15])) s = .next (ends (unanswered ((s.line l).bump .holdOffs))))
        ∧ (t.repeated = true → exec (.checkError l) s = .next (ends (unanswered ((s.line l).bump .checkErrors)))))
      ∧ (t.phase = .window → exec (.replyWindowTimeout l) s = .next (ends (unanswered ((s.line l).bump .silences))))
      ∧ (t.phase = .holdOff → exec (.holdOffTimeout l) s = .next (ends (unanswered ((s.line l).bump .silences))))
    (∀ (st : Station) (ref : Ref) (solicited : Bool), (s.line l).Polling t st ref solicited →
      let released := if solicited then (s.line l).reservations.erase (.poll ref) else (s.line l).reservations
      let ended := fun (kept : List Reservation) (claim : LineClaim) (e : LineEngine) => (s.setLine l
        (LineEngine.handed
          { s.line l with
            tx := none
            orders := (s.line l).orders.map fun o => { o with chosen := false }
            reservations := kept
            counters := e.counters } claim)).grant
      (t.phase = .window ∨ t.phase = .holdOff →
        (∀ (body : List Byte) (check : Byte), readIdle? body = some (.idle check) →
          exec (.idle l body) s = .next (if check = t.idCheck
            then ended released (.presence st ref) (s.line l)
            else ended released (.miss st ref) ((s.line l).bump .strangers)))
        ∧ (∀ (body : List Byte) (check : Byte) (req : NodeRequest), readRequest? body = some (.request check req) →
          exec (.request l body) s = .next (
            if check ≠ t.idCheck then ended released (.miss st ref) ((s.line l).bump .strangers)
            else if solicited then ended (s.line l).reservations (.request st ref req) (s.line l)
            else ended released (.presence st ref) ((s.line l).bump .unsolicitedRequests))))
      ∧ silences (ended released (.miss st ref)))
    ∧ ∀ (o : Order) (ref : Ref), (s.line l).InTransaction t o → o.phase = .probe → o.payload.kind = .reassign →
      o.ref = some ref → o.withdrawn = false →
      let ends := fun (found : Bool) (e : LineEngine) =>
        if o.targetMissed = true ∨ found = true then (s.setLine l
          (LineEngine.handed
            { s.line l with
              tx := none
              orders := (s.line l).orders.map fun x =>
                if x.chosen then { x with progress := .concluding, chosen := false } else x
              counters := e.counters }
            (.outcome .reassign ref (if o.targetMissed then .probed false found else .probed true false)))).grant
        else s.setLine l
          { s.line l with
            tx := none
            orders := (s.line l).orders.map fun x =>
              if x.chosen then { x with progress := .waiting, targetMissed := true, chosen := false } else x
            counters := e.counters }
      (t.phase = .window ∨ t.phase = .holdOff →
        (∀ (body : List Byte) (check : Byte), readIdle? body = some (.idle check) →
          exec (.idle l body) s = .next (if check = t.idCheck then ends true (s.line l)
            else ends false ((s.line l).bump .strangers)))
        ∧ (∀ (body : List Byte) (check : Byte) (req : NodeRequest), readRequest? body = some (.request check req) →
          exec (.request l body) s = .next (if check = t.idCheck
            then ends true ((s.line l).bump .unsolicitedRequests) else ends false ((s.line l).bump .strangers))))
      ∧ silences (ends false)

/-- A CONFIRM or a DECLINE to an order in phase SEND. Where the order is not withdrawn and has a record, it is
CONCLUDING and its outcome is raised as a claim, or waits where a claim of the line is outstanding; a terminal ANSWER,
which has no record, leaves the queue and raises none; where the order is withdrawn, it leaves the queue and the result
is discarded and counted. -/
def Obligations.OrderRepliesRaiseOutcomes : Prop :=
  ∀ (s : State) (l : Line) (t : Tx) (o : Order) (c : Instr) (result : OrderResult),
    (s.line l).InTransaction t o → t.phase = .window ∨ t.phase = .holdOff → o.phase = .send →
    (c = .confirm l (checkBytes [0x13]) ∧ result = .confirm ∨ c = .decline l (checkBytes [0x14]) ∧ result = .decline) →
    (∀ ref : Ref, o.ref = some ref → o.withdrawn = false →
      exec c s = .next (s.setLine l (LineEngine.handed
        { s.line l with
          tx := none
          orders := (s.line l).orders.map fun x =>
            if x.chosen then { x with progress := .concluding, chosen := false } else x }
        (.outcome o.payload.kind ref result))).grant)
    ∧ (o.ref = none → o.withdrawn = false →
      exec c s = .next (s.setLine l
        { s.line l with tx := none, orders := (s.line l).orders.filter fun x => !x.chosen }))
    ∧ (o.withdrawn = true →
      exec c s = .next (s.setLine l
        { s.line l with
          tx := none
          orders := (s.line l).orders.filter fun x => !x.chosen
          counters := ((s.line l).bump .discardedResults).counters }))

/-- HOLD and CHECK_ERROR: a first HOLD in the window is counted and begins the hold-off wait; a check error of a
transaction not yet repeated is counted, and the frame is repeated at once where the lead is recessive. -/
def Obligations.HoldAndRepetition : Prop :=
  ∀ (s : State) (l : Line) (t : Tx), (s.line l).tx = some t → t.phase = .window →
    (t.held = false →
      exec (.hold l (checkBytes [0x15])) s = .next (s.setLine l
        { s.line l with
          tx := some { t with phase := .holdOff, held := true }
          counters := ((s.line l).bump .holdOffs).counters }))
    ∧ (t.repeated = false → (s.line l).leadDominant = false →
      exec (.checkError l) s = .next (s.setLine l
        { s.line l with
          tx := some { t with phase := .sending, repeated := true }
          counters := (((s.line l).bump .checkErrors).bump .repetitions).counters }))

/-- An order in phase SEND that meets silence, in its window or after a HOLD, the hold-off failures counter rising too
after a HOLD: an order to a pair whose first station was due has its second station due; any other is deferred, its
attempts one more, where they stay below the retry limit, and an order to a pair has its first station due again. The
silence that brings them to it exhausts the order: a REASSIGN then waits in its probe with attempts 0, a terminal ANSWER
leaves the queue, and another order is CONCLUDING with its exhaustion raised, or waiting behind a claim outstanding, and
its note of the pair back at the first station. That ORDER_EXHAUSTED is itself that silence is the model's choice: log
14; and that the hold-off limit counts as a silence: log 17. -/
def Obligations.SilentOrdersAreDeferredOrExhausted : Prop :=
  ∀ (s : State) (l : Line) (t : Tx) (o : Order) (c : Instr), (s.line l).InTransaction t o → o.withdrawn = false →
    o.phase = .send →
    (c = .replyWindowTimeout l ∧ t.phase = .window ∨ c = .holdOffTimeout l ∧ t.phase = .holdOff) →
    let silent := if t.held = true ∨ t.phase = .holdOff
      then ((s.line l).bump .silences).bump .holdOffFailures else (s.line l).bump .silences
    let spent := (silent.bump .ordersExhausted).counters
    ((∃ a b, o.dest = .pair a b) → o.onSecond = false →
      exec c s = .next (s.setLine l
        { s.line l with
          tx := none
          counters := silent.counters
          orders := (s.line l).orders.map fun x => if x.chosen then { x with
            progress := .waiting, onSecond := true, chosen := false } else x }))
    ∧ ((∀ a b : Station, o.dest = .pair a b → o.onSecond = true) →
      (o.attempts + 1 < o.retryLimit →
        exec c s = .next (s.setLine l
          { s.line l with
            tx := none
            counters := silent.counters
            orders := (s.line l).orders.map fun x => if x.chosen then { x with
              attempts := x.attempts + 1, deferred := true, progress := .waiting, onSecond := false
              chosen := false } else x }))
      ∧ (o.retryLimit ≤ o.attempts + 1 → ∀ d : Instr, d = c ∨ d = .orderExhausted l →
        (o.payload.kind = .reassign →
          exec d s = .next (s.setLine l
            { s.line l with
              tx := none
              counters := spent
              orders := (s.line l).orders.map fun x => if x.chosen then { x with
                attempts := 0, phase := .probe, deferred := false, progress := .waiting, chosen := false } else x }))
        ∧ (o.payload.kind ≠ .reassign → o.ref = none →
          exec d s = .next (s.setLine l
            { s.line l with
              tx := none, counters := spent, orders := (s.line l).orders.filter fun x => !x.chosen }))
        ∧ ∀ ref : Ref, o.payload.kind ≠ .reassign → o.ref = some ref →
          exec d s = .next (s.setLine l (LineEngine.handed
            { s.line l with
              tx := none
              counters := spent
              orders := (s.line l).orders.map fun x => if x.chosen then { x with
                attempts := x.attempts + 1, progress := .concluding, onSecond := false, chosen := false }
                else x } (.outcome o.payload.kind ref .exhausted))).grant))

/-- The end of an open call: an arbitration field with every bit recessive ends it NO_BID with the tracker emptied; a
valid JOIN body for a valid identity ends it WIN and raises a join claim that keeps the call's reservation, which waits
where a claim of the line is outstanding. -/
def Obligations.CallsEndNoBidOrWin : Prop :=
  ∀ (s : State) (l : Line) (t : Tx) (p : CallPolicy), (s.line l).tx = some t → t.work = .call p →
    (∀ o ∈ (s.line l).orders, o.chosen = false) →
    (t.phase = .arbitration → ∀ id : Identity,
      exec (.arbitrationEnd l id) s = .next (if id = BitVec.allOnes 48
        then s.setLine l
          { s.line l with
            tx := none
            reservations := (s.line l).reservations.erase .call
            tracker := { identity := none, count := 0 }
            counters := ((s.line l).bump .noBidCalls).counters }
        else s.setLine l
          { s.line l with
            tx := some { t with phase := .joinWait id }
            counters := if id = 0 then ((s.line l).bump .invalidBids).counters else (s.line l).counters }))
    ∧ (∀ (id : Identity) (body : List Byte) (caps : List CapEntry), t.phase = .joinWait id → id ≠ 0 →
      readJoinBody? id body = some caps →
      exec (.joinBody l body) s = .next (s.setLine l (LineEngine.handed
        { s.line l with
          tx := none
          tracker := { identity := none, count := 0 }
          counters := ((s.line l).bump .joinsWon).counters } (.join id caps p))).grant)

/-- A call whose JOIN body does not begin, or is not valid, or that read the identity 0, ends GARBLED: its reservation
is released and the tracker counts the identity read, from 1 where it held another; at the fourth in a row the tracker
becomes empty, and the identity is appended to the exclusion list, with the line's CLASH alarm, or is not, and counted,
where the list is full or holds it already. That CLASH_SETTLED is itself that fourth GARBLED call is the model's choice:
log 14. -/
def Obligations.GarbledCallsAreTracked : Prop :=
  ∀ (s : State) (l : Line) (t : Tx) (p : CallPolicy) (id : Identity), (s.line l).tx = some t → t.work = .call p →
    t.phase = .joinWait id → (∀ o ∈ (s.line l).orders, o.chosen = false) →
    let garbled := (s.line l).bump .garbledCalls
    let ended := fun (tracker : ClashTracker) (exclusions : List Identity) (e : LineEngine) => s.setLine l
      { s.line l with
        tx := none
        reservations := (s.line l).reservations.erase .call
        tracker := tracker
        exclusions := exclusions
        counters := e.counters }
    ∀ c : Instr, (c = .joinBodyTimeout l
        ∨ ∃ body : List Byte, c = .joinBody l body ∧ (id = 0 ∨ readJoinBody? id body = none)) →
    ((s.line l).tracker.identity ≠ some id →
      exec c s = .next (ended { identity := some id, count := 1 } (s.line l).exclusions garbled))
    ∧ ∀ n : Nat, (s.line l).tracker = { identity := some id, count := n } →
      (n < 3 → exec c s = .next (ended { identity := some id, count := n + 1 } (s.line l).exclusions garbled))
      ∧ (3 ≤ n → ∀ d : Instr, d = c ∨ d = .clashSettled l →
        (id ∉ (s.line l).exclusions → (s.line l).exclusions.length < 4 →
          exec d s = .next ((ended { identity := none, count := 0 } ((s.line l).exclusions ++ [id])
            (garbled.bump .clashesExcluded)).raiseAlarm (.clash l)))
        ∧ (id ∈ (s.line l).exclusions ∨ 4 ≤ (s.line l).exclusions.length →
          exec d s = .next (ended { identity := none, count := 0 } (s.line l).exclusions
            (garbled.bump .clashesNotExcluded))))

/-- IDLE_CHECK_PASS of a STARTING line. With KEEP and no stop due and no flush due the line is RUNNING; with either due
its own steps are done, and it stays STARTING until the work owed is carried out. With FLUSH the first FLUSH frame
begins, and flush due is set; while a result waits to be raised no FLUSH begins. The completion of the outstanding claim
raises the result that waits, and the FLUSH it held back comes to its stuck-line check, with the lead recessive its
frame begins; that it begins at this moment is the model's reading: log 26. That no transaction counts as begun in the
first round is the model's choice: log 27. -/
def Obligations.IdleCheckPassStartsTheLine : Prop :=
  ∀ (s : State) (l : Line), (s.line l).state = .starting →
    let waits : Tx := { work := .flush, phase := .check, frame := [], idCheck := 0, repeated := false, held := false
                        holdOffLimit := 0 }
    let sending : Tx :=
      { waits with phase := .sending, frame := withCheck [0x08, 0x7F], holdOffLimit := s.cfg.holdOff }
    ((s.line l).stage = .idleCheck → (s.line l).leadDominant = false →
      ((s.line l).startFlush = false → (s.line l).stopDue = false → (s.line l).flushDue = false →
        exec (.idleCheckPass l) s = .next (s.setLine l
          { s.line l with state := .running, stage := .none, txSinceRound := false }))
      ∧ ((s.line l).startFlush = false → (s.line l).stopDue = true ∨ (s.line l).flushDue = true →
        exec (.idleCheckPass l) s = .next (s.setLine l { s.line l with stage := .ready }))
      ∧ ((s.line l).startFlush = true → (s.line l).waiting = none →
        exec (.idleCheckPass l) s = .next (s.setLine l
          { s.line l with stage := .flushing 0, flushDue := true, txSinceRound := true, tx := some sending }))
      ∧ ((s.line l).startFlush = true → (s.line l).waiting ≠ none →
        exec (.idleCheckPass l) s = .next (s.setLine l { s.line l with stage := .flushing 0 })))
    ∧ ∀ (n : Nat) (c : LineClaim), (s.line l).stage = .flushing n → (s.line l).tx = none →
      (s.line l).waiting = some c →
      (s.completeLine l).line l = (if (s.line l).leadDominant
        then { s.line l with claim := some c, waiting := none, tx := some waits }
        else { s.line l with
          claim := some c, waiting := none, flushDue := true, txSinceRound := true, tx := some sending })

/-! ### Claims of polls, joins and requests -/

/-- PRESENCE_CLAIM and MISS_CLAIM for a record that is current, on the line and at the station: a presence sets the miss
count to 0 and makes a QUIET record BOUND with STATE marked; a miss raises it up to the limit, and one that brings a
BOUND record to it makes it QUIET, with STATE marked; a QUIET or MOVING record stays so, and one in another state is
left as it is. The lease remaining does not change. That a miss raises the count of a QUIET record by 1 too, where a
raised limit lets it, is the model's reading: log 32. That MISS_LIMIT is itself the miss claim that makes a record QUIET
is the model's choice: log 14. -/
def Obligations.PresencesAndMisses : Prop :=
  ∀ (s : State) (l : Line) (st : Station) (ref : Ref) (r : Record), s.current? ref = some r → r.line = l →
    r.station = st → s.mapAt l st = .held ref.handle →
    (s.LineRuns l (.presence st ref) → r.state = .quiet →
      exec .presenceClaim s = .next
        (((s.setRecord ref.handle { r with missCount := 0, state := .bound }).mark ref.handle
          ChangeMask.state).completeLine l))
    ∧ (s.LineRuns l (.presence st ref) → r.state = .bound ∨ (∃ x, r.state = .moving x) →
      exec .presenceClaim s = .next ((s.setRecord ref.handle { r with missCount := 0 }).completeLine l))
    ∧ (s.LineRuns l (.miss st ref) → r.state = .bound → r.missCount + 1 < s.arb.grantCfg.missLimit →
      exec .missClaim s = .next
        ((s.setRecord ref.handle { r with missCount := r.missCount + 1 }).completeLine l))
    ∧ (∀ c : Instr, c = .missClaim ∨ c = .missLimit → s.LineRuns l (.miss st ref) → r.state = .bound →
      s.arb.grantCfg.missLimit ≤ r.missCount + 1 →
      exec c s = .next
        (((s.setRecord ref.handle { r with missCount := s.arb.grantCfg.missLimit, state := .quiet }).mark ref.handle
          ChangeMask.state).completeLine l))
    ∧ (s.LineRuns l (.miss st ref) → r.state = .quiet ∨ (∃ x, r.state = .moving x) →
      exec .missClaim s = .next ((s.setRecord ref.handle
        { r with missCount := min s.arb.grantCfg.missLimit (r.missCount + 1) }).completeLine l))
    ∧ (r.state = .reserved ∨ r.state = .joining ∨ r.state = .retiring ∨ r.state = .lapsed →
      (s.LineRuns l (.presence st ref) → exec .presenceClaim s = .next (s.completeLine l))
      ∧ (s.LineRuns l (.miss st ref) → exec .missClaim s = .next (s.completeLine l)))

/-- JOIN_CLAIM of an identity without a record. Under OPEN: a new JOINING record at the lowest FREE station, with the
list taken in and its dropped entries counted, and an ASSIGN in the call's reservation; a full set is refused with FULL,
which counts a failed placement and raises REFUSED_FULL; no FREE station is refused with NO_STATION and the line's
alarm. Under RESERVED_ONLY it is refused with NOT_RESERVED. A refusal is a REFUSE in the call's reservation, counted,
and changes no record. -/
def Obligations.JoinOfANewIdentity : Prop :=
  ∀ (s : State) (l : Line) (id : Identity) (caps : List CapEntry),
    s.lookup? id = none → .call ∈ (s.line l).reservations →
    (s.line l).orders.length + (s.line l).reservations.length ≤ 8 →
    let filled := fun (order : Order) (e : LineEngine) => { s.line l with
      reservations := (s.line l).reservations.erase .call
      orders := (s.line l).orders ++ [order]
      counters := e.counters }
    let refusal := fun (reason : RefusalReason) => filled (Order.fresh none (.identity id)
      (.refuse reason s.arb.grantCfg.backoff) s.arb.grantCfg.retryLimit false) ((s.line l).bump reason.ctr)
    (s.LineRuns l (.join id caps .callOpen) →
      (∀ (h : Handle) (st : Station), s.freeWay? id = some h → s.freeStation? l = some st →
        exec .joinClaim s = .next (((s.placeRecord h
          { identity := id, state := .joining, pinned := false, line := l, station := st
            leaseLength := s.arb.grantCfg.leaseLength, leaseRemaining := s.arb.grantCfg.leaseLength
            missCount := 0, joinCount := 0, caps := (intake caps).kept, groups := 0, tag := none, outcome := .none
            requestPending := false }).setMap l st (.held h)).setLine l
          (filled (Order.fresh (some (s.refOf h)) (.identity id) (.assign st s.arb.grantCfg.leaseLength .new)
            s.arb.grantCfg.retryLimit false)
            (((s.line l).bumpBy .invalidCaps (intake caps).invalid).bumpBy .duplicateCaps (intake caps).duplicate))
          |>.completeLine l))
      ∧ (s.freeWay? id = none → exec .joinClaim s = .next (((State.setLine
          { s with dir := { s.dir with setFull := min 65535 (s.dir.setFull + 1) } } l
          (refusal .full)).raiseAlarm .refusedFull).completeLine l))
      ∧ ((s.freeWay? id).isSome = true → s.freeStation? l = none → exec .joinClaim s = .next
          (((s.setLine l (refusal .noStation)).raiseAlarm (.noStation l)).completeLine l)))
    ∧ (s.LineRuns l (.join id caps .reservedOnly) →
      exec .joinClaim s = .next ((s.setLine l (refusal .notReserved)).completeLine l))

/-- JOIN_CLAIM of an identity with a record. RESERVED_ONLY refuses every record with NOT_RESERVED but one that is
RESERVED on the line; what follows is for the joins that pass, under OPEN all of them. The list bid replaces the
record's, CAPS is marked where they differ, and dropped entries are counted. On the record's own line a RESERVED, BOUND
or QUIET record is JOINING, its pending request withdrawn (the ANSWER leaves the queue or is marked withdrawn, its
poll's reservation is released), and an ASSIGN of its station is in the call's reservation; a LAPSED one besides takes
its station back from quarantine, and a MOVING one has its move abandoned; the ASSIGN of a JOINING one is refreshed and
the reservation released. On the other line a QUIET one, its request withdrawn there, or a LAPSED one migrates to the
lowest FREE station, or is refused with NO_STATION and the line's alarm; a RESERVED one is refused with WRONG_LINE, a
BOUND, MOVING or JOINING one with DUPLICATE. A RETIRING one is refused with RETIRING on both. A refusal changes no
record. -/
def Obligations.JoinOfAKnownIdentity : Prop :=
  ∀ (s : State) (l : Line) (id : Identity) (caps : List CapEntry) (p : CallPolicy) (h : Handle) (r : Record),
    s.lookup? id = some h → s.record? h = some r → r.identity = id → .call ∈ (s.line l).reservations →
    (s.line l).orders.length + (s.line l).reservations.length ≤ 8 → s.LineRuns l (.join id caps p) →
    let ref := s.refOf h
    let list := (intake caps).kept
    let taken :=
      ((s.line l).bumpBy .invalidCaps (intake caps).invalid).bumpBy .duplicateCaps (intake caps).duplicate
    let filled := fun (own : LineEngine) (order : Order) (e : LineEngine) => { own with
      reservations := own.reservations.erase .call
      orders := own.orders ++ [order]
      counters := e.counters }
    let refusal := fun (reason : RefusalReason) => s.setLine l (filled (s.line l) (Order.fresh none (.identity id)
      (.refuse reason s.arb.grantCfg.backoff) s.arb.grantCfg.retryLimit false) ((s.line l).bump reason.ctr))
    let assign := fun (st : Station) (k : JoinKind) => Order.fresh (some ref) (.identity id)
      (.assign st r.leaseLength k) s.arb.grantCfg.retryLimit false
    let marked := fun (u : State) => if list = r.caps then u else u.mark h ChangeMask.caps
    let joins := fun (u : State) (e : LineEngine) => exec .joinClaim s = .next (((marked u).setLine l e).completeLine l)
    let joining := { r with state := .joining, caps := list }
    let joined := { joining with requestPending := false }
    let own := (s.line l).without ref r
    let reservedHere := r.state = .reserved ∧ r.line = l
    (p = .reservedOnly → ¬ reservedHere → exec .joinClaim s = .next ((refusal .notReserved).completeLine l))
    ∧ (p = .callOpen ∨ p = .reservedOnly ∧ reservedHere →
      (r.line = l → r.state = .reserved ∨ r.state = .bound ∨ r.state = .quiet →
        joins (s.setRecord h joined)
          (filled own (assign r.station (if r.state = .reserved then .reserved else .restart)) taken))
      ∧ (r.line = l → r.state = .lapsed →
        joins (((s.setQuar l ((s.quarOf l).eraseP fun q => q.ref == some ref)).setMap l r.station
          (.held h)).setRecord h joined) (filled own (assign r.station .rebound) taken))
      ∧ (∀ x : Station, r.line = l → r.state = .moving x →
        ∃ t, exec .joinClaim s = .next t ∧ t.record? h = some joined
          ∧ (t.slot h).mask = (if list = r.caps then (s.slot h).mask else (s.slot h).mask ||| ChangeMask.caps)
          ∧ (∀ h' : Handle, h' ≠ h → t.slot h' = s.slot h')
          ∧ t.mapAt l x = (if s.moveSent h then .quarantined else .free)
          ∧ t.quarOf l
            = (if s.moveSent h then s.quarOf l ++ [⟨x, s.arb.grantCfg.quarHold, none⟩] else s.quarOf l)
          ∧ (t.line l).orders = own.orders ++ [assign r.station .restart]
          ∧ (t.line l).reservations = own.reservations.erase .call
          ∧ t.line (otherLine l) = s.line (otherLine l))
      ∧ (∀ st : Station, r.line ≠ l → s.freeStation? l = some st →
        (r.state = .quiet → joins (((((s.setLine r.line ((s.line r.line).unrequested ref r.requestPending)).quarantine
            r.line r.station none).setRecord h { joined with line := l, station := st }).setMap l st (.held h)))
          (filled (s.line l) (assign st .migrated) taken))
        ∧ (r.state = .lapsed → joins (((s.dropQuarRef r.line ref).setRecord h
            { joining with line := l, station := st }).setMap l st (.held h))
          (filled (s.line l) (assign st .migrated) taken)))
      ∧ (r.line = l → r.state = .joining → joins (s.setRecord h { r with caps := list })
          { s.line l with
            reservations := (s.line l).reservations.erase .call
            orders := (s.line l).orders.map fun o =>
              if o.isLive .assign ref = true ∧ o.progress ≠ .concluding
              then { o with attempts := 0, payload := .assign r.station r.leaseLength o.joinKind } else o
            counters := taken.counters })
      ∧ (r.line ≠ l → r.state = .quiet ∨ r.state = .lapsed → s.freeStation? l = none →
        exec .joinClaim s = .next (((refusal .noStation).raiseAlarm (.noStation l)).completeLine l))
      ∧ (r.state = .retiring → exec .joinClaim s = .next ((refusal .retiring).completeLine l))
      ∧ (r.line ≠ l → r.state = .reserved → exec .joinClaim s = .next ((refusal .wrongLine).completeLine l))
      ∧ (r.line ≠ l → r.state = .bound ∨ r.state = .joining ∨ (∃ x, r.state = .moving x) →
        exec .joinClaim s = .next ((refusal .duplicate).completeLine l)))

/-- RENEW, RESOLVE, NODE_FIND, MEMBERS and CAPS_REQUEST of a BOUND, QUIET, MOVING or RETIRING record that holds the
polled station, with the poll's reservation held: each is counted, applies the presence unless the record is RETIRING (a
QUIET record is BOUND, with STATE marked), sets request pending, and fills the reservation with an ANSWER to the
station. RENEW grants the lesser of the ticks asked and the lease length, or the lease length for 0; a RETIRING record's
lease stays, and 0 is granted. CAPS replaces the record's list by the entries kept, marks CAPS where the lists differ,
counts the entries dropped, and answers the number kept. -/
def Obligations.RequestsAreAnswered : Prop :=
  ∀ (s : State) (l : Line) (st : Station) (ref : Ref) (r : Record), s.current? ref = some r → r.line = l →
    r.station = st → s.mapAt l st = .held ref.handle →
    r.state = .bound ∨ r.state = .quiet ∨ (∃ x, r.state = .moving x) ∨ r.state = .retiring →
    .poll ref ∈ (s.line l).reservations → (s.line l).orders.length + (s.line l).reservations.length ≤ 8 →
    let served : Record := if r.state = .retiring then r
      else { r with missCount := 0, state := if r.state = .quiet then .bound else r.state }
    let after := if r.state = .quiet then (s.setRecord ref.handle served).mark ref.handle ChangeMask.state
      else s.setRecord ref.handle served
    let taken := (s.line l).bump .requestsTaken
    let answered := fun (u : State) (record : Record) (e : LineEngine) (code : Byte) (content : List Byte) =>
      ((u.setRecord ref.handle { record with requestPending := true }).setLine l
        { s.line l with
          reservations := (s.line l).reservations.erase (.poll ref)
          orders := (s.line l).orders ++ [Order.fresh (some ref) (.station st) (.answer code content)
            s.arb.grantCfg.retryLimit false]
          counters := e.counters }).completeLine l
    (∀ n : Nat, s.LineRuns l (.request st ref (.renew n)) →
      let g := if r.state = .retiring then 0 else if n = 0 then r.leaseLength else min n r.leaseLength
      exec .renew s = .next (answered after
        { served with leaseRemaining := if r.state = .retiring then r.leaseRemaining else g } taken
        0x01 (be16 g ++ be16 r.leaseLength)))
    ∧ (∀ id : Identity, s.LineRuns l (.request st ref (.resolve id)) →
      exec .resolve s = .next (answered after served taken 0x03 (after.resolveContent id)))
    ∧ (∀ cls start : Byte, s.LineRuns l (.request st ref (.find cls start)) →
      exec .nodeFind s = .next (answered after served taken 0x04
        (after.searchContent l start (cls != 0x00 && cls != 0xFF) (Record.matchesClass cls))))
    ∧ (∀ g start : Byte, s.LineRuns l (.request st ref (.members g start)) →
      exec .members s = .next (answered after served taken 0x05
        (after.searchContent l start (decide (g.toNat ≤ 15)) (Record.matchesGroup g.toNat))))
    ∧ (∀ es : List CapEntry, s.LineRuns l (.request st ref (.caps es)) →
      let list := (intake es).kept
      exec .capsRequest s = .next (answered (if list = r.caps then after else after.mark ref.handle ChangeMask.caps)
        { served with caps := list }
        ((taken.bumpBy .invalidCaps (intake es).invalid).bumpBy .duplicateCaps (intake es).duplicate)
        0x06 [byteOf list.length]))

/-- LEAVE of a BOUND, QUIET, MOVING or RETIRING record that holds the polled station, with outcome LEFT, and RETIRED for
a RETIRING one. A record that is not pinned is freed, its outcome kept by its slot, OUTCOME and FREED marked, its
station quarantined without a reference; a pinned one returns to RESERVED at its station. A MOVING one has its move
abandoned first, its target QUARANTINED or FREE as its REASSIGN was sent or not. The record's directed order and its
pending request are withdrawn, the poll's reservation is released, and a terminal ANSWER stands at the tail of the
queue. -/
def Obligations.LeaveFreesTheRecord : Prop :=
  ∀ (s : State) (l : Line) (st : Station) (ref : Ref) (r : Record), s.LineRuns l (.request st ref .leave) →
    s.current? ref = some r → r.line = l → r.station = st → s.mapAt l st = .held ref.handle →
    r.state = .bound ∨ r.state = .quiet ∨ (∃ x, r.state = .moving x ∧ x ≠ st) ∨ r.state = .retiring →
    .poll ref ∈ (s.line l).reservations → (s.line l).orders.length + (s.line l).reservations.length ≤ 8 →
    let outcome := if r.state = .retiring then RecOutcome.retired else .left
    let target := fun (x : Station) => r.state = .moving x
    ∃ t list, exec .leave s = .next t
      ∧ (∀ x : Station, target x →
        t.mapAt l x = (if s.moveSent ref.handle then .quarantined else .free)
        ∧ list = (if s.moveSent ref.handle then s.quarOf l ++ [⟨x, s.arb.grantCfg.quarHold, none⟩] else s.quarOf l))
      ∧ ((∀ x : Station, ¬ target x) → list = s.quarOf l)
      ∧ (r.pinned = false →
        (t.slot ref.handle).FreedFrom (s.slot ref.handle) r outcome ChangeMask.outcome
        ∧ t.mapAt l st = .quarantined ∧ t.quarOf l = list ++ [⟨st, s.arb.grantCfg.quarHold, none⟩])
      ∧ (r.pinned = true → t.record? ref.handle = some (r.returned outcome)
        ∧ (t.slot ref.handle).mask = (s.slot ref.handle).mask ||| (ChangeMask.state ||| ChangeMask.outcome)
        ∧ t.mapAt l st = .held ref.handle ∧ t.quarOf l = list)
      ∧ (∀ h : Handle, h ≠ ref.handle → t.slot h = s.slot h)
      ∧ (∀ (k : Line) (x : Station), (k, x) ≠ (l, st) → ¬ (k = l ∧ target x) → t.mapAt k x = s.mapAt k x)
      ∧ t.quarOf (otherLine l) = s.quarOf (otherLine l)
      ∧ (t.line l).orders = ((s.line l).without ref r).orders ++ [Order.fresh none (.station st) (.answer 0x02 [])
          s.arb.grantCfg.retryLimit true]
      ∧ (t.line l).reservations = (s.line l).reservations.filter (fun x => x != .poll ref)
      ∧ (t.line l).counters = ((s.line l).bump .requestsTaken).counters
      ∧ t.line (otherLine l) = s.line (otherLine l) ∧ t.cfg = s.cfg

/-! ### Outcome claims -/

/-- A claim that comes late. A presence or a miss claim whose record is gone, or no longer on the line and at the
station, changes nothing but its own completion. A request claim of any kind then releases its reservation and is
counted as discarded; so it is where the record is RESERVED, JOINING or LAPSED, and where a withdrawal has released its
reservation already. An outcome claim of any kind whose order is not in the queue as CONCLUDING completes without
effect. -/
def Obligations.LateClaimsHaveNoEffect : Prop :=
  ∀ (s : State) (l : Line) (ref : Ref),
    (∀ st : Station,
      let gone := s.current? ref = none ∨ ∃ r, s.current? ref = some r
        ∧ (r.line ≠ l ∨ r.station ≠ st ∨ s.mapAt l st ≠ .held ref.handle)
      let refused := gone ∨ .poll ref ∉ (s.line l).reservations ∨ ∃ r, s.current? ref = some r
        ∧ (r.state = .reserved ∨ r.state = .joining ∨ r.state = .lapsed)
      let discarded := (s.setLine l
        { s.line l with
          reservations := (s.line l).reservations.erase (.poll ref)
          counters := ((s.line l).bump .requestsDiscarded).counters }).completeLine l
      (gone → (s.LineRuns l (.presence st ref) → exec .presenceClaim s = .next (s.completeLine l))
        ∧ (s.LineRuns l (.miss st ref) → exec .missClaim s = .next (s.completeLine l)))
      ∧ (refused →
        (∀ n : Nat, s.LineRuns l (.request st ref (.renew n)) → exec .renew s = .next discarded)
        ∧ (s.LineRuns l (.request st ref .leave) → exec .leave s = .next discarded)
        ∧ (∀ id : Identity, s.LineRuns l (.request st ref (.resolve id)) → exec .resolve s = .next discarded)
        ∧ (∀ cls start : Byte, s.LineRuns l (.request st ref (.find cls start)) → exec .nodeFind s = .next discarded)
        ∧ (∀ g start : Byte, s.LineRuns l (.request st ref (.members g start)) → exec .members s = .next discarded)
        ∧ ∀ es : List CapEntry, s.LineRuns l (.request st ref (.caps es)) → exec .capsRequest s = .next discarded))
    ∧ (s.concluding? l .assign ref = none →
      (s.LineRuns l (.outcome .assign ref .confirm) → exec .assignConfirmed s = .next (s.completeLine l))
      ∧ (s.LineRuns l (.outcome .assign ref .decline) → exec .assignDeclined s = .next (s.completeLine l))
      ∧ (s.LineRuns l (.outcome .assign ref .exhausted) → exec .assignExhausted s = .next (s.completeLine l)))
    ∧ (s.concluding? l .reassign ref = none →
      (s.LineRuns l (.outcome .reassign ref .confirm) → exec .moved s = .next (s.completeLine l))
      ∧ (s.LineRuns l (.outcome .reassign ref .decline) → exec .moveDeclined s = .next (s.completeLine l))
      ∧ ∀ a b : Bool, s.LineRuns l (.outcome .reassign ref (.probed a b)) →
        exec .probeOutcome s = .next (s.completeLine l))
    ∧ ∀ x : OrderResult,
      (s.concluding? l .release ref = none → s.LineRuns l (.outcome .release ref x) →
        exec .releaseOutcome s = .next (s.completeLine l))
      ∧ (s.concluding? l .answer ref = none → s.LineRuns l (.outcome .answer ref x) →
        exec .answerOutcome s = .next (s.completeLine l))

/-- ASSIGN_CONFIRMED makes a JOINING record BOUND with its full lease, miss count 0 and its join count one more,
stopping at 255; the outcome is REBOUND or MIGRATED for those join kinds and is kept for the others. ASSIGN_DECLINED and
ASSIGN_EXHAUSTED of a JOINING record, with outcome JOIN_ABANDONED, free one that is not pinned: its station is FREE
after a DECLINE and QUARANTINED without a reference after exhaustion. A pinned one returns to RESERVED at its station.
The order is gone, and a pending request is withdrawn. -/
def Obligations.AssignOutcomesConcludeTheJoin : Prop :=
  ∀ (s : State) (l : Line) (ref : Ref) (o : Order) (r : Record), s.concluding? l .assign ref = some o →
    s.current? ref = some r → r.state = .joining →
    (∀ (st : Station) (len : Nat) (k : JoinKind), s.LineRuns l (.outcome .assign ref .confirm) →
      o.payload = .assign st len k →
      let bound := { r with
        state := .bound, leaseRemaining := r.leaseLength, missCount := 0
        joinCount := min 255 (r.joinCount + 1)
        outcome := if k = .rebound then .rebound else if k = .migrated then .migrated else r.outcome }
      let aspects := if k = .rebound ∨ k = .migrated then ChangeMask.state ||| ChangeMask.outcome
        else ChangeMask.state
      exec .assignConfirmed s = .next
        ((((s.setLine l { s.line l with
          orders := (s.line l).orders.eraseP (Order.isConcluding .assign ref) }).setRecord ref.handle bound).mark
            ref.handle aspects).completeLine l))
    ∧ ∀ (c : Instr) (result : OrderResult),
      (c = .assignDeclined ∧ result = .decline ∨ c = .assignExhausted ∧ result = .exhausted) →
      s.LineRuns l (.outcome .assign ref result) → r.line = l →
      let left := LineEngine.without { s.line l with
        orders := (s.line l).orders.eraseP (Order.isConcluding .assign ref) } ref r
      ∃ t, exec c s = .next t
        ∧ (r.pinned = false →
          (t.slot ref.handle).FreedFrom (s.slot ref.handle) r .joinAbandoned ChangeMask.outcome
          ∧ t.mapAt l r.station = (if result = .decline then .free else .quarantined)
          ∧ t.quarOf l = (if result = .decline then s.quarOf l
              else s.quarOf l ++ [⟨r.station, s.arb.grantCfg.quarHold, none⟩]))
        ∧ (r.pinned = true → t.record? ref.handle = some (r.returned .joinAbandoned)
          ∧ (t.slot ref.handle).mask = (s.slot ref.handle).mask ||| (ChangeMask.state ||| ChangeMask.outcome)
          ∧ t.mapAt l r.station = s.mapAt l r.station ∧ t.quarOf l = s.quarOf l)
        ∧ (∀ h : Handle, h ≠ ref.handle → t.slot h = s.slot h)
        ∧ (∀ (k : Line) (st : Station), (k, st) ≠ (l, r.station) → t.mapAt k st = s.mapAt k st)
        ∧ t.quarOf (otherLine l) = s.quarOf (otherLine l)
        ∧ (t.line l).orders = left.orders ∧ (t.line l).reservations = left.reservations
        ∧ t.line (otherLine l) = s.line (otherLine l)

/-- The conclusions of a move of a MOVING record, its REASSIGN order removed. MOVED, and a probe that found the node at
the target: the old station is quarantined without a reference and the record is BOUND at the target. MOVE_DECLINED, and
a probe that found it at the old station: the target is FREE and the record BOUND there. A probe that found it nowhere:
the target is quarantined and the record QUIET with its miss count at the limit. -/
def Obligations.MovesConclude : Prop :=
  ∀ (s : State) (l : Line) (ref : Ref) (o : Order) (r : Record) (target : Station),
    s.concluding? l .reassign ref = some o → s.current? ref = some r → r.state = .moving target →
    let base := s.setLine l { s.line l with
      orders := (s.line l).orders.eraseP (Order.isConcluding .reassign ref) }
    let moved := ((((base.quarantine r.line r.station none).setMap r.line target (.held ref.handle)).setRecord
      ref.handle { r with state := .bound, station := target, outcome := .moved }).mark ref.handle
        (ChangeMask.station ||| ChangeMask.state ||| ChangeMask.outcome)).completeLine l
    let back := fun (x : RecOutcome) => (((base.setMap r.line target .free).setRecord ref.handle
      { r with state := .bound, outcome := x }).mark ref.handle
        (ChangeMask.state ||| ChangeMask.outcome)).completeLine l
    (s.LineRuns l (.outcome .reassign ref .confirm) → exec .moved s = .next moved)
    ∧ (s.LineRuns l (.outcome .reassign ref .decline) → exec .moveDeclined s = .next (back .moveDeclined))
    ∧ (∀ b : Bool, s.LineRuns l (.outcome .reassign ref (.probed true b)) → exec .probeOutcome s = .next moved)
    ∧ (s.LineRuns l (.outcome .reassign ref (.probed false true)) →
        exec .probeOutcome s = .next (back .moveFailed))
    ∧ (s.LineRuns l (.outcome .reassign ref (.probed false false)) →
        exec .probeOutcome s = .next ((((base.quarantine r.line target none).setRecord ref.handle
          { r with state := .quiet, missCount := s.arb.grantCfg.missLimit, outcome := .moveUncertain }).mark
            ref.handle (ChangeMask.state ||| ChangeMask.outcome)).completeLine l))

/-- RELEASE_OUTCOME of a RETIRING record, its order gone and its pending request withdrawn, with outcome RETIRED after a
reply and RELEASE_UNCONFIRMED after exhaustion: a pinned one returns to RESERVED with its full lease; one that is not
pinned is freed, its station quarantined without a reference, OUTCOME and FREED marked. ANSWER_OUTCOME removes the
order, makes request pending no, and counts a DECLINE. -/
def Obligations.ReleasesAndAnswersConclude : Prop :=
  ∀ (s : State) (l : Line) (ref : Ref) (o : Order) (r : Record) (x : OrderResult), s.current? ref = some r →
    r.line = l →
    let outcome := if x = .confirm ∨ x = .decline then RecOutcome.retired else .releaseUnconfirmed
    (s.LineRuns l (.outcome .release ref x) → s.concluding? l .release ref = some o → r.state = .retiring →
      let left := LineEngine.without { s.line l with
        orders := (s.line l).orders.eraseP (Order.isConcluding .release ref) } ref r
      ∃ t, exec .releaseOutcome s = .next t
        ∧ (∀ h : Handle, h ≠ ref.handle → t.slot h = s.slot h) ∧ t.line (otherLine l) = s.line (otherLine l)
        ∧ (t.line l).orders = left.orders ∧ (t.line l).reservations = left.reservations
        ∧ (r.pinned = true → t.record? ref.handle = some (r.returned outcome)
          ∧ (t.slot ref.handle).mask = (s.slot ref.handle).mask ||| (ChangeMask.state ||| ChangeMask.outcome)
          ∧ t.dir.maps = s.dir.maps ∧ t.dir.quar = s.dir.quar)
        ∧ (r.pinned = false →
          (t.slot ref.handle).FreedFrom (s.slot ref.handle) r outcome ChangeMask.outcome
          ∧ t.mapAt l r.station = .quarantined
          ∧ (∀ (k : Line) (st : Station), (k, st) ≠ (l, r.station) → t.mapAt k st = s.mapAt k st)
          ∧ t.quarOf l = s.quarOf l ++ [⟨r.station, s.arb.grantCfg.quarHold, none⟩]
          ∧ t.quarOf (otherLine l) = s.quarOf (otherLine l)))
    ∧ (s.LineRuns l (.outcome .answer ref x) → s.concluding? l .answer ref = some o →
      exec .answerOutcome s = .next (((s.setLine l
        { s.line l with
          orders := (s.line l).orders.eraseP (Order.isConcluding .answer ref)
          counters := if x = .decline then ((s.line l).bump .answersDeclined).counters else (s.line l).counters
        }).setRecord ref.handle { r with requestPending := false }).completeLine l))

/-! ### Claims of a line -/

/-- LINE_CLAIM empties the queue, the reservations, the round, the exclusion list and the tracker, clears stop due and
keeps the counters; FLUSH_CLAIM clears flush due. The completion of either can begin a FLUSH that a waiting result held
back, whose frame sets flush due (log 26). The last of the two that a STARTING line owes, its own steps done, makes it
RUNNING (what counts in its first round: log 27). LINE_CLAIM ends a JOINING record of the line with JOIN_ABANDONED and a
RETIRING one with RELEASE_UNCONFIRMED, back to RESERVED where it is pinned and else freed with its station quarantined;
a MOVING one is BOUND at its station with MOVE_ABORTED, its target quarantined or FREE as its REASSIGN was sent or not;
any other keeps all but a pending request. FLUSH_CLAIM makes a BOUND or QUIET record of the line LAPSED, its station
quarantined with a reference to it, or RESERVED where it is pinned, its pending request withdrawn, and leaves any other.
What the map then holds is said from a state whose records, maps and lists agree. Neither claim touches a record of the
other line, its list, its map, or that line. -/
def Obligations.LineAndFlushClaims : Prop :=
  ∀ (s : State) (l : Line),
    let hold := s.arb.grantCfg.quarHold
    let elsewhere := fun (t : State) =>
      (∀ (h : Handle) (r : Record), s.record? h = some r → r.line ≠ l → t.slot h = s.slot h)
        ∧ (∃ made, t.quarOf l = s.quarOf l ++ made) ∧ t.quarOf (otherLine l) = s.quarOf (otherLine l)
        ∧ (∀ st : Station, t.mapAt (otherLine l) st = s.mapAt (otherLine l) st)
        ∧ t.line (otherLine l) = s.line (otherLine l) ∧ t.cfg = s.cfg ∧ t.clock = s.clock
    let kept := fun (t : State) (h : Handle) (q : Record) => t.record? h = some q
      ∧ (t.slot h).mask = (s.slot h).mask ||| (ChangeMask.state ||| ChangeMask.outcome)
      ∧ (t.slot h).gen = (s.slot h).gen
    let begins := (s.line l).flushHeld && !(s.line l).leadDominant
    let starts := fun (t : State) (lastOwed : Prop) =>
      ((s.line l).state = .starting → (s.line l).stage = .ready → lastOwed →
        (t.line l).state = .running ∧ (t.line l).stage = .none ∧ (t.line l).txSinceRound = false)
      ∧ (¬ ((s.line l).state = .starting ∧ (s.line l).stage = .ready ∧ lastOwed) →
        (t.line l).state = (s.line l).state ∧ (t.line l).stage = (s.line l).stage)
    (s.LineRuns l .line →
      ∃ t, exec .lineClaim s = .next t ∧ (t.line l).orders = [] ∧ (t.line l).reservations = []
        ∧ (t.line l).position = 0 ∧ (t.line l).roundCounter = 0 ∧ (t.line l).exclusions = []
        ∧ (t.line l).tracker = { identity := none, count := 0 } ∧ (t.line l).stopDue = false
        ∧ (t.line l).counters = (s.line l).counters ∧ (t.line l).flushDue = ((s.line l).flushDue || begins)
        ∧ starts t ((s.line l).flushDue = false)
        ∧ elsewhere t
        ∧ ∀ (h : Handle) (r : Record), s.record? h = some r → r.line = l →
          let ends := fun (o : RecOutcome) =>
            (r.pinned = true → kept t h (r.returned o))
            ∧ (r.pinned = false → (t.slot h).FreedFrom (s.slot h) r o ChangeMask.outcome
              ∧ ⟨r.station, hold, none⟩ ∈ t.quarOf l)
            ∧ (s.DirectoryLaw → t.mapAt l r.station = if r.pinned then .held h else .quarantined)
          (r.state = .joining → ends .joinAbandoned)
          ∧ (r.state = .retiring → ends .releaseUnconfirmed)
          ∧ (∀ x : Station, r.state = .moving x →
            kept t h { r with state := .bound, outcome := .moveAborted, requestPending := false }
            ∧ (s.moveSent h = true → ⟨x, hold, none⟩ ∈ t.quarOf l)
            ∧ (s.DirectoryLaw → t.mapAt l r.station = .held h
              ∧ t.mapAt l x = if s.moveSent h then .quarantined else .free))
          ∧ (r.state = .bound ∨ r.state = .quiet ∨ r.state = .reserved ∨ r.state = .lapsed →
            t.slot h = { s.slot h with content := some { r with requestPending := false } }))
    ∧ (s.LineRuns l .flush →
      ∃ t, exec .flushClaim s = .next t ∧ (t.line l).flushDue = begins ∧ (t.line l).stopDue = (s.line l).stopDue
        ∧ starts t ((s.line l).stopDue = false)
        ∧ elsewhere t
        ∧ ∀ (h : Handle) (r : Record), s.record? h = some r → r.line = l →
          (r.state = .bound ∨ r.state = .quiet →
            .poll (s.refOf h) ∉ (t.line l).reservations
            ∧ (r.requestPending = true → (t.line l).liveOrder? .answer (s.refOf h) = none)
            ∧ (r.pinned = true → kept t h (r.returned .lapsed))
            ∧ (r.pinned = false → kept t h r.lapsed ∧ ⟨r.station, hold, some (s.refOf h)⟩ ∈ t.quarOf l)
            ∧ (s.DirectoryLaw → t.mapAt l r.station = if r.pinned then .held h else .quarantined))
          ∧ (r.state ≠ .bound → r.state ≠ .quiet → t.slot h = s.slot h))

/-! ### Laws that every step keeps -/

/-- The orders and reservations of a line never exceed 8. And, with the orders: a record has at most one directed order
not marked withdrawn in its line's queue, and none unless it is JOINING, MOVING or RETIRING (R90); a record with request
pending has exactly one ANSWER in its line's queue that is its request's, and no other record has one (R124); a record
has at most one reservation of a solicited poll on a line, and none on its own while its request is pending, which rests
on the model's reading of R95 (log 18); at most one order of a line is the work of its transaction in progress (the mark
that says so is the model's own: log 10). -/
def Obligations.QueuesNeverExceedEight : Prop := KeptByStep State.QueueLaw ∧ KeptByStep State.OrderLaw

/-- A slot is in the change set exactly when its mask is not empty, and at most once; and the changes-waiting indication
is set exactly while the change set is not empty. -/
def Obligations.ChangeSetMatchesMasks : Prop := KeptByStep fun s => s.ChangeSetLaw ∧ s.WaitingLaw

/-- Each group's member count is the number of records whose group set includes it, and does not exceed a non-zero
member limit. And, with the records: a station is HELD by the record that stands there and TARGET of the one that moves
there (R12); it is QUARANTINED exactly when the line's list has an entry for it, one at most (R59); a LAPSED record's
entry references it, and a reference names a current LAPSED record (R63); a record stands in a slot of its identity's
set, and no two have one identity (R4). -/
def Obligations.GroupCountsMatchTheRecords : Prop := KeptByStep State.GroupLaw ∧ KeptByStep State.DirectoryLaw

/-- No record's lease remaining exceeds its lease length and no miss count the miss limit, the counters stay in
0..65535, every item of the configuration store stays in its range, and an exclusion list holds at most 4 identities,
each once. -/
def Obligations.RangesAreKept : Prop :=
  KeptByStep (fun s => s.LeaseLaw ∧ s.CounterLaw ∧ s.ConfigLaw ∧ s.ExclusionLaw) ∧ KeptByStep State.MissLaw

/-- A line in OFF or in FAULT has no transaction in progress. -/
def Obligations.OffAndFaultAreQuiet : Prop := KeptByStep State.QuietLineLaw

/-- The directory engine carries out outstanding claims only, and is idle only while none is outstanding. That the grant
falls within the step that raises or completes a claim is the model's choice: log 4. -/
def Obligations.ArbiterNeverSleepsOnAClaim : Prop := KeptByStep State.ArbiterLaw

/-- At most one command slot is ACTIVE, and the acceptance order names each occupied slot once. -/
def Obligations.CommandSlotsStayInOrder : Prop := KeptByStep State.SlotLaw

/-- The laws hold in the state after reset. That the store kept by the arbiter is then the default store is the model's
choice: log 21. -/
def Obligations.LawsHoldAtReset : Prop :=
  State.reset.QueueLaw ∧ State.reset.ChangeSetLaw ∧ State.reset.WaitingLaw ∧ State.reset.ExclusionLaw
    ∧ State.reset.LeaseLaw ∧ State.reset.GroupLaw ∧ State.reset.CounterLaw ∧ State.reset.ConfigLaw
    ∧ State.reset.QuietLineLaw ∧ State.reset.ArbiterLaw ∧ State.reset.SlotLaw ∧ State.reset.DirectoryLaw ∧ State.reset.MissLaw
    ∧ State.reset.OrderLaw
end

