-- ==== Sys2Proof/Laws/State.lean ====
section
/-! SUPPORT. What each update of the state changes and keeps, one lemma for each field and each update. -/

namespace Sys2Proof.Machine

/-! ### One value for each line -/

@[simp] theorem PerLine.get_set_self {α : Type} (p : PerLine α) (l : Line) (x : α) : (p.set l x).get l = x := by
  cases l <;> rfl

theorem PerLine.get_set {α : Type} (p : PerLine α) (l k : Line) (x : α) :
    (p.set l x).get k = if k = l then x else p.get k := by
  cases l <;> cases k <;> rfl

@[simp] theorem PerLine.get_set_other {α : Type} (p : PerLine α) (l : Line) (x : α) :
    (p.set l x).get (otherLine l) = p.get (otherLine l) := by
  cases l <;> rfl

@[simp] theorem PerLine.set_set {α : Type} (p : PerLine α) (l : Line) (x y : α) :
    (p.set l x).set l y = p.set l y := by
  cases l <;> rfl

@[simp] theorem PerLine.set_get {α : Type} (p : PerLine α) (l : Line) : p.set l (p.get l) = p := by
  cases l <;> rfl

@[simp] theorem otherLine_ne (l : Line) : otherLine l ≠ l := by cases l <;> decide

@[simp] theorem ne_otherLine (l : Line) : l ≠ otherLine l := by cases l <;> decide

theorem eq_otherLine_of_ne {k l : Line} (h : k ≠ l) : k = otherLine l := by
  revert h; cases k <;> cases l <;> decide

theorem PerLine.ext_get {α : Type} {p q : PerLine α} (h : ∀ l : Line, p.get l = q.get l) : p = q := by
  have ha := h .A
  have hb := h .B
  cases p; cases q
  simp_all [PerLine.get]

/-! ### Vectors -/

theorem get_vectorSet {α : Type} {n : Nat} (v : Vector α n) (i k : Fin n) (x : α) :
    (v.set i.val x i.isLt).get k = if k = i then x else v.get k := by
  show (v.set i.val x i.isLt)[k.val] = if k = i then x else v[k.val]
  rw [Vector.getElem_set]
  simp only [Fin.ext_iff, eq_comm]

theorem vectorSet_get {α : Type} {n : Nat} (v : Vector α n) (i : Fin n) : v.set i.val (v.get i) i.isLt = v := by
  show v.set i.val v[i.val] i.isLt = v
  simp

theorem vectorExt {α : Type} {n : Nat} {v w : Vector α n} (h : ∀ i : Fin n, v.get i = w.get i) : v = w := by
  apply Vector.ext
  intro i hi
  exact h ⟨i, hi⟩

/-! ### Line engines -/

@[simp] theorem State.line_setLine_self (s : State) (l : Line) (e : LineEngine) : (s.setLine l e).line l = e :=
  PerLine.get_set_self ..

@[simp] theorem State.line_setLine_other (s : State) (l : Line) (e : LineEngine) :
    (s.setLine l e).line (otherLine l) = s.line (otherLine l) := PerLine.get_set_other ..

theorem State.line_setLine (s : State) (l k : Line) (e : LineEngine) :
    (s.setLine l e).line k = if k = l then e else s.line k := PerLine.get_set ..

@[simp] theorem State.setLine_setLine (s : State) (l : Line) (e d : LineEngine) :
    (s.setLine l e).setLine l d = s.setLine l d := by
  simp [State.setLine]

@[simp] theorem State.setLine_line (s : State) (l : Line) : s.setLine l (s.line l) = s := by
  simp [State.setLine, State.line]

@[simp] theorem State.pending_setLine (s : State) (l : Line) (e : LineEngine) :
    (s.setLine l e).pending = s.pending := rfl
@[simp] theorem State.rst_setLine (s : State) (l : Line) (e : LineEngine) : (s.setLine l e).rst = s.rst := rfl
@[simp] theorem State.dir_setLine (s : State) (l : Line) (e : LineEngine) : (s.setLine l e).dir = s.dir := rfl
@[simp] theorem State.arb_setLine (s : State) (l : Line) (e : LineEngine) : (s.setLine l e).arb = s.arb := rfl
@[simp] theorem State.clock_setLine (s : State) (l : Line) (e : LineEngine) : (s.setLine l e).clock = s.clock := rfl
@[simp] theorem State.host_setLine (s : State) (l : Line) (e : LineEngine) : (s.setLine l e).host = s.host := rfl
@[simp] theorem State.cfg_setLine (s : State) (l : Line) (e : LineEngine) : (s.setLine l e).cfg = s.cfg := rfl
@[simp] theorem State.slot_setLine (s : State) (l : Line) (e : LineEngine) (h : Handle) :
    (s.setLine l e).slot h = s.slot h := rfl
@[simp] theorem State.record?_setLine (s : State) (l : Line) (e : LineEngine) (h : Handle) :
    (s.setLine l e).record? h = s.record? h := rfl
@[simp] theorem State.refOf_setLine (s : State) (l : Line) (e : LineEngine) (h : Handle) :
    (s.setLine l e).refOf h = s.refOf h := rfl
@[simp] theorem State.current?_setLine (s : State) (l : Line) (e : LineEngine) (ref : Ref) :
    (s.setLine l e).current? ref = s.current? ref := rfl
@[simp] theorem State.mapAt_setLine (s : State) (l : Line) (e : LineEngine) (k : Line) (st : Station) :
    (s.setLine l e).mapAt k st = s.mapAt k st := rfl
@[simp] theorem State.quarOf_setLine (s : State) (l : Line) (e : LineEngine) (k : Line) :
    (s.setLine l e).quarOf k = s.quarOf k := rfl

/-! ### Slots and records -/

@[simp] theorem State.slot_setSlot_self (s : State) (h : Handle) (x : Slot) : (s.setSlot h x).slot h = x := by
  simp [State.slot, State.setSlot, get_vectorSet]

theorem State.slot_setSlot (s : State) (h k : Handle) (x : Slot) :
    (s.setSlot h x).slot k = if k = h then x else s.slot k := get_vectorSet ..

theorem State.slot_setSlot_of_ne (s : State) {h k : Handle} (x : Slot) (ne : k ≠ h) :
    (s.setSlot h x).slot k = s.slot k := by
  rw [State.slot_setSlot, if_neg ne]

@[simp] theorem State.setSlot_setSlot (s : State) (h : Handle) (x y : Slot) :
    (s.setSlot h x).setSlot h y = s.setSlot h y := by
  simp [State.setSlot]

@[simp] theorem State.setSlot_slot (s : State) (h : Handle) : s.setSlot h (s.slot h) = s := by
  simp [State.setSlot, State.slot, vectorSet_get]

@[simp] theorem State.pending_setSlot (s : State) (h : Handle) (x : Slot) : (s.setSlot h x).pending = s.pending := rfl
@[simp] theorem State.rst_setSlot (s : State) (h : Handle) (x : Slot) : (s.setSlot h x).rst = s.rst := rfl
@[simp] theorem State.arb_setSlot (s : State) (h : Handle) (x : Slot) : (s.setSlot h x).arb = s.arb := rfl
@[simp] theorem State.clock_setSlot (s : State) (h : Handle) (x : Slot) : (s.setSlot h x).clock = s.clock := rfl
@[simp] theorem State.lines_setSlot (s : State) (h : Handle) (x : Slot) : (s.setSlot h x).lines = s.lines := rfl
@[simp] theorem State.line_setSlot (s : State) (h : Handle) (x : Slot) (l : Line) :
    (s.setSlot h x).line l = s.line l := rfl
@[simp] theorem State.host_setSlot (s : State) (h : Handle) (x : Slot) : (s.setSlot h x).host = s.host := rfl
@[simp] theorem State.cfg_setSlot (s : State) (h : Handle) (x : Slot) : (s.setSlot h x).cfg = s.cfg := rfl
@[simp] theorem State.mapAt_setSlot (s : State) (h : Handle) (x : Slot) (l : Line) (st : Station) :
    (s.setSlot h x).mapAt l st = s.mapAt l st := rfl
@[simp] theorem State.quarOf_setSlot (s : State) (h : Handle) (x : Slot) (l : Line) :
    (s.setSlot h x).quarOf l = s.quarOf l := rfl
@[simp] theorem State.maps_setSlot (s : State) (h : Handle) (x : Slot) :
    (s.setSlot h x).dir.maps = s.dir.maps := rfl
@[simp] theorem State.quar_setSlot (s : State) (h : Handle) (x : Slot) :
    (s.setSlot h x).dir.quar = s.dir.quar := rfl
@[simp] theorem State.groups_setSlot (s : State) (h : Handle) (x : Slot) :
    (s.setSlot h x).dir.groups = s.dir.groups := rfl
@[simp] theorem State.changeSet_setSlot (s : State) (h : Handle) (x : Slot) :
    (s.setSlot h x).dir.changeSet = s.dir.changeSet := rfl
@[simp] theorem State.setFull_setSlot (s : State) (h : Handle) (x : Slot) :
    (s.setSlot h x).dir.setFull = s.dir.setFull := rfl
@[simp] theorem State.staleRef_setSlot (s : State) (h : Handle) (x : Slot) :
    (s.setSlot h x).dir.staleRef = s.dir.staleRef := rfl

@[simp] theorem State.slot_setRecord_self (s : State) (h : Handle) (r : Record) :
    (s.setRecord h r).slot h = { s.slot h with content := some r } := by
  simp [State.setRecord]

theorem State.slot_setRecord (s : State) (h k : Handle) (r : Record) :
    (s.setRecord h r).slot k = if k = h then { s.slot h with content := some r } else s.slot k :=
  State.slot_setSlot ..

theorem State.slot_setRecord_of_ne (s : State) {h k : Handle} (r : Record) (ne : k ≠ h) :
    (s.setRecord h r).slot k = s.slot k := State.slot_setSlot_of_ne _ _ ne

@[simp] theorem State.record?_setRecord_self (s : State) (h : Handle) (r : Record) :
    (s.setRecord h r).record? h = some r := by
  simp [State.record?]

@[simp] theorem State.setRecord_setRecord (s : State) (h : Handle) (r q : Record) :
    (s.setRecord h r).setRecord h q = s.setRecord h q := by
  simp [State.setRecord]

theorem State.setRecord_record (s : State) (h : Handle) (r : Record) (hr : s.record? h = some r) :
    s.setRecord h r = s := by
  have : { s.slot h with content := some r } = s.slot h := by
    rw [← hr]; rfl
  rw [State.setRecord, this, State.setSlot_slot]

theorem State.modRecord_eq (s : State) (h : Handle) (f : Record → Record) (r : Record) (hr : s.record? h = some r) :
    s.modRecord h f = s.setRecord h (f r) := by
  rw [State.modRecord, hr]

@[simp] theorem State.pending_setRecord (s : State) (h : Handle) (r : Record) :
    (s.setRecord h r).pending = s.pending := rfl
@[simp] theorem State.rst_setRecord (s : State) (h : Handle) (r : Record) : (s.setRecord h r).rst = s.rst := rfl
@[simp] theorem State.arb_setRecord (s : State) (h : Handle) (r : Record) : (s.setRecord h r).arb = s.arb := rfl
@[simp] theorem State.clock_setRecord (s : State) (h : Handle) (r : Record) : (s.setRecord h r).clock = s.clock := rfl
@[simp] theorem State.lines_setRecord (s : State) (h : Handle) (r : Record) : (s.setRecord h r).lines = s.lines := rfl
@[simp] theorem State.line_setRecord (s : State) (h : Handle) (r : Record) (l : Line) :
    (s.setRecord h r).line l = s.line l := rfl
@[simp] theorem State.host_setRecord (s : State) (h : Handle) (r : Record) : (s.setRecord h r).host = s.host := rfl
@[simp] theorem State.cfg_setRecord (s : State) (h : Handle) (r : Record) : (s.setRecord h r).cfg = s.cfg := rfl
@[simp] theorem State.gen_setRecord (s : State) (h k : Handle) (r : Record) :
    ((s.setRecord h r).slot k).gen = (s.slot k).gen := by
  rw [State.slot_setRecord]; split <;> simp_all
@[simp] theorem State.mask_setRecord (s : State) (h k : Handle) (r : Record) :
    ((s.setRecord h r).slot k).mask = (s.slot k).mask := by
  rw [State.slot_setRecord]; split <;> simp_all
@[simp] theorem State.refOf_setRecord (s : State) (h k : Handle) (r : Record) :
    (s.setRecord h r).refOf k = s.refOf k := by
  simp [State.refOf]
@[simp] theorem State.mapAt_setRecord (s : State) (h : Handle) (r : Record) (l : Line) (st : Station) :
    (s.setRecord h r).mapAt l st = s.mapAt l st := rfl
@[simp] theorem State.quarOf_setRecord (s : State) (h : Handle) (r : Record) (l : Line) :
    (s.setRecord h r).quarOf l = s.quarOf l := rfl
@[simp] theorem State.maps_setRecord (s : State) (h : Handle) (r : Record) :
    (s.setRecord h r).dir.maps = s.dir.maps := rfl
@[simp] theorem State.quar_setRecord (s : State) (h : Handle) (r : Record) :
    (s.setRecord h r).dir.quar = s.dir.quar := rfl
@[simp] theorem State.groups_setRecord (s : State) (h : Handle) (r : Record) :
    (s.setRecord h r).dir.groups = s.dir.groups := rfl
@[simp] theorem State.changeSet_setRecord (s : State) (h : Handle) (r : Record) :
    (s.setRecord h r).dir.changeSet = s.dir.changeSet := rfl

/-! ### Station maps and quarantine lists -/

@[simp] theorem State.mapAt_setMap_self (s : State) (l : Line) (st : Station) (e : MapEntry) :
    (s.setMap l st e).mapAt l st = e := by
  simp [State.mapAt, State.setMap, get_vectorSet]

theorem State.mapAt_setMap (s : State) (l k : Line) (st x : Station) (e : MapEntry) :
    (s.setMap l st e).mapAt k x = if k = l ∧ x = st then e else s.mapAt k x := by
  by_cases hk : k = l
  · subst hk
    simp only [State.mapAt, State.setMap, PerLine.get_set_self, get_vectorSet, true_and]
  · simp [State.mapAt, State.setMap, PerLine.get_set, hk]

@[simp] theorem State.pending_setMap (s : State) (l : Line) (st : Station) (e : MapEntry) :
    (s.setMap l st e).pending = s.pending := rfl
@[simp] theorem State.rst_setMap (s : State) (l : Line) (st : Station) (e : MapEntry) :
    (s.setMap l st e).rst = s.rst := rfl
@[simp] theorem State.arb_setMap (s : State) (l : Line) (st : Station) (e : MapEntry) :
    (s.setMap l st e).arb = s.arb := rfl
@[simp] theorem State.clock_setMap (s : State) (l : Line) (st : Station) (e : MapEntry) :
    (s.setMap l st e).clock = s.clock := rfl
@[simp] theorem State.lines_setMap (s : State) (l : Line) (st : Station) (e : MapEntry) :
    (s.setMap l st e).lines = s.lines := rfl
@[simp] theorem State.line_setMap (s : State) (l : Line) (st : Station) (e : MapEntry) (k : Line) :
    (s.setMap l st e).line k = s.line k := rfl
@[simp] theorem State.host_setMap (s : State) (l : Line) (st : Station) (e : MapEntry) :
    (s.setMap l st e).host = s.host := rfl
@[simp] theorem State.cfg_setMap (s : State) (l : Line) (st : Station) (e : MapEntry) :
    (s.setMap l st e).cfg = s.cfg := rfl
@[simp] theorem State.slot_setMap (s : State) (l : Line) (st : Station) (e : MapEntry) (h : Handle) :
    (s.setMap l st e).slot h = s.slot h := rfl
@[simp] theorem State.record?_setMap (s : State) (l : Line) (st : Station) (e : MapEntry) (h : Handle) :
    (s.setMap l st e).record? h = s.record? h := rfl
@[simp] theorem State.refOf_setMap (s : State) (l : Line) (st : Station) (e : MapEntry) (h : Handle) :
    (s.setMap l st e).refOf h = s.refOf h := rfl
@[simp] theorem State.current?_setMap (s : State) (l : Line) (st : Station) (e : MapEntry) (ref : Ref) :
    (s.setMap l st e).current? ref = s.current? ref := rfl
@[simp] theorem State.quarOf_setMap (s : State) (l : Line) (st : Station) (e : MapEntry) (k : Line) :
    (s.setMap l st e).quarOf k = s.quarOf k := rfl
@[simp] theorem State.quar_setMap (s : State) (l : Line) (st : Station) (e : MapEntry) :
    (s.setMap l st e).dir.quar = s.dir.quar := rfl
@[simp] theorem State.changeSet_setMap (s : State) (l : Line) (st : Station) (e : MapEntry) :
    (s.setMap l st e).dir.changeSet = s.dir.changeSet := rfl

@[simp] theorem State.quarOf_setQuar_self (s : State) (l : Line) (q : List QuarEntry) :
    (s.setQuar l q).quarOf l = q := PerLine.get_set_self ..

@[simp] theorem State.quarOf_setQuar_other (s : State) (l : Line) (q : List QuarEntry) :
    (s.setQuar l q).quarOf (otherLine l) = s.quarOf (otherLine l) := PerLine.get_set_other ..

theorem State.quarOf_setQuar (s : State) (l k : Line) (q : List QuarEntry) :
    (s.setQuar l q).quarOf k = if k = l then q else s.quarOf k := PerLine.get_set ..

@[simp] theorem State.pending_setQuar (s : State) (l : Line) (q : List QuarEntry) :
    (s.setQuar l q).pending = s.pending := rfl
@[simp] theorem State.rst_setQuar (s : State) (l : Line) (q : List QuarEntry) : (s.setQuar l q).rst = s.rst := rfl
@[simp] theorem State.arb_setQuar (s : State) (l : Line) (q : List QuarEntry) : (s.setQuar l q).arb = s.arb := rfl
@[simp] theorem State.clock_setQuar (s : State) (l : Line) (q : List QuarEntry) :
    (s.setQuar l q).clock = s.clock := rfl
@[simp] theorem State.lines_setQuar (s : State) (l : Line) (q : List QuarEntry) :
    (s.setQuar l q).lines = s.lines := rfl
@[simp] theorem State.line_setQuar (s : State) (l : Line) (q : List QuarEntry) (k : Line) :
    (s.setQuar l q).line k = s.line k := rfl
@[simp] theorem State.host_setQuar (s : State) (l : Line) (q : List QuarEntry) : (s.setQuar l q).host = s.host := rfl
@[simp] theorem State.cfg_setQuar (s : State) (l : Line) (q : List QuarEntry) : (s.setQuar l q).cfg = s.cfg := rfl
@[simp] theorem State.slot_setQuar (s : State) (l : Line) (q : List QuarEntry) (h : Handle) :
    (s.setQuar l q).slot h = s.slot h := rfl
@[simp] theorem State.record?_setQuar (s : State) (l : Line) (q : List QuarEntry) (h : Handle) :
    (s.setQuar l q).record? h = s.record? h := rfl
@[simp] theorem State.refOf_setQuar (s : State) (l : Line) (q : List QuarEntry) (h : Handle) :
    (s.setQuar l q).refOf h = s.refOf h := rfl
@[simp] theorem State.current?_setQuar (s : State) (l : Line) (q : List QuarEntry) (ref : Ref) :
    (s.setQuar l q).current? ref = s.current? ref := rfl
@[simp] theorem State.mapAt_setQuar (s : State) (l : Line) (q : List QuarEntry) (k : Line) (st : Station) :
    (s.setQuar l q).mapAt k st = s.mapAt k st := rfl
@[simp] theorem State.maps_setQuar (s : State) (l : Line) (q : List QuarEntry) :
    (s.setQuar l q).dir.maps = s.dir.maps := rfl
@[simp] theorem State.changeSet_setQuar (s : State) (l : Line) (q : List QuarEntry) :
    (s.setQuar l q).dir.changeSet = s.dir.changeSet := rfl

/-! ### The host port -/

@[simp] theorem State.host_modHost (s : State) (f : HostPort → HostPort) : (s.modHost f).host = f s.host := rfl
@[simp] theorem State.pending_modHost (s : State) (f : HostPort → HostPort) : (s.modHost f).pending = s.pending := rfl
@[simp] theorem State.rst_modHost (s : State) (f : HostPort → HostPort) : (s.modHost f).rst = s.rst := rfl
@[simp] theorem State.dir_modHost (s : State) (f : HostPort → HostPort) : (s.modHost f).dir = s.dir := rfl
@[simp] theorem State.arb_modHost (s : State) (f : HostPort → HostPort) : (s.modHost f).arb = s.arb := rfl
@[simp] theorem State.clock_modHost (s : State) (f : HostPort → HostPort) : (s.modHost f).clock = s.clock := rfl
@[simp] theorem State.lines_modHost (s : State) (f : HostPort → HostPort) : (s.modHost f).lines = s.lines := rfl
@[simp] theorem State.line_modHost (s : State) (f : HostPort → HostPort) (l : Line) :
    (s.modHost f).line l = s.line l := rfl
@[simp] theorem State.cfg_modHost (s : State) (f : HostPort → HostPort) : (s.modHost f).cfg = s.cfg := rfl
@[simp] theorem State.slot_modHost (s : State) (f : HostPort → HostPort) (h : Handle) :
    (s.modHost f).slot h = s.slot h := rfl

/-! ### Counters of a line -/

@[simp] theorem LineEngine.state_bump (e : LineEngine) (c : Ctr) : (e.bump c).state = e.state := rfl
@[simp] theorem LineEngine.stopDue_bump (e : LineEngine) (c : Ctr) : (e.bump c).stopDue = e.stopDue := rfl
@[simp] theorem LineEngine.flushDue_bump (e : LineEngine) (c : Ctr) : (e.bump c).flushDue = e.flushDue := rfl
@[simp] theorem LineEngine.stage_bump (e : LineEngine) (c : Ctr) : (e.bump c).stage = e.stage := rfl
@[simp] theorem LineEngine.tx_bump (e : LineEngine) (c : Ctr) : (e.bump c).tx = e.tx := rfl
@[simp] theorem LineEngine.orders_bump (e : LineEngine) (c : Ctr) : (e.bump c).orders = e.orders := rfl
@[simp] theorem LineEngine.reservations_bump (e : LineEngine) (c : Ctr) :
    (e.bump c).reservations = e.reservations := rfl
@[simp] theorem LineEngine.exclusions_bump (e : LineEngine) (c : Ctr) : (e.bump c).exclusions = e.exclusions := rfl
@[simp] theorem LineEngine.tracker_bump (e : LineEngine) (c : Ctr) : (e.bump c).tracker = e.tracker := rfl
@[simp] theorem LineEngine.claim_bump (e : LineEngine) (c : Ctr) : (e.bump c).claim = e.claim := rfl
@[simp] theorem LineEngine.waiting_bump (e : LineEngine) (c : Ctr) : (e.bump c).waiting = e.waiting := rfl
@[simp] theorem LineEngine.leadDominant_bump (e : LineEngine) (c : Ctr) :
    (e.bump c).leadDominant = e.leadDominant := rfl
@[simp] theorem LineEngine.chosen?_bump_orders (e : LineEngine) (c : Ctr) (p : Order → Bool) :
    (e.bump c).orders.find? p = e.orders.find? p := rfl

theorem Ctr.idx_injective {c d : Ctr} (h : c.idx = d.idx) : c = d := by
  revert h; cases c <;> cases d <;> decide

/-- What a rise of a counter does to every counter (R69). -/
theorem LineEngine.counter_bump (e : LineEngine) (c d : Ctr) :
    (e.bump c).counter d = if d = c then min 65535 (e.counter c + 1) else e.counter d := by
  have hs : satInc16 (e.counter c) = min 65535 (e.counter c + 1) := by
    unfold satInc16 satInc; split <;> omega
  simp only [LineEngine.counter, LineEngine.bump, get_vectorSet] at *
  by_cases h : d = c
  · subst h; simpa using hs
  · have : d.idx ≠ c.idx := fun he => h (Ctr.idx_injective he)
    simp [h, this]

end Sys2Proof.Machine
end

