-- ==== Sys2Proof/Laws/Ops.lean ====
section
/-! SUPPORT. What each shared operation does, said once: the arbiter, the completion of claims, references, marking,
quarantine and the order queue. Proofs cite these instead of unfolding the operations. -/

namespace Sys2Proof.Machine

/-! ### The arbiter -/

/-- A grant changes the arbiter and nothing else (R20). -/
theorem State.grant_eq (s : State) : ∃ a : Arbiter, s.grant = { s with arb := a } := by
  unfold State.grant
  split
  · exact ⟨s.arb, rfl⟩
  · split
    · exact ⟨_, rfl⟩
    · exact ⟨s.arb, rfl⟩

@[simp] theorem State.pending_grant (s : State) : s.grant.pending = s.pending := by
  obtain ⟨a, h⟩ := s.grant_eq; rw [h]
@[simp] theorem State.rst_grant (s : State) : s.grant.rst = s.rst := by
  obtain ⟨a, h⟩ := s.grant_eq; rw [h]
@[simp] theorem State.dir_grant (s : State) : s.grant.dir = s.dir := by
  obtain ⟨a, h⟩ := s.grant_eq; rw [h]
@[simp] theorem State.clock_grant (s : State) : s.grant.clock = s.clock := by
  obtain ⟨a, h⟩ := s.grant_eq; rw [h]
@[simp] theorem State.lines_grant (s : State) : s.grant.lines = s.lines := by
  obtain ⟨a, h⟩ := s.grant_eq; rw [h]
@[simp] theorem State.host_grant (s : State) : s.grant.host = s.host := by
  obtain ⟨a, h⟩ := s.grant_eq; rw [h]
@[simp] theorem State.cfg_grant (s : State) : s.grant.cfg = s.cfg := by
  obtain ⟨a, h⟩ := s.grant_eq; rw [h]
@[simp] theorem State.line_grant (s : State) (l : Line) : s.grant.line l = s.line l := by
  simp [State.line]
@[simp] theorem State.slot_grant (s : State) (h : Handle) : s.grant.slot h = s.slot h := by
  simp [State.slot]
@[simp] theorem State.record?_grant (s : State) (h : Handle) : s.grant.record? h = s.record? h := by
  simp [State.record?]
@[simp] theorem State.mapAt_grant (s : State) (l : Line) (st : Station) : s.grant.mapAt l st = s.mapAt l st := by
  simp [State.mapAt]
@[simp] theorem State.quarOf_grant (s : State) (l : Line) : s.grant.quarOf l = s.quarOf l := by
  simp [State.quarOf]

@[simp] theorem State.pending_engineIdle (s : State) : s.engineIdle.pending = s.pending := rfl
@[simp] theorem State.rst_engineIdle (s : State) : s.engineIdle.rst = s.rst := rfl
@[simp] theorem State.dir_engineIdle (s : State) : s.engineIdle.dir = s.dir := rfl
@[simp] theorem State.clock_engineIdle (s : State) : s.engineIdle.clock = s.clock := rfl
@[simp] theorem State.lines_engineIdle (s : State) : s.engineIdle.lines = s.lines := rfl
@[simp] theorem State.host_engineIdle (s : State) : s.engineIdle.host = s.host := rfl
@[simp] theorem State.cfg_engineIdle (s : State) : s.engineIdle.cfg = s.cfg := rfl
@[simp] theorem State.line_engineIdle (s : State) (l : Line) : s.engineIdle.line l = s.line l := rfl
@[simp] theorem State.slot_engineIdle (s : State) (h : Handle) : s.engineIdle.slot h = s.slot h := rfl
@[simp] theorem State.record?_engineIdle (s : State) (h : Handle) : s.engineIdle.record? h = s.record? h := rfl
@[simp] theorem State.mapAt_engineIdle (s : State) (l : Line) (st : Station) :
    s.engineIdle.mapAt l st = s.mapAt l st := rfl
@[simp] theorem State.quarOf_engineIdle (s : State) (l : Line) : s.engineIdle.quarOf l = s.quarOf l := rfl

/-! ### The host port's claim -/

/-- The command in the ACTIVE slot is the claim the engine carries out (R164). -/
theorem State.HostRuns.claim {s : State} {i : Fin 4} {f : CmdFrame} {c : HostCmd} (h : s.HostRuns i f c) :
    s.hostClaim? = some c := by
  obtain ⟨h1, h2, h3⟩ := h
  simp [State.hostClaim?, h1, h2, h3]

/-- The ACTIVE slot is read from the slots alone. -/
theorem HostPort.activeSlot?_congr {p q : HostPort} (h : p.slots = q.slots) : p.activeSlot? = q.activeSlot? := by
  unfold HostPort.activeSlot?; rw [h]

/-- Stop due as the command was begun is read from the slots alone. -/
theorem HostPort.begunStopDue_congr {p q : HostPort} (l : Line) (h : p.slots = q.slots) :
    p.begunStopDue l = q.begunStopDue l := by
  unfold HostPort.begunStopDue; rw [h]

@[simp] theorem State.get_stopsDue (s : State) (l : Line) : s.stopsDue.get l = (s.line l).stopDue := by cases l <;> rfl

/-- With at most one slot ACTIVE, what that slot keeps is what was found as its command was begun (R163, R164). -/
theorem HostPort.begunStopDue_active {p : HostPort} {i : Fin 4} {f : CmdFrame} {d : PerLine Bool} (l : Line)
    (hi : p.slots.get i = .active f d) (h1 : ∀ j : Fin 4, (p.slots.get j).isActive = true → j = i) :
    p.begunStopDue l = d.get l := by
  have own : (p.slots.get i).begunStopDue l = d.get l := by rw [hi]; rfl
  unfold HostPort.begunStopDue
  rw [← own, Bool.eq_iff_iff, List.any_eq_true]
  refine ⟨fun ⟨j, _, hj⟩ => ?_, fun h => ⟨i, List.mem_finRange i, h⟩⟩
  have act : (p.slots.get j).isActive = true := by
    revert hj; cases p.slots.get j <;> simp [CmdSlot.begunStopDue, CmdSlot.isActive]
  rwa [h1 j act] at hj

/-- A host command completes, whatever it did to the rest of the state: its response is written, the engine is idle, the
next claim is granted (R22, R164). -/
theorem State.HostRuns.completes {s t : State} {i : Fin 4} {f : CmdFrame} {c : HostCmd} {r : Reply}
    (h : s.HostRuns i f c) (ht : t.host.slots = s.host.slots) :
    State.completeHost (t, r) = t.answered i f r.status r.payload := by
  simp [State.completeHost, HostPort.activeSlot?_congr ht, h.2.1, State.answered]

@[simp] theorem State.pending_answered (s : State) (i : Fin 4) (f : CmdFrame) (st : Status) (p : List Byte) :
    (s.answered i f st p).pending = s.pending := by simp [State.answered, State.answerSlot]
@[simp] theorem State.rst_answered (s : State) (i : Fin 4) (f : CmdFrame) (st : Status) (p : List Byte) :
    (s.answered i f st p).rst = s.rst := by simp [State.answered, State.answerSlot]
@[simp] theorem State.dir_answered (s : State) (i : Fin 4) (f : CmdFrame) (st : Status) (p : List Byte) :
    (s.answered i f st p).dir = s.dir := by simp [State.answered, State.answerSlot]
@[simp] theorem State.clock_answered (s : State) (i : Fin 4) (f : CmdFrame) (st : Status) (p : List Byte) :
    (s.answered i f st p).clock = s.clock := by simp [State.answered, State.answerSlot]
@[simp] theorem State.lines_answered (s : State) (i : Fin 4) (f : CmdFrame) (st : Status) (p : List Byte) :
    (s.answered i f st p).lines = s.lines := by simp [State.answered, State.answerSlot]
@[simp] theorem State.cfg_answered (s : State) (i : Fin 4) (f : CmdFrame) (st : Status) (p : List Byte) :
    (s.answered i f st p).cfg = s.cfg := by simp [State.answered, State.answerSlot]
@[simp] theorem State.line_answered (s : State) (i : Fin 4) (f : CmdFrame) (st : Status) (p : List Byte) (l : Line) :
    (s.answered i f st p).line l = s.line l := by simp [State.line]
@[simp] theorem State.slot_answered (s : State) (i : Fin 4) (f : CmdFrame) (st : Status) (p : List Byte) (h : Handle) :
    (s.answered i f st p).slot h = s.slot h := by simp [State.slot]
@[simp] theorem State.record?_answered (s : State) (i : Fin 4) (f : CmdFrame) (st : Status) (p : List Byte)
    (h : Handle) : (s.answered i f st p).record? h = s.record? h := by simp [State.record?]
@[simp] theorem State.mapAt_answered (s : State) (i : Fin 4) (f : CmdFrame) (st : Status) (p : List Byte) (l : Line)
    (x : Station) : (s.answered i f st p).mapAt l x = s.mapAt l x := by simp [State.mapAt]
@[simp] theorem State.quarOf_answered (s : State) (i : Fin 4) (f : CmdFrame) (st : Status) (p : List Byte) (l : Line) :
    (s.answered i f st p).quarOf l = s.quarOf l := by simp [State.quarOf]

/-- The slot of a completed command is ANSWERED with its response, and no other slot changes (R164). -/
theorem State.hostSlot_answered (s : State) (i j : Fin 4) (f : CmdFrame) (st : Status) (p : List Byte) :
    (s.answered i f st p).host.slots.get j = if j = i then .answered ⟨f.tag, st, p⟩ else s.host.slots.get j := by
  simp [State.answered, State.answerSlot, get_vectorSet]

@[simp] theorem State.hostSlot_answered_self (s : State) (i : Fin 4) (f : CmdFrame) (st : Status) (p : List Byte) :
    (s.answered i f st p).host.slots.get i = .answered ⟨f.tag, st, p⟩ := by
  simp [State.hostSlot_answered]

/-! ### References (R10, R11) -/

theorem State.current?_eq_some {s : State} {ref : Ref} {r : Record} :
    s.current? ref = some r ↔ (s.slot ref.handle).gen = ref.gen ∧ s.record? ref.handle = some r := by
  unfold State.current?
  split <;> simp_all

/-- The reference of a record that is current is its own name. -/
theorem State.refOf_of_current? {s : State} {ref : Ref} {r : Record} (h : s.current? ref = some r) :
    s.refOf ref.handle = ref := by
  obtain ⟨h1, -⟩ := State.current?_eq_some.mp h
  cases ref; simp_all [State.refOf]

theorem State.record?_of_current? {s : State} {ref : Ref} {r : Record} (h : s.current? ref = some r) :
    s.record? ref.handle = some r := (State.current?_eq_some.mp h).2

theorem State.record?_of_names {s : State} {ref : RefOperand} {h : Handle} {r : Record} (hn : s.Names ref h r) :
    s.record? h = some r := by
  cases ref with
  | badForm => exact hn.elim
  | identity id => exact hn.2.2
  | handle k g =>
    obtain ⟨rfl, hc⟩ := hn
    exact State.record?_of_current? hc

/-- A command that names a record acts on it (R3, R10, R11). -/
theorem State.withReference_of_names {s : State} {ref : RefOperand} {h : Handle} {r : Record} (hn : s.Names ref h r)
    (act : Handle → Record → State × Reply) : s.withReference ref act = act h r := by
  cases ref with
  | badForm => exact hn.elim
  | identity id =>
    obtain ⟨h1, h2, h3⟩ := hn
    simp [State.withReference, h1, h2, h3]
  | handle k g =>
    obtain ⟨rfl, hc⟩ := hn
    simp [State.withReference, hc]

theorem satInc16_eq (n : Nat) : satInc16 n = min 65535 (n + 1) := by
  unfold satInc16 satInc; split <;> omega

/-- A reference to no current record is STALE, and counted (R11, R18). -/
theorem State.withReference_stale {s : State} {h : Handle} {g : Gen} (hs : s.current? { handle := h, gen := g } = none)
    (act : Handle → Record → State × Reply) : s.withReference (.handle h g) act =
      ({ s with dir := { s.dir with staleRef := min 65535 (s.dir.staleRef + 1) } }, .bare .stale) := by
  simp [State.withReference, hs, State.staleReply, satInc16_eq]

/-! ### Marking (R45, R185) -/

/-- A mark adds aspects to one slot's mask and keeps the rest of every slot. -/
theorem State.slot_mark (s : State) (h k : Handle) (a : ChangeMask) :
    (s.mark h a).slot k = if k = h then { s.slot h with mask := (s.slot h).mask ||| a } else s.slot k := by
  rw [← State.slot_setSlot]
  unfold State.mark
  dsimp only
  split <;> rfl

@[simp] theorem State.slot_mark_self (s : State) (h : Handle) (a : ChangeMask) :
    (s.mark h a).slot h = { s.slot h with mask := (s.slot h).mask ||| a } := by simp [State.slot_mark]

theorem State.slot_mark_of_ne (s : State) {h k : Handle} (a : ChangeMask) (ne : k ≠ h) :
    (s.mark h a).slot k = s.slot k := by simp [State.slot_mark, ne]

@[simp] theorem State.record?_mark (s : State) (h k : Handle) (a : ChangeMask) :
    (s.mark h a).record? k = s.record? k := by
  simp only [State.record?, State.slot_mark]; split <;> simp_all

/-- A mark that makes an empty mask not empty appends the handle to the change set and sets the changes-waiting
indication; any other keeps both (R185). -/
theorem State.mark_cases (s : State) (h : Handle) (a : ChangeMask) :
    ((s.slot h).mask = 0 ∧ a ≠ 0 ∧ (s.mark h a).dir.changeSet = s.dir.changeSet ++ [h]
        ∧ (s.mark h a).host = { s.host with changesWaiting := true })
      ∨ (¬ ((s.slot h).mask = 0 ∧ a ≠ 0) ∧ (s.mark h a).dir.changeSet = s.dir.changeSet
        ∧ (s.mark h a).host = s.host) := by
  unfold State.mark
  dsimp only
  split
  · next hc => exact Or.inl ⟨hc.1, hc.2, rfl, rfl⟩
  · next hc => exact Or.inr ⟨hc, rfl, rfl⟩

@[simp] theorem State.pending_mark (s : State) (h : Handle) (a : ChangeMask) : (s.mark h a).pending = s.pending := by
  unfold State.mark; dsimp only; split <;> rfl
@[simp] theorem State.rst_mark (s : State) (h : Handle) (a : ChangeMask) : (s.mark h a).rst = s.rst := by
  unfold State.mark; dsimp only; split <;> rfl
@[simp] theorem State.arb_mark (s : State) (h : Handle) (a : ChangeMask) : (s.mark h a).arb = s.arb := by
  unfold State.mark; dsimp only; split <;> rfl
@[simp] theorem State.clock_mark (s : State) (h : Handle) (a : ChangeMask) : (s.mark h a).clock = s.clock := by
  unfold State.mark; dsimp only; split <;> rfl
@[simp] theorem State.lines_mark (s : State) (h : Handle) (a : ChangeMask) : (s.mark h a).lines = s.lines := by
  unfold State.mark; dsimp only; split <;> rfl
@[simp] theorem State.cfg_mark (s : State) (h : Handle) (a : ChangeMask) : (s.mark h a).cfg = s.cfg := by
  unfold State.mark; dsimp only; split <;> rfl
@[simp] theorem State.maps_mark (s : State) (h : Handle) (a : ChangeMask) :
    (s.mark h a).dir.maps = s.dir.maps := by
  unfold State.mark; dsimp only; split <;> rfl
@[simp] theorem State.quar_mark (s : State) (h : Handle) (a : ChangeMask) :
    (s.mark h a).dir.quar = s.dir.quar := by
  unfold State.mark; dsimp only; split <;> rfl
@[simp] theorem State.groups_mark (s : State) (h : Handle) (a : ChangeMask) :
    (s.mark h a).dir.groups = s.dir.groups := by
  unfold State.mark; dsimp only; split <;> rfl
@[simp] theorem State.setFull_mark (s : State) (h : Handle) (a : ChangeMask) :
    (s.mark h a).dir.setFull = s.dir.setFull := by
  unfold State.mark; dsimp only; split <;> rfl
@[simp] theorem State.staleRef_mark (s : State) (h : Handle) (a : ChangeMask) :
    (s.mark h a).dir.staleRef = s.dir.staleRef := by
  unfold State.mark; dsimp only; split <;> rfl
@[simp] theorem State.line_mark (s : State) (h : Handle) (a : ChangeMask) (l : Line) :
    (s.mark h a).line l = s.line l := by simp [State.line]
@[simp] theorem State.mapAt_mark (s : State) (h : Handle) (a : ChangeMask) (l : Line) (st : Station) :
    (s.mark h a).mapAt l st = s.mapAt l st := by simp [State.mapAt]
@[simp] theorem State.quarOf_mark (s : State) (h : Handle) (a : ChangeMask) (l : Line) :
    (s.mark h a).quarOf l = s.quarOf l := by simp [State.quarOf]
@[simp] theorem State.hostSlots_mark (s : State) (h : Handle) (a : ChangeMask) :
    (s.mark h a).host.slots = s.host.slots := by
  rcases s.mark_cases h a with ⟨-, -, -, e⟩ | ⟨-, -, e⟩ <;> rw [e]

/-! ### Quarantine (R60) -/

@[simp] theorem State.slot_quarantine (s : State) (l : Line) (st : Station) (x : Option Ref) (h : Handle) :
    (s.quarantine l st x).slot h = s.slot h := rfl
@[simp] theorem State.record?_quarantine (s : State) (l : Line) (st : Station) (x : Option Ref) (h : Handle) :
    (s.quarantine l st x).record? h = s.record? h := rfl
@[simp] theorem State.refOf_quarantine (s : State) (l : Line) (st : Station) (x : Option Ref) (h : Handle) :
    (s.quarantine l st x).refOf h = s.refOf h := rfl
@[simp] theorem State.lines_quarantine (s : State) (l : Line) (st : Station) (x : Option Ref) :
    (s.quarantine l st x).lines = s.lines := rfl
@[simp] theorem State.line_quarantine (s : State) (l : Line) (st : Station) (x : Option Ref) (k : Line) :
    (s.quarantine l st x).line k = s.line k := rfl
@[simp] theorem State.pending_quarantine (s : State) (l : Line) (st : Station) (x : Option Ref) :
    (s.quarantine l st x).pending = s.pending := rfl
@[simp] theorem State.rst_quarantine (s : State) (l : Line) (st : Station) (x : Option Ref) :
    (s.quarantine l st x).rst = s.rst := rfl
@[simp] theorem State.arb_quarantine (s : State) (l : Line) (st : Station) (x : Option Ref) :
    (s.quarantine l st x).arb = s.arb := rfl
@[simp] theorem State.clock_quarantine (s : State) (l : Line) (st : Station) (x : Option Ref) :
    (s.quarantine l st x).clock = s.clock := rfl
@[simp] theorem State.host_quarantine (s : State) (l : Line) (st : Station) (x : Option Ref) :
    (s.quarantine l st x).host = s.host := rfl
@[simp] theorem State.cfg_quarantine (s : State) (l : Line) (st : Station) (x : Option Ref) :
    (s.quarantine l st x).cfg = s.cfg := rfl
@[simp] theorem State.changeSet_quarantine (s : State) (l : Line) (st : Station) (x : Option Ref) :
    (s.quarantine l st x).dir.changeSet = s.dir.changeSet := rfl

theorem State.mapAt_quarantine (s : State) (l k : Line) (st y : Station) (x : Option Ref) :
    (s.quarantine l st x).mapAt k y = if k = l ∧ y = st then .quarantined else s.mapAt k y := by
  simp [State.quarantine, State.mapAt_setMap]

theorem State.quarOf_quarantine (s : State) (l k : Line) (st : Station) (x : Option Ref) :
    (s.quarantine l st x).quarOf k =
      if k = l then s.quarOf l ++ [⟨st, s.arb.grantCfg.quarHold, x⟩] else s.quarOf k := by
  simp [State.quarantine, State.quarOf_setQuar]

/-! ### Orders and reservations taken out of a line engine (R30, R91, R100) -/

/-- A line engine that has lost orders and reservations, or had orders marked withdrawn, and is otherwise the same; no
order has come into its transaction. -/
def LineEngine.Shrunk (e d : LineEngine) : Prop :=
  ∃ os rs, d = { e with orders := os, reservations := rs } ∧ os.length ≤ e.orders.length
    ∧ rs.length ≤ e.reservations.length ∧ os.countP Order.chosen ≤ e.orders.countP Order.chosen

theorem LineEngine.Shrunk.refl (e : LineEngine) : e.Shrunk e :=
  ⟨e.orders, e.reservations, rfl, Nat.le_refl _, Nat.le_refl _, Nat.le_refl _⟩

theorem LineEngine.Shrunk.trans {e d c : LineEngine} (h : e.Shrunk d) (k : d.Shrunk c) : e.Shrunk c := by
  obtain ⟨os, rs, rfl, ho, hr, hc⟩ := h
  obtain ⟨os', rs', rfl, ho', hr', hc'⟩ := k
  exact ⟨os', rs', rfl, Nat.le_trans ho' ho, Nat.le_trans hr' hr, Nat.le_trans hc' hc⟩

theorem LineEngine.shrunk_withdraw (k : OrderKind) (ref : Ref) (e : LineEngine) : e.Shrunk (e.withdraw k ref) := by
  refine ⟨_, _, rfl, List.length_filterMap_le .., Nat.le_refl _, ?_⟩
  induction e.orders with
  | nil => exact Nat.le_refl _
  | cons o os ih =>
    rw [List.filterMap_cons, List.countP_cons]
    split
    · omega
    · next b hb =>
      have : b.chosen = o.chosen := by
        split at hb
        · split at hb
          · cases hb; rfl
          · cases hb
        · cases hb; rfl
      rw [List.countP_cons, this]
      omega

theorem LineEngine.shrunk_releasePolls (ref : Ref) (e : LineEngine) : e.Shrunk (e.releasePolls ref) :=
  ⟨_, _, rfl, Nat.le_refl _, List.length_filter_le .., Nat.le_refl _⟩

theorem LineEngine.shrunk_release (x : Reservation) (e : LineEngine) : e.Shrunk (e.release x) :=
  ⟨_, _, rfl, Nat.le_refl _, List.length_erase_le, Nat.le_refl _⟩

theorem LineEngine.shrunk_removeConcluded (k : OrderKind) (ref : Ref) (e : LineEngine) :
    e.Shrunk (e.removeConcluded k ref) :=
  ⟨_, _, rfl, List.length_eraseP_le, Nat.le_refl _, List.eraseP_sublist.countP_le⟩

/-- The withdrawal of a record's directed order changes the record's line engine alone (R41, R42). -/
theorem State.withdrawDirected_eq (s : State) (h : Handle) (r : Record) (hr : s.record? h = some r) :
    ∃ e, (s.line r.line).Shrunk e ∧ s.withdrawDirected h = s.setLine r.line e
      ∧ (r.state.directed = none → e = s.line r.line) := by
  unfold State.withdrawDirected
  rw [hr]
  dsimp only
  split
  · next k hk => exact ⟨_, LineEngine.shrunk_withdraw .., rfl, by simp [hk]⟩
  · exact ⟨_, .refl _, by simp, fun _ => rfl⟩

/-- The withdrawal of a record's request (R30): the record has no request pending, and its line engine is shrunk; with
no request pending, only reservations attributed to its polls go. -/
theorem State.withdrawRequest_eq (s : State) (h : Handle) (r : Record) (hr : s.record? h = some r) :
    ∃ e, (s.line r.line).Shrunk e
      ∧ s.withdrawRequest h = (s.setLine r.line e).setRecord h { r with requestPending := false }
      ∧ (r.requestPending = false → e = (s.line r.line).releasePolls (s.refOf h)) := by
  unfold State.withdrawRequest
  rw [hr]
  dsimp only
  by_cases hp : r.requestPending = true
  · rw [if_pos hp]
    refine ⟨_, (LineEngine.shrunk_withdraw .answer (s.refOf h) _).trans (LineEngine.shrunk_releasePolls (s.refOf h) _),
      ?_, by simp [hp]⟩
    simp [State.modLine]
  · rw [if_neg hp]
    exact ⟨_, LineEngine.shrunk_releasePolls (s.refOf h) _, rfl, fun _ => rfl⟩

/-! ### The return to RESERVED and freeing (R41 to R43) -/

/-- The return of a record to RESERVED (R41): its line engine is shrunk, the record is RESERVED with a full lease, and
STATE and OUTCOME are marked. -/
theorem State.returnToReserved_eq (s : State) (h : Handle) (o : RecOutcome) (r : Record) (hr : s.record? h = some r) :
    ∃ e, (s.line r.line).Shrunk e
      ∧ s.returnToReserved h o = ((s.setLine r.line e).setRecord h
          { r with
            state := .reserved, leaseRemaining := r.leaseLength, missCount := 0, outcome := o
            requestPending := false }).mark h (ChangeMask.state ||| ChangeMask.outcome) := by
  obtain ⟨e1, h1, q1, -⟩ := s.withdrawDirected_eq h r hr
  obtain ⟨e2, h2, q2, -⟩ := (s.setLine r.line e1).withdrawRequest_eq h r hr
  rw [State.line_setLine_self] at h2
  refine ⟨e2, h1.trans h2, ?_⟩
  unfold State.returnToReserved
  rw [q1, q2, State.modRecord_eq _ _ _ _ (State.record?_setRecord_self ..)]
  simp

/-- A record's slot emptied after a shrinking of its line engine (R42 steps 4 to 6). -/
theorem State.slot_emptySlot (s : State) (h k : Handle) (r : Record) :
    (s.emptySlot h r).slot k =
      if k = h then
        { content := none, gen := (s.slot h).gen + 1, lastIdentity := some r.identity, keptOutcome := none
          mask := (s.slot h).mask }
      else s.slot k := State.slot_setSlot ..

@[simp] theorem State.line_emptySlot (s : State) (h : Handle) (r : Record) (l : Line) :
    (s.emptySlot h r).line l = s.line l := rfl
@[simp] theorem State.lines_emptySlot (s : State) (h : Handle) (r : Record) :
    (s.emptySlot h r).lines = s.lines := rfl
@[simp] theorem State.pending_emptySlot (s : State) (h : Handle) (r : Record) :
    (s.emptySlot h r).pending = s.pending := rfl
@[simp] theorem State.rst_emptySlot (s : State) (h : Handle) (r : Record) : (s.emptySlot h r).rst = s.rst := rfl
@[simp] theorem State.arb_emptySlot (s : State) (h : Handle) (r : Record) : (s.emptySlot h r).arb = s.arb := rfl
@[simp] theorem State.clock_emptySlot (s : State) (h : Handle) (r : Record) :
    (s.emptySlot h r).clock = s.clock := rfl
@[simp] theorem State.host_emptySlot (s : State) (h : Handle) (r : Record) : (s.emptySlot h r).host = s.host := rfl
@[simp] theorem State.cfg_emptySlot (s : State) (h : Handle) (r : Record) : (s.emptySlot h r).cfg = s.cfg := rfl
@[simp] theorem State.maps_emptySlot (s : State) (h : Handle) (r : Record) :
    (s.emptySlot h r).dir.maps = s.dir.maps := rfl
@[simp] theorem State.quar_emptySlot (s : State) (h : Handle) (r : Record) :
    (s.emptySlot h r).dir.quar = s.dir.quar := rfl
@[simp] theorem State.mapAt_emptySlot (s : State) (h : Handle) (r : Record) (l : Line) (st : Station) :
    (s.emptySlot h r).mapAt l st = s.mapAt l st := rfl
@[simp] theorem State.quarOf_emptySlot (s : State) (h : Handle) (r : Record) (l : Line) :
    (s.emptySlot h r).quarOf l = s.quarOf l := rfl
@[simp] theorem State.changeSet_emptySlot (s : State) (h : Handle) (r : Record) :
    (s.emptySlot h r).dir.changeSet = s.dir.changeSet := rfl

/-- Both withdrawals and the emptying of the slot (R42). -/
theorem State.withdrawn_emptySlot_eq (s : State) (h : Handle) (r : Record) (hr : s.record? h = some r) :
    ∃ e, (s.line r.line).Shrunk e
      ∧ ((s.withdrawDirected h).withdrawRequest h).emptySlot h r = (s.setLine r.line e).emptySlot h r
      ∧ (r.state.directed = none → r.requestPending = false →
        e = (s.line r.line).releasePolls (s.refOf h)) := by
  obtain ⟨e1, h1, q1, d1⟩ := s.withdrawDirected_eq h r hr
  obtain ⟨e2, h2, q2, d2⟩ := (s.setLine r.line e1).withdrawRequest_eq h r hr
  rw [State.line_setLine_self] at h2 d2
  refine ⟨e2, h1.trans h2, ?_, fun hd hp => by rw [d2 hp, d1 hd, State.refOf_setLine]⟩
  rw [q1, q2, State.setLine_setLine]
  simp [State.emptySlot, State.setRecord]

/-- The freeing of a record by a marked change (R42, R43). -/
theorem State.freeMarked_eq (s : State) (h : Handle) (more : ChangeMask) (r : Record) (hr : s.record? h = some r) :
    ∃ e, (s.line r.line).Shrunk e
      ∧ s.freeMarked h more = ((s.setLine r.line e).emptySlot h r).markFreed h r.outcome more
      ∧ (r.state.directed = none → r.requestPending = false →
        e = (s.line r.line).releasePolls (s.refOf h)) := by
  obtain ⟨e, he, q, d⟩ := s.withdrawn_emptySlot_eq h r hr
  refine ⟨e, he, ?_, d⟩
  unfold State.freeMarked
  rw [hr]
  simp only [q]

/-- The freeing of a record by the direct effect of a host command (R42, R43). -/
theorem State.freeByHost_eq (s : State) (h : Handle) (r : Record) (hr : s.record? h = some r) :
    ∃ e, (s.line r.line).Shrunk e
      ∧ s.freeByHost h = (if (s.slot h).mask = 0 then (s.setLine r.line e).emptySlot h r
        else ((s.setLine r.line e).emptySlot h r).markFreed h r.outcome 0) := by
  obtain ⟨e, he, q, -⟩ := s.withdrawn_emptySlot_eq h r hr
  refine ⟨e, he, ?_⟩
  unfold State.freeByHost
  rw [hr]
  simp only [q]

/-- An emptied slot keeps its record's outcome, and FREED is marked (R43, R186). -/
theorem State.slot_markFreed (s : State) (h k : Handle) (o : RecOutcome) (more : ChangeMask) :
    (s.markFreed h o more).slot k =
      if k = h then
        { s.slot h with keptOutcome := some o, mask := (s.slot h).mask ||| (ChangeMask.freed ||| more) }
      else s.slot k := by
  simp only [State.markFreed, State.slot_mark, State.slot_setSlot]
  split <;> simp_all

@[simp] theorem State.pending_markFreed (s : State) (h : Handle) (o : RecOutcome) (m : ChangeMask) :
    (s.markFreed h o m).pending = s.pending := by simp [State.markFreed]
@[simp] theorem State.rst_markFreed (s : State) (h : Handle) (o : RecOutcome) (m : ChangeMask) :
    (s.markFreed h o m).rst = s.rst := by simp [State.markFreed]
@[simp] theorem State.arb_markFreed (s : State) (h : Handle) (o : RecOutcome) (m : ChangeMask) :
    (s.markFreed h o m).arb = s.arb := by simp [State.markFreed]
@[simp] theorem State.clock_markFreed (s : State) (h : Handle) (o : RecOutcome) (m : ChangeMask) :
    (s.markFreed h o m).clock = s.clock := by simp [State.markFreed]
@[simp] theorem State.lines_markFreed (s : State) (h : Handle) (o : RecOutcome) (m : ChangeMask) :
    (s.markFreed h o m).lines = s.lines := by simp [State.markFreed]
@[simp] theorem State.line_markFreed (s : State) (h : Handle) (o : RecOutcome) (m : ChangeMask) (l : Line) :
    (s.markFreed h o m).line l = s.line l := by simp [State.markFreed]
@[simp] theorem State.cfg_markFreed (s : State) (h : Handle) (o : RecOutcome) (m : ChangeMask) :
    (s.markFreed h o m).cfg = s.cfg := by simp [State.markFreed]
@[simp] theorem State.maps_markFreed (s : State) (h : Handle) (o : RecOutcome) (m : ChangeMask) :
    (s.markFreed h o m).dir.maps = s.dir.maps := by simp [State.markFreed]
@[simp] theorem State.quar_markFreed (s : State) (h : Handle) (o : RecOutcome) (m : ChangeMask) :
    (s.markFreed h o m).dir.quar = s.dir.quar := by simp [State.markFreed]
@[simp] theorem State.mapAt_markFreed (s : State) (h : Handle) (o : RecOutcome) (m : ChangeMask) (l : Line)
    (st : Station) : (s.markFreed h o m).mapAt l st = s.mapAt l st := by simp [State.markFreed]
@[simp] theorem State.quarOf_markFreed (s : State) (h : Handle) (o : RecOutcome) (m : ChangeMask) (l : Line) :
    (s.markFreed h o m).quarOf l = s.quarOf l := by simp [State.markFreed]
@[simp] theorem State.hostSlots_markFreed (s : State) (h : Handle) (o : RecOutcome) (m : ChangeMask) :
    (s.markFreed h o m).host.slots = s.host.slots := by simp [State.markFreed]

/-- FREED marked on a slot whose mask is not empty adds nothing to the change set (R185). -/
theorem State.changeSet_markFreed_of_mask (s : State) (h : Handle) (o : RecOutcome) (m : ChangeMask)
    (hm : (s.slot h).mask ≠ 0) : (s.markFreed h o m).dir.changeSet = s.dir.changeSet := by
  unfold State.markFreed
  rcases State.mark_cases (s.setSlot h { s.slot h with keptOutcome := some o }) h (ChangeMask.freed ||| m) with
    ⟨h1, -⟩ | ⟨-, h2, -⟩
  · exact absurd (by simpa using h1) hm
  · simpa using h2

/-! ### What a line engine owes, and the completion of its claims (R22, R84, R85, R93) -/

/-- A line engine that raises what it owes changes its claim and its waiting result alone. -/
theorem LineEngine.raiseOwed_eq (e : LineEngine) : ∃ c w, e.raiseOwed = { e with claim := c, waiting := w } := by
  unfold LineEngine.raiseOwed
  split
  · exact ⟨_, _, rfl⟩
  · split
    · exact ⟨_, _, rfl⟩
    · split
      · exact ⟨_, _, rfl⟩
      · split
        · exact ⟨_, _, rfl⟩
        · exact ⟨_, _, rfl⟩

/-- Raising what a line engine owes leaves everything but that claim, the waiting result and the arbiter. -/
theorem State.raiseOwed_eq (s : State) (l : Line) :
    ∃ c w a, s.raiseOwed l = { s.setLine l { s.line l with claim := c, waiting := w } with arb := a } := by
  obtain ⟨c, w, h⟩ := (s.line l).raiseOwed_eq
  obtain ⟨a, ha⟩ := (s.setLine l { s.line l with claim := c, waiting := w }).grant_eq
  exact ⟨c, w, a, by rw [State.raiseOwed, State.modLine, h, ha]⟩

/-- The end of a line's claim leaves everything but the claim, the waiting result and the arbiter. -/
theorem State.endClaim_eq (s : State) (l : Line) :
    ∃ c w a, s.endClaim l = { s.setLine l { s.line l with claim := c, waiting := w } with arb := a } := by
  obtain ⟨c, w, a, h⟩ := (s.engineIdle.modLine l fun e => { e with claim := none }).raiseOwed_eq l
  refine ⟨c, w, a, ?_⟩
  rw [State.endClaim, h]
  simp [State.modLine]
  rfl

/-- The beginning of a FLUSH transaction leaves everything of a line engine but the transaction and, where the lead is
recessive, the record that one has begun in the round and flush due. -/
theorem LineEngine.checkLead_flush_eq (e : LineEngine) (n : Nat) (c : Byte) :
    ∃ x, e.checkLead n (Tx.fresh .flush c) =
      { e with
        tx := some x
        txSinceRound := e.txSinceRound || !e.leadDominant
        flushDue := e.flushDue || !e.leadDominant } := by
  unfold LineEngine.checkLead
  dsimp only
  cases h : e.leadDominant
  · simp [LineEngine.beginFrame, Tx.fresh]
  · simp

/-- Where no FLUSH is held back, a completed claim ends and no more. -/
theorem State.completeLine_of_not_held {s : State} {l : Line} (h : (s.line l).flushHeld = false) :
    s.completeLine l = s.endClaim l := by rw [State.completeLine, h]; rfl

/-- No FLUSH is held back where no result waits. -/
theorem LineEngine.flushHeld_of_no_waiting {e : LineEngine} (h : e.waiting = none) : e.flushHeld = false := by
  simp [LineEngine.flushHeld, h]

/-- The completion of a line's claim leaves everything but the claim, the waiting result, the arbiter, and what the
beginning of a FLUSH that was held back changes. -/
theorem State.completeLine_eq (s : State) (l : Line) :
    ∃ c w x a, s.completeLine l =
      { s.setLine l
          { s.line l with
            claim := c
            waiting := w
            tx := x
            txSinceRound := (s.line l).txSinceRound || ((s.line l).flushHeld && !(s.line l).leadDominant)
            flushDue := (s.line l).flushDue || ((s.line l).flushHeld && !(s.line l).leadDominant) } with
        arb := a } := by
  obtain ⟨c, w, a, h⟩ := s.endClaim_eq l
  unfold State.completeLine
  cases hh : (s.line l).flushHeld
  · exact ⟨c, w, (s.line l).tx, a, by simpa using h⟩
  · obtain ⟨x, hf⟩ := LineEngine.checkLead_flush_eq { s.line l with claim := c, waiting := w } s.cfg.holdOff 0
    refine ⟨c, w, some x, a, ?_⟩
    have hl : (s.endClaim l).line l = { s.line l with claim := c, waiting := w } := by
      rw [h]; exact State.line_setLine_self ..
    have hc : (s.endClaim l).cfg = s.cfg := by rw [h]; rfl
    rw [if_pos rfl, State.startTx, State.modLine, hl, hc, hf, h]
    cases l <;> rfl

/-- Handing a result over leaves everything but the claim, the waiting result and the arbiter (R93). -/
theorem State.handOver_eq (s : State) (l : Line) (x : LineClaim) :
    ∃ c w a, s.handOver l x = { s.setLine l { s.line l with claim := c, waiting := w } with arb := a } := by
  unfold State.handOver State.modLine
  cases hc : (s.line l).claim with
  | none =>
    obtain ⟨a, ha⟩ := (s.setLine l { s.line l with claim := some x }).grant_eq
    exact ⟨some x, (s.line l).waiting, a, by simpa [hc] using ha⟩
  | some y =>
    obtain ⟨a, ha⟩ := (s.setLine l { s.line l with waiting := some x }).grant_eq
    exact ⟨(s.line l).claim, some x, a, by simpa [hc] using ha⟩

@[simp] theorem State.pending_raiseOwed (s : State) (l : Line) : (s.raiseOwed l).pending = s.pending := by
  obtain ⟨c, w, a, h⟩ := s.raiseOwed_eq l; rw [h]; rfl
@[simp] theorem State.rst_raiseOwed (s : State) (l : Line) : (s.raiseOwed l).rst = s.rst := by
  obtain ⟨c, w, a, h⟩ := s.raiseOwed_eq l; rw [h]; rfl
@[simp] theorem State.dir_raiseOwed (s : State) (l : Line) : (s.raiseOwed l).dir = s.dir := by
  obtain ⟨c, w, a, h⟩ := s.raiseOwed_eq l; rw [h]; rfl
@[simp] theorem State.clock_raiseOwed (s : State) (l : Line) : (s.raiseOwed l).clock = s.clock := by
  obtain ⟨c, w, a, h⟩ := s.raiseOwed_eq l; rw [h]; rfl
@[simp] theorem State.host_raiseOwed (s : State) (l : Line) : (s.raiseOwed l).host = s.host := by
  obtain ⟨c, w, a, h⟩ := s.raiseOwed_eq l; rw [h]; rfl
@[simp] theorem State.cfg_raiseOwed (s : State) (l : Line) : (s.raiseOwed l).cfg = s.cfg := by
  obtain ⟨c, w, a, h⟩ := s.raiseOwed_eq l; rw [h]; rfl
theorem State.line_raiseOwed (s : State) (l k : Line) :
    (s.raiseOwed l).line k = if k = l then (s.line l).raiseOwed else s.line k := by
  simp [State.raiseOwed, State.modLine, State.line_setLine]
@[simp] theorem State.line_raiseOwed_self (s : State) (l : Line) :
    (s.raiseOwed l).line l = (s.line l).raiseOwed := by simp [State.line_raiseOwed]
@[simp] theorem State.line_raiseOwed_other (s : State) (l : Line) :
    (s.raiseOwed l).line (otherLine l) = s.line (otherLine l) := by simp [State.line_raiseOwed]

@[simp] theorem State.line_endClaim_self (s : State) (l : Line) :
    (s.endClaim l).line l = LineEngine.raiseOwed { s.line l with claim := none } := by
  simp [State.endClaim, State.modLine]
@[simp] theorem State.line_endClaim_other (s : State) (l : Line) :
    (s.endClaim l).line (otherLine l) = s.line (otherLine l) := by
  simp [State.endClaim, State.modLine]

@[simp] theorem State.pending_completeLine (s : State) (l : Line) : (s.completeLine l).pending = s.pending := by
  obtain ⟨c, w, x, a, h⟩ := s.completeLine_eq l; rw [h]; rfl
@[simp] theorem State.rst_completeLine (s : State) (l : Line) : (s.completeLine l).rst = s.rst := by
  obtain ⟨c, w, x, a, h⟩ := s.completeLine_eq l; rw [h]; rfl
@[simp] theorem State.dir_completeLine (s : State) (l : Line) : (s.completeLine l).dir = s.dir := by
  obtain ⟨c, w, x, a, h⟩ := s.completeLine_eq l; rw [h]; rfl
@[simp] theorem State.clock_completeLine (s : State) (l : Line) : (s.completeLine l).clock = s.clock := by
  obtain ⟨c, w, x, a, h⟩ := s.completeLine_eq l; rw [h]; rfl
@[simp] theorem State.host_completeLine (s : State) (l : Line) : (s.completeLine l).host = s.host := by
  obtain ⟨c, w, x, a, h⟩ := s.completeLine_eq l; rw [h]; rfl
@[simp] theorem State.cfg_completeLine (s : State) (l : Line) : (s.completeLine l).cfg = s.cfg := by
  obtain ⟨c, w, x, a, h⟩ := s.completeLine_eq l; rw [h]; rfl
@[simp] theorem State.slot_completeLine (s : State) (l : Line) (h : Handle) : (s.completeLine l).slot h = s.slot h := by
  simp [State.slot]
@[simp] theorem State.record?_completeLine (s : State) (l : Line) (h : Handle) :
    (s.completeLine l).record? h = s.record? h := by simp [State.record?]
@[simp] theorem State.mapAt_completeLine (s : State) (l k : Line) (st : Station) :
    (s.completeLine l).mapAt k st = s.mapAt k st := by simp [State.mapAt]
@[simp] theorem State.quarOf_completeLine (s : State) (l k : Line) :
    (s.completeLine l).quarOf k = s.quarOf k := by simp [State.quarOf]
@[simp] theorem State.line_completeLine_other (s : State) (l : Line) :
    (s.completeLine l).line (otherLine l) = s.line (otherLine l) := by
  obtain ⟨c, w, x, a, h⟩ := s.completeLine_eq l
  rw [h]; exact State.line_setLine_other ..
/-- The line engine whose claim completes keeps everything but its claim, its waiting result, and what the beginning of a
FLUSH that was held back changes. -/
theorem State.line_completeLine_self (s : State) (l : Line) :
    ∃ c w x, (s.completeLine l).line l =
      { s.line l with
        claim := c
        waiting := w
        tx := x
        txSinceRound := (s.line l).txSinceRound || ((s.line l).flushHeld && !(s.line l).leadDominant)
        flushDue := (s.line l).flushDue || ((s.line l).flushHeld && !(s.line l).leadDominant) } := by
  obtain ⟨c, w, x, a, h⟩ := s.completeLine_eq l
  exact ⟨c, w, x, by rw [h]; exact State.line_setLine_self ..⟩

@[simp] theorem State.orders_completeLine (s : State) (l : Line) :
    ((s.completeLine l).line l).orders = (s.line l).orders := by
  obtain ⟨c, w, x, h⟩ := s.line_completeLine_self l; rw [h]
@[simp] theorem State.reservations_completeLine (s : State) (l : Line) :
    ((s.completeLine l).line l).reservations = (s.line l).reservations := by
  obtain ⟨c, w, x, h⟩ := s.line_completeLine_self l; rw [h]
@[simp] theorem State.counters_completeLine (s : State) (l : Line) :
    ((s.completeLine l).line l).counters = (s.line l).counters := by
  obtain ⟨c, w, x, h⟩ := s.line_completeLine_self l; rw [h]
@[simp] theorem State.state_completeLine (s : State) (l : Line) :
    ((s.completeLine l).line l).state = (s.line l).state := by
  obtain ⟨c, w, x, h⟩ := s.line_completeLine_self l; rw [h]
@[simp] theorem State.stage_completeLine (s : State) (l : Line) :
    ((s.completeLine l).line l).stage = (s.line l).stage := by
  obtain ⟨c, w, x, h⟩ := s.line_completeLine_self l; rw [h]
@[simp] theorem State.stopDue_completeLine (s : State) (l : Line) :
    ((s.completeLine l).line l).stopDue = (s.line l).stopDue := by
  obtain ⟨c, w, x, h⟩ := s.line_completeLine_self l; rw [h]

/-! ### Claims and line engines -/

/-- A change of a line engine that keeps its claim changes no requester's claim. -/
theorem State.outstanding_setLine (s : State) (l : Line) (e : LineEngine) (h : e.claim = (s.line l).claim) :
    (s.setLine l e).outstanding = s.outstanding := by
  funext r
  cases r with
  | host => rfl
  | clock => rfl
  | line k =>
    simp only [State.outstanding, State.line_setLine]
    split <;> simp_all

/-- A change of a line engine that keeps its claim can be made before a grant or after it. -/
theorem State.setLine_grant (s : State) (l : Line) (e : LineEngine) (h : e.claim = (s.line l).claim) :
    s.grant.setLine l e = (s.setLine l e).grant := by
  unfold State.grant
  rw [State.outstanding_setLine s l e h]
  simp only [State.arb_setLine]
  split
  · rfl
  · split <;> rfl

theorem State.modLine_modLine (s : State) (l : Line) (f g : LineEngine → LineEngine) :
    (s.modLine l f).modLine l g = s.modLine l (fun e => g (f e)) := by
  simp [State.modLine]

/-- A result handed over is the claim outstanding, or waits behind it, and the arbiter grants (R93). -/
theorem State.handOver_handed (s : State) (l : Line) (c : LineClaim) :
    s.handOver l c = (s.setLine l ((s.line l).handed c)).grant := by
  unfold State.handOver State.modLine LineEngine.handed
  cases h : (s.line l).claim <;> simp [h]

/-- With no claim outstanding, a result handed over becomes the claim (R93). -/
theorem State.handOver_free (s : State) (l : Line) (c : LineClaim) (h : (s.line l).claim = none) :
    s.handOver l c = (s.setLine l { s.line l with claim := some c }).grant := by
  simp [State.handOver, State.modLine, h]

/-- The claim of a line engine that the directory engine carries out (R21). -/
theorem State.LineRuns.claim {s : State} {l : Line} {c : LineClaim} (h : s.LineRuns l c) :
    s.lineClaim? = some (l, c) := by
  simp [State.lineClaim?, h.1, h.2]

theorem State.current?_setRecord_self (s : State) (ref : Ref) (r q : Record) (h : s.current? ref = some r) :
    (s.setRecord ref.handle q).current? ref = some q := by
  have hg := (State.current?_eq_some.mp h).1
  simp [State.current?, hg]

theorem State.current?_congr {s t : State} {ref : Ref} (h : t.slot ref.handle = s.slot ref.handle) :
    t.current? ref = s.current? ref := by
  simp only [State.current?, State.record?, h]

/-- An order placed where an entry is free goes to the tail of the queue (R89, R90). -/
theorem LineEngine.place_eq {e : LineEngine} (o : Order) (h : e.orders.length + e.reservations.length < 8) :
    e.place o = { e with orders := e.orders ++ [o] } := by
  have : 0 < e.freeCount := by unfold LineEngine.freeCount; omega
  simp [LineEngine.place, this]

/-- An order fills a reservation that is held, in a queue that is within its bound (R90). -/
theorem LineEngine.fill_eq {e : LineEngine} {x : Reservation} (o : Order) (h : x ∈ e.reservations)
    (hq : e.orders.length + e.reservations.length ≤ 8) :
    e.fill x o = { e with reservations := e.reservations.erase x, orders := e.orders ++ [o] } := by
  have hl : (e.reservations.erase x).length < e.reservations.length := by
    rw [List.length_erase_of_mem h]
    have := List.length_pos_of_mem h
    omega
  rw [LineEngine.fill, LineEngine.place_eq]
  · rfl
  · show e.orders.length + (e.reservations.erase x).length < 8
    omega

/-! ### Placement (R7, R186, R189) -/

theorem State.slot_placeRecord (s : State) (h k : Handle) (r : Record) :
    (s.placeRecord h r).slot k =
      if k = h then
        { content := some r, gen := (s.slot h).gen, lastIdentity := none, keptOutcome := none
          mask := if (s.slot h).mask = 0 then 0 else ChangeMask.superseded }
      else s.slot k := State.slot_setSlot ..

@[simp] theorem State.record?_placeRecord_self (s : State) (h : Handle) (r : Record) :
    (s.placeRecord h r).record? h = some r := by
  simp [State.record?, State.slot_placeRecord]

@[simp] theorem State.refOf_placeRecord (s : State) (h k : Handle) (r : Record) :
    (s.placeRecord h r).refOf k = s.refOf k := by
  simp only [State.refOf, State.slot_placeRecord]; split <;> simp_all

@[simp] theorem State.line_placeRecord (s : State) (h : Handle) (r : Record) (l : Line) :
    (s.placeRecord h r).line l = s.line l := rfl
@[simp] theorem State.lines_placeRecord (s : State) (h : Handle) (r : Record) :
    (s.placeRecord h r).lines = s.lines := rfl
@[simp] theorem State.pending_placeRecord (s : State) (h : Handle) (r : Record) :
    (s.placeRecord h r).pending = s.pending := rfl
@[simp] theorem State.arb_placeRecord (s : State) (h : Handle) (r : Record) : (s.placeRecord h r).arb = s.arb := rfl
@[simp] theorem State.clock_placeRecord (s : State) (h : Handle) (r : Record) :
    (s.placeRecord h r).clock = s.clock := rfl
@[simp] theorem State.host_placeRecord (s : State) (h : Handle) (r : Record) :
    (s.placeRecord h r).host = s.host := rfl
@[simp] theorem State.cfg_placeRecord (s : State) (h : Handle) (r : Record) : (s.placeRecord h r).cfg = s.cfg := rfl
@[simp] theorem State.changeSet_placeRecord (s : State) (h : Handle) (r : Record) :
    (s.placeRecord h r).dir.changeSet = s.dir.changeSet := rfl

/-! ### Line engines through directory work -/

/-- A state whose line engines have lost orders and reservations, or had orders marked withdrawn, and are otherwise the
same: what ending, freeing or lapsing a record does to the lines. -/
def State.LinesShrunk (s t : State) : Prop := ∀ l : Line, (s.line l).Shrunk (t.line l)

theorem State.LinesShrunk.refl (s : State) : s.LinesShrunk s := fun _ => .refl _

theorem State.LinesShrunk.trans {s t u : State} (h : s.LinesShrunk t) (k : t.LinesShrunk u) : s.LinesShrunk u :=
  fun l => (h l).trans (k l)

theorem State.LinesShrunk.of_lines {s t : State} (h : t.lines = s.lines) : s.LinesShrunk t := by
  intro l; rw [show t.line l = s.line l by simp [State.line, h]]; exact .refl _

theorem State.LinesShrunk.of_setLine {s : State} {l : Line} {e : LineEngine} (h : (s.line l).Shrunk e) :
    s.LinesShrunk (s.setLine l e) := by
  intro k
  rw [State.line_setLine]
  split
  · next hk => subst hk; exact h
  · exact .refl _

/-! ### Moves and lapses (R31, R53 to R55) -/

/-- An abandoned move: the record's line engine is shrunk and the target is QUARANTINED without a reference or FREE
(R31). -/
theorem State.abandonMove_eq (s : State) (h : Handle) (l : Line) (target : Station) :
    ∃ e, (s.line l).Shrunk e ∧ s.abandonMove h l target =
      if s.moveSent h then (s.setLine l e).quarantine l target none else (s.setLine l e).setMap l target .free :=
  ⟨_, LineEngine.shrunk_withdraw .., rfl⟩

@[simp] theorem State.slot_abandonMove (s : State) (h k : Handle) (l : Line) (t : Station) :
    (s.abandonMove h l t).slot k = s.slot k := by
  obtain ⟨e, -, q⟩ := s.abandonMove_eq h l t; rw [q]; split <;> rfl
@[simp] theorem State.record?_abandonMove (s : State) (h k : Handle) (l : Line) (t : Station) :
    (s.abandonMove h l t).record? k = s.record? k := by simp [State.record?]
@[simp] theorem State.refOf_abandonMove (s : State) (h k : Handle) (l : Line) (t : Station) :
    (s.abandonMove h l t).refOf k = s.refOf k := by simp [State.refOf]
@[simp] theorem State.pending_abandonMove (s : State) (h : Handle) (l : Line) (t : Station) :
    (s.abandonMove h l t).pending = s.pending := by
  obtain ⟨e, -, q⟩ := s.abandonMove_eq h l t; rw [q]; split <;> rfl
@[simp] theorem State.arb_abandonMove (s : State) (h : Handle) (l : Line) (t : Station) :
    (s.abandonMove h l t).arb = s.arb := by
  obtain ⟨e, -, q⟩ := s.abandonMove_eq h l t; rw [q]; split <;> rfl
@[simp] theorem State.clock_abandonMove (s : State) (h : Handle) (l : Line) (t : Station) :
    (s.abandonMove h l t).clock = s.clock := by
  obtain ⟨e, -, q⟩ := s.abandonMove_eq h l t; rw [q]; split <;> rfl
@[simp] theorem State.host_abandonMove (s : State) (h : Handle) (l : Line) (t : Station) :
    (s.abandonMove h l t).host = s.host := by
  obtain ⟨e, -, q⟩ := s.abandonMove_eq h l t; rw [q]; split <;> rfl
@[simp] theorem State.cfg_abandonMove (s : State) (h : Handle) (l : Line) (t : Station) :
    (s.abandonMove h l t).cfg = s.cfg := by
  obtain ⟨e, -, q⟩ := s.abandonMove_eq h l t; rw [q]; split <;> rfl
@[simp] theorem State.changeSet_abandonMove (s : State) (h : Handle) (l : Line) (t : Station) :
    (s.abandonMove h l t).dir.changeSet = s.dir.changeSet := by
  obtain ⟨e, -, q⟩ := s.abandonMove_eq h l t; rw [q]; split <;> rfl
theorem State.linesShrunk_abandonMove (s : State) (h : Handle) (l : Line) (t : Station) :
    s.LinesShrunk (s.abandonMove h l t) := by
  obtain ⟨e, he, q⟩ := s.abandonMove_eq h l t
  refine (State.LinesShrunk.of_setLine he).trans (.of_lines ?_)
  rw [q]; split <;> rfl

/-- A record after its lapse: RESERVED with a full lease where it is pinned (R54), LAPSED where it is not (R53). -/
def Record.afterLapse (r : Record) : Record :=
  if r.pinned then
    { r with
      state := .reserved, leaseRemaining := r.leaseLength, missCount := 0, outcome := .lapsed
      requestPending := false }
  else { r with state := .lapsed, leaseRemaining := 0, outcome := .lapsed, requestPending := false }

/-- What a lapse does, said once (R53 to R55). A move is abandoned first; then the record's line engine is shrunk, the
record is as after its lapse, and STATE and OUTCOME are marked; the station of a record that is not pinned is quarantined
with a reference to it. -/
theorem State.lapseRecord_eq (s : State) (h : Handle) (r : Record) (hr : s.record? h = some r) :
    ∃ s1 e, ((∃ t, r.state = .moving t ∧ s1 = s.abandonMove h r.line t) ∨ (∀ t, r.state ≠ .moving t) ∧ s1 = s)
      ∧ (s1.line r.line).Shrunk e
      ∧ s.lapseRecord h =
        (((if r.pinned then s1 else s1.quarantine r.line r.station (some (s.refOf h))).setLine r.line e).setRecord h
          r.afterLapse).mark h (ChangeMask.state ||| ChangeMask.outcome) := by
  have tail : ∀ s1 : State, s1.record? h = some r → s1.refOf h = s.refOf h →
      ∃ e, (s1.line r.line).Shrunk e ∧
        (if r.pinned then s1.returnToReserved h .lapsed
        else ((((s1.quarantine r.line r.station (some (s1.refOf h))).withdrawRequest h).modRecord h fun r =>
          { r with state := .lapsed, leaseRemaining := 0, outcome := .lapsed }).mark h
            (ChangeMask.state ||| ChangeMask.outcome))) =
        (((if r.pinned then s1 else s1.quarantine r.line r.station (some (s.refOf h))).setLine r.line e).setRecord h
          r.afterLapse).mark h (ChangeMask.state ||| ChangeMask.outcome) := by
    intro s1 h1 h2
    by_cases hp : r.pinned = true
    · obtain ⟨e, he, q⟩ := s1.returnToReserved_eq h .lapsed r h1
      exact ⟨e, he, by simp only [if_pos hp, q, Record.afterLapse]⟩
    · obtain ⟨e, he, q, -⟩ := (s1.quarantine r.line r.station (some (s1.refOf h))).withdrawRequest_eq h r h1
      refine ⟨e, he, ?_⟩
      simp only [if_neg hp, q, Record.afterLapse]
      rw [State.modRecord_eq _ _ _ _ (State.record?_setRecord_self ..), State.setRecord_setRecord, h2]
  unfold State.lapseRecord
  rw [hr]
  by_cases hm : ∃ t, r.state = .moving t
  · obtain ⟨t, ht⟩ := hm
    obtain ⟨e, he, q⟩ := tail (s.abandonMove h r.line t) (by simpa using hr) (by simp)
    refine ⟨_, e, .inl ⟨t, ht, rfl⟩, he, ?_⟩
    simp only [ht]
    exact q
  · have hn : ∀ t, r.state ≠ .moving t := fun t ht => hm ⟨t, ht⟩
    obtain ⟨e, he, q⟩ := tail s hr rfl
    refine ⟨_, e, .inr ⟨hn, rfl⟩, he, ?_⟩
    cases hs : r.state
    case moving t => exact absurd hs (hn t)
    all_goals simp only [hs]; exact q

/-- A lapse changes no slot but its record's. -/
theorem State.slot_lapseRecord (s : State) (h k : Handle) (r : Record) (hr : s.record? h = some r) :
    (s.lapseRecord h).slot k =
      if k = h then
        { s.slot h with
          content := some r.afterLapse
          mask := (s.slot h).mask ||| (ChangeMask.state ||| ChangeMask.outcome) }
      else s.slot k := by
  obtain ⟨s1, e, h1, -, q⟩ := s.lapseRecord_eq h r hr
  have hs : ∀ j, s1.slot j = s.slot j := by
    rcases h1 with ⟨t, -, rfl⟩ | ⟨-, rfl⟩ <;> simp
  have hx : ∀ j, (if r.pinned then s1 else s1.quarantine r.line r.station (some (s.refOf h))).slot j = s.slot j := by
    intro j; split <;> simp [hs]
  rw [q]
  simp only [State.slot_mark, State.slot_setRecord, State.slot_setLine, hx]
  split <;> simp_all

theorem State.slot_lapseRecord_of_ne (s : State) {h k : Handle} (ne : k ≠ h) :
    (s.lapseRecord h).slot k = s.slot k := by
  cases hr : s.record? h with
  | none => simp [State.lapseRecord, hr]
  | some r => rw [s.slot_lapseRecord h k r hr, if_neg ne]

/-- A lapse shrinks line engines. -/
theorem State.linesShrunk_lapseRecord (s : State) (h : Handle) : s.LinesShrunk (s.lapseRecord h) := by
  cases hr : s.record? h with
  | none => simp only [State.lapseRecord, hr]; exact .refl _
  | some r =>
    obtain ⟨s1, e, h1, he, q⟩ := s.lapseRecord_eq h r hr
    have a : s.LinesShrunk s1 := by
      rcases h1 with ⟨t, -, rfl⟩ | ⟨-, rfl⟩
      · exact s.linesShrunk_abandonMove _ _ _
      · exact .refl _
    refine (a.trans (State.LinesShrunk.of_setLine he)).trans (.of_lines ?_)
    rw [q]
    split <;> simp <;> rfl

@[simp] theorem State.pending_lapseRecord (s : State) (h : Handle) : (s.lapseRecord h).pending = s.pending := by
  cases hr : s.record? h with
  | none => simp only [State.lapseRecord, hr]
  | some r =>
    obtain ⟨s1, e, h1, -, q⟩ := s.lapseRecord_eq h r hr
    rw [q]; rcases h1 with ⟨t, -, rfl⟩ | ⟨-, rfl⟩ <;> split <;> simp
@[simp] theorem State.arb_lapseRecord (s : State) (h : Handle) : (s.lapseRecord h).arb = s.arb := by
  cases hr : s.record? h with
  | none => simp only [State.lapseRecord, hr]
  | some r =>
    obtain ⟨s1, e, h1, -, q⟩ := s.lapseRecord_eq h r hr
    rw [q]; rcases h1 with ⟨t, -, rfl⟩ | ⟨-, rfl⟩ <;> split <;> simp
@[simp] theorem State.clock_lapseRecord (s : State) (h : Handle) : (s.lapseRecord h).clock = s.clock := by
  cases hr : s.record? h with
  | none => simp only [State.lapseRecord, hr]
  | some r =>
    obtain ⟨s1, e, h1, -, q⟩ := s.lapseRecord_eq h r hr
    rw [q]; rcases h1 with ⟨t, -, rfl⟩ | ⟨-, rfl⟩ <;> split <;> simp
@[simp] theorem State.cfg_lapseRecord (s : State) (h : Handle) : (s.lapseRecord h).cfg = s.cfg := by
  cases hr : s.record? h with
  | none => simp only [State.lapseRecord, hr]
  | some r =>
    obtain ⟨s1, e, h1, -, q⟩ := s.lapseRecord_eq h r hr
    rw [q]; rcases h1 with ⟨t, -, rfl⟩ | ⟨-, rfl⟩ <;> split <;> simp

/-! ### Ends of records (R41, R42) -/

/-- The freeing of a record empties its slot, keeps its outcome there and marks FREED; no other slot changes. -/
theorem State.slot_freeMarked (s : State) (h k : Handle) (more : ChangeMask) (r : Record)
    (hr : s.record? h = some r) :
    (s.freeMarked h more).slot k =
      if k = h then
        { content := none, gen := (s.slot h).gen + 1, lastIdentity := some r.identity, keptOutcome := some r.outcome
          mask := (s.slot h).mask ||| (ChangeMask.freed ||| more) }
      else s.slot k := by
  obtain ⟨e, -, q, -⟩ := s.freeMarked_eq h more r hr
  rw [q]
  simp only [State.slot_markFreed, State.slot_emptySlot, State.slot_setLine]
  split <;> simp_all

theorem State.linesShrunk_freeMarked (s : State) (h : Handle) (more : ChangeMask) :
    s.LinesShrunk (s.freeMarked h more) := by
  cases hr : s.record? h with
  | none => simp only [State.freeMarked, hr]; exact .refl _
  | some r =>
    obtain ⟨e, he, q, -⟩ := s.freeMarked_eq h more r hr
    exact (State.LinesShrunk.of_setLine he).trans (.of_lines (by rw [q]; simp))

@[simp] theorem State.pending_freeMarked (s : State) (h : Handle) (m : ChangeMask) :
    (s.freeMarked h m).pending = s.pending := by
  cases hr : s.record? h with
  | none => simp only [State.freeMarked, hr]
  | some r => obtain ⟨e, -, q, -⟩ := s.freeMarked_eq h m r hr; rw [q]; simp
@[simp] theorem State.arb_freeMarked (s : State) (h : Handle) (m : ChangeMask) :
    (s.freeMarked h m).arb = s.arb := by
  cases hr : s.record? h with
  | none => simp only [State.freeMarked, hr]
  | some r => obtain ⟨e, -, q, -⟩ := s.freeMarked_eq h m r hr; rw [q]; simp
@[simp] theorem State.clock_freeMarked (s : State) (h : Handle) (m : ChangeMask) :
    (s.freeMarked h m).clock = s.clock := by
  cases hr : s.record? h with
  | none => simp only [State.freeMarked, hr]
  | some r => obtain ⟨e, -, q, -⟩ := s.freeMarked_eq h m r hr; rw [q]; simp
@[simp] theorem State.cfg_freeMarked (s : State) (h : Handle) (m : ChangeMask) :
    (s.freeMarked h m).cfg = s.cfg := by
  cases hr : s.record? h with
  | none => simp only [State.freeMarked, hr]
  | some r => obtain ⟨e, -, q, -⟩ := s.freeMarked_eq h m r hr; rw [q]; simp
@[simp] theorem State.maps_freeMarked (s : State) (h : Handle) (m : ChangeMask) :
    (s.freeMarked h m).dir.maps = s.dir.maps := by
  cases hr : s.record? h with
  | none => simp only [State.freeMarked, hr]
  | some r => obtain ⟨e, -, q, -⟩ := s.freeMarked_eq h m r hr; rw [q]; simp
@[simp] theorem State.quar_freeMarked (s : State) (h : Handle) (m : ChangeMask) :
    (s.freeMarked h m).dir.quar = s.dir.quar := by
  cases hr : s.record? h with
  | none => simp only [State.freeMarked, hr]
  | some r => obtain ⟨e, -, q, -⟩ := s.freeMarked_eq h m r hr; rw [q]; simp

theorem State.slot_freeMarked_of_ne (s : State) {h k : Handle} (more : ChangeMask) (ne : k ≠ h) :
    (s.freeMarked h more).slot k = s.slot k := by
  cases hr : s.record? h with
  | none => simp only [State.freeMarked, hr]
  | some r => rw [s.slot_freeMarked h k more r hr, if_neg ne]

theorem State.slot_returnToReserved_of_ne (s : State) {h k : Handle} (o : RecOutcome) (ne : k ≠ h) (r : Record)
    (hr : s.record? h = some r) : (s.returnToReserved h o).slot k = s.slot k := by
  obtain ⟨e, -, q⟩ := s.returnToReserved_eq h o r hr
  rw [q]; simp [State.slot_mark, State.slot_setRecord, ne]

/-- The end of a record that is not pinned frees it after its station has gone into quarantine; a pinned one returns to
RESERVED (R41, R42). -/
theorem State.endRecord_eq (s : State) (h : Handle) (o : RecOutcome) (r : Record) (hr : s.record? h = some r) :
    s.endRecord h o =
      if r.pinned then s.returnToReserved h o
      else ((s.setRecord h { r with outcome := o }).quarantine r.line r.station none).freeMarked h
        ChangeMask.outcome := by
  simp only [State.endRecord, hr, State.setOutcome, State.modRecord]

theorem State.slot_endRecord_of_ne (s : State) {h k : Handle} (o : RecOutcome) (ne : k ≠ h) :
    (s.endRecord h o).slot k = s.slot k := by
  cases hr : s.record? h with
  | none => simp only [State.endRecord, hr]
  | some r =>
    rw [s.endRecord_eq h o r hr]
    split
    · exact s.slot_returnToReserved_of_ne o ne r hr
    · rw [State.slot_freeMarked_of_ne _ _ ne, State.slot_quarantine, State.slot_setRecord_of_ne _ _ ne]

theorem State.linesShrunk_endRecord (s : State) (h : Handle) (o : RecOutcome) : s.LinesShrunk (s.endRecord h o) := by
  cases hr : s.record? h with
  | none => simp only [State.endRecord, hr]; exact .refl _
  | some r =>
    rw [s.endRecord_eq h o r hr]
    split
    · obtain ⟨e, he, q⟩ := s.returnToReserved_eq h o r hr
      exact (State.LinesShrunk.of_setLine he).trans (.of_lines (by rw [q]; simp))
    · exact State.LinesShrunk.trans (.of_lines rfl) (State.linesShrunk_freeMarked _ _ _)

@[simp] theorem State.pending_endRecord (s : State) (h : Handle) (o : RecOutcome) :
    (s.endRecord h o).pending = s.pending := by
  cases hr : s.record? h with
  | none => simp only [State.endRecord, hr]
  | some r =>
    rw [s.endRecord_eq h o r hr]; split
    · obtain ⟨e, -, q⟩ := s.returnToReserved_eq h o r hr; rw [q]; simp
    · simp
@[simp] theorem State.arb_endRecord (s : State) (h : Handle) (o : RecOutcome) : (s.endRecord h o).arb = s.arb := by
  cases hr : s.record? h with
  | none => simp only [State.endRecord, hr]
  | some r =>
    rw [s.endRecord_eq h o r hr]; split
    · obtain ⟨e, -, q⟩ := s.returnToReserved_eq h o r hr; rw [q]; simp
    · simp
@[simp] theorem State.clock_endRecord (s : State) (h : Handle) (o : RecOutcome) :
    (s.endRecord h o).clock = s.clock := by
  cases hr : s.record? h with
  | none => simp only [State.endRecord, hr]
  | some r =>
    rw [s.endRecord_eq h o r hr]; split
    · obtain ⟨e, -, q⟩ := s.returnToReserved_eq h o r hr; rw [q]; simp
    · simp
@[simp] theorem State.cfg_endRecord (s : State) (h : Handle) (o : RecOutcome) : (s.endRecord h o).cfg = s.cfg := by
  cases hr : s.record? h with
  | none => simp only [State.endRecord, hr]
  | some r =>
    rw [s.endRecord_eq h o r hr]; split
    · obtain ⟨e, -, q⟩ := s.returnToReserved_eq h o r hr; rw [q]; simp
    · simp

/-- The withdrawal of a request touches one record's request pending and one line engine. -/
theorem State.slot_withdrawRequest_of_ne (s : State) {h k : Handle} (ne : k ≠ h) :
    (s.withdrawRequest h).slot k = s.slot k := by
  cases hr : s.record? h with
  | none => simp only [State.withdrawRequest, hr]
  | some r =>
    obtain ⟨e, -, q, -⟩ := s.withdrawRequest_eq h r hr
    rw [q, State.slot_setRecord_of_ne _ _ ne, State.slot_setLine]

theorem State.linesShrunk_withdrawRequest (s : State) (h : Handle) : s.LinesShrunk (s.withdrawRequest h) := by
  cases hr : s.record? h with
  | none => simp only [State.withdrawRequest, hr]; exact .refl _
  | some r =>
    obtain ⟨e, he, q, -⟩ := s.withdrawRequest_eq h r hr
    exact (State.LinesShrunk.of_setLine he).trans (.of_lines (by rw [q]; simp))

@[simp] theorem State.pending_withdrawRequest (s : State) (h : Handle) :
    (s.withdrawRequest h).pending = s.pending := by
  cases hr : s.record? h with
  | none => simp only [State.withdrawRequest, hr]
  | some r => obtain ⟨e, -, q, -⟩ := s.withdrawRequest_eq h r hr; rw [q]; simp
@[simp] theorem State.arb_withdrawRequest (s : State) (h : Handle) : (s.withdrawRequest h).arb = s.arb := by
  cases hr : s.record? h with
  | none => simp only [State.withdrawRequest, hr]
  | some r => obtain ⟨e, -, q, -⟩ := s.withdrawRequest_eq h r hr; rw [q]; simp
@[simp] theorem State.clock_withdrawRequest (s : State) (h : Handle) : (s.withdrawRequest h).clock = s.clock := by
  cases hr : s.record? h with
  | none => simp only [State.withdrawRequest, hr]
  | some r => obtain ⟨e, -, q, -⟩ := s.withdrawRequest_eq h r hr; rw [q]; simp
@[simp] theorem State.cfg_withdrawRequest (s : State) (h : Handle) : (s.withdrawRequest h).cfg = s.cfg := by
  cases hr : s.record? h with
  | none => simp only [State.withdrawRequest, hr]
  | some r => obtain ⟨e, -, q, -⟩ := s.withdrawRequest_eq h r hr; rw [q]; simp

/-! ### Visits to every slot (R52, R84, R85) -/

/-- A visit to slots, each at most once, by an operation that changes no slot but the one it visits, and that keeps a
property: the property holds after it; a slot not visited is as it was, and a slot visited is as one visit leaves it, in
a state with the property. -/
theorem visit_slots (f : State → Handle → State) (P : State → Prop) (keeps : ∀ s h, P s → P (f s h))
    (frame : ∀ s h k, k ≠ h → (f s h).slot k = s.slot k) :
    ∀ (hs : List Handle), hs.Nodup → ∀ s, P s →
      P (hs.foldl f s) ∧ ∀ k, (k ∉ hs → (hs.foldl f s).slot k = s.slot k)
        ∧ (k ∈ hs → ∃ t, P t ∧ t.slot k = s.slot k ∧ (hs.foldl f s).slot k = (f t k).slot k)
  | [], _, s, hp => ⟨hp, fun k => ⟨fun _ => rfl, fun hm => by cases hm⟩⟩
  | h :: hs, hn, s, hp => by
    obtain ⟨hh, hn'⟩ := List.nodup_cons.mp hn
    obtain ⟨p, ih⟩ := visit_slots f P keeps frame hs hn' (f s h) (keeps s h hp)
    refine ⟨p, fun k => ⟨fun hk => ?_, fun hk => ?_⟩⟩
    · rw [List.mem_cons, not_or] at hk
      rw [List.foldl_cons, (ih k).1 hk.2, frame s h k hk.1]
    · by_cases he : k = h
      · subst he
        exact ⟨s, hp, rfl, by rw [List.foldl_cons, (ih k).1 hh]⟩
      · obtain ⟨t, pt, h1, h2⟩ := (ih k).2 ((List.mem_cons.mp hk).resolve_left he)
        exact ⟨t, pt, by rw [h1, frame s h k he], h2⟩

theorem mem_allHandles (h : Handle) : h ∈ allHandles := List.mem_finRange h

theorem nodup_allHandles : allHandles.Nodup := List.nodup_finRange 256

end Sys2Proof.Machine
end

