-- ==== Sys2Proof/Laws/Keeps.lean ====
section
/-! SUPPORT. What the directory work of a claim keeps: the parts of the state it does not touch, and the laws. One lemma
for each shared operation; a proof about a command composes them. -/

namespace Sys2Proof.Machine

/-! ### Line engines -/

/-- The laws of one line engine: the queue's bound, the quiet of OFF and FAULT, the exclusion list, the counters. -/
def LineEngine.QueueOk (e : LineEngine) : Prop := e.orders.length + e.reservations.length ≤ 8
def LineEngine.QuietOk (e : LineEngine) : Prop := (e.state = .off ∨ e.state = .fault) → e.tx = none ∧ e.stage = .none
def LineEngine.ExclusionsOk (e : LineEngine) : Prop := e.exclusions.length ≤ 4 ∧ e.exclusions.Nodup
def LineEngine.CountersOk (e : LineEngine) : Prop := ∀ c : Ctr, e.counter c ≤ 65535

/-- A change of a line engine that keeps its laws. -/
structure LineEngine.Keeps (e d : LineEngine) : Prop where
  queue : e.QueueOk → d.QueueOk
  quiet : e.QuietOk → d.QuietOk
  exclusions : e.ExclusionsOk → d.ExclusionsOk
  counters : e.CountersOk → d.CountersOk

theorem LineEngine.Keeps.refl (e : LineEngine) : e.Keeps e := ⟨id, id, id, id⟩

theorem LineEngine.Keeps.trans {e d c : LineEngine} (h : e.Keeps d) (k : d.Keeps c) : e.Keeps c :=
  ⟨k.queue ∘ h.queue, k.quiet ∘ h.quiet, k.exclusions ∘ h.exclusions, k.counters ∘ h.counters⟩

/-- A change that touches none of the fields the laws speak of, but for a queue that does not grow. -/
theorem LineEngine.Keeps.of_eq {e d : LineEngine} (ho : d.orders.length ≤ e.orders.length)
    (hr : d.reservations.length ≤ e.reservations.length) (hs : d.state = e.state) (ht : d.tx = e.tx)
    (hg : d.stage = e.stage) (hx : d.exclusions = e.exclusions) (hc : d.counters = e.counters) : e.Keeps d := by
  refine ⟨fun h => ?_, fun h => ?_, fun h => ?_, fun h c => ?_⟩
  · unfold LineEngine.QueueOk at *; omega
  · unfold LineEngine.QuietOk at *; rw [hs, ht, hg]; exact h
  · unfold LineEngine.ExclusionsOk at *; rw [hx]; exact h
  · unfold LineEngine.counter; rw [hc]; exact h c

theorem LineEngine.Shrunk.keeps {e d : LineEngine} (h : e.Shrunk d) : e.Keeps d := by
  obtain ⟨os, rs, rfl, ho, hr, -⟩ := h
  exact .of_eq ho hr rfl rfl rfl rfl rfl

theorem LineEngine.Shrunk.claim {e d : LineEngine} (h : e.Shrunk d) : d.claim = e.claim := by
  obtain ⟨os, rs, rfl, -⟩ := h; rfl

theorem LineEngine.keeps_claims (e : LineEngine) (c w : Option LineClaim) :
    e.Keeps { e with claim := c, waiting := w } :=
  .of_eq (Nat.le_refl _) (Nat.le_refl _) rfl rfl rfl rfl rfl

theorem LineEngine.keeps_bump (e : LineEngine) (c : Ctr) : e.Keeps (e.bump c) := by
  refine ⟨id, id, id, fun h d => ?_⟩
  rw [LineEngine.counter_bump]
  split
  · omega
  · exact h d

theorem LineEngine.claim_bumpBy (e : LineEngine) (c : Ctr) (n : Nat) : (e.bumpBy c n).claim = e.claim := by
  induction n generalizing e with
  | zero => rfl
  | succ n ih => exact ih (e.bump c)

theorem LineEngine.keeps_bumpBy (e : LineEngine) (c : Ctr) (n : Nat) : e.Keeps (e.bumpBy c n) := by
  induction n generalizing e with
  | zero => exact .refl e
  | succ n ih => exact (e.keeps_bump c).trans (ih (e.bump c))

theorem LineEngine.keeps_place (e : LineEngine) (o : Order) : e.Keeps (e.place o) := by
  unfold LineEngine.place
  split
  · next h =>
    refine ⟨fun _ => ?_, id, id, id⟩
    unfold LineEngine.freeCount at h
    unfold LineEngine.QueueOk
    simp only [List.length_append, List.length_singleton]
    omega
  · exact .refl e

theorem LineEngine.claim_place (e : LineEngine) (o : Order) : (e.place o).claim = e.claim := by
  unfold LineEngine.place; split <;> rfl

theorem LineEngine.keeps_fill (e : LineEngine) (x : Reservation) (o : Order) : e.Keeps (e.fill x o) :=
  (LineEngine.shrunk_release x e).keeps.trans (LineEngine.keeps_place _ o)

theorem LineEngine.claim_fill (e : LineEngine) (x : Reservation) (o : Order) : (e.fill x o).claim = e.claim :=
  LineEngine.claim_place _ o

theorem LineEngine.keeps_reserve (e : LineEngine) (x : Reservation) : e.Keeps (e.reserve x) := by
  unfold LineEngine.reserve
  split
  · next h =>
    refine ⟨fun _ => ?_, id, id, id⟩
    unfold LineEngine.freeCount at h
    unfold LineEngine.QueueOk
    simp only [List.length_append, List.length_singleton]
    omega
  · exact .refl e

/-! ### The whole state -/

/-- The lease of a slot's record is within its length (R25). -/
def Slot.LeaseOk (x : Slot) : Prop := ∀ r : Record, x.content = some r → r.leaseRemaining ≤ r.leaseLength

/-- The miss count of a slot's record is within a bound. -/
def Slot.MissOk (n : Nat) (x : Slot) : Prop := ∀ r : Record, x.content = some r → r.missCount ≤ n

/-- Every record's miss count is within a bound (R26). -/
def State.MissesWithin (s : State) (n : Nat) : Prop := ∀ h : Handle, (s.slot h).MissOk n

/-- A bound that admits the miss limit of the claim being carried out, if there is one. -/
def State.Bounds (s : State) (n : Nat) : Prop := s.arb.engine.isSome = true → s.arb.grantCfg.missLimit ≤ n

/-- Directory work: it leaves the queue of commands, the RST pin, the arbiter, the lease clock, the store, the command
slots and every claim as they are, and keeps the laws of the lines, of the change set, of the leases, of the
counters and of the miss counts. -/
structure State.Keeps (s t : State) : Prop where
  pending : t.pending = s.pending
  rst : t.rst = s.rst
  arb : t.arb = s.arb
  clock : t.clock = s.clock
  cfg : t.cfg = s.cfg
  slots : t.host.slots = s.host.slots
  acceptance : t.host.acceptance = s.host.acceptance
  claims : ∀ l : Line, (t.line l).claim = (s.line l).claim
  lines : ∀ l : Line, (s.line l).Keeps (t.line l)
  changes : s.ChangeSetLaw ∧ s.WaitingLaw → t.ChangeSetLaw ∧ t.WaitingLaw
  leases : s.LeaseLaw → t.LeaseLaw
  groups : s.GroupLaw → t.GroupLaw
  counts : s.dir.setFull ≤ 65535 ∧ s.dir.staleRef ≤ 65535 → t.dir.setFull ≤ 65535 ∧ t.dir.staleRef ≤ 65535
  misses : ∀ n : Nat, s.Bounds n → s.MissesWithin n → t.MissesWithin n

theorem State.Keeps.refl (s : State) : s.Keeps s :=
  ⟨rfl, rfl, rfl, rfl, rfl, rfl, rfl, fun _ => rfl, fun _ => .refl _, id, id, id, id, fun _ _ => id⟩

theorem State.Keeps.trans {s t u : State} (h : s.Keeps t) (k : t.Keeps u) : s.Keeps u :=
  ⟨k.pending.trans h.pending, k.rst.trans h.rst, k.arb.trans h.arb, k.clock.trans h.clock, k.cfg.trans h.cfg,
    k.slots.trans h.slots, k.acceptance.trans h.acceptance, fun l => (k.claims l).trans (h.claims l),
    fun l => (h.lines l).trans (k.lines l), k.changes ∘ h.changes, k.leases ∘ h.leases,
    k.groups ∘ h.groups, k.counts ∘ h.counts,
    fun n b m => k.misses n (by unfold State.Bounds; rw [h.arb]; exact b) (h.misses n b m)⟩

theorem State.keeps_setLine (s : State) (l : Line) (e : LineEngine) (h : (s.line l).Keeps e)
    (hc : e.claim = (s.line l).claim) : s.Keeps (s.setLine l e) := by
  refine ⟨rfl, rfl, rfl, rfl, rfl, rfl, rfl, fun k => ?_, fun k => ?_, id, id, id, id, fun _ _ => id⟩
  · rw [State.line_setLine]; split
    · next hk => subst hk; exact hc
    · rfl
  · rw [State.line_setLine]; split
    · next hk => subst hk; exact h
    · exact .refl _

theorem State.keeps_modLine (s : State) (l : Line) (f : LineEngine → LineEngine) (h : ∀ e : LineEngine, e.Keeps (f e))
    (hc : ∀ e : LineEngine, (f e).claim = e.claim) : s.Keeps (s.modLine l f) :=
  s.keeps_setLine l _ (h _) (hc _)

theorem State.keeps_bump (s : State) (l : Line) (c : Ctr) : s.Keeps (s.bump l c) :=
  s.keeps_modLine l _ (fun e => e.keeps_bump c) fun _ => rfl

theorem State.keeps_place (s : State) (l : Line) (o : Order) : s.Keeps (s.modLine l (LineEngine.place o)) :=
  s.keeps_modLine l _ (fun e => e.keeps_place o) fun e => e.claim_place o

theorem State.keeps_fill (s : State) (l : Line) (x : Reservation) (o : Order) :
    s.Keeps (s.modLine l (LineEngine.fill x o)) :=
  s.keeps_modLine l _ (fun e => e.keeps_fill x o) fun e => e.claim_fill x o

theorem State.keeps_shrunk (s : State) (l : Line) (e : LineEngine) (h : (s.line l).Shrunk e) : s.Keeps (s.setLine l e) :=
  s.keeps_setLine l e h.keeps h.claim

theorem State.keeps_release (s : State) (l : Line) (x : Reservation) : s.Keeps (s.modLine l (LineEngine.release x)) :=
  s.keeps_shrunk l _ (LineEngine.shrunk_release x _)

theorem State.keeps_removeConcluded (s : State) (l : Line) (k : OrderKind) (ref : Ref) :
    s.Keeps (s.modLine l (LineEngine.removeConcluded k ref)) :=
  s.keeps_shrunk l _ (LineEngine.shrunk_removeConcluded k ref _)

/-- One element of a list changes its mind: the count changes by it. -/
theorem countP_changeOne {α : Type} [DecidableEq α] (h : α) (p q : α → Bool) (hne : ∀ k, k ≠ h → q k = p k) :
    ∀ (l : List α), l.Nodup → h ∈ l → l.countP q + (p h).toNat = l.countP p + (q h).toNat := by
  intro l hn hm
  have hp := List.perm_cons_erase hm
  rw [hp.countP_eq, hp.countP_eq, List.countP_cons, List.countP_cons]
  have : (l.erase h).countP q = (l.erase h).countP p :=
    List.countP_congr fun k hk => by rw [hne k (fun e => by subst e; exact hn.not_mem_erase hk)]
  rw [this]
  cases p h <;> cases q h <;> simp

/-- A change of one slot changes the number of members of a group by that slot (R156). -/
theorem State.members_setSlot (s : State) (h : Handle) (x : Slot) (g : Fin 16) :
    (s.setSlot h x).members g + ((s.slot h).groupSet.getLsbD g.val).toNat
      = s.members g + (x.groupSet.getLsbD g.val).toNat := by
  have := countP_changeOne h (fun k => (s.slot k).groupSet.getLsbD g.val)
    (fun k => ((s.setSlot h x).slot k).groupSet.getLsbD g.val)
    (fun k hk => by rw [State.slot_setSlot, if_neg hk]) allHandles nodup_allHandles (mem_allHandles h)
  simpa only [State.members, State.slot_setSlot, if_true] using this

theorem State.missesWithin_setSlot (s : State) (h : Handle) (x : Slot) (n : Nat) (hx : (s.slot h).MissOk n → x.MissOk n)
    (hm : s.MissesWithin n) : (s.setSlot h x).MissesWithin n := by
  intro k
  rw [State.slot_setSlot]
  split
  · next hk => subst hk; exact hx (hm k)
  · exact hm k

/-- A change of one slot that keeps its mask empty or not empty, its lease within its length, and its group set. -/
theorem State.keeps_setSlot (s : State) (h : Handle) (x : Slot) (hm : x.mask = 0 ↔ (s.slot h).mask = 0)
    (hl : (s.slot h).LeaseOk → x.LeaseOk) (hg : x.groupSet = (s.slot h).groupSet)
    (hc : ∀ n : Nat, s.Bounds n → (s.slot h).MissOk n → x.MissOk n) : s.Keeps (s.setSlot h x) := by
  refine ⟨rfl, rfl, rfl, rfl, rfl, rfl, rfl, fun _ => rfl, fun _ => .refl _, ?_, ?_, ?_, id, fun n hb => s.missesWithin_setSlot h x n (hc n hb)⟩
  · rintro ⟨⟨h1, h2⟩, h3⟩
    refine ⟨⟨h1, fun k => ?_⟩, h3⟩
    rw [State.slot_setSlot]
    split
    · next hk => subst hk; exact (h2 k).trans (not_congr hm).symm
    · exact h2 k
  · intro hlaw k r hr
    rw [State.record?, State.slot_setSlot] at hr
    split at hr
    · next hk => exact hl (fun q hq => hlaw h q hq) r hr
    · exact hlaw k r hr
  · intro hlaw g
    have := s.members_setSlot h x g
    rw [hg] at this
    have hm : (s.setSlot h x).members g = s.members g := by omega
    rw [hm]; exact hlaw g

theorem State.keeps_setRecord (s : State) (h : Handle) (r : Record)
    (hl : (∀ q, s.record? h = some q → q.leaseRemaining ≤ q.leaseLength) → r.leaseRemaining ≤ r.leaseLength)
    (hg : r.groups = (s.slot h).groupSet) (hc : ∀ n : Nat, s.Bounds n → (s.slot h).MissOk n → r.missCount ≤ n) :
    s.Keeps (s.setRecord h r) := by
  refine s.keeps_setSlot h _ Iff.rfl (fun ho q hq => ?_) hg fun n hb hm q hq => ?_
  · cases hq; exact hl ho
  · cases hq; exact hc n hb hm

theorem State.groupSet_of_record {s : State} {h : Handle} {r : Record} (hr : s.record? h = some r) :
    (s.slot h).groupSet = r.groups := by
  unfold State.record? at hr
  unfold Slot.groupSet
  rw [hr]

/-- A change of a record that keeps its lease and its group set. -/
theorem State.keeps_setRecord_of (s : State) (h : Handle) (q r : Record) (hq : s.record? h = some q)
    (hl : r.leaseLength = q.leaseLength) (hr : r.leaseRemaining ≤ q.leaseRemaining ∨ r.leaseRemaining ≤ r.leaseLength)
    (hg : r.groups = q.groups := by rfl)
    (hc : r.missCount ≤ q.missCount := by first | exact Nat.le_refl _ | exact Nat.zero_le _) :
    s.Keeps (s.setRecord h r) := by
  refine s.keeps_setRecord h r (fun ho => ?_) (hg.trans (State.groupSet_of_record hq).symm)
    fun _ _ hm => Nat.le_trans hc (hm q hq)
  have := ho q hq
  omega

theorem State.keeps_modRecord (s : State) (h : Handle) (f : Record → Record)
    (hf : ∀ r : Record, r.leaseRemaining ≤ r.leaseLength → (f r).leaseRemaining ≤ (f r).leaseLength)
    (hg : ∀ r : Record, (f r).groups = r.groups := by intro r; rfl)
    (hc : ∀ r : Record, (f r).missCount ≤ r.missCount := by
      intro r; first | exact Nat.le_refl _ | exact Nat.zero_le _) : s.Keeps (s.modRecord h f) := by
  cases hr : s.record? h with
  | none => simp only [State.modRecord, hr]; exact .refl s
  | some r =>
    rw [State.modRecord_eq _ _ _ _ hr]
    exact s.keeps_setRecord h _ (fun ho => hf r (ho r hr)) ((hg r).trans (State.groupSet_of_record hr).symm)
      fun _ _ hm => Nat.le_trans (hc r) (hm r hr)

theorem State.keeps_setMap (s : State) (l : Line) (st : Station) (e : MapEntry) : s.Keeps (s.setMap l st e) :=
  ⟨rfl, rfl, rfl, rfl, rfl, rfl, rfl, fun _ => rfl, fun _ => .refl _, id, id, id, id, fun _ _ => id⟩

theorem State.keeps_setQuar (s : State) (l : Line) (q : List QuarEntry) : s.Keeps (s.setQuar l q) :=
  ⟨rfl, rfl, rfl, rfl, rfl, rfl, rfl, fun _ => rfl, fun _ => .refl _, id, id, id, id, fun _ _ => id⟩

theorem State.keeps_quarantine (s : State) (l : Line) (st : Station) (x : Option Ref) :
    s.Keeps (s.quarantine l st x) := (s.keeps_setQuar l _).trans (State.keeps_setMap _ _ _ _)

theorem State.keeps_dropQuarRef (s : State) (l : Line) (ref : Ref) : s.Keeps (s.dropQuarRef l ref) :=
  s.keeps_setQuar l _

theorem State.keeps_takeQuarEntry (s : State) (l : Line) (ref : Ref) : s.Keeps (s.takeQuarEntry l ref) :=
  s.keeps_setQuar l _

theorem State.keeps_raiseAlarm (s : State) (a : Alarm) : s.Keeps (s.raiseAlarm a) :=
  ⟨rfl, rfl, rfl, rfl, rfl, rfl, rfl, fun _ => rfl, fun _ => .refl _, id, id, id, id, fun _ _ => id⟩

theorem State.keeps_setFull (s : State) :
    s.Keeps { s with dir := { s.dir with setFull := satInc16 s.dir.setFull } } := by
  refine ⟨rfl, rfl, rfl, rfl, rfl, rfl, rfl, fun _ => rfl, fun _ => .refl _, id, id, id, fun h => ⟨?_, h.2⟩, fun _ _ => id⟩
  show satInc16 s.dir.setFull ≤ 65535
  rw [satInc16_eq]; omega

theorem State.keeps_staleRef (s : State) :
    s.Keeps { s with dir := { s.dir with staleRef := satInc16 s.dir.staleRef } } := by
  refine ⟨rfl, rfl, rfl, rfl, rfl, rfl, rfl, fun _ => rfl, fun _ => .refl _, id, id, id, fun h => ⟨h.1, ?_⟩, fun _ _ => id⟩
  show satInc16 s.dir.staleRef ≤ 65535
  rw [satInc16_eq]; omega

theorem State.keeps_countIntake (s : State) (l : Line) (i : Intake) : s.Keeps (s.countIntake l i) :=
  s.keeps_modLine l _ (fun e => (e.keeps_bumpBy _ _).trans (LineEngine.keeps_bumpBy _ _ _))
    fun e => by rw [LineEngine.claim_bumpBy, LineEngine.claim_bumpBy]

theorem changeMask_or_eq_zero {a b : ChangeMask} : a ||| b = 0 ↔ a = 0 ∧ b = 0 := by
  revert a b; decide

/-- A mark keeps the change set and the masks together (R185). -/
theorem State.keeps_mark (s : State) (h : Handle) (a : ChangeMask) : s.Keeps (s.mark h a) := by
  have hl : s.LeaseLaw → (s.mark h a).LeaseLaw := by
    intro hlaw k r hr
    rw [State.record?_mark] at hr
    exact hlaw k r hr
  have hg : s.GroupLaw → (s.mark h a).GroupLaw := by
    intro hlaw g
    have hm : (s.mark h a).members g = s.members g := by
      unfold State.members
      refine List.countP_congr fun k _ => ?_
      unfold Slot.groupSet
      rw [show ((s.mark h a).slot k).content = (s.slot k).content from State.record?_mark ..]
    rw [hm, State.groups_mark]; exact hlaw g
  have hw : ∀ n : Nat, s.Bounds n → s.MissesWithin n → (s.mark h a).MissesWithin n := by
    intro n _ hm k r hr
    exact hm k r ((show ((s.mark h a).slot k).content = (s.slot k).content from State.record?_mark ..) ▸ hr)
  rcases s.mark_cases h a with ⟨h0, ha, hc, hh⟩ | ⟨hn, hc, hh⟩
  · refine ⟨by simp, by simp, by simp, by simp, by simp, by simp, by rw [hh], fun l => by simp, fun l => ?_, ?_, hl, hg, by simp, hw⟩
    · rw [State.line_mark]; exact .refl _
    · rintro ⟨⟨h1, h2⟩, h3⟩
      have hnot : h ∉ s.dir.changeSet := fun hm => (h2 h).mp hm h0
      refine ⟨⟨?_, fun k => ?_⟩, ?_⟩
      · rw [hc]
        refine List.nodup_append.mpr ⟨h1, by simp, fun x hx y hy he => ?_⟩
        rw [List.mem_singleton] at hy
        exact hnot (hy ▸ he ▸ hx)
      · rw [hc, State.slot_mark]
        simp only [List.mem_append, List.mem_singleton]
        split
        · next hk =>
          subst hk
          simp only [or_true, true_iff, ne_eq]
          rw [changeMask_or_eq_zero]
          exact fun hz => ha hz.2
        · next hk => simp only [hk, or_false]; exact h2 k
      · simp [State.WaitingLaw, hh, hc]
  · refine ⟨by simp, by simp, by simp, by simp, by simp, by simp, by rw [hh], fun l => by simp, fun l => ?_, ?_, hl, hg, by simp, hw⟩
    · rw [State.line_mark]; exact .refl _
    · rintro ⟨⟨h1, h2⟩, h3⟩
      refine ⟨⟨by rw [hc]; exact h1, fun k => ?_⟩, by rw [State.WaitingLaw, hh, hc]; exact h3⟩
      rw [hc, State.slot_mark]
      split
      · next hk =>
        subst hk
        rw [h2 k]
        simp only [ne_eq]
        rw [changeMask_or_eq_zero]
        constructor
        · exact fun hx hz => hx hz.1
        · intro hx hz
          exact hx ⟨hz, Classical.byContradiction fun ha => hn ⟨hz, ha⟩⟩
      · exact h2 k

theorem State.keeps_withdrawDirected (s : State) (h : Handle) : s.Keeps (s.withdrawDirected h) := by
  cases hr : s.record? h with
  | none => simp only [State.withdrawDirected, hr]; exact .refl s
  | some r =>
    obtain ⟨e, he, q, -⟩ := s.withdrawDirected_eq h r hr
    rw [q]; exact s.keeps_shrunk _ _ he

theorem State.keeps_withdrawRequest (s : State) (h : Handle) : s.Keeps (s.withdrawRequest h) := by
  cases hr : s.record? h with
  | none => simp only [State.withdrawRequest, hr]; exact .refl s
  | some r =>
    obtain ⟨e, he, q, -⟩ := s.withdrawRequest_eq h r hr
    rw [q]
    exact (s.keeps_shrunk _ _ he).trans (State.keeps_setRecord_of _ _ r _ hr rfl (.inl (Nat.le_refl _)))

theorem State.keeps_abandonMove (s : State) (h : Handle) (l : Line) (t : Station) : s.Keeps (s.abandonMove h l t) := by
  obtain ⟨e, he, q⟩ := s.abandonMove_eq h l t
  rw [q]
  split
  · exact (s.keeps_shrunk _ _ he).trans (State.keeps_quarantine _ _ _ _)
  · exact (s.keeps_shrunk _ _ he).trans (State.keeps_setMap _ _ _ _)

theorem State.keeps_returnToReserved (s : State) (h : Handle) (o : RecOutcome) : s.Keeps (s.returnToReserved h o) :=
  (((s.keeps_withdrawDirected h).trans (State.keeps_withdrawRequest _ _)).trans
    (State.keeps_modRecord _ _ _ fun _ _ => Nat.le_refl _)).trans (State.keeps_mark _ _ _)

/-- A change of the group table that follows the members keeps the laws. -/
theorem State.keeps_groups (s : State) (v : Vector GroupEntry 16)
    (hg : s.GroupLaw → State.GroupLaw { s with dir := { s.dir with groups := v } }) :
    s.Keeps { s with dir := { s.dir with groups := v } } :=
  ⟨rfl, rfl, rfl, rfl, rfl, rfl, rfl, fun _ => rfl, fun _ => .refl _, id, id, hg, id, fun _ _ => id⟩

/-- A change of one slot and of the group table together (R42, R156, R157). -/
theorem State.keeps_slotAndGroups (s : State) (h : Handle) (x : Slot) (v : Vector GroupEntry 16)
    (hm : x.mask = 0 ↔ (s.slot h).mask = 0) (hl : (s.slot h).LeaseOk → x.LeaseOk)
    (hk : ∀ n : Nat, (s.slot h).MissOk n → x.MissOk n)
    (hg : ∀ g : Fin 16, (v.get g).limit = (s.dir.groups.get g).limit
      ∧ ((v.get g).count + ((s.slot h).groupSet.getLsbD g.val).toNat
          = (s.dir.groups.get g).count + (x.groupSet.getLsbD g.val).toNat
        ∨ (v.get g).count = (s.dir.groups.get g).count - 1 ∧ (s.slot h).groupSet.getLsbD g.val = true
          ∧ x.groupSet.getLsbD g.val = false)
      ∧ ((v.get g).count ≤ (s.dir.groups.get g).count ∨ (v.get g).limit = 0 ∨ (v.get g).count ≤ (v.get g).limit)) :
    s.Keeps { s.setSlot h x with dir := { (s.setSlot h x).dir with groups := v } } := by
  have hc : s.ChangeSetLaw ∧ s.WaitingLaw → (s.setSlot h x).ChangeSetLaw ∧ (s.setSlot h x).WaitingLaw := by
    rintro ⟨⟨h1, h2⟩, h3⟩
    refine ⟨⟨h1, fun k => ?_⟩, h3⟩
    rw [State.slot_setSlot]
    split
    · next hk => subst hk; exact (h2 k).trans (not_congr hm).symm
    · exact h2 k
  have hle : s.LeaseLaw → (s.setSlot h x).LeaseLaw := by
    intro hlaw k r hr
    rw [State.record?, State.slot_setSlot] at hr
    split at hr
    · next hk => subst hk; exact hl (fun q hq => hlaw k q hq) r hr
    · exact hlaw k r hr
  have hgr : s.GroupLaw → ∀ g : Fin 16, (v.get g).count = (s.setSlot h x).members g
      ∧ ((v.get g).limit ≠ 0 → (v.get g).count ≤ (v.get g).limit) := by
    intro hlaw g
    have hs := s.members_setSlot h x g
    obtain ⟨a, b⟩ := hlaw g
    obtain ⟨c, d, e⟩ := hg g
    refine ⟨?_, fun hn => ?_⟩
    · rcases d with d | ⟨d, f, k⟩
      · omega
      · rw [f, k] at hs
        simp only [Bool.toNat_true, Bool.toNat_false] at hs
        omega
    · rw [c] at hn
      have := b hn
      omega
  exact ⟨rfl, rfl, rfl, rfl, rfl, rfl, rfl, fun _ => rfl, fun _ => .refl _, hc, hle, hgr, id,
    fun n _ => s.missesWithin_setSlot h x n (hk n)⟩

/-- The emptying of a slot takes its record out of the member counts (R42, R156). -/
theorem State.keeps_emptySlot (s : State) (h : Handle) (r : Record) (hg : (s.slot h).groupSet = r.groups) :
    s.Keeps (s.emptySlot h r) := by
  refine s.keeps_slotAndGroups h _ _ Iff.rfl (fun _ q hq => by cases hq) (fun _ _ q hq => by cases hq) fun g => ?_
  have e : (dropMembers (s.setSlot h
        { content := none, gen := (s.slot h).gen + 1, lastIdentity := some r.identity, keptOutcome := none
          mask := (s.slot h).mask }).dir.groups r.groups).get g
      = if r.groups.getLsbD g.val then { s.dir.groups.get g with count := (s.dir.groups.get g).count - 1 }
        else s.dir.groups.get g := by
    simp [dropMembers, Vector.get]
    rfl
  rw [e, hg]
  have hz : Slot.groupSet ⟨none, (s.slot h).gen + 1, some r.identity, none, (s.slot h).mask⟩ = 0 := rfl
  rw [hz]
  split
  · next hb => simp [hb]
  · next hb =>
    rw [Bool.not_eq_true] at hb
    exact ⟨rfl, .inl (by rw [hb]; simp), .inl (Nat.le_refl _)⟩

theorem State.keeps_markFreed (s : State) (h : Handle) (o : RecOutcome) (m : ChangeMask) :
    s.Keeps (s.markFreed h o m) := by
  have a : s.Keeps (s.setSlot h { s.slot h with keptOutcome := some o }) := s.keeps_setSlot h _ Iff.rfl id rfl fun _ _ => id
  exact a.trans (State.keeps_mark _ _ _)

/-- The withdrawals of a record leave its slot's group set. -/
theorem State.groupSet_withdrawn (s : State) (h : Handle) (r : Record) (hr : s.record? h = some r) :
    (((s.withdrawDirected h).withdrawRequest h).slot h).groupSet = r.groups := by
  obtain ⟨e, -, q, -⟩ := s.withdrawDirected_eq h r hr
  have hr' : (s.withdrawDirected h).record? h = some r := by rw [q]; exact hr
  obtain ⟨e', -, q', -⟩ := (s.withdrawDirected h).withdrawRequest_eq h r hr'
  rw [q']
  exact (State.groupSet_of_record (State.record?_setRecord_self ..)).trans rfl

theorem State.keeps_freeMarked (s : State) (h : Handle) (m : ChangeMask) : s.Keeps (s.freeMarked h m) := by
  unfold State.freeMarked
  split
  · exact .refl s
  · next r hr =>
    exact (((s.keeps_withdrawDirected h).trans (State.keeps_withdrawRequest _ _)).trans
      (State.keeps_emptySlot _ _ _ (s.groupSet_withdrawn h r hr))).trans (State.keeps_markFreed _ _ _ _)

theorem State.keeps_freeByHost (s : State) (h : Handle) : s.Keeps (s.freeByHost h) := by
  unfold State.freeByHost
  split
  · exact .refl s
  · next r hr =>
    have a := ((s.keeps_withdrawDirected h).trans (State.keeps_withdrawRequest _ h)).trans
      (State.keeps_emptySlot _ h r (s.groupSet_withdrawn h r hr))
    dsimp only
    split
    · exact a
    · exact a.trans (State.keeps_markFreed _ _ _ _)

theorem State.keeps_setOutcome (s : State) (h : Handle) (o : RecOutcome) : s.Keeps (s.setOutcome h o) :=
  s.keeps_modRecord h _ fun _ => id

theorem State.keeps_endRecord (s : State) (h : Handle) (o : RecOutcome) : s.Keeps (s.endRecord h o) := by
  unfold State.endRecord
  split
  · exact .refl s
  · split
    · exact s.keeps_returnToReserved h o
    · exact ((s.keeps_setOutcome h o).trans (State.keeps_quarantine _ _ _ _)).trans (State.keeps_freeMarked _ _ _)

theorem State.keeps_lapseRecord (s : State) (h : Handle) : s.Keeps (s.lapseRecord h) := by
  unfold State.lapseRecord
  split
  · exact .refl s
  · next r hr =>
    have tail : ∀ s1 : State, s.Keeps s1 → s.Keeps
        (if r.pinned then s1.returnToReserved h .lapsed
        else ((((s1.quarantine r.line r.station (some (s1.refOf h))).withdrawRequest h).modRecord h fun r =>
          { r with state := .lapsed, leaseRemaining := 0, outcome := .lapsed }).mark h
            (ChangeMask.state ||| ChangeMask.outcome))) := by
      intro s1 h1
      split
      · exact h1.trans (s1.keeps_returnToReserved h _)
      · exact (((h1.trans (s1.keeps_quarantine _ _ _)).trans (State.keeps_withdrawRequest _ _)).trans
          (State.keeps_modRecord _ _ _ fun _ _ => Nat.zero_le _)).trans (State.keeps_mark _ _ _)
    dsimp only
    apply tail
    split
    · exact s.keeps_abandonMove _ _ _
    · exact .refl s

theorem State.keeps_expireEntry (s : State) (l : Line) (q : QuarEntry) : s.Keeps (s.expireEntry l q) := by
  unfold State.expireEntry
  dsimp only
  split
  · exact s.keeps_setMap _ _ _
  · split
    · exact (s.keeps_setMap _ _ _).trans (State.keeps_freeMarked _ _ _)
    · exact s.keeps_setMap _ _ _

/-- The way a placement takes is FREE (R5). -/
theorem State.freeWay_free {s : State} {id : Identity} {h : Handle} (hw : s.freeWay? id = some h) :
    (s.slot h).content = none := by
  unfold State.freeWay? at hw
  split at hw
  · next k hk =>
    cases hw
    have := List.find?_some hk
    simp only [Bool.and_eq_true, Option.isNone_iff_eq_none] at this
    exact this.1
  · have := List.find?_some hw
    simpa using this

theorem State.keeps_placeRecord (s : State) (h : Handle) (r : Record) (hl : r.leaseRemaining ≤ r.leaseLength)
    (hf : (s.slot h).content = none) (hg : r.groups = 0) (hc : r.missCount = 0) : s.Keeps (s.placeRecord h r) := by
  refine s.keeps_setSlot h _ ?_ (fun _ q hq => by cases hq; exact hl) (by
    show r.groups = _
    unfold Slot.groupSet; rw [hf, hg]) fun _ _ _ q hq => by cases hq; rw [hc]; exact Nat.zero_le _
  dsimp only
  split
  · next h => simp [h]
  · next h => simp only [h, iff_false]; decide

theorem State.keeps_takeCaps (s : State) (l : Line) (h : Handle) (es : List CapEntry) : s.Keeps (s.takeCaps l h es) := by
  unfold State.takeCaps
  split
  · exact .refl s
  · next r hr =>
    have a := (s.keeps_countIntake l (intake es)).trans
      (State.keeps_setRecord_of _ h r { r with caps := (intake es).kept } (by exact hr) rfl (.inl (Nat.le_refl _)))
    dsimp only
    split
    · exact a
    · exact a.trans (State.keeps_mark _ _ _)

/-- A visit to slots by an operation that keeps the laws keeps them. -/
theorem State.keeps_visit (f : State → Handle → State) (hf : ∀ (s : State) (h : Handle), s.Keeps (f s h)) :
    ∀ (hs : List Handle) (s : State), s.Keeps (hs.foldl f s)
  | [], s => .refl s
  | h :: hs, s => (hf s h).trans (State.keeps_visit f hf hs (f s h))

end Sys2Proof.Machine
end

