-- ==== Sys2Proof/Laws/Commands.lean ====
section
/-! SUPPORT. The directory work of each claim keeps the laws: the host commands, the claims of polls, joins, requests and
outcomes, the claims of a line and the tick. -/

namespace Sys2Proof.Machine

/-! ### Host commands that name a record -/

theorem State.keeps_withReference (s : State) (r : RefOperand) (act : Handle → Record → State × Reply)
    (h : ∀ (k : Handle) (q : Record), s.record? k = some q → s.Keeps (act k q).1) :
    s.Keeps (s.withReference r act).1 := by
  unfold State.withReference
  split
  · exact .refl s
  · split
    · exact .refl s
    · split
      · exact .refl s
      · split
        · exact .refl s
        · next hr => exact h _ _ hr
  · split
    · exact s.keeps_staleRef
    · next hc => exact h _ _ (State.record?_of_current? hc)

theorem State.keeps_reserveAt (s : State) (id : Identity) (l : Line) (h : Handle) (st : Station) (n : Nat)
    (hf : (s.slot h).content = none) : s.Keeps (s.reserveAt id l h st n).1 :=
  (s.keeps_placeRecord h _ (Nat.le_refl _) hf rfl rfl).trans (State.keeps_setMap _ _ _ _)

theorem State.keeps_reserve (s : State) (id : Identity) (line st : Byte) (n : Nat) :
    s.Keeps (s.reserve id line st n).1 := by
  have on : ∀ (l : Line) (x : Option Station), s.Keeps (s.reserveOn id l x n).1 := by
    intro l x
    unfold State.reserveOn
    split
    · exact .refl s
    · split
      · exact s.keeps_setFull
      · next hw =>
        split
        · split
          · exact s.keeps_reserveAt _ _ _ _ _ (State.freeWay_free hw)
          · exact .refl s
        · split
          · exact s.keeps_reserveAt _ _ _ _ _ (State.freeWay_free hw)
          · exact .refl s
  unfold State.reserve
  split
  · exact .refl s
  · split
    · exact .refl s
    · split
      · exact on _ _
      · split
        · exact .refl s
        · exact on _ _

theorem State.keeps_pinCommand (s : State) (r : RefOperand) : s.Keeps (s.pinCommand r).1 := by
  refine s.keeps_withReference r _ fun k q hq => ?_
  split
  · exact s.keeps_setRecord_of k q _ hq rfl (.inl (Nat.le_refl _))
  · exact s.keeps_setRecord_of k q _ hq rfl (.inl (Nat.le_refl _))
  · exact .refl s

theorem State.keeps_unpinCommand (s : State) (r : RefOperand) : s.Keeps (s.unpinCommand r).1 := by
  refine s.keeps_withReference r _ fun k q hq => ?_
  split
  · exact .refl s
  · split
    · dsimp only
      split
      · exact (s.keeps_quarantine _ _ _).trans (State.keeps_freeByHost _ _)
      · exact (s.keeps_setMap _ _ _).trans (State.keeps_freeByHost _ _)
    · exact s.keeps_setRecord_of k q _ hq rfl (.inl (Nat.le_refl _))

theorem State.keeps_placeRelease (s : State) (h : Handle) (l : Line) (d : Dest) : s.Keeps (s.placeRelease h l d) := by
  refine .trans ?_ (State.keeps_place _ _ _)
  exact s.keeps_modRecord h _ fun _ => id

theorem State.keeps_retireTaken (s : State) (h : Handle) (r : Record) : s.Keeps (s.retireTaken h r).1 := by
  unfold State.retireTaken
  split
  · exact s.keeps_endRecord _ _
  · exact (s.keeps_abandonMove _ _ _).trans (State.keeps_placeRelease _ _ _ _)
  · exact s.keeps_placeRelease _ _ _

theorem State.keeps_retireCommand (s : State) (r : RefOperand) (o : Byte) : s.Keeps (s.retireCommand r o).1 := by
  unfold State.retireCommand
  split
  · exact .refl s
  · refine s.keeps_withReference r _ fun k q hq => ?_
    split
    · exact .refl s
    · exact .refl s
    · exact .refl s
    · split
      · exact .refl s
      · split
        · exact .refl s
        · dsimp only
          refine (s.keeps_setRecord_of k q _ hq ?_ (.inl ?_) ?_ ?_).trans (State.keeps_retireTaken _ _ _) <;> split <;>
            first | exact rfl | exact Nat.le_refl _

theorem State.keeps_reassignCommand (s : State) (r : RefOperand) (b : Byte) : s.Keeps (s.reassignCommand r b).1 := by
  unfold State.reassignCommand
  split
  · exact .refl s
  · refine s.keeps_withReference r _ fun k q hq => ?_
    have taken : ∀ t : Station, s.Keeps (s.reassignTaken k q t) := by
      intro t
      refine .trans ?_ (State.keeps_place _ _ _)
      refine .trans ?_ (State.keeps_setMap _ _ _ _)
      exact s.keeps_setRecord_of k q _ hq rfl (.inl (Nat.le_refl _))
    repeat' split
    all_goals first | exact .refl s | exact taken _

theorem State.keeps_purgeCommand (s : State) (r : RefOperand) : s.Keeps (s.purgeCommand r).1 := by
  refine s.keeps_withReference r _ fun k q hq => ?_
  split
  · exact (s.keeps_dropQuarRef _ _).trans (State.keeps_freeByHost _ _)
  · exact .refl s

theorem State.keeps_lookupCommand (s : State) (x : LookupOperand) : s.Keeps (s.lookupCommand x).1 := by
  unfold State.lookupCommand
  split
  · exact s.keeps_withReference _ _ fun _ _ _ => .refl s
  · repeat' split
    all_goals exact .refl s

theorem State.keeps_findCommand (s : State) (c l st : Byte) : s.Keeps (s.findCommand c l st).1 := by
  unfold State.findCommand
  repeat' split
  all_goals exact .refl s

theorem State.keeps_setLeaseCommand (s : State) (r : RefOperand) (n : Nat) (o : Byte) :
    s.Keeps (s.setLeaseCommand r n o).1 := by
  unfold State.setLeaseCommand
  split
  · exact .refl s
  · refine s.keeps_withReference r _ fun k q hq => s.keeps_setRecord k _ (fun _ => ?_)
      (.trans rfl (State.groupSet_of_record hq).symm) fun _ _ hm => hm q hq
    unfold Record.setLease
    dsimp only
    repeat' split
    all_goals omega

theorem State.keeps_setGroupsCommand (s : State) (r : RefOperand) (v : BitVec 16) :
    s.Keeps (s.setGroupsCommand r v).1 := by
  refine s.keeps_withReference r _ fun k q hq => ?_
  split
  · exact .refl s
  · next hn =>
    refine s.keeps_slotAndGroups k _ _ Iff.rfl (fun ho x hx => by cases hx; exact ho q hq)
      (fun _ hm x hx => by cases hx; exact hm q hq) fun g => ?_
    have e : (changeMembers (s.setRecord k { q with groups := v }).dir.groups q.groups v).get g
        = if v.getLsbD g.val && !q.groups.getLsbD g.val then
            { s.dir.groups.get g with count := (s.dir.groups.get g).count + 1 }
          else if q.groups.getLsbD g.val && !v.getLsbD g.val then
            { s.dir.groups.get g with count := (s.dir.groups.get g).count - 1 }
          else s.dir.groups.get g := by
      simp [changeMembers, Vector.get]
      rfl
    have hx : Slot.groupSet { s.slot k with content := some { q with groups := v } } = v := rfl
    have ha : v.getLsbD g.val = true → q.groups.getLsbD g.val = false →
        (s.dir.groups.get g).refusesAddition = false := by
      intro h1 h2
      rw [groupsRefuse, Bool.not_eq_true, List.any_eq_false] at hn
      have := hn g (List.mem_finRange g)
      rw [h1, h2] at this
      simpa using this
    rw [e, hx, State.groupSet_of_record hq]
    unfold GroupEntry.refusesAddition at ha
    revert ha
    cases v.getLsbD g.val <;> cases q.groups.getLsbD g.val <;> intro ha <;> simp at ha ⊢
    omega

theorem State.keeps_setGroupLimitCommand (s : State) (g n : Byte) : s.Keeps (s.setGroupLimitCommand g n).1 := by
  unfold State.setGroupLimitCommand
  split
  · next hb =>
    dsimp only
    split
    · exact .refl s
    · next hn =>
      refine s.keeps_groups _ fun hlaw k => ?_
      obtain ⟨a, b⟩ := hlaw k
      dsimp only
      rw [get_vectorSet _ ⟨g.toNat, hb⟩]
      split
      · next e =>
        subst e
        refine ⟨a, fun hl => ?_⟩
        dsimp only at hl ⊢
        have : n ≠ 0 := fun h0 => hl (by rw [h0]; rfl)
        exact Nat.le_of_not_lt fun h => hn ⟨this, h⟩
      · exact ⟨a, b⟩
  · exact .refl s

theorem State.keeps_setTagCommand (s : State) (r : RefOperand) (bs : List Byte) : s.Keeps (s.setTagCommand r bs).1 := by
  unfold State.setTagCommand
  split
  · exact .refl s
  · exact s.keeps_withReference r _ fun k q hq => s.keeps_setRecord_of k q _ hq rfl (.inl (Nat.le_refl _))

theorem State.keeps_nextChangeCommand (s : State) : s.Keeps s.nextChangeCommand.1 := by
  unfold State.nextChangeCommand
  split <;> exact .refl s

/-- The removal of a notice keeps the change set and the masks together (R185, R188). -/
theorem State.keeps_acknowledge (s : State) (h : Handle) : s.Keeps (s.acknowledge h) := by
  refine ⟨rfl, rfl, rfl, rfl, rfl, rfl, rfl, fun _ => rfl, fun _ => .refl _, ?_, ?_, ?_, id,
    fun n _ => s.missesWithin_setSlot h { s.slot h with mask := 0 } n id⟩
  · rintro ⟨⟨h1, h2⟩, -⟩
    refine ⟨⟨h1.erase h, fun k => ?_⟩, rfl⟩
    show k ∈ s.dir.changeSet.erase h ↔ ((s.setSlot h { s.slot h with mask := 0 }).slot k).mask ≠ 0
    rw [h1.mem_erase_iff, State.slot_setSlot]
    split
    · next hk => simp [hk]
    · next hk => simp only [ne_eq, hk, not_false_eq_true, true_and]; exact h2 k
  · intro hlaw k r hr
    have : (s.acknowledge h).slot k = (s.setSlot h { s.slot h with mask := 0 }).slot k := rfl
    rw [State.record?, this, State.slot_setSlot] at hr
    split at hr
    · next hk => exact hlaw h r hr
    · exact hlaw k r hr
  · intro hlaw g
    have := s.members_setSlot h { s.slot h with mask := 0 } g
    have hm : (s.setSlot h { s.slot h with mask := 0 }).members g = s.members g := by
      have e : Slot.groupSet { s.slot h with mask := 0 } = (s.slot h).groupSet := rfl
      rw [e] at this; omega
    exact ⟨(hlaw g).1.trans hm.symm, (hlaw g).2⟩

theorem State.keeps_ackChangeCommand (s : State) (h : Handle) (g : Gen) : s.Keeps (s.ackChangeCommand h g).1 := by
  unfold State.ackChangeCommand
  split
  · exact s.keeps_acknowledge h
  · exact s.keeps_staleRef

/-! ### Polls (R98) -/

theorem State.keeps_applyPresence (s : State) (h : Handle) (r : Record) (hr : s.record? h = some r) :
    s.Keeps (s.applyPresence h r) := by
  unfold State.applyPresence
  split
  · refine .trans ?_ (State.keeps_mark _ _ _)
    exact s.keeps_setRecord_of h r _ hr rfl (.inl (Nat.le_refl _))
  · exact s.keeps_setRecord_of h r _ hr rfl (.inl (Nat.le_refl _))

theorem State.polledRecord?_current {s : State} {l : Line} {st : Station} {ref : Ref} {r : Record}
    (h : s.polledRecord? l st ref = some r) : s.current? ref = some r := by
  unfold State.polledRecord? at h
  split at h
  · next q hq =>
    split at h
    · rw [hq, ← h]
    · cases h
  · cases h

theorem State.keeps_presence (s : State) (l : Line) (st : Station) (ref : Ref) : s.Keeps (s.presence l st ref) := by
  unfold State.presence
  split
  · next hp =>
    split
    · exact s.keeps_applyPresence _ _ (State.record?_of_current? (State.polledRecord?_current hp))
    · exact .refl s
  · exact .refl s

theorem State.missed_le (s : State) (r : Record) {n : Nat} (hb : s.arb.grantCfg.missLimit ≤ n) (hr : r.missCount ≤ n) :
    s.missed r ≤ n := by
  unfold State.missed satInc
  split <;> omega

/-- A miss within a claim keeps the miss counts within the limit (R26). -/
theorem State.keeps_miss (s : State) (hb : s.arb.engine.isSome = true) (l : Line) (st : Station) (ref : Ref) :
    s.Keeps (s.miss l st ref) := by
  unfold State.miss
  split
  · next r hp =>
    have hr := State.record?_of_current? (State.polledRecord?_current hp)
    split
    · unfold State.applyMiss
      split
      · refine .trans ?_ (State.keeps_mark _ _ _)
        exact s.keeps_setRecord _ _ (fun ho => ho r hr) (State.groupSet_of_record hr).symm
          fun n h hm => s.missed_le r (h hb) (hm r hr)
      · exact s.keeps_setRecord _ _ (fun ho => ho r hr) (State.groupSet_of_record hr).symm
          fun n h hm => s.missed_le r (h hb) (hm r hr)
    · exact .refl s
  · exact .refl s

/-! ### Joins (R108 to R118) -/

theorem State.keeps_refuseJoin (s : State) (l : Line) (id : Identity) (x : RefusalReason) :
    s.Keeps (s.refuseJoin l id x) := by
  have a := (s.keeps_fill l .call (Order.fresh none (.identity id) (.refuse x s.arb.grantCfg.backoff)
    s.arb.grantCfg.retryLimit false)).trans (State.keeps_bump _ l x.ctr)
  unfold State.refuseJoin
  dsimp only
  cases x
  case full => exact a.trans ((State.keeps_setFull _).trans (State.keeps_raiseAlarm _ _))
  case noStation => exact a.trans (State.keeps_raiseAlarm _ _)
  all_goals exact a

theorem State.keeps_placeAssign (s : State) (l : Line) (h : Handle) (k : JoinKind) :
    s.Keeps (s.placeAssign l h k) := by
  unfold State.placeAssign
  split
  · exact s.keeps_fill _ _ _
  · exact .refl s

theorem State.keeps_joinNew (s : State) (l : Line) (id : Identity) (caps : List CapEntry) :
    s.Keeps (s.joinNew l id caps) := by
  unfold State.joinNew
  split
  · exact s.keeps_refuseJoin _ _ _
  · next hw =>
    split
    · exact s.keeps_refuseJoin _ _ _
    · refine .trans ?_ (State.keeps_placeAssign _ _ _ _)
      refine .trans ?_ (State.keeps_setMap _ _ _ _)
      refine .trans ?_ (State.keeps_placeRecord _ _ _ (Nat.le_refl _) (State.freeWay_free hw) rfl rfl)
      exact s.keeps_countIntake _ _

theorem State.keeps_rejoin (s : State) (l : Line) (h : Handle) (caps : List CapEntry) (k : JoinKind) :
    s.Keeps (s.rejoin l h caps k) := by
  refine .trans ?_ (State.keeps_placeAssign _ _ _ _)
  refine .trans ?_ (State.keeps_takeCaps _ _ _ _)
  refine .trans ?_ (State.keeps_modRecord _ _ _ fun _ => id)
  exact s.keeps_withdrawRequest h

theorem State.keeps_migrate (s : State) (l : Line) (h : Handle) (r : Record) (caps : List CapEntry) :
    s.Keeps (s.migrate l h r caps) := by
  unfold State.migrate
  split
  · exact s.keeps_refuseJoin _ _ _
  · have a : s.Keeps (s.leaveOldLine h r) := by
      unfold State.leaveOldLine
      split
      · exact s.keeps_dropQuarRef _ _
      · exact (s.keeps_withdrawRequest h).trans (State.keeps_quarantine _ _ _ _)
    refine .trans ?_ (State.keeps_placeAssign _ _ _ _)
    refine .trans ?_ (State.keeps_takeCaps _ _ _ _)
    refine .trans ?_ (State.keeps_setMap _ _ _ _)
    refine .trans ?_ (State.keeps_modRecord _ _ _ fun _ => id)
    exact a

theorem State.keeps_joinAgain (s : State) (l : Line) (h : Handle) (r : Record) (caps : List CapEntry) :
    s.Keeps (s.joinAgain l h r caps) := by
  have a : s.Keeps (s.modLine l fun e =>
      { e with orders := e.orders.map fun o => if o.isLive .assign (s.refOf h) then o.refreshed r else o }) :=
    s.keeps_modLine l _ (fun e => .of_eq (by simp) (Nat.le_refl _) rfl rfl rfl rfl rfl) fun _ => rfl
  exact (a.trans (State.keeps_takeCaps _ _ _ _)).trans (State.keeps_release _ _ _)

theorem State.keeps_joinFound (s : State) (l : Line) (h : Handle) (r : Record) (caps : List CapEntry) :
    s.Keeps (s.joinFound l h r caps) := by
  unfold State.joinFound
  split
  · split
    · exact s.keeps_rejoin _ _ _ _
    · exact s.keeps_rejoin _ _ _ _
    · exact s.keeps_rejoin _ _ _ _
    · exact ((s.keeps_takeQuarEntry _ _).trans (State.keeps_setMap _ _ _ _)).trans (State.keeps_rejoin _ _ _ _ _)
    · exact (s.keeps_abandonMove _ _ _).trans (State.keeps_rejoin _ _ _ _ _)
    · exact s.keeps_joinAgain _ _ _ _
    · exact s.keeps_refuseJoin _ _ _
  · split
    · exact s.keeps_migrate _ _ _ _
    · exact s.keeps_migrate _ _ _ _
    all_goals exact s.keeps_refuseJoin _ _ _

theorem State.keeps_joinClaim (s : State) (l : Line) (id : Identity) (caps : List CapEntry) (p : CallPolicy) :
    s.Keeps (s.joinClaim l id caps p) := by
  unfold State.joinClaim
  dsimp only
  split
  · exact s.keeps_refuseJoin _ _ _
  · split
    · exact s.keeps_joinFound _ _ _ _
    · exact s.keeps_joinNew _ _ _

/-! ### Requests (R123 to R131) -/

theorem State.keeps_discardRequest (s : State) (l : Line) (ref : Ref) : s.Keeps (s.discardRequest l ref) :=
  (s.keeps_release _ _).trans (State.keeps_bump _ _ _)

theorem State.keeps_answer (s : State) (l : Line) (st : Station) (ref : Ref) (code : Byte) (content : List Byte) :
    s.Keeps (s.answer l st ref code content) := by
  refine .trans ?_ (State.keeps_fill _ _ _ _)
  exact s.keeps_modRecord _ _ fun _ => id

/-- A request claim passes its tests exactly when the record still stands where it was polled, takes requests, and the
claim's reservation stands (R123, R135). -/
theorem State.requester?_eq_some {s : State} {l : Line} {st : Station} {ref : Ref} {r : Record} :
    s.requester? l st ref = some r ↔
      (s.current? ref = some r ∧ r.line = l ∧ r.station = st ∧ s.mapAt l st = .held ref.handle)
        ∧ r.state.takesRequests = true ∧ .poll ref ∈ (s.line l).reservations := by
  unfold State.requester? State.polledRecord?
  cases hc : s.current? ref with
  | none => simp
  | some q => by_cases hq : q.line = l ∧ q.station = st ∧ s.mapAt l st = .held ref.handle <;> simp [hq] <;> grind

theorem State.requester?_record {s : State} {l : Line} {st : Station} {ref : Ref} {r : Record}
    (h : s.requester? l st ref = some r) : s.record? ref.handle = some r :=
  State.record?_of_current? (State.requester?_eq_some.mp h).1.1

theorem State.keeps_requestClaim (s : State) (l : Line) (st : Station) (ref : Ref) (code : Byte)
    (handle : State → Record → State × List Byte)
    (hk : ∀ (t : State) (r q : Record), t.record? ref.handle = some q → q.leaseLength = r.leaseLength →
      t.Keeps (handle t r).1) : s.Keeps (s.requestClaim l st ref code handle) := by
  unfold State.requestClaim
  split
  · exact s.keeps_discardRequest _ _
  · next r hr =>
    have hrec : (s.bump l .requestsTaken).record? ref.handle = some r := State.requester?_record (s := s) hr
    have a : s.Keeps ((s.bump l .requestsTaken).requestPresence ref.handle r)
        ∧ ∃ q, ((s.bump l .requestsTaken).requestPresence ref.handle r).record? ref.handle = some q
          ∧ q.leaseLength = r.leaseLength := by
      unfold State.requestPresence
      split
      · refine ⟨(s.keeps_bump _ _).trans (State.keeps_applyPresence _ _ _ hrec), ?_⟩
        unfold State.applyPresence
        split
        · refine ⟨_, (State.record?_mark _ _ _ _).trans (State.record?_setRecord_self ..), ?_⟩; rfl
        · refine ⟨_, State.record?_setRecord_self .., ?_⟩; rfl
      · exact ⟨s.keeps_bump _ _, r, hrec, rfl⟩
    obtain ⟨k, q, hq, hl⟩ := a
    exact (k.trans (hk _ r q hq hl)).trans (State.keeps_answer _ _ _ _ _ _)

theorem State.keeps_renewRequest (t : State) (ref : Ref) (n : Nat) (r q : Record) (hq : t.record? ref.handle = some q)
    (hl : q.leaseLength = r.leaseLength) : t.Keeps (State.renewRequest ref n t r).1 := by
  unfold State.renewRequest
  dsimp only
  split
  · exact .refl t
  · rw [State.modRecord_eq _ _ _ q hq]
    refine t.keeps_setRecord _ _ (fun _ => ?_) (State.groupSet_of_record hq).symm fun _ _ hm => hm q hq
    show r.granted n ≤ q.leaseLength
    rw [hl]
    unfold Record.granted
    repeat' split
    all_goals omega

theorem State.keeps_leaveClaim (s : State) (l : Line) (st : Station) (ref : Ref) : s.Keeps (s.leaveClaim l st ref) := by
  unfold State.leaveClaim
  split
  · exact s.keeps_discardRequest _ _
  · next r hr =>
    have a : ∀ t : State, t.Keeps (t.leaveRecord l ref.handle r) := by
      intro t
      unfold State.leaveRecord
      split
      · exact t.keeps_endRecord _ _
      · exact (t.keeps_abandonMove _ _ _).trans (State.keeps_endRecord _ _ _)
      · exact t.keeps_endRecord _ _
    exact ((s.keeps_bump _ _).trans (a _)).trans (State.keeps_fill _ _ _ _)

/-! ### Outcomes (R100, R119 to R121, R133, R140 to R142, R149) -/

theorem State.keeps_outcomeClaim (s : State) (l : Line) (k : OrderKind) (ref : Ref)
    (conclude : State → Order → Record → State)
    (hk : ∀ (t : State) (o : Order) (r : Record), t.arb = s.arb → t.current? ref = some r → t.Keeps (conclude t o r)) :
    s.Keeps (s.outcomeClaim l k ref conclude) := by
  unfold State.outcomeClaim
  split
  · exact .refl s
  · dsimp only
    split
    · next hc => exact (s.keeps_removeConcluded _ _ _).trans (hk _ _ _ rfl hc)
    · exact s.keeps_removeConcluded _ _ _

theorem State.keeps_joinConfirmed (s : State) (h : Handle) (k : JoinKind) (r : Record) (hr : s.record? h = some r) :
    s.Keeps (s.joinConfirmed h k r) :=
  (s.keeps_setRecord h _ (fun _ => Nat.le_refl _) (by exact (State.groupSet_of_record hr).symm)
    fun _ _ _ => Nat.zero_le _).trans (State.keeps_mark _ _ _)

theorem State.keeps_joinDeclined (s : State) (h : Handle) (r : Record) : s.Keeps (s.joinDeclined h r) := by
  unfold State.joinDeclined
  split
  · exact s.keeps_returnToReserved _ _
  · exact ((s.keeps_setOutcome _ _).trans (State.keeps_setMap _ _ _ _)).trans (State.keeps_freeMarked _ _ _)

theorem State.keeps_moveDone (s : State) (h : Handle) (r : Record) (t : Station) (hr : s.record? h = some r) :
    s.Keeps (s.moveDone h r t) := by
  refine .trans ?_ (State.keeps_mark _ _ _)
  refine .trans ?_ (State.keeps_setRecord_of _ h r _ hr rfl (.inl (Nat.le_refl _)))
  exact (s.keeps_quarantine _ _ _).trans (State.keeps_setMap _ _ _ _)

theorem State.keeps_moveBack (s : State) (h : Handle) (r : Record) (t : Station) (o : RecOutcome)
    (hr : s.record? h = some r) : s.Keeps (s.moveBack h r t o) := by
  refine .trans ?_ (State.keeps_mark _ _ _)
  refine .trans ?_ (State.keeps_setRecord_of _ h r _ hr rfl (.inl (Nat.le_refl _)))
  exact s.keeps_setMap _ _ _

theorem State.keeps_moveUncertain (s : State) (hb : s.arb.engine.isSome = true) (h : Handle) (r : Record) (t : Station)
    (hr : s.record? h = some r) : s.Keeps (s.moveUncertain h r t) := by
  refine .trans ?_ (State.keeps_mark _ _ _)
  refine .trans (s.keeps_quarantine r.line t none) (State.keeps_setRecord _ h _ (fun ho => ho r hr) ?_ fun _ k _ => k hb)
  exact (State.groupSet_of_record (s := s.quarantine r.line t none) hr).symm

theorem State.keeps_probeConclusion (s : State) (hb : s.arb.engine.isSome = true) (h : Handle) (r : Record) (t : Station) (a b : Bool)
    (hr : s.record? h = some r) : s.Keeps (s.probeConclusion h r t a b) := by
  unfold State.probeConclusion
  split
  · exact s.keeps_moveDone _ _ _ hr
  · split
    · exact s.keeps_moveBack _ _ _ _ hr
    · exact s.keeps_moveUncertain hb _ _ _ hr

theorem State.keeps_moveClaim (s : State) (l : Line) (ref : Ref) (conclude : State → Record → Station → State)
    (hk : ∀ (t : State) (r : Record) (x : Station), t.arb = s.arb → t.record? ref.handle = some r →
      t.Keeps (conclude t r x)) :
    s.Keeps (s.moveClaim l ref conclude) := by
  refine s.keeps_outcomeClaim l _ ref _ fun t o r ha hc => ?_
  split
  · exact hk t r _ ha (State.record?_of_current? hc)
  · exact .refl t

theorem State.keeps_answerClaim (s : State) (l : Line) (ref : Ref) (x : OrderResult) :
    s.Keeps (s.answerClaim l ref x) := by
  unfold State.answerClaim
  split
  · exact .refl s
  · have a : s.Keeps (match (s.modLine l (LineEngine.removeConcluded .answer ref)).current? ref with
        | some r => (s.modLine l (LineEngine.removeConcluded .answer ref)).setRecord ref.handle
            { r with requestPending := false }
        | none => s.modLine l (LineEngine.removeConcluded .answer ref)) := by
      split
      · next r hc =>
        exact (s.keeps_removeConcluded _ _ _).trans (State.keeps_setRecord_of _ _ r _
          (State.record?_of_current? hc) rfl (.inl (Nat.le_refl _)))
      · exact s.keeps_removeConcluded _ _ _
    dsimp only
    split
    · exact a.trans (State.keeps_bump _ _ _)
    · exact a

/-! ### The claims of a line, and the tick (R52, R61, R84, R85) -/

theorem State.keeps_stopSlot (s : State) (l : Line) (h : Handle) : s.Keeps (State.stopSlot l s h) := by
  unfold State.stopSlot
  split
  · split
    · unfold State.stopRecord
      split
      · exact s.keeps_endRecord _ _
      · refine .trans ?_ (State.keeps_withdrawRequest _ _)
        refine .trans ?_ (State.keeps_mark _ _ _)
        refine .trans ?_ (State.keeps_modRecord _ _ _ fun _ => id)
        exact s.keeps_abandonMove _ _ _
      · exact s.keeps_endRecord _ _
      · split
        · exact s.keeps_withdrawRequest _
        · exact .refl s
    · exact .refl s
  · exact .refl s

theorem LineEngine.keeps_cleared (e : LineEngine) : e.Keeps e.cleared :=
  ⟨fun _ => Nat.zero_le _, id, fun _ => ⟨Nat.zero_le _, List.nodup_nil⟩, id⟩

theorem State.keeps_lineWork (s : State) (l : Line) : s.Keeps (s.lineWork l) :=
  .trans (State.keeps_visit (State.stopSlot l) (fun s h => s.keeps_stopSlot l h) allHandles s)
    (State.keeps_modLine _ l LineEngine.cleared LineEngine.keeps_cleared fun _ => rfl)

theorem State.keeps_flushSlot (s : State) (l : Line) (h : Handle) : s.Keeps (State.flushSlot l s h) := by
  unfold State.flushSlot
  split
  · split
    · exact s.keeps_lapseRecord _
    · exact .refl s
  · exact .refl s

theorem State.keeps_flushWork (s : State) (l : Line) : s.Keeps (s.flushWork l) :=
  .trans (State.keeps_visit (State.flushSlot l) (fun s h => s.keeps_flushSlot l h) allHandles s)
    (State.keeps_modLine _ l (fun e => { e with flushDue := false }) (fun _ => ⟨id, id, id, id⟩) fun _ => rfl)

theorem LineEngine.keeps_tryRunning (e : LineEngine) : e.Keeps e.tryRunning := by
  unfold LineEngine.tryRunning
  split
  · exact ⟨id, fun _ h => (by rcases h with h | h <;> cases h), id, id⟩
  · exact .refl e

theorem LineEngine.claim_tryRunning (e : LineEngine) : e.tryRunning.claim = e.claim := by
  unfold LineEngine.tryRunning; split <;> rfl

theorem State.keeps_tryRunning (s : State) (l : Line) : s.Keeps (s.modLine l LineEngine.tryRunning) :=
  s.keeps_modLine l _ LineEngine.keeps_tryRunning LineEngine.claim_tryRunning

theorem State.keeps_ageSlot (s : State) (h : Handle) : s.Keeps (s.ageSlot h) := by
  unfold State.ageSlot
  split
  · exact .refl s
  · next r hr =>
    split
    · have a : s.Keeps (s.setRecord h { r with leaseRemaining := r.leaseRemaining - 1 }) :=
        s.keeps_setRecord_of h r _ hr rfl (.inl (Nat.sub_le _ _))
      dsimp only
      split
      · exact a.trans (State.keeps_lapseRecord _ _)
      · exact a
    · exact .refl s

theorem State.keeps_leaseStage (s : State) : s.Keeps s.leaseStage :=
  State.keeps_visit _ (fun s h => s.keeps_ageSlot h) allHandles s

theorem State.keeps_expireEntries (l : Line) : ∀ (qs : List QuarEntry) (s : State),
    s.Keeps (qs.foldl (fun s q => s.expireEntry l q) s)
  | [], s => .refl s
  | q :: qs, s => (s.keeps_expireEntry l q).trans (State.keeps_expireEntries l qs _)

theorem State.keeps_quarStage (s : State) : s.Keeps s.quarStage := by
  have a : ∀ (t : State) (l : Line), t.Keeps (t.quarStageOf l) := fun t l =>
    (t.keeps_setQuar l _).trans (State.keeps_expireEntries l _ _)
  exact (a _ _).trans (a _ _)

end Sys2Proof.Machine
end

