-- ==== Sys2Proof/Laws/Lines.lean ====
section
/-! SUPPORT. Claims, grants and the transactions of a line keep the laws: one lemma for each operation of the line
engine. -/

namespace Sys2Proof.Machine

/-! ### Steps that may raise or complete claims -/

/-- A change of the state that leaves the queue of commands and keeps every law. -/
structure State.Safe (s t : State) : Prop where
  pending : t.pending = s.pending
  lines : ∀ l : Line, (s.line l).Keeps (t.line l)
  changes : s.ChangeSetLaw ∧ s.WaitingLaw → t.ChangeSetLaw ∧ t.WaitingLaw
  leases : s.LeaseLaw → t.LeaseLaw
  groups : s.GroupLaw → t.GroupLaw
  counts : s.dir.setFull ≤ 65535 ∧ s.dir.staleRef ≤ 65535 → t.dir.setFull ≤ 65535 ∧ t.dir.staleRef ≤ 65535
  config : s.ConfigLaw → t.ConfigLaw
  arbiter : s.ArbiterLaw → t.ArbiterLaw
  slots : s.SlotLaw → t.SlotLaw

theorem State.Safe.refl (s : State) : s.Safe s :=
  ⟨rfl, fun _ => .refl _, id, id, id, id, id, id, id⟩

theorem State.Safe.trans {s t u : State} (h : s.Safe t) (k : t.Safe u) : s.Safe u :=
  ⟨k.pending.trans h.pending, fun l => (h.lines l).trans (k.lines l), k.changes ∘ h.changes, k.leases ∘ h.leases,
    k.groups ∘ h.groups, k.counts ∘ h.counts, k.config ∘ h.config, k.arbiter ∘ h.arbiter, k.slots ∘ h.slots⟩

/-- Whether a claim is outstanding depends on the ACTIVE slot, the claims of the lines and the tick claim. -/
theorem State.outstanding_congr {s t : State} (hs : t.host.slots = s.host.slots)
    (hl : ∀ l : Line, (t.line l).claim = (s.line l).claim) (hc : t.clock = s.clock) :
    t.outstanding = s.outstanding := by
  funext r
  cases r with
  | host => simp only [State.outstanding, HostPort.activeSlot?_congr hs]
  | line l => simp only [State.outstanding, hl]
  | clock => simp only [State.outstanding, hc]

theorem State.SlotLaw.congr {s t : State} (hs : t.host.slots = s.host.slots)
    (ha : t.host.acceptance = s.host.acceptance) (h : s.SlotLaw) : t.SlotLaw := by
  unfold State.SlotLaw at *
  rw [hs, ha]; exact h

theorem State.ArbiterLaw.congr {s t : State} (ha : t.arb = s.arb) (ho : t.outstanding = s.outstanding)
    (h : s.ArbiterLaw) : t.ArbiterLaw := by
  unfold State.ArbiterLaw at *
  rw [ha, ho]; exact h

/-- Directory work keeps every law. -/
theorem State.Keeps.safe {s t : State} (h : s.Keeps t) : s.Safe t :=
  ⟨h.pending, h.lines, h.changes, h.leases, h.groups, h.counts,
    fun k => by unfold State.ConfigLaw at *; rw [h.cfg, h.arb]; exact k,
    .congr h.arb (State.outstanding_congr h.slots h.claims h.clock), .congr h.slots h.acceptance⟩

/-- A grant with the engine idle establishes the arbiter's law (R20). -/
theorem State.arbiterLaw_grant (s : State) (h : s.arb.engine = none) : s.grant.ArbiterLaw := by
  have ho : ∀ a : Arbiter, ({ s with arb := a } : State).outstanding = s.outstanding := fun _ =>
    State.outstanding_congr rfl (fun _ => rfl) rfl
  unfold State.grant
  rw [h]
  dsimp only
  split
  · next r hr =>
    unfold State.ArbiterLaw
    dsimp only
    rw [ho]
    exact ⟨List.find?_some hr, rfl⟩
  · next hn =>
    unfold State.ArbiterLaw
    rw [h]
    intro r
    have hm : r ∈ s.arb.rotation.cycleAfter := by
      cases s.arb.rotation with
      | host => cases r with
        | host => decide
        | clock => decide
        | line l => cases l <;> decide
      | clock => cases r with
        | host => decide
        | clock => decide
        | line l => cases l <;> decide
      | line k => cases k <;> cases r with
        | host => decide
        | clock => decide
        | line l => cases l <;> decide
    simpa using List.find?_eq_none.mp hn r hm

/-- A grant keeps every law. -/
theorem State.safe_grant (s : State) : s.Safe s.grant := by
  obtain ⟨a, ha⟩ := s.grant_eq
  refine ⟨by simp, fun l => by rw [State.line_grant]; exact .refl _, ?_, ?_, ?_, by simp, ?_, ?_, ?_⟩
  · rw [ha]; exact id
  · rw [ha]; exact id
  · rw [ha]; exact id
  · intro h
    unfold State.grant
    split
    · exact h
    · split
      · exact ⟨h.1, h.1⟩
      · exact h
  · intro h
    cases he : s.arb.engine with
    | none => exact s.arbiterLaw_grant he
    | some r =>
      have : s.grant = s := by unfold State.grant; rw [he]
      rw [this]; exact h
  · rw [ha]; exact id

/-- A change of one line engine that keeps its laws and loses no claim, with a grant after it, keeps every law. -/
theorem State.safe_setLine_grant (s : State) (l : Line) (e : LineEngine) (h : (s.line l).Keeps e)
    (hc : (s.line l).claim.isSome = true → e.claim.isSome = true) : s.Safe (s.setLine l e).grant := by
  have g := (s.setLine l e).safe_grant
  have hline : ∀ k : Line, (s.line k).Keeps ((s.setLine l e).line k) := by
    intro k
    rw [State.line_setLine]
    split
    · next hk => subst hk; exact h
    · exact .refl _
  refine ⟨g.pending, fun k => (hline k).trans (g.lines k), g.changes, g.leases, g.groups, g.counts, g.config, fun hl => ?_,
    g.slots⟩
  cases he : s.arb.engine with
  | none => exact State.arbiterLaw_grant _ he
  | some r =>
    have hg : (s.setLine l e).grant = s.setLine l e := by
      unfold State.grant; rw [State.arb_setLine, he]
    rw [hg]
    unfold State.ArbiterLaw at *
    rw [State.arb_setLine]
    rw [he] at hl ⊢
    refine ⟨?_, hl.2⟩
    have ho := hl.1
    cases r with
    | host => exact ho
    | clock => exact ho
    | line k =>
      simp only [State.outstanding, State.line_setLine] at ho ⊢
      split
      · next hk => subst hk; exact hc ho
      · exact ho

theorem State.safe_raiseOwed (s : State) (l : Line) : s.Safe (s.raiseOwed l) := by
  refine s.safe_setLine_grant l _ ?_ ?_
  · obtain ⟨c, w, h⟩ := (s.line l).raiseOwed_eq
    rw [h]; exact LineEngine.keeps_claims _ _ _
  · intro hs
    unfold LineEngine.raiseOwed
    split
    · exact hs
    · next hn => rw [hn] at hs; cases hs

theorem State.safe_handOver (s : State) (l : Line) (c : LineClaim) : s.Safe (s.handOver l c) := by
  refine s.safe_setLine_grant l _ ?_ ?_
  · dsimp only
    split <;> exact .of_eq (Nat.le_refl _) (Nat.le_refl _) rfl rfl rfl rfl rfl
  · intro hs
    dsimp only
    split
    · rfl
    · exact hs

/-- The end of a claim of a line: every law is kept, and the arbiter's law holds whatever stood before. -/
theorem State.safe_endClaim (s : State) (l : Line) : s.Safe (s.endClaim l) := by
  obtain ⟨c, w, a, h⟩ := s.endClaim_eq l
  refine ⟨by rw [h]; rfl, fun k => ?_, ?_, ?_, ?_, by rw [h]; exact id, ?_, fun _ => ?_, ?_⟩
  · by_cases hk : k = l
    · subst hk
      obtain ⟨c', w', h'⟩ := LineEngine.raiseOwed_eq { s.line k with claim := none }
      rw [State.line_endClaim_self, h']; exact LineEngine.keeps_claims _ _ _
    · rw [eq_otherLine_of_ne hk, State.line_endClaim_other]; exact .refl _
  · rw [h]; exact id
  · rw [h]; exact id
  · rw [h]; exact id
  · intro hc
    exact ((s.engineIdle.modLine l fun e => { e with claim := none }).safe_raiseOwed l).config hc
  · exact State.arbiterLaw_grant _ rfl
  · rw [h]; exact id

/-! ### The transactions of one line engine -/

/-- A line engine whose state is neither OFF nor FAULT. -/
def LineEngine.Active (e : LineEngine) : Prop := ¬ (e.state = .off ∨ e.state = .fault)

theorem LineEngine.active_of_tx {e : LineEngine} {t : Tx} (h : e.tx = some t) : e.QuietOk → e.Active := by
  intro hq hs
  have := (hq hs).1
  rw [h] at this; cases this

theorem LineEngine.active_of_state {e : LineEngine} (h : e.state = .running ∨ e.state = .starting) :
    e.QuietOk → e.Active := by
  intro _ hs
  rcases h with h | h <;> rcases hs with k | k <;> rw [h] at k <;> cases k

/-- A change of an active line engine that keeps its state, does not make its queue grow, and keeps its exclusion list
and its counters. -/
theorem LineEngine.Keeps.of_active {e d : LineEngine} (ha : e.QuietOk → e.Active)
    (ho : d.orders.length ≤ e.orders.length) (hr : d.reservations.length ≤ e.reservations.length)
    (hs : d.state = e.state) (hx : d.exclusions = e.exclusions) (hc : d.counters = e.counters) : e.Keeps d := by
  refine ⟨fun h => ?_, fun h => ?_, fun h => ?_, fun h c => ?_⟩
  · unfold LineEngine.QueueOk at *; omega
  · intro hd
    rw [hs] at hd
    exact absurd hd (ha h)
  · unfold LineEngine.ExclusionsOk at *; rw [hx]; exact h
  · unfold LineEngine.counter; rw [hc]; exact h c

/-- A change of a line engine that leaves it without a transaction. -/
theorem LineEngine.Keeps.of_noTx {e d : LineEngine} (ho : d.orders.length ≤ e.orders.length)
    (hr : d.reservations.length ≤ e.reservations.length) (hs : d.state = e.state) (ht : d.tx = none)
    (hg : d.stage = e.stage) (hx : d.exclusions = e.exclusions) (hc : d.counters = e.counters) : e.Keeps d := by
  refine ⟨fun h => ?_, fun h hd => ?_, fun h => ?_, fun h c => ?_⟩
  · unfold LineEngine.QueueOk at *; omega
  · rw [hs] at hd
    exact ⟨ht, hg.trans (h hd).2⟩
  · unfold LineEngine.ExclusionsOk at *; rw [hx]; exact h
  · unfold LineEngine.counter; rw [hc]; exact h c

theorem LineEngine.keeps_endTx (e : LineEngine) : e.Keeps e.endTx :=
  .of_noTx (by simp [LineEngine.endTx, LineEngine.abandonTx]) (Nat.le_refl _) rfl rfl rfl rfl rfl

theorem LineEngine.keeps_modChosen (e : LineEngine) (f : Order → Order) : e.Keeps (e.modChosen f) :=
  .of_eq (by simp [LineEngine.modChosen]) (Nat.le_refl _) rfl rfl rfl rfl rfl

theorem LineEngine.keeps_removeChosen (e : LineEngine) : e.Keeps e.removeChosen :=
  .of_eq (List.length_filter_le ..) (Nat.le_refl _) rfl rfl rfl rfl rfl

theorem length_updateFirst {α : Type} (p : α → Bool) (f : α → α) (xs : List α) :
    (updateFirst p f xs).length = xs.length := by
  induction xs with
  | nil => rfl
  | cons x xs ih => unfold updateFirst; split <;> simp [ih]

theorem LineEngine.keeps_choose (e : LineEngine) : e.Keeps e.choose :=
  .of_eq (Nat.le_of_eq (length_updateFirst ..)) (Nat.le_refl _) rfl rfl rfl rfl rfl

theorem LineEngine.keeps_beginFrame (e : LineEngine) (n : Nat) : e.Keeps (e.beginFrame n) := by
  unfold LineEngine.beginFrame
  split
  · exact .refl e
  · next t ht =>
    have ha := LineEngine.active_of_tx ht
    have set : ∀ (x : Option Tx) (b d : Bool) (n : Nat),
        e.Keeps { e with tx := x, txSinceRound := b, flushDue := d, position := n } :=
      fun _ _ _ _ => .of_active ha (Nat.le_refl _) (Nat.le_refl _) rfl rfl rfl
    split
    · exact (set _ e.txSinceRound e.flushDue e.position).trans (LineEngine.keeps_bump _ _)
    · dsimp only
      split
      · split
        · exact e.keeps_endTx
        · exact .of_active ha (by simp [LineEngine.modChosen]) (Nat.le_refl _) rfl rfl rfl
      · exact (set _ true e.flushDue _).trans (LineEngine.keeps_bump _ _)
      · exact set _ true e.flushDue e.position
      · exact set _ true true e.position

theorem LineEngine.claim_beginFrame (e : LineEngine) (n : Nat) : (e.beginFrame n).claim = e.claim := by
  unfold LineEngine.beginFrame
  split
  · rfl
  · split
    · rfl
    · dsimp only
      split
      · split <;> rfl
      all_goals rfl

theorem LineEngine.keeps_checkLead (e : LineEngine) (n : Nat) (t : Tx) (ha : e.QuietOk → e.Active) :
    e.Keeps (e.checkLead n t) := by
  have a : e.Keeps { e with tx := some { t with phase := .check } } :=
    .of_active ha (Nat.le_refl _) (Nat.le_refl _) rfl rfl rfl
  unfold LineEngine.checkLead
  dsimp only
  split
  · exact a
  · exact a.trans (LineEngine.keeps_beginFrame _ n)

theorem LineEngine.claim_checkLead (e : LineEngine) (n : Nat) (t : Tx) : (e.checkLead n t).claim = e.claim := by
  unfold LineEngine.checkLead
  dsimp only
  split
  · rfl
  · exact LineEngine.claim_beginFrame _ n

theorem State.keeps_startTx (s : State) (l : Line) (w : TxWork) (c : Byte)
    (ha : (s.line l).QuietOk → (s.line l).Active) : s.Keeps (s.startTx l w c) :=
  s.keeps_setLine l _ (LineEngine.keeps_checkLead _ _ _ ha) (LineEngine.claim_checkLead _ _ _)

theorem LineEngine.state_of_held {e : LineEngine} (h : e.flushHeld = true) : e.state = .starting := by
  simp only [LineEngine.flushHeld, Bool.and_eq_true, beq_iff_eq] at h
  exact h.1.1.2

/-- The completion of a claim of a line keeps every law. -/
theorem State.safe_completeLine (s : State) (l : Line) : s.Safe (s.completeLine l) := by
  unfold State.completeLine
  split
  · next h =>
    refine (s.safe_endClaim l).trans (State.keeps_startTx _ l _ _ (LineEngine.active_of_state (.inr ?_))).safe
    obtain ⟨c, w, k⟩ := LineEngine.raiseOwed_eq { s.line l with claim := none }
    rw [State.line_endClaim_self, k]
    exact LineEngine.state_of_held (e := s.line l) h
  · exact s.safe_endClaim l

/-- The next FLUSH begins, or is held back. -/
theorem State.keeps_nextFlush (s : State) (l : Line) (ha : (s.line l).QuietOk → (s.line l).Active) :
    s.Keeps (s.nextFlush l) := by
  unfold State.nextFlush
  split
  · exact .refl s
  · exact s.keeps_startTx l _ _ ha

theorem State.keeps_endTx (s : State) (l : Line) : s.Keeps (s.modLine l LineEngine.endTx) :=
  s.keeps_modLine l _ LineEngine.keeps_endTx fun _ => rfl

theorem State.keeps_modChosen (s : State) (l : Line) (f : Order → Order) :
    s.Keeps (s.modLine l (LineEngine.modChosen f)) :=
  s.keeps_modLine l _ (fun e => e.keeps_modChosen f) fun _ => rfl

theorem State.keeps_removeChosen (s : State) (l : Line) : s.Keeps (s.modLine l LineEngine.removeChosen) :=
  s.keeps_modLine l _ LineEngine.keeps_removeChosen fun _ => rfl

/-! ### Orders (R91, R97, R99, R148) -/

theorem State.safe_concludeOrder (s : State) (l : Line) (x : OrderResult) : s.Safe (s.concludeOrder l x) := by
  unfold State.concludeOrder
  split
  · exact .refl s
  · split
    · exact (s.keeps_removeChosen l).safe
    · exact (s.keeps_modChosen l _).safe.trans (State.safe_handOver _ _ _)

theorem State.safe_attemptEnd (s : State) (l : Line) : s.Safe (s.attemptEnd l) := by
  unfold State.attemptEnd
  split
  · exact .refl s
  · split
    · dsimp only
      split
      · exact ((s.keeps_bump l _).trans (State.keeps_modChosen _ l _)).safe
      · exact ((s.keeps_bump l _).trans (State.keeps_modChosen _ l _)).safe.trans (State.safe_concludeOrder _ _ _)
    · exact (s.keeps_modChosen l _).safe

theorem State.safe_probeEnd (s : State) (l : Line) (o : Order) (b : Bool) : s.Safe (s.probeEnd l o b) := by
  unfold State.probeEnd
  split
  · exact s.safe_concludeOrder _ _
  · split
    · exact s.safe_concludeOrder _ _
    · exact (s.keeps_modChosen l _).safe

theorem State.safe_sendEnd (s : State) (l : Line) (o : Order) (x : OrderEnd) : s.Safe (s.sendEnd l o x) := by
  unfold State.sendEnd
  split
  · exact s.safe_concludeOrder _ _
  · exact s.safe_concludeOrder _ _
  · exact (s.keeps_removeChosen l).safe
  · split
    · exact (s.keeps_modChosen l _).safe
    · exact s.safe_attemptEnd _

theorem State.safe_orderEnd (s : State) (l : Line) (x : OrderEnd) : s.Safe (s.orderEnd l x) := by
  unfold State.orderEnd
  refine .trans ?_ (State.keeps_endTx _ l).safe
  split
  · exact .refl s
  · split
    · exact ((s.keeps_removeChosen l).trans (State.keeps_bump _ l _)).safe
    · split
      · exact s.safe_sendEnd _ _ _
      · exact s.safe_probeEnd _ _ _

/-! ### Polls and replies (R72 to R76, R96) -/

theorem State.safe_pollEnd (s : State) (l : Line) (ref : Ref) (keep : Bool) (c : LineClaim) :
    s.Safe (s.pollEnd l ref keep c) := by
  have a : s.Keeps (s.modLine l fun e => if keep then e else e.release (.poll ref)) :=
    s.keeps_modLine l _ (fun e => by
      split
      · exact .refl e
      · exact (LineEngine.shrunk_release _ e).keeps) fun e => by split <;> rfl
  exact (a.trans (State.keeps_endTx _ l)).safe.trans (State.safe_handOver _ _ _)

theorem State.safe_noReplyEnd (s : State) (l : Line) (t : Tx) : s.Safe (s.noReplyEnd l t) := by
  have a : s.Safe (if t.afterHold then s.bump l .holdOffFailures else s) := by
    split
    · exact (s.keeps_bump l _).safe
    · exact .refl s
  unfold State.noReplyEnd
  dsimp only
  split
  · exact a.trans (State.safe_pollEnd _ _ _ _ _)
  · exact a.trans (State.safe_orderEnd _ _ _)

theorem State.safe_repeatOrEnd (s : State) (l : Line) (t : Tx) (ha : (s.line l).QuietOk → (s.line l).Active) :
    s.Safe (s.repeatOrEnd l t) := by
  unfold State.repeatOrEnd
  split
  · exact s.safe_noReplyEnd _ _
  · exact (s.keeps_setLine l _ (LineEngine.keeps_checkLead _ _ _ ha) (LineEngine.claim_checkLead _ _ _)).safe

theorem LineEngine.active_bump {e : LineEngine} (c : Ctr) (h : e.QuietOk → e.Active) :
    (e.bump c).QuietOk → (e.bump c).Active := h

theorem State.active_bump {s : State} {l : Line} (c : Ctr) (h : (s.line l).QuietOk → (s.line l).Active) :
    ((s.bump l c).line l).QuietOk → ((s.bump l c).line l).Active := by
  rw [State.bump, State.modLine, State.line_setLine_self]; exact h

theorem State.keeps_setTx (s : State) (l : Line) (x : Option Tx) (ha : (s.line l).QuietOk → (s.line l).Active) :
    s.Keeps (s.modLine l fun e => { e with tx := x }) :=
  s.keeps_setLine l _ (.of_active ha (Nat.le_refl _) (Nat.le_refl _) rfl rfl rfl) rfl

theorem State.safe_checkErrorOn (s : State) (l : Line) (t : Tx) (ha : (s.line l).QuietOk → (s.line l).Active) :
    s.Safe (s.checkErrorOn l t) :=
  (s.keeps_bump l _).safe.trans (State.safe_repeatOrEnd _ l t (State.active_bump _ ha))

theorem State.safe_holdOn (s : State) (l : Line) (t : Tx) (ha : (s.line l).QuietOk → (s.line l).Active) :
    s.Safe (s.holdOn l t) := by
  unfold State.holdOn
  dsimp only
  split
  · exact (s.keeps_bump l _).safe.trans (State.safe_noReplyEnd _ _ _)
  · exact ((s.keeps_bump l _).trans (State.keeps_setTx _ l _ (State.active_bump _ ha))).safe

theorem State.safe_pollReply (s : State) (l : Line) (t : Tx) (c : Byte) (r : Option NodeRequest) :
    s.Safe (s.pollReply l t c r) := by
  unfold State.pollReply
  split
  · split
    · exact (s.keeps_bump l _).safe.trans (State.safe_pollEnd _ _ _ _ _)
    · split
      · exact s.safe_pollEnd _ _ _ _
      · split
        · exact s.safe_pollEnd _ _ _ _
        · exact (s.keeps_bump l _).safe.trans (State.safe_pollEnd _ _ _ _ _)
  · split
    · exact (s.keeps_bump l _).safe.trans (State.safe_orderEnd _ _ _)
    · split
      · exact (s.keeps_bump l _).safe.trans (State.safe_orderEnd _ _ _)
      · exact s.safe_orderEnd _ _

theorem State.safe_receive (s : State) (l : Line) (r : Option NodeReply) : s.Safe (s.receive l r) := by
  unfold State.receive
  split
  · exact .refl s
  · next t ht =>
    have ha := LineEngine.active_of_tx ht
    split
    · split
      · split
        · unfold State.validReply
          split
          · exact s.safe_pollReply _ _ _ _
          · exact s.safe_pollReply _ _ _ _
          · exact s.safe_orderEnd _ _
          · exact s.safe_orderEnd _ _
          · exact s.safe_holdOn _ _ ha
        · exact s.safe_checkErrorOn _ _ ha
      · exact s.safe_checkErrorOn _ _ ha
    · exact .refl s

/-! ### Faults, line starts and FLUSH (R77, R79, R83) -/

theorem LineEngine.keeps_fault (e : LineEngine) : e.Keeps e.fault := by
  have a : e.Keeps (e.abandonTx.bump .faults) := (LineEngine.keeps_endTx e).trans (LineEngine.keeps_bump _ _)
  exact a.trans ⟨id, fun _ _ => ⟨rfl, rfl⟩, id, id⟩

theorem State.safe_enterFault (s : State) (l : Line) : s.Safe (s.enterFault l) :=
  ((s.keeps_modLine l _ LineEngine.keeps_fault fun _ => rfl).trans (State.keeps_raiseAlarm _ _)).safe.trans
    (State.safe_raiseOwed _ _)

theorem LineEngine.keeps_stop (e : LineEngine) : e.Keeps e.stop :=
  (LineEngine.keeps_endTx e).trans ⟨id, fun _ _ => ⟨rfl, rfl⟩, id, id⟩

theorem LineEngine.keeps_start (e : LineEngine) (b : Bool) (r : Rate) : e.Keeps (e.start b r) := by
  have a : e.Keeps (if e.state.isUp then e.stop else e) := by
    split
    · exact e.keeps_stop
    · exact .refl e
  exact a.trans ⟨id, fun _ h => (by rcases h with h | h <;> cases h), id, id⟩

theorem LineEngine.claim_start (e : LineEngine) (b : Bool) (r : Rate) : (e.start b r).claim = e.claim := by
  unfold LineEngine.start; dsimp only; split <;> rfl

theorem State.safe_flushSent (s : State) (l : Line) : s.Safe (s.flushSent l) := by
  unfold State.flushSent
  split
  · next n hn =>
    have ha : (s.line l).QuietOk → (s.line l).Active := by
      intro hq hs
      have := (hq hs).2
      rw [hn] at this; cases this
    split
    · have a : s.Keeps (s.modLine l fun e => { e.endTx with stage := .flushing (n + 1) }) :=
        s.keeps_setLine l _ (.of_active ha (by simp [LineEngine.endTx, LineEngine.abandonTx]) (Nat.le_refl _) rfl rfl
          rfl) rfl
      refine (a.trans (State.keeps_nextFlush _ l ?_)).safe
      rw [State.modLine, State.line_setLine_self]
      intro hq hs
      have := (hq hs).2
      cases this
    · have a : s.Keeps (s.modLine l fun e => { e.endTx with stage := .ready }) :=
        s.keeps_setLine l _ (.of_active ha (by simp [LineEngine.endTx, LineEngine.abandonTx]) (Nat.le_refl _) rfl rfl
          rfl) rfl
      exact (a.safe.trans (State.safe_raiseOwed _ _)).trans (State.keeps_tryRunning _ _).safe
  · exact (s.keeps_endTx l).safe

theorem LineEngine.keeps_noBid (e : LineEngine) : e.Keeps e.noBid :=
  ((LineEngine.keeps_endTx e).trans (LineEngine.shrunk_release _ _).keeps).trans (LineEngine.keeps_bump _ _)

theorem State.safe_collisionOn (s : State) (l : Line) (t : Tx) (ha : (s.line l).QuietOk → (s.line l).Active) :
    s.Safe (s.collisionOn l t) := by
  have a : s.Keeps ((s.bump l .collisions).modLine l fun e => { e with leadDominant := true }) :=
    (s.keeps_bump l _).trans (State.keeps_modLine _ l _
      (fun _ => .of_eq (Nat.le_refl _) (Nat.le_refl _) rfl rfl rfl rfl rfl) fun _ => rfl)
  have hb : (((s.bump l .collisions).modLine l fun e => { e with leadDominant := true }).line l).QuietOk →
      (((s.bump l .collisions).modLine l fun e => { e with leadDominant := true }).line l).Active := by
    simp only [State.bump, State.modLine, State.line_setLine_self]; exact ha
  unfold State.collisionOn
  dsimp only
  split
  · exact a.safe.trans (State.keeps_modLine _ l _ LineEngine.keeps_noBid fun _ => rfl).safe
  · exact a.safe.trans (State.safe_flushSent _ _)
  · exact a.safe.trans (State.safe_repeatOrEnd _ _ _ hb)
  · split
    · split
      · exact a.safe.trans (State.safe_orderEnd _ _ _)
      · exact a.safe.trans (State.safe_repeatOrEnd _ _ _ hb)
    · exact a.safe.trans (State.safe_repeatOrEnd _ _ _ hb)

theorem State.safe_frameSent (s : State) (l : Line) (t : Tx) (ha : (s.line l).QuietOk → (s.line l).Active) :
    s.Safe (s.frameSent l t) := by
  have w := (s.keeps_setTx l (some { t with phase := .window }) ha).safe
  unfold State.frameSent
  dsimp only
  split
  · have a : s.Keeps (s.modLine l fun e =>
        { e with callNumber := e.callNumber + 1, tx := some { t with phase := .arbitration } }) :=
      s.keeps_setLine l _ (.of_active ha (Nat.le_refl _) (Nat.le_refl _) rfl rfl rfl) rfl
    exact (a.trans (State.keeps_bump _ _ _)).safe
  · exact s.safe_flushSent _
  · exact w
  · split
    · split
      · exact s.safe_orderEnd _ _
      · exact w
    · exact w

/-! ### Calls (R102 to R104) -/

theorem LineEngine.keeps_trackClash (e : LineEngine) (i : Identity) : e.Keeps (e.trackClash i).1 := by
  unfold LineEngine.trackClash
  have track : ∀ t : ClashTracker, e.Keeps { e with tracker := t } := fun _ =>
    .of_eq (Nat.le_refl _) (Nat.le_refl _) rfl rfl rfl rfl rfl
  split
  · split
    · exact track _
    · split
      · next h =>
        refine .trans ?_ (LineEngine.keeps_bump _ _)
        refine ⟨id, id, fun hx => ⟨?_, ?_⟩, id⟩
        · simp only [List.length_append, List.length_singleton]; omega
        · refine List.nodup_append.mpr ⟨hx.2, by simp, fun x hm y hy he => ?_⟩
          rw [List.mem_singleton] at hy
          exact h.1 (hy ▸ he ▸ hm)
      · exact (track _).trans (LineEngine.keeps_bump _ _)
  · exact track _

theorem LineEngine.claim_trackClash (e : LineEngine) (id : Identity) : (e.trackClash id).1.claim = e.claim := by
  unfold LineEngine.trackClash
  repeat' split
  all_goals rfl

theorem State.keeps_garbled (s : State) (l : Line) (id : Identity) : s.Keeps (s.garbled l id) := by
  have a : (s.line l).Keeps ((((s.line l).endTx).release .call).bump .garbledCalls) :=
    ((LineEngine.keeps_endTx _).trans (LineEngine.shrunk_release _ _).keeps).trans (LineEngine.keeps_bump _ _)
  have b : s.Keeps (s.setLine l (((((s.line l).endTx).release .call).bump .garbledCalls).trackClash id).1) :=
    s.keeps_setLine l _ (a.trans (LineEngine.keeps_trackClash _ id)) (LineEngine.claim_trackClash _ id)
  unfold State.garbled
  dsimp only
  split
  · exact b.trans (State.keeps_raiseAlarm _ _)
  · exact b

theorem State.safe_joinWon (s : State) (l : Line) (id : Identity) (caps : List CapEntry) (p : CallPolicy) :
    s.Safe (s.joinWon l id caps p) := by
  have a : s.Keeps (s.modLine l fun e => { e.endTx with tracker := .empty }) :=
    s.keeps_modLine l _ (fun e => e.keeps_endTx.trans (.of_eq (Nat.le_refl _) (Nat.le_refl _) rfl rfl rfl rfl rfl))
      fun _ => rfl
  exact (a.trans (State.keeps_bump _ _ _)).safe.trans (State.safe_handOver _ _ _)

theorem State.keeps_arbitrationOn (s : State) (l : Line) (t : Tx) (id : Identity)
    (ha : (s.line l).QuietOk → (s.line l).Active) : s.Keeps (s.arbitrationOn l t id) := by
  unfold State.arbitrationOn
  split
  · exact s.keeps_modLine l _ (fun e => e.keeps_noBid.trans
      (.of_eq (Nat.le_refl _) (Nat.le_refl _) rfl rfl rfl rfl rfl)) fun _ => rfl
  · dsimp only
    have a := s.keeps_setTx l (some { t with phase := .joinWait id }) ha
    split
    · exact a.trans (State.keeps_bump _ _ _)
    · exact a

/-! ### The choice (R92, R94, R95, R101) -/

/-- What the choice needs of its line: RUNNING, so that a transaction may start. It keeps it. -/
def State.RunsOn (s : State) (l : Line) : Prop := (s.line l).state = .running

theorem State.RunsOn.active {s : State} {l : Line} (h : s.RunsOn l) : (s.line l).QuietOk → (s.line l).Active :=
  LineEngine.active_of_state (.inl h)

theorem State.state_handOver (s : State) (l : Line) (c : LineClaim) :
    ((s.handOver l c).line l).state = (s.line l).state := by
  obtain ⟨c', w, a, h⟩ := s.handOver_eq l c
  rw [h]
  show (((s.setLine l _)).line l).state = _
  rw [State.line_setLine_self]

theorem State.runsOn_modLine {s : State} {l : Line} {f : LineEngine → LineEngine}
    (hf : ∀ e : LineEngine, (f e).state = e.state) (h : s.RunsOn l) : (s.modLine l f).RunsOn l := by
  unfold State.RunsOn State.modLine
  rw [State.line_setLine_self, hf]; exact h

theorem State.runsOn_concludeOrder {s : State} {l : Line} (x : OrderResult) (h : s.RunsOn l) :
    (s.concludeOrder l x).RunsOn l := by
  unfold State.concludeOrder
  split
  · exact h
  · split
    · exact State.runsOn_modLine (fun _ => rfl) h
    · unfold State.RunsOn
      rw [State.state_handOver]
      exact State.runsOn_modLine (f := LineEngine.modChosen _) (fun _ => rfl) h

theorem State.runsOn_attemptEnd {s : State} {l : Line} (h : s.RunsOn l) : (s.attemptEnd l).RunsOn l := by
  unfold State.attemptEnd
  split
  · exact h
  · split
    · have hb : (s.bump l .ordersExhausted).RunsOn l := State.runsOn_modLine (fun _ => rfl) h
      dsimp only
      split
      · exact State.runsOn_modLine (fun _ => rfl) hb
      · exact State.runsOn_concludeOrder _ (State.runsOn_modLine (fun _ => rfl) hb)
    · exact State.runsOn_modLine (fun _ => rfl) h

theorem State.safe_chooseOrder (l : Line) (n : Nat) (s : State) (h : s.RunsOn l) :
    s.Safe (State.chooseOrder l n s).1 ∧ ((State.chooseOrder l n s).2 = false → (State.chooseOrder l n s).1.RunsOn l) := by
  induction n generalizing s with
  | zero => exact ⟨.refl s, fun _ => h⟩
  | succ n ih =>
    unfold State.chooseOrder
    split
    · exact ⟨.refl s, fun _ => h⟩
    · split
      · exact ⟨.refl s, fun _ => h⟩
      · have c : s.Keeps (s.modLine l LineEngine.choose) :=
          s.keeps_modLine l _ LineEngine.keeps_choose fun _ => rfl
        have hc : (s.modLine l LineEngine.choose).RunsOn l := State.runsOn_modLine (fun _ => rfl) h
        have hb : ((s.modLine l LineEngine.choose).bump l .staleAnswers).RunsOn l :=
          State.runsOn_modLine (fun _ => rfl) hc
        dsimp only
        split
        · exact ⟨(c.trans (State.keeps_startTx _ l _ _ hc.active)).safe, fun hf => by cases hf⟩
        · have k := ((c.trans (State.keeps_bump _ l .staleAnswers)).trans (State.keeps_removeChosen _ l)).safe
          have r := ih _ (State.runsOn_modLine (f := LineEngine.removeChosen) (fun _ => rfl) hb)
          exact ⟨k.trans r.1, r.2⟩
        · have k := (c.trans (State.keeps_bump _ l .staleAnswers)).safe.trans (State.safe_concludeOrder _ l .dropped)
          have r := ih _ (State.runsOn_concludeOrder .dropped hb)
          exact ⟨k.trans r.1, r.2⟩
        · have r := ih _ (State.runsOn_attemptEnd hc)
          exact ⟨(c.safe.trans (State.safe_attemptEnd _ l)).trans r.1, r.2⟩

theorem LineEngine.state_reserve (e : LineEngine) (x : Reservation) : (e.reserve x).state = e.state := by
  unfold LineEngine.reserve; split <;> rfl

theorem State.keeps_makeReservation (s : State) (l : Line) (x : Reservation) : s.Keeps (s.modLine l (LineEngine.reserve x)) :=
  s.keeps_modLine l _ (fun e => e.keeps_reserve x) fun e => by unfold LineEngine.reserve; split <;> rfl

theorem State.keeps_startPoll (s : State) (l : Line) (st : Station) (h : s.RunsOn l) : s.Keeps (s.startPoll l st) := by
  unfold State.startPoll
  split
  · exact .refl s
  · dsimp only
    refine .trans ?_ (State.keeps_startTx _ l _ _ ?_)
    · split
      · exact s.keeps_makeReservation l _
      · exact .refl s
    · refine State.RunsOn.active ?_
      split
      · exact State.runsOn_modLine (fun e => e.state_reserve _) h
      · exact h

theorem State.keeps_roundEnd (s : State) (l : Line) (h : s.RunsOn l) :
    s.Keeps (s.roundEnd l) ∧ (s.roundEnd l).RunsOn l := by
  have a : s.Keeps (s.modLine l LineEngine.roundEnd) :=
    s.keeps_modLine l _ (fun e => .of_eq (by simp [LineEngine.roundEnd]) (Nat.le_refl _) rfl rfl rfl rfl rfl)
      fun _ => rfl
  have ha : (s.modLine l LineEngine.roundEnd).RunsOn l := State.runsOn_modLine (fun _ => rfl) h
  have rest : ∀ (t : State) (b : Bool), t.Keeps (t.modLine l fun e => { e with resting := b }) := fun t b =>
    t.keeps_modLine l _ (fun e => .of_eq (Nat.le_refl _) (Nat.le_refl _) rfl rfl rfl rfl rfl) fun _ => rfl
  have call : ∀ (t : State) (w : TxWork), t.RunsOn l →
      t.Keeps ((t.modLine l (LineEngine.reserve .call)).startTx l w 0)
        ∧ ((t.modLine l (LineEngine.reserve .call)).startTx l w 0).RunsOn l := by
    intro t w ht
    have k := t.keeps_makeReservation l .call
    have kr := State.runsOn_modLine (fun e => e.state_reserve .call) ht
    refine ⟨k.trans (State.keeps_startTx _ l _ _ kr.active), State.runsOn_modLine (fun e => ?_) kr⟩
    unfold LineEngine.checkLead
    dsimp only
    split
    · rfl
    · unfold LineEngine.beginFrame
      dsimp only
      split
      · rfl
      · split
        · split <;> rfl
        all_goals rfl
  unfold State.roundEnd
  dsimp only
  split
  · exact ⟨a.trans (rest _ _), State.runsOn_modLine (fun _ => rfl) ha⟩
  · split
    · exact ⟨a.trans (call _ _ ha).1, (call _ _ ha).2⟩
    · exact ⟨(a.trans (State.keeps_bump _ _ _)).trans (rest _ _),
        State.runsOn_modLine (fun _ => rfl) (State.runsOn_modLine (f := LineEngine.bump .callsSkipped) (fun _ => rfl) ha)⟩

theorem State.safe_chooseTx (l : Line) (n : Nat) (s : State) (h : s.RunsOn l) : s.Safe (State.chooseTx l n s) := by
  induction n generalizing s with
  | zero => exact .refl s
  | succ n ih =>
    have c := State.safe_chooseOrder l ((s.line l).orders.length + 1) s h
    unfold State.chooseTx
    split
    · next s1 hs => rw [hs] at c; exact c.1
    · next s1 hs =>
      rw [hs] at c
      have h1 := c.2 rfl
      split
      · exact c.1.trans (State.keeps_startPoll _ _ _ h1).safe
      · dsimp only
        have r := s1.keeps_roundEnd l h1
        split
        · exact c.1.trans r.1.safe
        · exact (c.1.trans r.1.safe).trans (ih _ r.2)

end Sys2Proof.Machine
end

