-- ==== Sys2Proof/Laws/Port.lean ====
section
/-! SUPPORT. The host port, the resets, the configuration store and the commands and events of a line keep the laws: one
lemma for each operation. -/

namespace Sys2Proof.Machine

/-! ### The host port and the resets -/

theorem HostPort.active_isSome (p : HostPort) : p.activeSlot?.isSome = true ↔ ∃ i : Fin 4, (p.slots.get i).isActive = true := by
  unfold HostPort.activeSlot?
  rw [List.findSome?_isSome_iff]
  constructor
  · rintro ⟨i, -, h⟩
    refine ⟨i, ?_⟩
    revert h
    cases p.slots.get i <;> simp [CmdSlot.isActive]
  · rintro ⟨i, h⟩
    refine ⟨i, List.mem_finRange i, ?_⟩
    revert h
    cases p.slots.get i <;> simp [CmdSlot.isActive]

theorem HostPort.active_some {p : HostPort} {i : Fin 4} {f : CmdFrame} (h : p.activeSlot? = some (i, f)) :
    ∃ d : PerLine Bool, p.slots.get i = .active f d := by
  unfold HostPort.activeSlot? at h
  obtain ⟨j, -, hj⟩ := List.exists_of_findSome?_eq_some h
  split at hj
  · next g d hg => simp at hj; exact ⟨d, by rw [← hj.1, hg, hj.2]⟩
  · cases hj

/-- A change of the host port that keeps the change indication and the claim of the host port keeps the laws. -/
theorem State.safe_host (s : State) (p : HostPort) (hw : p.changesWaiting = s.host.changesWaiting)
    (hs : s.SlotLaw → State.SlotLaw { s with host := p })
    (ha : p.activeSlot?.isSome = s.host.activeSlot?.isSome) : s.Safe { s with host := p } := by
  refine ⟨rfl, fun _ => .refl _, ?_, id, id, id, id, ?_, hs⟩
  · rintro ⟨a, b⟩; exact ⟨a, by unfold State.WaitingLaw at *; rw [← b]; exact hw⟩
  · refine State.ArbiterLaw.congr rfl ?_
    funext r; cases r
    · exact ha
    · rfl
    · rfl

theorem State.slotLaw_set {s : State} (i : Fin 4) (x : CmdSlot) (hx : x ≠ .empty) (hi : s.host.slots.get i ≠ .empty)
    (hact : x.isActive = true → (s.host.slots.get i).isActive = true ∨ s.host.activeSlot?.isSome = false)
    (h : s.SlotLaw) (p : HostPort) (hp : p.slots = s.host.slots.set i.val x i.isLt) (hq : p.acceptance = s.host.acceptance) :
    State.SlotLaw { s with host := p } := by
  obtain ⟨h1, h2, h3⟩ := h
  have na : s.host.activeSlot?.isSome = false → ∀ j : Fin 4, (s.host.slots.get j).isActive = true → False := by
    intro hn j hj
    have := (HostPort.active_isSome s.host).mpr ⟨j, hj⟩
    rw [hn] at this; cases this
  unfold State.SlotLaw
  dsimp only
  rw [hp, hq]
  refine ⟨h1, fun j => ?_, fun j k hj hk => ?_⟩
  · rw [h2, get_vectorSet]; split
    · next e => subst e; simp [hx, hi]
    · rfl
  · rw [get_vectorSet] at hj hk
    split at hj <;> split at hk
    · simp_all
    · next e e' =>
      rcases hact hj with a | a
      · subst e; exact h3 _ _ a hk
      · exact (na a _ hk).elim
    · next e e' =>
      rcases hact hk with a | a
      · subst e'; exact h3 _ _ hj a
      · exact (na a _ hj).elim
    · exact h3 _ _ hj hk

theorem State.safe_completeHost (s t : State) (r : Reply) (a : Arbiter) (ha : a.grantCfg = t.arb.grantCfg)
    (h0 : s.Safe { t with arb := a }) : s.Safe (State.completeHost (t, r)) := by
  unfold State.completeHost
  dsimp only
  have key : ∀ u : State, u.pending = t.pending → u.lines = t.lines → u.dir = t.dir → u.cfg = t.cfg →
      u.arb = t.arb → u.host.changesWaiting = t.host.changesWaiting → (t.SlotLaw → u.SlotLaw) →
      s.Safe (u.engineIdle.grant) := by
    intro u hp b c d e f g
    have gl := State.safe_grant u.engineIdle
    refine ⟨by rw [gl.pending]; exact hp.trans h0.pending, fun l => ?_, ?_, ?_, ?_, ?_, ?_, fun _ => State.arbiterLaw_grant _ rfl, ?_⟩
    · refine (h0.lines l).trans (.trans ?_ (gl.lines l))
      have : u.engineIdle.line l = State.line { t with arb := a } l := by show u.lines.get l = _; rw [b]; rfl
      rw [this]; exact .refl _
    · intro x; have := h0.changes x
      refine gl.changes ?_
      unfold State.ChangeSetLaw State.WaitingLaw State.slot at *
      simp only [State.engineIdle]
      rw [c, f]; exact this
    · intro x; have := h0.leases x
      refine gl.leases ?_
      unfold State.LeaseLaw State.record? State.slot at *
      simp only [State.engineIdle]; rw [c]; exact this
    · intro x; have := h0.groups x
      refine gl.groups ?_
      unfold State.GroupLaw State.members State.slot at *
      simp only [State.engineIdle]; rw [c]; exact this
    · intro x; have := h0.counts x
      refine gl.counts ?_
      simp only [State.engineIdle]; rw [c]; exact this
    · intro x; have := h0.config x
      refine gl.config ?_
      unfold State.ConfigLaw at *
      simp only [State.engineIdle]; rw [d, e, ← ha]; exact this
    · intro x
      exact gl.slots (g (h0.slots x))
  split
  · next i f hf =>
    refine key _ rfl rfl rfl rfl rfl rfl ?_
    intro hl
    obtain ⟨_, this⟩ := HostPort.active_some hf
    exact State.slotLaw_set i _ (by simp) (by rw [this]; simp) (by intro hx; cases hx) hl _ rfl rfl
  · exact key _ rfl rfl rfl rfl rfl rfl id

theorem State.safe_completeHost_of (s : State) (x : State × Reply) (h : s.Safe x.1) : s.Safe (State.completeHost x) := by
  obtain ⟨t, r⟩ := x; exact State.safe_completeHost s t r t.arb rfl h

theorem LineEngine.keeps_reset (e : LineEngine) (b : Bool) : e.Keeps (.reset b) := by
  refine ⟨fun _ => ?_, fun _ _ => ⟨rfl, rfl⟩, fun _ => ?_, fun _ c => ?_⟩
  · unfold LineEngine.QueueOk; decide +revert
  · unfold LineEngine.ExclusionsOk; simp [LineEngine.reset]
  · show (Vector.replicate 32 0).get c.idx ≤ _
    simp [Vector.get]

/-- With every slot FREE and no member counted, the group table agrees with the records (R17, R156). -/
theorem State.groupLaw_fresh {s : State} {f : Handle → Gen} (hs : ∀ h : Handle, s.slot h = Slot.fresh (f h))
    (hg : ∀ g : Fin 16, s.dir.groups.get g = { count := 0, limit := 0 }) : s.GroupLaw := by
  intro g
  rw [hg]
  refine ⟨?_, fun _ => Nat.le_refl _⟩
  unfold State.members
  symm
  rw [List.countP_eq_zero]
  intro h _
  rw [hs]
  simp [Slot.groupSet, Slot.fresh]

theorem State.slot_fresh (f : Vector Slot 256) (s : State) (h : Handle) (hd : s.dir = .fresh f) : s.slot h = f.get h := by
  unfold State.slot; rw [hd]; rfl

theorem State.safe_powerOn (s : State) (b : Bool) (g : Bool) : s.Safe ((s.powerOn b).modHost fun p => { p with ignoreExchange := g }) := by
  have hsl : ∀ h : Handle, ((s.powerOn b).modHost fun p => { p with ignoreExchange := g }).slot h = Slot.fresh 0 := by
    intro h
    show (Vector.replicate 256 (Slot.fresh 0)).get h = _
    simp [Vector.get]
  refine ⟨rfl, fun l => ?_, fun _ => ⟨⟨List.nodup_nil, fun h => ?_⟩, rfl⟩, fun _ h r hr => ?_, fun _ => ?_,
    fun _ => ⟨by show (0:Nat) ≤ _; decide, by show (0:Nat) ≤ _; decide⟩, fun _ => ⟨?_, ?_⟩,
    fun _ => ?_, fun _ => ?_⟩
  · cases l <;> exact LineEngine.keeps_reset _ _
  · rw [hsl]; simp [Slot.fresh, State.powerOn, State.modHost, Directory.reset, Directory.fresh]
  · unfold State.record? at hr; rw [hsl] at hr; cases hr
  · refine State.groupLaw_fresh hsl fun g => ?_
    show (Vector.replicate 16 _).get g = _
    simp [Vector.get]
  · show ConfigStore.InRange .default; unfold ConfigStore.InRange; decide
  · show ConfigStore.InRange .default; unfold ConfigStore.InRange; decide
  · intro r
    cases r with
    | host =>
      show (HostPort.activeSlot? { HostPort.reset with ignoreExchange := g }).isSome = false
      cases g <;> decide
    | line l => cases l <;> rfl
    | clock => rfl
  · refine ⟨List.nodup_nil, fun i => ?_, fun i j hi => ?_⟩
    · show i ∈ [] ↔ (Vector.replicate 4 CmdSlot.empty).get i ≠ .empty
      simp [Vector.get]
    · have : (Vector.replicate 4 CmdSlot.empty).get i = .empty := by simp [Vector.get]
      change ((Vector.replicate 4 CmdSlot.empty).get i).isActive = true at hi
      rw [this] at hi; cases hi

theorem State.safe_softReset (s : State) (i : Fin 4) (f : CmdFrame) (r : Reply) (ha : s.host.activeSlot? = some (i, f)) :
    s.Safe (State.completeHost (s.softReset i, r)) := by
  refine State.safe_completeHost s _ r { engine := some .host, rotation := .host, grantCfg := s.arb.grantCfg } rfl ?_
  have hsl : ∀ h : Handle,
      State.slot { s.softReset i with arb := { engine := some .host, rotation := .host, grantCfg := s.arb.grantCfg } } h
        = Slot.fresh ((s.slot h).gen + 1) := by
    intro h
    show (Vector.map _ s.dir.slots).get h = _
    simp [Vector.get, State.slot]
  obtain ⟨d, hact⟩ := HostPort.active_some ha
  refine ⟨rfl, fun l => ?_, fun _ => ⟨⟨List.nodup_nil, fun h => ?_⟩, rfl⟩, fun _ h r hr => ?_, fun _ => ?_,
    fun _ => ⟨by show (0:Nat) ≤ _; decide, by show (0:Nat) ≤ _; decide⟩, fun x => ⟨x.1, x.2⟩,
    fun _ => ?_, fun _ => ?_⟩
  · cases l <;> exact LineEngine.keeps_reset _ _
  · rw [hsl]; simp [Slot.fresh, State.softReset, Directory.softReset, Directory.fresh]
  · unfold State.record? at hr; rw [hsl] at hr; cases hr
  · refine State.groupLaw_fresh hsl fun g => ?_
    show (Vector.replicate 16 _).get g = _
    simp [Vector.get]
  · refine ⟨?_, rfl⟩
    show (s.host.softReset i).activeSlot?.isSome = true
    rw [HostPort.active_isSome]
    refine ⟨i, ?_⟩
    simp [HostPort.softReset, get_vectorSet, hact, CmdSlot.isActive]
  · have hget : ∀ j : Fin 4, (s.softReset i).host.slots.get j = if j = i then .active f d else .empty := by
      intro j
      show ((Vector.replicate 4 CmdSlot.empty).set i.val (s.host.slots.get i) i.isLt).get j = _
      rw [get_vectorSet, hact]
      split
      · rfl
      · simp [Vector.get]
    refine ⟨by simp [State.softReset, HostPort.softReset], fun j => ?_, fun j k hj hk => ?_⟩
    · rw [hget]; simp only [State.softReset, HostPort.softReset, List.mem_singleton]; split <;> simp [*]
    · rw [hget] at hj hk
      split at hj
      · split at hk
        · simp_all
        · cases hk
      · cases hj

/-- Writing a slot that was not ACTIVE with one that is not leaves the ACTIVE slot. -/
theorem HostPort.isSome_set (p q : HostPort) (i : Fin 4) (x : CmdSlot) (hq : q.slots = p.slots.set i.val x i.isLt)
    (hx : x.isActive = false) (hi : (p.slots.get i).isActive = false) : q.activeSlot?.isSome = p.activeSlot?.isSome := by
  rw [Bool.eq_iff_iff, HostPort.active_isSome, HostPort.active_isSome]
  constructor
  · rintro ⟨j, hj⟩
    rw [hq, get_vectorSet] at hj
    split at hj
    · rw [hx] at hj; cases hj
    · exact ⟨j, hj⟩
  · rintro ⟨j, hj⟩
    refine ⟨j, ?_⟩
    rw [hq, get_vectorSet]
    split
    · next e => rw [e, hi] at hj; cases hj
    · exact hj

theorem State.safe_sameSlots (s : State) (p : HostPort) (hw : p.changesWaiting = s.host.changesWaiting)
    (hs : p.slots = s.host.slots) (ha : p.acceptance = s.host.acceptance) : s.Safe { s with host := p } :=
  State.safe_host s p hw (fun h => h.congr hs ha) (by rw [HostPort.activeSlot?_congr hs])

/-- A part of an exchange keeps the laws if what its kind byte does and what its end does keep them. -/
theorem State.safe_exchange {Sent : Type} (s : State) {kind : HostPort → HostPort} {close : Sent → HostPort → HostPort}
    (hk : ∀ u : State, u.Safe (u.modHost kind)) (hc : ∀ (u : State) (x : Sent), u.Safe (u.modHost (close x)))
    (part : ExchangePart Sent) : s.Safe (s.exchange kind close part) := by
  have ho : s.Safe s.openExchange := State.safe_sameSlots s _ rfl rfl rfl
  unfold State.exchange
  repeat' split
  all_goals first
    | exact .refl s
    | exact State.safe_sameSlots s _ rfl rfl rfl
    | exact ho
    | exact hk s
    | exact hc s _
    | exact (ho.trans (hk _)).trans (hc _ _)

theorem State.safe_endExchange (s : State) (b : Byte) (bs : List Byte) (f : HostPort → HostPort)
    (h : s.Safe (s.modHost f)) : s.Safe (s.modHost fun p => (f p).endExchange b bs) :=
  h.trans (State.safe_sameSlots (s.modHost f) _ rfl rfl rfl)

theorem State.safe_takeKind (s : State) (k : Option ExchangeKind) : s.Safe (s.modHost (HostPort.takeKind k)) := by
  unfold State.modHost HostPort.takeKind
  split
  · by_cases h : k = none
    · rw [if_pos h]; exact State.safe_sameSlots s _ rfl rfl rfl
    · rw [if_neg h]; exact State.safe_sameSlots s _ rfl rfl rfl
  · exact .refl s

theorem State.safe_accept (s : State) (i : Fin 4) (f : CmdFrame) (he : s.host.slots.get i = .empty) :
    s.Safe (s.modHost fun p => p.accept i f) := by
  refine State.safe_host s (s.host.accept i f) rfl ?_ (HostPort.isSome_set s.host _ i (.queued f) rfl rfl (by rw [he]; rfl))
  rintro ⟨h1, h2, h3⟩
  refine ⟨?_, fun j => ?_, fun j k hj hk => ?_⟩
  · show (s.host.acceptance ++ [i]).Nodup
    refine List.nodup_append.mpr ⟨h1, by simp, fun a ha b hb hab => ?_⟩
    rw [List.mem_singleton] at hb
    subst hb; subst hab
    exact (h2 _).mp ha he
  · show j ∈ s.host.acceptance ++ [i] ↔ (s.host.slots.set i.val (.queued f) i.isLt).get j ≠ _
    rw [get_vectorSet]
    split
    · next e => simp [e]
    · next e => simp [h2, e]
  · change ((s.host.slots.set i.val (.queued f) i.isLt).get j).isActive = true at hj
    change ((s.host.slots.set i.val (.queued f) i.isLt).get k).isActive = true at hk
    rw [get_vectorSet] at hj hk
    split at hj
    · cases hj
    · split at hk
      · cases hk
      · exact h3 _ _ hj hk

theorem State.safe_emptySlot (s : State) (i : Fin 4) (r : Response) (he : s.host.slots.get i = .answered r) :
    s.Safe (s.modHost (HostPort.emptySlot i)) := by
  refine State.safe_host s (s.host.emptySlot i) rfl ?_
    (HostPort.isSome_set s.host _ i .empty rfl rfl (by rw [he]; rfl))
  rintro ⟨h1, h2, h3⟩
  refine ⟨?_, fun j => ?_, fun j k hj hk => ?_⟩
  · exact h1.sublist List.filter_sublist
  · show j ∈ s.host.acceptance.filter (fun j => j != i) ↔ (s.host.slots.set i.val .empty i.isLt).get j ≠ _
    rw [get_vectorSet, List.mem_filter]
    split
    · next e => simp [e]
    · next e => simp [h2, e]
  · change ((s.host.slots.set i.val .empty i.isLt).get j).isActive = true at hj
    change ((s.host.slots.set i.val .empty i.isLt).get k).isActive = true at hk
    rw [get_vectorSet] at hj hk
    split at hj
    · cases hj
    · split at hk
      · cases hk
      · exact h3 _ _ hj hk

/-- A slot that the end of a READ RESPONSE empties is ANSWERED. -/
theorem HostPort.answered_of_readWhole {p : HostPort} {n : Nat} {c : Option (Option (Fin 4) × Response)} {i : Fin 4}
    (h : p.readWhole? n c = some i) : ∃ r, p.slots.get i = .answered r := by
  unfold HostPort.readWhole? at h
  split at h
  · split at h
    · next hc => cases h; exact ⟨_, hc.2⟩
    · cases h
  · cases h

theorem State.safe_closeRead (s : State) (n : Nat) : s.Safe (s.modHost (HostPort.closeRead n)) := by
  unfold State.modHost HostPort.closeRead
  split
  · next b c _ =>
    have h : s.Safe (s.modHost (HostPort.emptyRead n c)) := by
      unfold State.modHost HostPort.emptyRead
      cases hx : s.host.readWhole? n c with
      | none => exact .refl s
      | some i =>
        obtain ⟨r, hr⟩ := HostPort.answered_of_readWhole hx
        exact s.safe_emptySlot i r hr
    exact h.trans (State.safe_sameSlots (s.modHost (HostPort.emptyRead n c)) _ rfl rfl rfl)
  · exact .refl s

theorem State.safe_writeCommand (s : State) (bs : List Byte) (n : Nat) :
    s.Safe (s.modHost (HostPort.writeCommand bs n)) := by
  unfold State.modHost HostPort.writeCommand
  split
  · exact State.safe_sameSlots s _ rfl rfl rfl
  · split
    · exact State.safe_sameSlots s _ rfl rfl rfl
    · next i hi =>
      have he := List.find?_some (p := fun j => s.host.slots.get j == .empty) hi
      exact State.safe_accept s i _ (by simpa using he)

theorem State.safe_closeWrite (s : State) (n : Nat) (bs : List Byte) : s.Safe (s.modHost (HostPort.closeWrite n bs)) := by
  unfold State.modHost HostPort.closeWrite
  split
  · exact s.safe_endExchange _ _ _ (s.safe_writeCommand bs n)
  · exact .refl s

theorem State.safe_closeStatus (s : State) (n : Nat) : s.Safe (s.modHost (HostPort.closeStatus n)) := by
  unfold State.modHost HostPort.closeStatus
  split
  · exact State.safe_sameSlots s _ rfl rfl rfl
  · exact .refl s

theorem State.safe_closeUnknown (s : State) (n : Nat) : s.Safe (s.modHost (HostPort.closeUnknown n)) := by
  unfold State.modHost HostPort.closeUnknown
  split
  · exact State.safe_sameSlots s _ rfl rfl rfl
  · exact .refl s

theorem State.safe_closeEarly (s : State) : s.Safe (s.modHost HostPort.closeEarly) := by
  unfold State.modHost HostPort.closeEarly
  split
  · exact State.safe_sameSlots s _ rfl rfl rfl
  · exact .refl s

theorem HostPort.nextQueued_some {p : HostPort} {i : Fin 4} {f : CmdFrame} (h : p.nextQueued? = some (i, f)) :
    p.slots.get i = .queued f ∧ p.activeSlot?.isSome = false := by
  unfold HostPort.nextQueued? at h
  split at h
  · cases h
  · next hn =>
    obtain ⟨j, -, hj⟩ := List.exists_of_findSome?_eq_some h
    split at hj
    · next g hg => simp at hj; rw [← hj.1, hg, hj.2]; exact ⟨rfl, by rw [hn]; rfl⟩
    · cases hj

theorem HostPort.oldestAnswer_some {p : HostPort} {i : Fin 4} {r : Response} (h : p.oldestAnswer? = some (i, r)) :
    p.slots.get i = .answered r := by
  unfold HostPort.oldestAnswer? at h
  obtain ⟨j, -, hj⟩ := List.exists_of_findSome?_eq_some h
  split at hj
  · next g hg => simp at hj; rw [← hj.1, hg, hj.2]
  · cases hj

theorem State.safe_answerQueued (s : State) (i : Fin 4) (f : CmdFrame) (tag : Byte) (r : Reply)
    (h : s.host.slots.get i = .queued f) : s.Safe (s.answerSlot i tag r) :=
  State.safe_host s _ rfl (fun hl => State.slotLaw_set i _ (by simp) (by rw [h]; simp) (by intro hx; cases hx) hl _ rfl rfl)
    (HostPort.isSome_set s.host _ i _ rfl rfl (by rw [h]; rfl))

theorem ConfigStore.writeAll_range (items : List (Byte × Nat)) : ∀ (c d : ConfigStore), c.writeAll? items = some d → c.InRange → d.InRange := by
  induction items with
  | nil => intro c d h hc; simp [ConfigStore.writeAll?] at h; exact h ▸ hc
  | cons x xs ih =>
    intro c d h hc
    unfold ConfigStore.writeAll? at h
    split at h
    · next c' hc' =>
      refine ih c' d h ?_
      unfold ConfigStore.write? at hc'
      dsimp only at hc'
      unfold ConfigStore.InRange at *
      split at hc'
      case h_2 | h_3 | h_4 | h_5 | h_6 | h_7 | h_13 =>
        split at hc'
        · simp only [Option.some.injEq] at hc'; rw [← hc']; dsimp only; omega
        · cases hc'
      case h_14 => cases hc'
      all_goals
        rw [Option.map_eq_some_iff] at hc'
        obtain ⟨_, _, hc'⟩ := hc'
        rw [← hc']; exact hc
    · cases h

theorem State.safe_cfg (s : State) (c : ConfigStore) (h : s.cfg.InRange → c.InRange) : s.Safe { s with cfg := c } :=
  ⟨rfl, fun _ => .refl _, id, id, id, id, fun x => ⟨h x.1, x.2⟩, .congr rfl rfl, id⟩

theorem State.safe_configureStore (s : State) (items : List (Byte × Nat)) : s.Safe (s.configureStore items).1 := by
  unfold State.configureStore
  split
  · exact .refl s
  · next c hc =>
    split
    · exact .refl s
    · split
      · exact .refl s
      · exact State.safe_cfg s c (ConfigStore.writeAll_range items _ _ hc)

theorem State.safe_clampMisses (s : State) (n : Nat) : s.Safe (s.clampMisses n) := by
  have hslot : ∀ h : Handle, (s.clampMisses n).slot h = (s.slot h).clampMiss n := by
    intro h
    show (Vector.map _ s.dir.slots).get h = _
    simp [Vector.get, State.slot]
  have hm : ∀ x : Slot, (x.clampMiss n).mask = x.mask := by
    intro x; unfold Slot.clampMiss; split <;> rfl
  refine ⟨rfl, fun _ => .refl _, ?_, ?_, ?_, id, id, .congr rfl rfl, id⟩
  · rintro ⟨⟨a, b⟩, c⟩
    exact ⟨⟨a, fun h => by rw [hslot, hm]; exact b h⟩, c⟩
  · intro hl h r hr
    unfold State.record? at hr
    rw [hslot] at hr
    unfold Slot.clampMiss at hr
    split at hr
    · next q hq =>
      simp only [Option.some.injEq] at hr
      have := hl h q hq
      rw [← hr]; exact this
    · next hn => rw [hn] at hr; cases hr
  · intro hl g
    have hm : (s.clampMisses n).members g = s.members g := by
      unfold State.members
      refine List.countP_congr fun k _ => ?_
      rw [hslot]
      unfold Slot.clampMiss Slot.groupSet
      cases hc : (s.slot k).content <;> simp [hc]
    rw [hm]; exact hl g

theorem State.safe_configureClaim (s : State) (items : List (Byte × Nat)) : s.Safe (s.configureClaim items).1 := by
  unfold State.configureClaim
  have := State.safe_configureStore s items
  revert this
  generalize s.configureStore items = x
  obtain ⟨t, r⟩ := x
  intro h
  dsimp only
  split
  · exact h.trans (State.safe_clampMisses t _)
  · exact h

theorem State.safe_ackAlarms (s : State) (n : Nat) : s.Safe (s.ackAlarms n).1 := by
  unfold State.ackAlarms
  split
  · exact .refl s
  · exact State.safe_sameSlots s _ rfl rfl rfl

theorem State.slots_ackAlarms (s : State) (n : Nat) : (s.ackAlarms n).1.host.slots = s.host.slots := by
  unfold State.ackAlarms; split <;> rfl
theorem State.slots_configureStore (s : State) (n) : (s.configureStore n).1.host.slots = s.host.slots := by
  unfold State.configureStore; split; rfl; split; rfl; split <;> rfl

theorem State.safe_completeLocal (s : State) (x : State × Reply) (i : Fin 4) (f : CmdFrame) (tag : Byte) (h : s.Safe x.1)
    (hs : x.1.host.slots = s.host.slots) (hq : s.host.slots.get i = .queued f) : s.Safe (State.completeLocal x i tag) :=
  h.trans (State.safe_answerQueued x.1 i f tag x.2 (by rw [hs]; exact hq))

theorem State.safe_runLocal (s : State) (c : HostCmd) : s.Safe (s.runLocal c).1 ∧ (s.runLocal c).1.host.slots = s.host.slots := by
  cases c <;> first
    | exact ⟨.refl s, rfl⟩
    | exact ⟨State.safe_ackAlarms s _, State.slots_ackAlarms s _⟩
    | exact ⟨State.safe_configureStore s _, State.slots_configureStore s _⟩

theorem State.safe_beginClaim (s : State) (i : Fin 4) (f : CmdFrame) (hq : s.host.slots.get i = .queued f)
    (ha : s.host.activeSlot?.isSome = false) : s.Safe (s.beginClaim i f) := by
  unfold State.beginClaim
  have g := State.safe_grant (s.modHost fun p => { p with slots := p.slots.set i.val (.active f s.stopsDue) i.isLt })
  refine ⟨g.pending, g.lines, g.changes, g.leases, g.groups, g.counts, g.config, fun h => ?_, fun h => g.slots ?_⟩
  · cases he : s.arb.engine with
    | none => exact State.arbiterLaw_grant _ he
    | some r =>
      refine g.arbiter ?_
      unfold State.ArbiterLaw at *
      simp only [State.modHost]
      rw [he] at h ⊢
      refine ⟨?_, h.2⟩
      cases r with
      | host => have := h.1; simp only [State.outstanding] at this; rw [ha] at this; cases this
      | line l => exact h.1
      | clock => exact h.1
  · exact State.slotLaw_set i _ (by simp) (by rw [hq]; simp) (fun _ => .inr ha) h _ rfl rfl

/-- A directory command keeps stop due of each line as it stood when the command was begun (R164, R180). -/
theorem State.begunStopDue_beginClaim (s : State) (i : Fin 4) (f : CmdFrame) (l : Line)
    (ha : s.host.activeSlot?.isSome = false) : (s.beginClaim i f).host.begunStopDue l = (s.line l).stopDue := by
  have none : ∀ j : Fin 4, (s.host.slots.get j).isActive ≠ true := fun j hj => by
    rw [(HostPort.active_isSome s.host).mpr ⟨j, hj⟩] at ha; cases ha
  rw [State.beginClaim, State.host_grant, ← State.get_stopsDue]
  refine HostPort.begunStopDue_active (i := i) (f := f) l ?_ fun j hj => ?_
  · simp [State.modHost, get_vectorSet]
  · rw [State.modHost, get_vectorSet] at hj
    split at hj
    · assumption
    · exact absurd hj (none j)

theorem State.safe_completeClock (s t : State) (h : s.Safe t) : s.Safe t.completeClock := by
  unfold State.completeClock
  have g := State.safe_grant { t.engineIdle with clock := t.clock.complete }
  exact ⟨g.pending.trans h.pending, fun l => (h.lines l).trans (g.lines l), g.changes ∘ h.changes,
    g.leases ∘ h.leases, g.groups ∘ h.groups, g.counts ∘ h.counts,
    g.config ∘ h.config, fun _ => State.arbiterLaw_grant _ rfl, g.slots ∘ h.slots⟩

theorem State.safe_lineClaim (s : State) (t : State) (l : Line) (h : s.Keeps t) : s.Safe (t.completeLine l) :=
  h.safe.trans (State.safe_completeLine t l)

/-- A host command carried out as a claim keeps the laws where its directory work does. -/
theorem State.safe_hostCommand (s : State) (f : HostCmd → Option (State × Reply)) (h : ∀ c x, f c = some x → s.Safe x.1) :
    s.Safe (match s.hostClaim?.bind f with | some x => State.completeHost x | none => s) := by
  split
  · next x hx =>
    obtain ⟨c, -, hc⟩ := Option.bind_eq_some_iff.mp hx
    exact State.safe_completeHost_of s x (h c x hc)
  · exact .refl s

/-! ### Line commands and line events -/

theorem State.safe_withLine (s : State) (b : Byte) (act : Line → State × Reply) (h : ∀ l, s.Safe (act l).1) :
    s.Safe (s.withLine b act).1 := by
  unfold State.withLine; split
  · exact h _
  · exact .refl s

theorem State.safe_modLine (s : State) (l : Line) (f : LineEngine → LineEngine) (h : ∀ e, LineEngine.Keeps e (f e)) (hc : ∀ e, (f e).claim = e.claim) :
    s.Safe (s.modLine l f) := (s.keeps_modLine l f h hc).safe

theorem State.safe_lineStartCommand (s : State) (b o : Byte) : s.Safe (s.lineStartCommand b o).1 := by
  refine State.safe_withLine _ _ _ fun l => ?_
  try dsimp only
  split
  · exact .refl s
  · split
    · exact .refl s
    · split
      · exact .refl s
      · exact (State.safe_modLine s l _ (fun e => e.keeps_start _ _) (fun e => e.claim_start _ _)).trans (State.safe_raiseOwed _ _)

theorem State.safe_lineStopCommand (s : State) (b : Byte) : s.Safe (s.lineStopCommand b).1 := by
  refine State.safe_withLine _ _ _ fun l => ?_
  try dsimp only
  split
  · exact .refl s
  · split
    · exact .refl s
    · exact (State.safe_modLine s l _ (fun e => e.keeps_stop) (fun e => rfl)).trans (State.safe_raiseOwed _ _)

theorem State.safe_setLineState (s : State) (l : Line) (x : LineState) (hx : x = .paused ∨ x = .running) :
    s.Safe (s.modLine l fun e => { e with state := x }) := by
  refine State.safe_modLine s l _ (fun e => ⟨id, fun _ h => ?_, id, id⟩) (fun _ => rfl)
  exfalso
  rcases hx with rfl | rfl <;> rcases h with h | h <;> cases h

theorem LineEngine.keeps_resume (e : LineEngine) (n : Nat) : e.Keeps (e.resume n) := by
  have up : e.Keeps { e with state := .running } :=
    ⟨id, fun _ h => (by rcases h with h | h <;> cases h), id, id⟩
  unfold LineEngine.resume
  dsimp only
  split
  · exact up
  · split
    · split
      · exact up.trans (LineEngine.keeps_checkLead _ _ _ (LineEngine.active_of_state (.inl rfl)))
      · refine up.trans (.trans ?_ (LineEngine.keeps_endTx _))
        split
        · exact (LineEngine.shrunk_release _ _).keeps
        · exact .refl _
      · exact up.trans (LineEngine.keeps_endTx _)
    · exact up

theorem LineEngine.claim_resume (e : LineEngine) (n : Nat) : (e.resume n).claim = e.claim := by
  unfold LineEngine.resume
  dsimp only
  split
  · rfl
  · split
    · split
      · exact LineEngine.claim_checkLead _ _ _
      · split <;> rfl
      · rfl
    · rfl

theorem State.safe_linePauseCommand (s : State) (b : Byte) : s.Safe (s.linePauseCommand b).1 := by
  refine State.safe_withLine _ _ _ fun l => ?_
  try dsimp only
  split
  · exact .refl s
  · split
    · exact .refl s
    · exact State.safe_setLineState s l _ (.inl rfl)

theorem State.safe_lineResumeCommand (s : State) (b : Byte) : s.Safe (s.lineResumeCommand b).1 := by
  refine State.safe_withLine _ _ _ fun l => ?_
  try dsimp only
  split
  · exact .refl s
  · split
    · exact .refl s
    · exact State.safe_modLine s l _ (fun e => e.keeps_resume _) fun e => e.claim_resume _

theorem State.safe_setCallPolicyCommand (s : State) (b p : Byte) : s.Safe (s.setCallPolicyCommand b p).1 := by
  refine State.safe_withLine _ _ _ fun l => ?_
  try dsimp only
  split
  · exact .refl s
  · exact State.safe_cfg s _ id

theorem State.safe_clearExclusionCommand (s : State) (b p : Byte) (i : Identity) : s.Safe (s.clearExclusionCommand b p i).1 := by
  refine State.safe_withLine _ _ _ fun l => ?_
  try dsimp only
  split
  · exact State.safe_modLine s l (fun e => { e with exclusions := [] }) (fun e => ⟨id, id, fun _ => ⟨by simp, by simp⟩, id⟩) (fun _ => rfl)
  · split
    · split
      · exact .refl s
      · split
        · exact State.safe_modLine s l (fun e => { e with exclusions := e.exclusions.erase i })
            (fun e => ⟨id, id, fun h => ⟨Nat.le_trans List.length_erase_le h.1, h.2.erase _⟩, id⟩) (fun _ => rfl)
        · exact .refl s
    · exact .refl s

theorem State.safe_lineStatusCommand (s : State) (b : Byte) : s.Safe (s.lineStatusCommand b).1 :=
  State.safe_withLine _ _ _ fun _ => .refl s

theorem State.safe_clearCountersCommand (s : State) (b : Byte) : s.Safe (s.clearCountersCommand b).1 := by
  refine State.safe_withLine _ _ _ fun l => ?_
  refine State.safe_modLine s l (fun e => { e with counters := Vector.replicate 32 0 }) (fun e => ⟨id, id, id, fun _ c => ?_⟩) (fun _ => rfl)
  show (Vector.replicate 32 0).get c.idx ≤ _
  simp [Vector.get]

theorem State.runsOn_of_mayChoose (s : State) (l : Line) (h : (s.line l).mayChoose = true) : s.RunsOn l := by
  unfold LineEngine.mayChoose at h
  unfold State.RunsOn
  grind

theorem LineEngine.keeps_setLead (e : LineEngine) (b : Bool) : e.Keeps { e with leadDominant := b } :=
  .of_eq (Nat.le_refl _) (Nat.le_refl _) rfl rfl rfl rfl rfl

theorem State.safe_windowTimeout (s : State) (l : Line) (t : Tx) : s.Safe (s.windowTimeout l t) :=
  (s.keeps_bump l _).safe.trans (State.safe_noReplyEnd _ _ _)
theorem State.safe_holdOffTimeout (s : State) (l : Line) (t : Tx) : s.Safe (s.holdOffTimeout l t) :=
  (s.keeps_bump l _).safe.trans (State.safe_noReplyEnd _ _ _)

theorem State.keeps_requestClaim_pure (s : State) (l : Line) (st : Station) (ref : Ref) (c : Byte) (g : State → Record → List Byte) :
    s.Keeps (s.requestClaim l st ref c fun s r => (s, g s r)) :=
  s.keeps_requestClaim l st ref c _ fun t _ _ _ _ => .refl t

theorem State.safe_idlePass_flush (s : State) (l : Line) (h : (s.line l).state = .starting) :
    s.Safe ((s.modLine l fun e => { e with stage := .flushing 0 }).nextFlush l) := by
  have ha : (s.line l).QuietOk → (s.line l).Active := LineEngine.active_of_state (.inr h)
  have a : s.Keeps (s.modLine l fun e => { e with stage := .flushing 0 }) :=
    s.keeps_setLine l _ (.of_active ha (Nat.le_refl _) (Nat.le_refl _) rfl rfl rfl) rfl
  refine (a.trans (State.keeps_nextFlush _ _ ?_)).safe
  rw [State.modLine, State.line_setLine_self]
  exact LineEngine.active_of_state (.inr h)

theorem State.safe_idlePass_keep (s : State) (l : Line) (h : (s.line l).state = .starting) :
    s.Safe (s.modLine l fun e => LineEngine.tryRunning { e with stage := .ready }) := by
  have ha : (s.line l).QuietOk → (s.line l).Active := LineEngine.active_of_state (.inr h)
  have a : (s.line l).Keeps { s.line l with stage := .ready } := .of_active ha (Nat.le_refl _) (Nat.le_refl _) rfl rfl rfl
  exact (s.keeps_setLine l _ (a.trans (LineEngine.keeps_tryRunning _)) (LineEngine.claim_tryRunning _)).safe

theorem State.safe_frameEvent (s : State) (l : Line) (p : TxPhase) (f : Tx → State) (h : ∀ t, (s.line l).tx = some t → s.Safe (f t)) :
    s.Safe (match (s.line l).tx with | some t => if t.phase = p then f t else s | none => s) := by
  split
  · next t ht => split; exact h t ht; exact .refl s
  · exact .refl s

end Sys2Proof.Machine
end

