-- ==== Sys2Proof/Laws/Aside.lean ====
section
/-! SUPPORT. What leaves the directory and the store alone: grants, the raising and completion of claims, every
operation of a line engine, and every exchange at the host port. A law of the directory needs no other lemma of
them. -/

namespace Sys2Proof.Machine

/-- A change that leaves the directory and the store, and with them the miss limit a claim reads. -/
structure State.Aside (s t : State) : Prop where
  dir : t.dir = s.dir
  cfg : t.cfg = s.cfg
  limit : s.LimitLaw → t.LimitLaw

theorem State.Aside.refl (s : State) : s.Aside s := ⟨rfl, rfl, id⟩

theorem State.Aside.trans {s t u : State} (h : s.Aside t) (k : t.Aside u) : s.Aside u :=
  ⟨k.dir.trans h.dir, k.cfg.trans h.cfg, k.limit ∘ h.limit⟩

/-- What leaves the directory alone keeps the bound of the miss counts (R26). -/
theorem State.Aside.missLaw {s t : State} (h : s.Aside t) (m : s.MissLaw) : t.MissLaw := by
  refine ⟨h.limit m.1, fun k r hr => ?_⟩
  rw [h.cfg]
  exact m.2 k r (by unfold State.record? State.slot at *; rw [← h.dir]; exact hr)

/-- Directory work keeps the bound of the miss counts (R26). -/
theorem State.Keeps.missLaw {s t : State} (h : s.Keeps t) (m : s.MissLaw) : t.MissLaw := by
  refine ⟨by unfold State.LimitLaw; rw [h.arb, h.cfg]; exact m.1, fun k r hr => ?_⟩
  rw [h.cfg]
  exact h.misses s.cfg.missLimit (fun b => Nat.le_of_eq (m.1 b)) m.2 k r hr

theorem State.aside_setLine (s : State) (l : Line) (e : LineEngine) : s.Aside (s.setLine l e) := ⟨rfl, rfl, id⟩

theorem State.aside_modLine (s : State) (l : Line) (f : LineEngine → LineEngine) : s.Aside (s.modLine l f) :=
  s.aside_setLine l _

theorem State.aside_modHost (s : State) (f : HostPort → HostPort) : s.Aside (s.modHost f) := ⟨rfl, rfl, id⟩

theorem State.aside_raiseAlarm (s : State) (a : Alarm) : s.Aside (s.raiseAlarm a) := s.aside_modHost _

theorem State.aside_grant (s : State) : s.Aside s.grant := by
  refine ⟨by simp, by simp, fun h => ?_⟩
  unfold State.grant
  split
  · exact h
  · split
    · exact fun _ => rfl
    · exact h

theorem State.aside_engineIdle (s : State) : s.Aside s.engineIdle := ⟨rfl, rfl, fun _ h => by cases h⟩

theorem State.aside_raiseOwed (s : State) (l : Line) : s.Aside (s.raiseOwed l) :=
  (s.aside_modLine l _).trans (State.aside_grant _)

theorem State.aside_handOver (s : State) (l : Line) (c : LineClaim) : s.Aside (s.handOver l c) :=
  (s.aside_modLine l _).trans (State.aside_grant _)

theorem State.aside_startTx (s : State) (l : Line) (w : TxWork) (c : Byte) : s.Aside (s.startTx l w c) :=
  s.aside_modLine l _

theorem State.aside_nextFlush (s : State) (l : Line) : s.Aside (s.nextFlush l) := by
  unfold State.nextFlush
  split
  · exact .refl s
  · exact s.aside_startTx l _ _

theorem State.aside_completeLine (s : State) (l : Line) : s.Aside (s.completeLine l) := by
  have a : s.Aside (s.endClaim l) :=
    (s.aside_engineIdle.trans (State.aside_modLine _ l _)).trans (State.aside_raiseOwed _ l)
  unfold State.completeLine
  split
  · exact a.trans (State.aside_startTx _ l _ _)
  · exact a

theorem State.aside_completeHost (x : State × Reply) : x.1.Aside (State.completeHost x) := by
  unfold State.completeHost
  split
  · exact ((State.aside_modHost _ _).trans (State.aside_engineIdle _)).trans (State.aside_grant _)
  · exact (State.aside_engineIdle _).trans (State.aside_grant _)

theorem State.aside_setClock (s : State) (c : LeaseClock) : s.Aside { s with clock := c } := ⟨rfl, rfl, id⟩

theorem State.aside_completeClock (s : State) : s.Aside s.completeClock :=
  (s.aside_engineIdle.trans (State.aside_setClock _ s.clock.complete)).trans (State.aside_grant _)

theorem State.aside_endIfReached (s : State) : s.Aside s.endIfReached := by
  unfold State.endIfReached
  split
  · exact (s.aside_setClock _).trans (State.aside_grant _)
  · exact .refl s

theorem State.aside_passTime (s : State) : s.Aside s.passTime := by
  unfold State.passTime
  split
  · exact .refl s
  · exact (s.aside_setClock _).trans (State.aside_endIfReached _)

/-- The end of a claim leaves the engine idle or newly granted: the claim it carries out then reads the store. -/
theorem State.limitLaw_grant {s : State} (h : s.arb.engine = none) : s.grant.LimitLaw := by
  unfold State.grant
  rw [h]
  dsimp only
  split
  · exact fun _ => rfl
  · intro k; rw [h] at k; cases k

theorem State.limitLaw_completeHost (x : State × Reply) : (State.completeHost x).LimitLaw := by
  unfold State.completeHost
  split <;> exact State.limitLaw_grant rfl

/-! ### The line engine at work -/

theorem State.aside_bump (s : State) (l : Line) (c : Ctr) : s.Aside (s.bump l c) := s.aside_modLine l _

theorem State.aside_concludeOrder (s : State) (l : Line) (x : OrderResult) : s.Aside (s.concludeOrder l x) := by
  unfold State.concludeOrder
  split
  · exact .refl s
  · split
    · exact s.aside_modLine l _
    · exact (s.aside_modLine l _).trans (State.aside_handOver _ l _)

theorem State.aside_attemptEnd (s : State) (l : Line) : s.Aside (s.attemptEnd l) := by
  unfold State.attemptEnd
  split
  · exact .refl s
  · split
    · dsimp only
      split
      · exact (s.aside_bump l _).trans (State.aside_modLine _ l _)
      · exact ((s.aside_bump l _).trans (State.aside_modLine _ l _)).trans (State.aside_concludeOrder _ l _)
    · exact s.aside_modLine l _

theorem State.aside_probeEnd (s : State) (l : Line) (o : Order) (b : Bool) : s.Aside (s.probeEnd l o b) := by
  unfold State.probeEnd
  split
  · exact s.aside_concludeOrder l _
  · split
    · exact s.aside_concludeOrder l _
    · exact s.aside_modLine l _

theorem State.aside_sendEnd (s : State) (l : Line) (o : Order) (x : OrderEnd) : s.Aside (s.sendEnd l o x) := by
  unfold State.sendEnd
  split
  · exact s.aside_concludeOrder l _
  · exact s.aside_concludeOrder l _
  · exact s.aside_modLine l _
  · split
    · exact s.aside_modLine l _
    · exact s.aside_attemptEnd l

theorem State.aside_orderEnd (s : State) (l : Line) (x : OrderEnd) : s.Aside (s.orderEnd l x) := by
  unfold State.orderEnd
  refine .trans ?_ (State.aside_modLine _ l _)
  split
  · exact .refl s
  · split
    · exact (s.aside_modLine l _).trans (State.aside_bump _ l _)
    · split
      · exact s.aside_sendEnd l _ _
      · exact s.aside_probeEnd l _ _

theorem State.aside_pollEnd (s : State) (l : Line) (ref : Ref) (b : Bool) (c : LineClaim) : s.Aside (s.pollEnd l ref b c) :=
  ((s.aside_modLine l _).trans (State.aside_modLine _ l _)).trans (State.aside_handOver _ l _)

theorem State.aside_noReplyEnd (s : State) (l : Line) (t : Tx) : s.Aside (s.noReplyEnd l t) := by
  unfold State.noReplyEnd
  dsimp only
  have h : s.Aside (if t.afterHold = true then s.bump l .holdOffFailures else s) := by
    split
    · exact s.aside_bump l _
    · exact .refl s
  split
  · exact h.trans (State.aside_pollEnd _ l _ _ _)
  · exact h.trans (State.aside_orderEnd _ l _)

theorem State.aside_repeatOrEnd (s : State) (l : Line) (t : Tx) : s.Aside (s.repeatOrEnd l t) := by
  unfold State.repeatOrEnd
  split
  · exact s.aside_noReplyEnd l t
  · exact s.aside_modLine l _

theorem State.aside_checkErrorOn (s : State) (l : Line) (t : Tx) : s.Aside (s.checkErrorOn l t) :=
  (s.aside_bump l _).trans (State.aside_repeatOrEnd _ l t)

theorem State.aside_holdOn (s : State) (l : Line) (t : Tx) : s.Aside (s.holdOn l t) := by
  unfold State.holdOn
  dsimp only
  split
  · exact (s.aside_bump l _).trans (State.aside_noReplyEnd _ l t)
  · exact (s.aside_bump l _).trans (State.aside_modLine _ l _)

theorem State.aside_pollReply (s : State) (l : Line) (t : Tx) (c : Byte) (q : Option NodeRequest) :
    s.Aside (s.pollReply l t c q) := by
  unfold State.pollReply
  split
  · split
    · exact (s.aside_bump l _).trans (State.aside_pollEnd _ l _ _ _)
    · split
      · exact s.aside_pollEnd l _ _ _
      · split
        · exact s.aside_pollEnd l _ _ _
        · exact (s.aside_bump l _).trans (State.aside_pollEnd _ l _ _ _)
  · split
    · exact (s.aside_bump l _).trans (State.aside_orderEnd _ l _)
    · split
      · exact (s.aside_bump l _).trans (State.aside_orderEnd _ l _)
      · exact s.aside_orderEnd l _

theorem State.aside_receive (s : State) (l : Line) (r : Option NodeReply) : s.Aside (s.receive l r) := by
  unfold State.receive
  split
  · exact .refl s
  · next t _ =>
    split
    · split
      · next r =>
        split
        · unfold State.validReply
          split
          · exact s.aside_pollReply l t _ _
          · exact s.aside_pollReply l t _ _
          · exact s.aside_orderEnd l _
          · exact s.aside_orderEnd l _
          · exact s.aside_holdOn l t
        · exact s.aside_checkErrorOn l t
      · exact s.aside_checkErrorOn l t
    · exact .refl s

theorem State.aside_enterFault (s : State) (l : Line) : s.Aside (s.enterFault l) :=
  ((s.aside_modLine l _).trans (State.aside_raiseAlarm _ _)).trans (State.aside_raiseOwed _ l)

theorem State.aside_flushSent (s : State) (l : Line) : s.Aside (s.flushSent l) := by
  unfold State.flushSent
  split
  · split
    · exact (s.aside_modLine l _).trans (State.aside_nextFlush _ l)
    · exact ((s.aside_modLine l _).trans (State.aside_raiseOwed _ l)).trans (State.aside_modLine _ l _)
  · exact s.aside_modLine l _

theorem State.aside_chooseOrder (l : Line) : ∀ (n : Nat) (s : State), s.Aside (State.chooseOrder l n s).1
  | 0, s => .refl s
  | n + 1, s => by
    unfold State.chooseOrder
    split
    · exact .refl s
    · split
      · exact .refl s
      · dsimp only
        split
        · exact (s.aside_modLine l _).trans (State.aside_startTx _ l _ _)
        · exact (((s.aside_modLine l _).trans (State.aside_bump _ l _)).trans (State.aside_modLine _ l _)).trans
            (State.aside_chooseOrder l n _)
        · exact (((s.aside_modLine l _).trans (State.aside_bump _ l _)).trans (State.aside_concludeOrder _ l _)).trans
            (State.aside_chooseOrder l n _)
        · exact ((s.aside_modLine l _).trans (State.aside_attemptEnd _ l)).trans (State.aside_chooseOrder l n _)

theorem State.aside_startPoll (s : State) (l : Line) (st : Station) : s.Aside (s.startPoll l st) := by
  unfold State.startPoll
  split
  · exact .refl s
  · dsimp only
    refine .trans ?_ (State.aside_startTx _ l _ _)
    split
    · exact s.aside_modLine l _
    · exact .refl s

theorem State.aside_roundEnd (s : State) (l : Line) : s.Aside (s.roundEnd l) := by
  have h := s.aside_modLine l LineEngine.roundEnd
  unfold State.roundEnd
  dsimp only
  split
  · exact h.trans (State.aside_modLine _ l _)
  · split
    · exact (h.trans (State.aside_modLine _ l _)).trans (State.aside_startTx _ l _ _)
    · exact (h.trans (State.aside_bump _ l _)).trans (State.aside_modLine _ l _)

theorem State.aside_chooseTx (l : Line) : ∀ (n : Nat) (s : State), s.Aside (State.chooseTx l n s)
  | 0, s => .refl s
  | n + 1, s => by
    unfold State.chooseTx
    have h := State.aside_chooseOrder l ((s.line l).orders.length + 1) s
    revert h
    generalize State.chooseOrder l ((s.line l).orders.length + 1) s = x
    obtain ⟨t, b⟩ := x
    intro h
    cases b with
    | true => exact h
    | false =>
      dsimp only
      split
      · exact h.trans (State.aside_startPoll _ l _)
      · split
        · exact h.trans (State.aside_roundEnd _ l)
        · exact (h.trans (State.aside_roundEnd _ l)).trans (State.aside_chooseTx l n _)

theorem State.aside_garbled (s : State) (l : Line) (id : Identity) : s.Aside (s.garbled l id) := by
  unfold State.garbled
  dsimp only
  split
  · exact (s.aside_setLine l _).trans (State.aside_raiseAlarm _ _)
  · exact s.aside_setLine l _

theorem State.aside_joinWon (s : State) (l : Line) (id : Identity) (caps : List CapEntry) (p : CallPolicy) :
    s.Aside (s.joinWon l id caps p) :=
  ((s.aside_modLine l _).trans (State.aside_bump _ l _)).trans (State.aside_handOver _ l _)

theorem State.aside_collisionOn (s : State) (l : Line) (t : Tx) : s.Aside (s.collisionOn l t) := by
  have h := (s.aside_bump l .collisions).trans (State.aside_modLine _ l fun e => { e with leadDominant := true })
  unfold State.collisionOn
  dsimp only
  split
  · exact h.trans (State.aside_modLine _ l _)
  · exact h.trans (State.aside_flushSent _ l)
  · exact h.trans (State.aside_repeatOrEnd _ l t)
  · split
    · split
      · exact h.trans (State.aside_orderEnd _ l _)
      · exact h.trans (State.aside_repeatOrEnd _ l t)
    · exact h.trans (State.aside_repeatOrEnd _ l t)

theorem State.aside_frameSent (s : State) (l : Line) (t : Tx) : s.Aside (s.frameSent l t) := by
  unfold State.frameSent
  dsimp only
  split
  · exact (s.aside_modLine l _).trans (State.aside_bump _ l _)
  · exact s.aside_flushSent l
  · exact s.aside_modLine l _
  · split
    · split
      · exact s.aside_orderEnd l _
      · exact s.aside_modLine l _
    · exact s.aside_modLine l _

theorem State.aside_windowTimeout (s : State) (l : Line) (t : Tx) : s.Aside (s.windowTimeout l t) :=
  (s.aside_bump l _).trans (State.aside_noReplyEnd _ l t)

theorem State.aside_holdOffTimeout (s : State) (l : Line) (t : Tx) : s.Aside (s.holdOffTimeout l t) :=
  (s.aside_bump l _).trans (State.aside_noReplyEnd _ l t)

theorem State.aside_arbitrationOn (s : State) (l : Line) (t : Tx) (id : Identity) : s.Aside (s.arbitrationOn l t id) := by
  unfold State.arbitrationOn
  split
  · exact s.aside_modLine l _
  · dsimp only
    split
    · exact (s.aside_modLine l _).trans (State.aside_bump _ l _)
    · exact s.aside_modLine l _

theorem State.aside_frameEvent (s : State) (l : Line) (p : TxPhase) (f : Tx → State) (h : ∀ t, s.Aside (f t)) :
    s.Aside (match (s.line l).tx with
      | some t => if t.phase = p then f t else s
      | none => s) := by
  split
  · split
    · exact h _
    · exact .refl s
  · exact .refl s

/-! ### Line commands and the host port -/

theorem State.aside_withLine (s : State) (b : Byte) (act : Line → State × Reply) (h : ∀ l, s.Aside (act l).1) :
    s.Aside (s.withLine b act).1 := by
  unfold State.withLine
  split
  · exact h _
  · exact .refl s

theorem State.aside_lineStartCommand (s : State) (b o : Byte) : s.Aside (s.lineStartCommand b o).1 := by
  refine s.aside_withLine b _ fun l => ?_
  repeat' split
  all_goals first
    | exact .refl s
    | exact (s.aside_modLine l _).trans (State.aside_raiseOwed _ l)

theorem State.aside_lineStopCommand (s : State) (b : Byte) : s.Aside (s.lineStopCommand b).1 := by
  refine s.aside_withLine b _ fun l => ?_
  repeat' split
  all_goals first
    | exact .refl s
    | exact (s.aside_modLine l _).trans (State.aside_raiseOwed _ l)

theorem State.aside_linePauseCommand (s : State) (b : Byte) : s.Aside (s.linePauseCommand b).1 := by
  refine s.aside_withLine b _ fun l => ?_
  repeat' split
  all_goals first
    | exact .refl s
    | exact s.aside_setLine l _

theorem State.aside_lineResumeCommand (s : State) (b : Byte) : s.Aside (s.lineResumeCommand b).1 := by
  refine s.aside_withLine b _ fun l => ?_
  repeat' split
  all_goals first
    | exact .refl s
    | exact s.aside_setLine l _

theorem State.aside_clearExclusionCommand (s : State) (b f : Byte) (id : Identity) :
    s.Aside (s.clearExclusionCommand b f id).1 := by
  refine s.aside_withLine b _ fun l => ?_
  repeat' split
  all_goals first
    | exact .refl s
    | exact s.aside_setLine l _

theorem State.aside_clearCountersCommand (s : State) (b : Byte) : s.Aside (s.clearCountersCommand b).1 :=
  s.aside_withLine b _ fun l => s.aside_setLine l _

theorem State.aside_exchange {Sent : Type} (s : State) (kind : HostPort → HostPort)
    (close : Sent → HostPort → HostPort) (part : ExchangePart Sent) : s.Aside (s.exchange kind close part) := by
  have ho : s.Aside s.openExchange := s.aside_modHost _
  unfold State.exchange
  repeat' split
  all_goals first
    | exact .refl s
    | exact s.aside_modHost _
    | exact ho
    | exact (ho.trans (State.aside_modHost _ _)).trans (State.aside_modHost _ _)

theorem State.aside_beginClaim (s : State) (i : Fin 4) (f : CmdFrame) : s.Aside (s.beginClaim i f) :=
  (s.aside_modHost _).trans (State.aside_grant _)

theorem State.aside_completeLocal (x : State × Reply) (i : Fin 4) (tag : Byte) :
    x.1.Aside (State.completeLocal x i tag) := ⟨rfl, rfl, id⟩

theorem State.aside_ackAlarms (s : State) (n : Nat) : s.Aside (s.ackAlarms n).1 := by
  unfold State.ackAlarms
  split
  · exact .refl s
  · exact ⟨rfl, rfl, id⟩

/-- A store written without a miss limit item keeps its miss limit (R164, R170). -/
theorem ConfigStore.missLimit_writeAll? (items : List (Byte × Nat)) : ∀ (c d : ConfigStore), c.writeAll? items = some d →
    (∀ x ∈ items, x.1 ≠ 0x04) → d.missLimit = c.missLimit := by
  induction items with
  | nil => intro c d h _; cases h; rfl
  | cons x xs ih =>
    intro c d h hx
    unfold ConfigStore.writeAll? at h
    split at h
    · next e he =>
      rw [ih e d h fun y hy => hx y (List.mem_cons_of_mem _ hy)]
      have h4 : x.1.toNat ≠ 4 := fun hn => hx x List.mem_cons_self (BitVec.eq_of_toNat_eq hn)
      unfold ConfigStore.write? at he
      dsimp only at he
      split at he
      all_goals first
        | exact absurd ‹_› h4
        | (obtain ⟨_, _, rfl⟩ := Option.map_eq_some_iff.mp he; rfl)
        | (split at he
           · cases he; rfl
           · cases he)
        | cases he
    · cases h

end Sys2Proof.Machine
end

