-- ==== Sys2Proof/Laws/Directory.lean ====
section
/-! SUPPORT. The records, the station maps and the quarantine lists keep agreeing (R4, R12, R59, R63): first over what
the laws read of the state, then one lemma for each operation of the directory. -/

namespace Sys2Proof.Machine

/-! ### What the laws read -/

/-- What the laws of the directory read of a record. -/
structure RecKey where
  identity : Identity
  line : Line
  station : Station
  state : RecState
  deriving DecidableEq, Repr

def Record.key (r : Record) : RecKey := ⟨r.identity, r.line, r.station, r.state⟩

/-- What the laws of the directory read of the state. -/
structure DirView where
  key : Handle → Option RecKey
  gen : Handle → Gen
  map : Line → Station → MapEntry
  quar : Line → List QuarEntry

def State.view (s : State) : DirView :=
  ⟨fun h => (s.record? h).map Record.key, fun h => (s.slot h).gen, s.mapAt, s.quarOf⟩

def DirView.setRec (v : DirView) (h : Handle) (k : RecKey) : DirView :=
  { v with key := fun i => if i = h then some k else v.key i }
def DirView.free (v : DirView) (h : Handle) : DirView :=
  { v with key := fun i => if i = h then none else v.key i, gen := fun i => if i = h then v.gen h + 1 else v.gen i }
def DirView.setMap (v : DirView) (l : Line) (st : Station) (e : MapEntry) : DirView :=
  { v with map := fun k x => if k = l ∧ x = st then e else v.map k x }
def DirView.setQuar (v : DirView) (l : Line) (q : List QuarEntry) : DirView :=
  { v with quar := fun k => if k = l then q else v.quar k }

/-- The laws of the directory, of a view. -/
structure DirView.Ok (v : DirView) : Prop where
  held : ∀ l st h, v.map l st = .held h ↔ ∃ k, v.key h = some k ∧ k.line = l ∧ k.state ≠ .lapsed ∧ k.station = st
  target : ∀ l st h, v.map l st = .target h ↔ ∃ k, v.key h = some k ∧ k.line = l ∧ k.state = .moving st
  quar : ∀ l st, v.map l st = .quarantined ↔ ∃ q ∈ v.quar l, q.station = st
  nodup : ∀ l, ((v.quar l).map QuarEntry.station).Nodup
  past : ∀ h k, v.key h = some k → k.state = .lapsed →
    ∃ q ∈ v.quar k.line, q.station = k.station ∧ q.ref = some ⟨h, v.gen h⟩
  refs : ∀ l q, q ∈ v.quar l → ∀ x, q.ref = some x →
    v.gen x.handle = x.gen ∧ ∃ k, v.key x.handle = some k ∧ k.state = .lapsed ∧ k.line = l ∧ k.station = q.station
  ways : ∀ h k, v.key h = some k → h ∈ waysOf (setIndex k.identity)
  unique : ∀ h h' k k', v.key h = some k → v.key h' = some k' → k.identity = k'.identity → h = h'

/-- A record goes from one state to another that holds the same station. -/
theorem DirView.Ok.relabel {v : DirView} (o : v.Ok) {h : Handle} {k : RecKey} (hk : v.key h = some k) {st : RecState}
    (h1 : k.state ≠ .lapsed) (h2 : ∀ t, k.state ≠ .moving t) (h3 : st ≠ .lapsed) (h4 : ∀ t, st ≠ .moving t) :
    (v.setRec h { k with state := st }).Ok := by
  obtain ⟨held, target, quar, nodup, past, refs, ways, unique⟩ := o
  constructor <;> simp only [DirView.setRec] <;> grind

/-- A new record takes a FREE slot and a FREE station. -/
theorem DirView.Ok.place {v : DirView} (o : v.Ok) {h : Handle} {k : RecKey} (hk : v.key h = none)
    (hm : v.map k.line k.station = .free)
    (h3 : k.state ≠ .lapsed) (h4 : ∀ t, k.state ≠ .moving t) (hw : h ∈ waysOf (setIndex k.identity))
    (hu : ∀ h' k', v.key h' = some k' → k'.identity ≠ k.identity) :
    ((v.setRec h k).setMap k.line k.station (.held h)).Ok := by
  obtain ⟨held, target, quar, nodup, past, refs, ways, unique⟩ := o
  constructor <;> simp only [DirView.setRec, DirView.setMap] <;> grind

/-- A move takes a FREE station as its target. -/
theorem DirView.Ok.startMove {v : DirView} (o : v.Ok) {h : Handle} {k : RecKey} (hk : v.key h = some k) {t : Station}
    (h1 : k.state ≠ .lapsed) (h2 : ∀ t, k.state ≠ .moving t) (hm : v.map k.line t = .free) :
    ((v.setRec h { k with state := .moving t }).setMap k.line t (.target h)).Ok := by
  obtain ⟨held, target, quar, nodup, past, refs, ways, unique⟩ := o
  constructor <;> simp only [DirView.setRec, DirView.setMap] <;> grind

/-- The stations a record holds and moves to. -/
theorem DirView.Ok.moving {v : DirView} (o : v.Ok) {h : Handle} {k : RecKey} (hk : v.key h = some k) {t : Station}
    (hs : k.state = .moving t) :
    v.map k.line k.station = .held h ∧ v.map k.line t = .target h ∧ k.station ≠ t := by
  have a := (o.held k.line k.station h).mpr ⟨k, hk, rfl, by grind, rfl⟩
  have b := (o.target k.line t h).mpr ⟨k, hk, rfl, hs⟩
  exact ⟨a, b, by grind⟩

/-- One entry for each station. -/
theorem entry_unique {xs : List QuarEntry} (hn : (xs.map QuarEntry.station).Nodup) {p q : QuarEntry} (hp : p ∈ xs)
    (hq : q ∈ xs) (e : p.station = q.station) : p = q := by
  induction xs with
  | nil => cases hp
  | cons x xs ih =>
    simp only [List.map_cons, List.nodup_cons, List.mem_map] at hn
    grind

theorem nodup_append_station {xs : List QuarEntry} {q : QuarEntry} (hn : (xs.map QuarEntry.station).Nodup)
    (hq : ∀ x ∈ xs, x.station ≠ q.station) : ((xs ++ [q]).map QuarEntry.station).Nodup := by
  simp only [List.map_append, List.map_cons, List.map_nil, List.nodup_append]
  grind

/-- A move ends with its target FREE. -/
theorem DirView.Ok.endMoveFree {v : DirView} (o : v.Ok) {h : Handle} {k : RecKey} (hk : v.key h = some k) {t : Station}
    (hs : k.state = .moving t) {st : RecState} (h3 : st ≠ .lapsed) (h4 : ∀ t, st ≠ .moving t) :
    ((v.setRec h { k with state := st }).setMap k.line t .free).Ok := by
  have a := o.moving hk hs
  obtain ⟨held, target, quar, nodup, past, refs, ways, unique⟩ := o
  constructor <;> simp only [DirView.setRec, DirView.setMap] <;> grind

/-- A station goes into quarantine (R60). -/
def DirView.quarantine (v : DirView) (l : Line) (st : Station) (n : Nat) (x : Option Ref) : DirView :=
  (v.setQuar l (v.quar l ++ [⟨st, n, x⟩])).setMap l st .quarantined

/-- A FREE station goes into quarantine without a reference. -/
theorem DirView.Ok.quarFree {v : DirView} (o : v.Ok) {l : Line} {st : Station} (hm : v.map l st = .free) (n : Nat) :
    (v.quarantine l st n none).Ok := by
  obtain ⟨held, target, quar, nodup, past, refs, ways, unique⟩ := o
  have nd : ((v.quar l ++ [({ station := st, hold := n, ref := none } : QuarEntry)]).map QuarEntry.station).Nodup :=
    nodup_append_station (nodup _) (by grind)
  constructor <;> simp only [DirView.setMap, DirView.setQuar, DirView.quarantine] <;> grind

theorem DirView.quarantine_setMap (v : DirView) (l : Line) (st : Station) (e : MapEntry) (n : Nat) (x : Option Ref) :
    (v.setMap l st e).quarantine l st n x = v.quarantine l st n x := by
  unfold DirView.quarantine DirView.setMap DirView.setQuar
  congr 1
  funext k y
  dsimp only
  split <;> rfl

/-- A move ends with its target QUARANTINED. -/
theorem DirView.Ok.endMoveQuar {v : DirView} (o : v.Ok) {h : Handle} {k : RecKey} (hk : v.key h = some k) {t : Station}
    (hs : k.state = .moving t) {st : RecState} (h3 : st ≠ .lapsed) (h4 : ∀ t, st ≠ .moving t) (n : Nat) :
    ((v.setRec h { k with state := st }).quarantine k.line t n none).Ok := by
  rw [← DirView.quarantine_setMap _ _ _ .free]
  exact (o.endMoveFree hk hs h3 h4).quarFree (if_pos ⟨rfl, rfl⟩) n

/-- A move ends at its target, the old station QUARANTINED. -/
theorem DirView.Ok.moveDone {v : DirView} (o : v.Ok) {h : Handle} {k : RecKey} (hk : v.key h = some k) {t : Station}
    (hs : k.state = .moving t) (n : Nat) :
    (((v.setRec h { k with state := .bound, station := t }).quarantine k.line k.station n none).setMap k.line t
      (.held h)).Ok := by
  have a := o.moving hk hs
  obtain ⟨held, target, quar, nodup, past, refs, ways, unique⟩ := o
  have nd : ((v.quar k.line ++ [(⟨k.station, n, none⟩ : QuarEntry)]).map QuarEntry.station).Nodup :=
    nodup_append_station (nodup _) (by grind)
  constructor <;> simp only [DirView.setRec, DirView.setMap, DirView.setQuar, DirView.quarantine] <;> grind

/-- A record that is not LAPSED holds its station. -/
theorem DirView.Ok.holds {v : DirView} (o : v.Ok) {h : Handle} {k : RecKey} (hk : v.key h = some k)
    (h1 : k.state ≠ .lapsed) : v.map k.line k.station = .held h :=
  (o.held k.line k.station h).mpr ⟨k, hk, rfl, h1, rfl⟩

/-- A record is freed and its station becomes FREE. -/
theorem DirView.Ok.freeHeld {v : DirView} (o : v.Ok) {h : Handle} {k : RecKey} (hk : v.key h = some k)
    (h1 : k.state ≠ .lapsed) (h2 : ∀ t, k.state ≠ .moving t) : ((v.free h).setMap k.line k.station .free).Ok := by
  have a := o.holds hk h1
  obtain ⟨held, target, quar, nodup, past, refs, ways, unique⟩ := o
  constructor <;> simp only [DirView.free, DirView.setMap] <;> grind

/-- A record is freed and its station becomes QUARANTINED without a reference. -/
theorem DirView.Ok.freeQuar {v : DirView} (o : v.Ok) {h : Handle} {k : RecKey} (hk : v.key h = some k)
    (h1 : k.state ≠ .lapsed) (h2 : ∀ t, k.state ≠ .moving t) (n : Nat) :
    ((v.free h).quarantine k.line k.station n none).Ok := by
  have a := o.holds hk h1
  obtain ⟨held, target, quar, nodup, past, refs, ways, unique⟩ := o
  have nd : ((v.quar k.line ++ [(⟨k.station, n, none⟩ : QuarEntry)]).map QuarEntry.station).Nodup :=
    nodup_append_station (nodup _) (by grind)
  constructor <;> simp only [DirView.free, DirView.setMap, DirView.setQuar, DirView.quarantine] <;> grind

/-- A record lapses. -/
theorem DirView.Ok.lapse {v : DirView} (o : v.Ok) {h : Handle} {k : RecKey} (hk : v.key h = some k)
    (h1 : k.state ≠ .lapsed) (h2 : ∀ t, k.state ≠ .moving t) (n : Nat) :
    ((v.setRec h { k with state := .lapsed }).quarantine k.line k.station n (some ⟨h, v.gen h⟩)).Ok := by
  have a := o.holds hk h1
  obtain ⟨held, target, quar, nodup, past, refs, ways, unique⟩ := o
  have nd : ((v.quar k.line ++ [(⟨k.station, n, some ⟨h, v.gen h⟩⟩ : QuarEntry)]).map QuarEntry.station).Nodup :=
    nodup_append_station (nodup _) (by grind)
  constructor <;> simp only [DirView.setRec, DirView.setMap, DirView.setQuar, DirView.quarantine] <;> grind

/-- A reference removed from the entries of a list. -/
def dropRef (x : Ref) (xs : List QuarEntry) : List QuarEntry :=
  xs.map fun q => if q.ref = some x then { q with ref := none } else q

theorem stations_dropRef (x : Ref) (xs : List QuarEntry) :
    (dropRef x xs).map QuarEntry.station = xs.map QuarEntry.station := by
  unfold dropRef
  rw [List.map_map]
  refine List.map_congr_left fun q _ => ?_
  simp only [Function.comp_apply]
  split <;> rfl

theorem mem_dropRef {x : Ref} {xs : List QuarEntry} {q : QuarEntry} :
    q ∈ dropRef x xs ↔ (q ∈ xs ∧ q.ref ≠ some x) ∨ ∃ p ∈ xs, p.ref = some x ∧ q = { p with ref := none } := by
  unfold dropRef
  rw [List.mem_map]
  grind

theorem exists_dropRef {x : Ref} {xs : List QuarEntry} {st : Station} :
    (∃ q ∈ dropRef x xs, q.station = st) ↔ ∃ q ∈ xs, q.station = st := by
  constructor
  · rintro ⟨q, hq, rfl⟩
    rcases mem_dropRef.mp hq with h | ⟨p, hp, -, rfl⟩
    · exact ⟨q, h.1, rfl⟩
    · exact ⟨p, hp, rfl⟩
  · rintro ⟨q, hq, rfl⟩
    by_cases h : q.ref = some x
    · exact ⟨_, mem_dropRef.mpr (.inr ⟨q, hq, h, rfl⟩), rfl⟩
    · exact ⟨q, mem_dropRef.mpr (.inl ⟨hq, h⟩), rfl⟩

theorem ref_of_mem_dropRef {h : Handle} {g : Gen} {xs : List QuarEntry} (q : QuarEntry) (x : Ref)
    (hq : q ∈ dropRef ⟨h, g⟩ xs) (hx : q.ref = some x) : q ∈ xs ∧ ¬ (x.handle = h ∧ g = x.gen) := by
  rcases mem_dropRef.mp hq with ⟨h3, h4⟩ | ⟨p, -, -, rfl⟩
  · refine ⟨h3, fun e => h4 ?_⟩
    rw [hx]; cases x; simp_all
  · cases hx

theorem mem_dropRef_of_ref {h : Handle} {g : Gen} {xs : List QuarEntry} (q : QuarEntry) (x : Ref) (h1 : q ∈ xs)
    (h2 : q.ref = some x) (h3 : x ≠ ⟨h, g⟩) : q ∈ dropRef ⟨h, g⟩ xs :=
  mem_dropRef.mpr (.inl ⟨h1, by grind⟩)

/-- A LAPSED record is freed, its entry keeping the station. -/
theorem DirView.Ok.purge {v : DirView} (o : v.Ok) {h : Handle} {k : RecKey} (hk : v.key h = some k)
    (h1 : k.state = .lapsed) : ((v.free h).setQuar k.line (dropRef ⟨h, v.gen h⟩ (v.quar k.line))).Ok := by
  have ex := @exists_dropRef ⟨h, v.gen h⟩ (v.quar k.line)
  have m := @ref_of_mem_dropRef h (v.gen h) (v.quar k.line)
  have m' := @mem_dropRef_of_ref h (v.gen h) (v.quar k.line)
  have nd : ((dropRef ⟨h, v.gen h⟩ (v.quar k.line)).map QuarEntry.station).Nodup := by
    rw [stations_dropRef]; exact o.nodup _
  obtain ⟨held, target, quar, nodup, past, refs, ways, unique⟩ := o
  constructor <;> simp only [DirView.free, DirView.setQuar]
  case quar =>
    intro l st
    by_cases hl : l = k.line
    · subst hl; rw [if_pos rfl, ex]; exact quar _ _
    · rw [if_neg hl]; exact quar _ _
  all_goals grind

/-- A LAPSED record takes a FREE station, its entry keeping the old one. -/
theorem DirView.Ok.migrateLapsed {v : DirView} (o : v.Ok) {h : Handle} {k : RecKey} (hk : v.key h = some k)
    (h1 : k.state = .lapsed) {l : Line} {st : Station} {x : RecState} (hm : v.map l st = .free)
    (h3 : x ≠ .lapsed) (h4 : ∀ t, x ≠ .moving t) :
    (((v.setRec h ⟨k.identity, l, st, x⟩).setQuar k.line (dropRef ⟨h, v.gen h⟩ (v.quar k.line))).setMap l st
      (.held h)).Ok := by
  have ex := @exists_dropRef ⟨h, v.gen h⟩ (v.quar k.line)
  have m := @ref_of_mem_dropRef h (v.gen h) (v.quar k.line)
  have m' := @mem_dropRef_of_ref h (v.gen h) (v.quar k.line)
  have nd : ((dropRef ⟨h, v.gen h⟩ (v.quar k.line)).map QuarEntry.station).Nodup := by
    rw [stations_dropRef]; exact o.nodup _
  obtain ⟨held, target, quar, nodup, past, refs, ways, unique⟩ := o
  constructor <;> simp only [DirView.setRec, DirView.setMap, DirView.setQuar]
  case quar =>
    intro l' st'
    have q := quar l' st'
    by_cases hl : l' = k.line
    · subst hl; rw [if_pos rfl, ex, ← q]; grind
    · rw [if_neg hl, ← q]; grind
  all_goals grind

/-- A record takes a FREE station, its old one QUARANTINED. -/
theorem DirView.Ok.migrateHeld {v : DirView} (o : v.Ok) {h : Handle} {k : RecKey} (hk : v.key h = some k)
    (h1 : k.state ≠ .lapsed) (h2 : ∀ t, k.state ≠ .moving t) {l : Line} {st : Station} {x : RecState}
    (hm : v.map l st = .free) (h3 : x ≠ .lapsed) (h4 : ∀ t, x ≠ .moving t) (n : Nat) :
    (((v.setRec h ⟨k.identity, l, st, x⟩).quarantine k.line k.station n none).setMap l st (.held h)).Ok := by
  have a := o.holds hk h1
  obtain ⟨held, target, quar, nodup, past, refs, ways, unique⟩ := o
  have nd : ((v.quar k.line ++ [(⟨k.station, n, none⟩ : QuarEntry)]).map QuarEntry.station).Nodup :=
    nodup_append_station (nodup _) (by grind)
  constructor <;> simp only [DirView.setRec, DirView.setMap, DirView.setQuar, DirView.quarantine] <;> grind

/-- A list without the entry of a station. -/
structure Without (xs : List QuarEntry) (st : Station) (ys : List QuarEntry) : Prop where
  mem : ∀ q, q ∈ ys ↔ q ∈ xs ∧ q.station ≠ st
  nodup : (ys.map QuarEntry.station).Nodup

/-- A LAPSED record takes its station back. -/
theorem DirView.Ok.takeBack {v : DirView} (o : v.Ok) {h : Handle} {k : RecKey} (hk : v.key h = some k)
    (h1 : k.state = .lapsed) {ys : List QuarEntry} (w : Without (v.quar k.line) k.station ys) {x : RecState}
    (h3 : x ≠ .lapsed) (h4 : ∀ t, x ≠ .moving t) :
    (((v.setRec h { k with state := x }).setQuar k.line ys).setMap k.line k.station (.held h)).Ok := by
  obtain ⟨held, target, quar, nodup, past, refs, ways, unique⟩ := o
  obtain ⟨wm, wn⟩ := w
  have p := past h k hk h1
  have q := (quar k.line k.station).mpr (by grind)
  have u : ∀ l p q, p ∈ v.quar l → q ∈ v.quar l → p.station = q.station → p = q :=
    fun l p q hp hq e => entry_unique (nodup l) hp hq e
  constructor <;> simp only [DirView.setRec, DirView.setMap, DirView.setQuar] <;> grind

/-- An entry without a reference expires. -/
theorem DirView.Ok.expirePlain {v : DirView} (o : v.Ok) {l : Line} {q : QuarEntry} (hq : q ∈ v.quar l)
    (hr : q.ref = none) {ys : List QuarEntry} (w : Without (v.quar l) q.station ys) :
    ((v.setQuar l ys).setMap l q.station .free).Ok := by
  obtain ⟨held, target, quar, nodup, past, refs, ways, unique⟩ := o
  obtain ⟨wm, wn⟩ := w
  have p := (quar l q.station).mpr (by grind)
  have u : ∀ q', q' ∈ v.quar l → q'.station = q.station → q' = q := by
    exact fun q' h1 h2 => entry_unique (nodup l) h1 hq h2
  constructor <;> simp only [DirView.setMap, DirView.setQuar] <;> grind

/-- An entry with a reference expires, and the record is freed. -/
theorem DirView.Ok.expireRef {v : DirView} (o : v.Ok) {l : Line} {q : QuarEntry} (hq : q ∈ v.quar l) {x : Ref}
    (hr : q.ref = some x) {ys : List QuarEntry} (w : Without (v.quar l) q.station ys) :
    (((v.free x.handle).setQuar l ys).setMap l q.station .free).Ok := by
  obtain ⟨held, target, quar, nodup, past, refs, ways, unique⟩ := o
  obtain ⟨wm, wn⟩ := w
  have p := (quar l q.station).mpr (by grind)
  have u : ∀ q', q' ∈ v.quar l → q'.station = q.station → q' = q := by
    exact fun q' h1 h2 => entry_unique (nodup l) h1 hq h2
  constructor <;> simp only [DirView.setMap, DirView.setQuar, DirView.free] <;> grind

/-! ### The view of a state -/

theorem State.directoryLaw_iff (s : State) : s.DirectoryLaw ↔ s.view.Ok := by
  have key : ∀ (h : Handle) (p : RecKey → Prop),
      (∃ k, s.view.key h = some k ∧ p k) ↔ ∃ r, s.record? h = some r ∧ p r.key := by
    intro h p
    simp only [State.view, Option.map_eq_some_iff]
    constructor
    · rintro ⟨k, ⟨r, h1, rfl⟩, h2⟩; exact ⟨r, h1, h2⟩
    · rintro ⟨r, h1, h2⟩; exact ⟨_, ⟨r, h1, rfl⟩, h2⟩
  have all : ∀ (h : Handle) (p : RecKey → Prop),
      (∀ k, s.view.key h = some k → p k) ↔ ∀ r, s.record? h = some r → p r.key := by
    intro h p
    simp only [State.view, Option.map_eq_some_iff]
    constructor
    · intro a r h1; exact a _ ⟨r, h1, rfl⟩
    · rintro a k ⟨r, h1, rfl⟩; exact a r h1
  constructor
  · rintro ⟨hm, hq, ⟨h1, h2⟩, h3, h4⟩
    refine ⟨fun l st h => ?_, fun l st h => ?_, fun l => (hq l).1, fun l => (hq l).2, fun h => ?_, ?_, fun h => ?_, ?_⟩
    · rw [key]; exact (hm l st h).1
    · rw [key]; exact (hm l st h).2
    · rw [all]; exact fun r hr hs => h1 h r hr hs
    · intro l q hm x hx
      obtain ⟨r, a, b⟩ := h2 l q x hm hx
      obtain ⟨c, d⟩ := State.current?_eq_some.mp a
      exact ⟨c, (key _ _).mpr ⟨r, d, b⟩⟩
    · rw [all]; exact h3 h
    · intro h h' k k' a b
      simp only [State.view, Option.map_eq_some_iff] at a b
      obtain ⟨r, ha, rfl⟩ := a
      obtain ⟨r', hb, rfl⟩ := b
      exact h4 h h' r r' ha hb
  · rintro ⟨held, target, quar, nodup, past, refs, ways, unique⟩
    refine ⟨fun l st h => ⟨?_, ?_⟩, fun l => ⟨quar l, nodup l⟩, ⟨fun h => ?_, fun l q x hm hx => ?_⟩, fun h => ?_, ?_⟩
    · exact (held l st h).trans (key h _)
    · exact (target l st h).trans (key h _)
    · exact fun r hr => (all h _).mp (past h) r hr
    · obtain ⟨a, b⟩ := refs l q hm x hx
      obtain ⟨r, c, d⟩ := (key _ _).mp b
      exact ⟨r, State.current?_eq_some.mpr ⟨a, c⟩, d⟩
    · exact (all h _).mp (ways h)
    · intro h h' r r' a b
      exact unique h h' r.key r'.key (by simp [State.view, a]) (by simp [State.view, b])

theorem State.view_congr {s t : State} (hs : ∀ h, t.slot h = s.slot h) (hm : t.dir.maps = s.dir.maps)
    (hq : t.dir.quar = s.dir.quar) : t.view = s.view := by
  unfold State.view
  congr 1
  · funext h; simp only [State.record?, hs]
  · funext h; rw [hs]
  · funext l st; simp only [State.mapAt, hm]
  · funext l; simp only [State.quarOf, hq]

theorem State.view_of_dir {s t : State} (h : t.dir = s.dir) : t.view = s.view :=
  State.view_congr (fun k => by unfold State.slot; rw [h]) (by rw [h]) (by rw [h])

@[simp] theorem State.view_setLine (s : State) (l : Line) (e : LineEngine) : (s.setLine l e).view = s.view := rfl
@[simp] theorem State.view_modLine (s : State) (l : Line) (f : LineEngine → LineEngine) :
    (s.modLine l f).view = s.view := rfl
@[simp] theorem State.view_bump (s : State) (l : Line) (c : Ctr) : (s.bump l c).view = s.view := rfl
@[simp] theorem State.view_raiseAlarm (s : State) (a : Alarm) : (s.raiseAlarm a).view = s.view := rfl
theorem State.view_setGroups (s : State) (v : Vector GroupEntry 16) :
    State.view { s with dir := { s.dir with groups := v } } = s.view := rfl
@[simp] theorem State.view_grant (s : State) : s.grant.view = s.view := State.view_of_dir (by simp)
@[simp] theorem State.view_countIntake (s : State) (l : Line) (i : Intake) : (s.countIntake l i).view = s.view := rfl

@[simp] theorem State.view_mark (s : State) (h : Handle) (a : ChangeMask) : (s.mark h a).view = s.view := by
  unfold State.view
  congr 1
  · funext k; rw [State.record?_mark]
  · funext k; rw [State.slot_mark]; split <;> simp_all
  · funext l st; rw [State.mapAt_mark]
  · funext l; rw [State.quarOf_mark]

@[simp] theorem State.view_setMap (s : State) (l : Line) (st : Station) (e : MapEntry) :
    (s.setMap l st e).view = s.view.setMap l st e := by
  unfold State.view DirView.setMap
  congr 1
  funext k x
  exact State.mapAt_setMap s l k st x e

@[simp] theorem State.view_setQuar (s : State) (l : Line) (q : List QuarEntry) :
    (s.setQuar l q).view = s.view.setQuar l q := by
  unfold State.view DirView.setQuar
  congr 1
  funext k
  exact PerLine.get_set ..

@[simp] theorem State.view_quarantine (s : State) (l : Line) (st : Station) (x : Option Ref) :
    (s.quarantine l st x).view = s.view.quarantine l st s.arb.grantCfg.quarHold x := by
  unfold State.quarantine DirView.quarantine
  rw [State.view_setMap, State.view_setQuar]
  rfl

@[simp] theorem State.view_setRecord (s : State) (h : Handle) (r : Record) :
    (s.setRecord h r).view = s.view.setRec h r.key := by
  unfold State.view DirView.setRec
  congr 1
  · funext k
    simp only [State.record?, State.slot_setRecord]
    split <;> rfl
  · funext k; rw [State.gen_setRecord]

theorem DirView.setRec_same {v : DirView} {h : Handle} {k : RecKey} (hk : v.key h = some k) : v.setRec h k = v := by
  unfold DirView.setRec
  congr 1
  funext i
  split
  · next e => rw [e, hk]
  · rfl

@[simp] theorem DirView.setRec_setRec (v : DirView) (h : Handle) (k k' : RecKey) :
    (v.setRec h k).setRec h k' = v.setRec h k' := by
  unfold DirView.setRec
  congr 1
  funext i
  dsimp only
  split <;> rfl

@[simp] theorem DirView.setQuar_setQuar (v : DirView) (l : Line) (a b : List QuarEntry) :
    (v.setQuar l a).setQuar l b = v.setQuar l b := by
  unfold DirView.setQuar
  congr 1
  funext k
  dsimp only
  split <;> rfl

@[simp] theorem DirView.free_setRec (v : DirView) (h : Handle) (k : RecKey) : (v.setRec h k).free h = v.free h := by
  unfold DirView.setRec DirView.free
  congr 1
  funext i
  dsimp only
  split <;> rfl

theorem State.key_view {s : State} {h : Handle} {r : Record} (hr : s.record? h = some r) :
    s.view.key h = some r.key := by
  simp [State.view, hr]

/-- A change of a record that the laws do not read. -/
theorem State.view_setRecord_same {s : State} {h : Handle} {q r : Record} (hr : s.record? h = some q)
    (hk : r.key = q.key) : (s.setRecord h r).view = s.view := by
  rw [State.view_setRecord, hk, DirView.setRec_same (State.key_view hr)]

theorem State.view_modRecord (s : State) (h : Handle) (f : Record → Record) (hk : ∀ r : Record, (f r).key = r.key) :
    (s.modRecord h f).view = s.view := by
  cases hr : s.record? h with
  | none => simp only [State.modRecord, hr]
  | some r => rw [State.modRecord_eq _ _ _ _ hr]; exact State.view_setRecord_same hr (hk r)

@[simp] theorem State.view_withdrawRequest (s : State) (h : Handle) : (s.withdrawRequest h).view = s.view := by
  cases hr : s.record? h with
  | none => simp only [State.withdrawRequest, hr]
  | some r =>
    obtain ⟨e, -, q, -⟩ := s.withdrawRequest_eq h r hr
    rw [q]
    exact State.view_setRecord_same (s := s.setLine r.line e) (q := r) hr rfl

@[simp] theorem State.view_withdrawDirected (s : State) (h : Handle) : (s.withdrawDirected h).view = s.view := by
  unfold State.withdrawDirected
  repeat' split
  all_goals rfl

@[simp] theorem State.view_emptySlot (s : State) (h : Handle) (r : Record) : (s.emptySlot h r).view = s.view.free h := by
  unfold State.emptySlot State.view DirView.free
  dsimp only
  congr 1
  · funext k
    show (State.record? (s.setSlot h _) k).map _ = _
    simp only [State.record?, State.slot_setSlot]
    split <;> rfl
  · funext k
    show (State.slot (s.setSlot h _) k).gen = _
    rw [State.slot_setSlot]
    split <;> rfl

@[simp] theorem State.view_markFreed (s : State) (h : Handle) (o : RecOutcome) (m : ChangeMask) :
    (s.markFreed h o m).view = s.view := by
  unfold State.markFreed
  rw [State.view_mark]
  unfold State.view
  congr 1
  · funext k; simp only [State.record?, State.slot_setSlot]; split <;> simp_all
  · funext k; rw [State.slot_setSlot]; split <;> simp_all

theorem State.view_freeMarked {s : State} {h : Handle} {r : Record} (m : ChangeMask) (hr : s.record? h = some r) :
    (s.freeMarked h m).view = s.view.free h := by
  simp only [State.freeMarked, hr, State.view_markFreed, State.view_emptySlot, State.view_withdrawRequest,
    State.view_withdrawDirected]

theorem State.view_freeByHost {s : State} {h : Handle} {r : Record} (hr : s.record? h = some r) :
    (s.freeByHost h).view = s.view.free h := by
  simp only [State.freeByHost, hr]
  split <;> simp

theorem State.view_placeRecord (s : State) (h : Handle) (r : Record) :
    (s.placeRecord h r).view = s.view.setRec h r.key := by
  unfold State.view DirView.setRec
  congr 1
  · funext k
    simp only [State.record?, State.slot_placeRecord]
    split <;> rfl
  · funext k; simp only [State.slot_placeRecord]; split <;> simp_all

theorem State.view_returnToReserved {s : State} {h : Handle} {r : Record} (o : RecOutcome) (hr : s.record? h = some r) :
    (s.returnToReserved h o).view = s.view.setRec h { r.key with state := .reserved } := by
  obtain ⟨e, -, q⟩ := s.returnToReserved_eq h o r hr
  rw [q, State.view_mark, State.view_setRecord, State.view_setLine]
  rfl

theorem State.view_endRecord {s : State} {h : Handle} {r : Record} (o : RecOutcome) (hr : s.record? h = some r) :
    (s.endRecord h o).view = if r.pinned then s.view.setRec h { r.key with state := .reserved }
      else (s.view.free h).quarantine r.line r.station s.arb.grantCfg.quarHold none := by
  rw [s.endRecord_eq h o r hr]
  split
  · exact State.view_returnToReserved o hr
  · have e : (s.setRecord h { r with outcome := o }).view = s.view := State.view_setRecord_same hr rfl
    rw [State.view_freeMarked (r := { r with outcome := o }) _ (by simp), State.view_quarantine, e]
    rfl

theorem State.view_abandonMove (s : State) (h : Handle) (l : Line) (t : Station) :
    (s.abandonMove h l t).view = if s.moveSent h then s.view.quarantine l t s.arb.grantCfg.quarHold none
      else s.view.setMap l t .free := by
  unfold State.abandonMove
  dsimp only
  split
  · rw [State.view_quarantine]; rfl
  · rw [State.view_setMap]; rfl

/-! ### A record that may leave its station -/

/-- The view with a record in BOUND obeys the laws: the record has no target, or its move has been abandoned. -/
def DirView.Settled (v : DirView) (h : Handle) (k : RecKey) : Prop := (v.setRec h { k with state := .bound }).Ok

theorem DirView.Ok.settled {v : DirView} (o : v.Ok) {h : Handle} {k : RecKey} (hk : v.key h = some k)
    (h1 : k.state ≠ .lapsed) (h2 : ∀ t, k.state ≠ .moving t) : v.Settled h k :=
  o.relabel hk h1 h2 (by decide) (by decide)

theorem DirView.key_setRec (v : DirView) (h : Handle) (k : RecKey) : (v.setRec h k).key h = some k := if_pos rfl

theorem DirView.Settled.relabel {v : DirView} {h : Handle} {k : RecKey} (o : v.Settled h k) {st : RecState}
    (h3 : st ≠ .lapsed) (h4 : ∀ t, st ≠ .moving t) : (v.setRec h { k with state := st }).Ok := by
  have := DirView.Ok.relabel o (DirView.key_setRec ..) (by simp) (by simp) h3 h4
  rwa [DirView.setRec_setRec] at this

theorem DirView.Settled.freeQuar {v : DirView} {h : Handle} {k : RecKey} (o : v.Settled h k) (n : Nat) :
    ((v.free h).quarantine k.line k.station n none).Ok := by
  have := DirView.Ok.freeQuar o (DirView.key_setRec ..) (by simp) (by simp) n
  rwa [DirView.free_setRec] at this

theorem DirView.Settled.freeHeld {v : DirView} {h : Handle} {k : RecKey} (o : v.Settled h k) :
    ((v.free h).setMap k.line k.station .free).Ok := by
  have := DirView.Ok.freeHeld o (DirView.key_setRec ..) (by simp) (by simp)
  rwa [DirView.free_setRec] at this

theorem DirView.Settled.lapse {v : DirView} {h : Handle} {k : RecKey} (o : v.Settled h k) (n : Nat) :
    ((v.setRec h { k with state := .lapsed }).quarantine k.line k.station n (some ⟨h, v.gen h⟩)).Ok := by
  have := DirView.Ok.lapse o (DirView.key_setRec ..) (by simp) (by simp) n
  rwa [DirView.setRec_setRec] at this

/-- The record of a slot after its move, if it has one, has been abandoned. -/
theorem State.settled_abandonMove {s : State} (o : s.view.Ok) {h : Handle} {r : Record} (hr : s.record? h = some r)
    {t : Station} (ht : r.state = .moving t) : (s.abandonMove h r.line t).view.Settled h r.key := by
  unfold DirView.Settled
  rw [State.view_abandonMove]
  split
  · exact o.endMoveQuar (State.key_view hr) ht (by decide) (by decide) _
  · exact o.endMoveFree (State.key_view hr) ht (by decide) (by decide)

theorem State.settled {s : State} (o : s.view.Ok) {h : Handle} {r : Record} (hr : s.record? h = some r)
    (h1 : r.state ≠ .lapsed) (h2 : ∀ t, r.state ≠ .moving t) : s.view.Settled h r.key :=
  o.settled (State.key_view hr) h1 h2

theorem State.ok_endRecord {s : State} {h : Handle} {r : Record} (x : RecOutcome) (hr : s.record? h = some r)
    (o : s.view.Settled h r.key) : (s.endRecord h x).view.Ok := by
  rw [State.view_endRecord x hr]
  split
  · exact o.relabel (by decide) (by decide)
  · exact o.freeQuar _

theorem State.ok_lapseRecord {s : State} {h : Handle} {r : Record} (o : s.view.Ok) (hr : s.record? h = some r)
    (h1 : r.state ≠ .lapsed) : (s.lapseRecord h).view.Ok := by
  obtain ⟨s1, e, hs, -, q⟩ := s.lapseRecord_eq h r hr
  have hset : s1.view.Settled h r.key := by
    rcases hs with ⟨t, ht, rfl⟩ | ⟨hn, rfl⟩
    · exact State.settled_abandonMove o hr ht
    · exact State.settled o hr h1 hn
  have hgen : s1.view.gen h = (s.slot h).gen := by
    rcases hs with ⟨t, ht, rfl⟩ | ⟨hn, rfl⟩
    · exact congrArg Slot.gen (State.slot_abandonMove s h h r.line t)
    · rfl
  rw [q, State.view_mark, State.view_setRecord, State.view_setLine]
  by_cases hp : r.pinned = true
  · rw [if_pos hp]
    have k : r.afterLapse.key = { r.key with state := .reserved } := by unfold Record.afterLapse; rw [if_pos hp]; rfl
    rw [k]
    exact hset.relabel (by decide) (by decide)
  · rw [if_neg hp]
    have k : r.afterLapse.key = { r.key with state := .lapsed } := by unfold Record.afterLapse; rw [if_neg hp]; rfl
    have := hset.lapse s1.arb.grantCfg.quarHold
    rw [hgen] at this
    rw [k, State.view_quarantine]
    exact this

/-! ### The sweep (R52, R61, R62) -/

theorem State.ok_setLease {s : State} {h : Handle} {r : Record} (n : Nat) (o : s.view.Ok) (hr : s.record? h = some r) :
    (s.setRecord h { r with leaseRemaining := n }).view.Ok := by
  have e : (s.setRecord h { r with leaseRemaining := n }).view = s.view := State.view_setRecord_same hr rfl
  rw [e]; exact o

theorem State.ok_ageSlot {s : State} (h : Handle) (o : s.view.Ok) : (s.ageSlot h).view.Ok := by
  unfold State.ageSlot
  split
  · exact o
  · next r hr =>
    split
    · next ha =>
      dsimp only
      have o' := State.ok_setLease (r.leaseRemaining - 1) o hr
      split
      · refine State.ok_lapseRecord (r := { r with leaseRemaining := r.leaseRemaining - 1 }) o' (by simp) fun e => ?_
        change r.state = .lapsed at e
        simp [State.ages, e, RecState.leaseRuns] at ha
      · exact o'
    · exact o

/-- A visit by an operation that keeps the laws keeps them. -/
theorem ok_visit (f : State → Handle → State) (hf : ∀ s h, s.view.Ok → (f s h).view.Ok) :
    ∀ (hs : List Handle) (s : State), s.view.Ok → (hs.foldl f s).view.Ok
  | [], _, o => o
  | h :: hs, s, o => ok_visit f hf hs _ (hf s h o)

/-- A list whose entries agree with another's but for their order and their holds. -/
theorem DirView.Ok.sameEntries {v : DirView} (o : v.Ok) {l : Line} {xs : List QuarEntry}
    (hm : ∀ st x, (∃ q ∈ xs, q.station = st ∧ q.ref = x) ↔ ∃ q ∈ v.quar l, q.station = st ∧ q.ref = x)
    (hn : (xs.map QuarEntry.station).Nodup) : (v.setQuar l xs).Ok := by
  obtain ⟨held, target, quar, nodup, past, refs, ways, unique⟩ := o
  have ex : ∀ st, (∃ q ∈ xs, q.station = st) ↔ ∃ q ∈ v.quar l, q.station = st := fun st =>
    ⟨fun ⟨q, a, b⟩ => (by obtain ⟨p, c, d, -⟩ := (hm st q.ref).mp ⟨q, a, b, rfl⟩; exact ⟨p, c, d⟩),
      fun ⟨q, a, b⟩ => (by obtain ⟨p, c, d, -⟩ := (hm st q.ref).mpr ⟨q, a, b, rfl⟩; exact ⟨p, c, d⟩)⟩
  refine ⟨held, target, fun k st => ?_, fun k => ?_, fun h k hk hs => ?_, fun k q hq x hx => ?_, ways, unique⟩
  · show _ ↔ ∃ q ∈ (if k = l then xs else v.quar k), q.station = st
    split
    · next e => rw [ex, ← e]; exact quar _ _
    · exact quar _ _
  · show ((if k = l then xs else v.quar k).map QuarEntry.station).Nodup
    split
    · exact hn
    · exact nodup k
  · show ∃ q ∈ (if k.line = l then xs else v.quar k.line), _
    split
    · next e => rw [hm, ← e]; exact past h k hk hs
    · exact past h k hk hs
  · change q ∈ (if k = l then xs else v.quar k) at hq
    split at hq
    · next e =>
      obtain ⟨p, a, b, c⟩ := (hm q.station (some x)).mp ⟨q, hq, rfl, hx⟩
      have := refs l p a x c
      rw [b] at this
      rw [e]
      exact this
    · exact refs k q hq x hx

theorem State.ok_expireEntry {s : State} {l : Line} {q : QuarEntry} {ps : List QuarEntry} {xs : List QuarEntry}
    (hx : s.quarOf l = xs) (o : (s.view.setQuar l (q :: ps ++ xs)).Ok) :
    (s.expireEntry l q).quarOf l = xs ∧ ((s.expireEntry l q).view.setQuar l (ps ++ xs)).Ok := by
  have hq : q ∈ (s.view.setQuar l (q :: ps ++ xs)).quar l := by
    show q ∈ if l = l then _ else _
    simp
  have w : Without ((s.view.setQuar l (q :: ps ++ xs)).quar l) q.station (ps ++ xs) := by
    have hn := o.nodup l
    change ((if l = l then q :: ps ++ xs else _).map QuarEntry.station).Nodup at hn
    rw [if_pos rfl] at hn
    simp only [List.cons_append, List.map_cons, List.nodup_cons] at hn
    refine ⟨fun p => ?_, hn.2⟩
    show _ ↔ p ∈ (if l = l then q :: ps ++ xs else _) ∧ _
    rw [if_pos rfl]
    have : ∀ p ∈ ps ++ xs, p.station ≠ q.station := fun p hp e => hn.1 (List.mem_map.mpr ⟨p, hp, e⟩)
    simp only [List.cons_append, List.mem_cons]
    grind
  unfold State.expireEntry
  dsimp only
  split
  · next hr =>
    refine ⟨hx, ?_⟩
    have := o.expirePlain hq hr w
    rw [DirView.setQuar_setQuar] at this
    rw [State.view_setMap]
    exact this
  · next x hr =>
    obtain ⟨a, k, b, -⟩ := o.refs l q hq x hr
    have hc : ∃ r, (s.setMap l q.station .free).current? x = some r := by
      change (s.record? x.handle).map Record.key = some k at b
      cases hrec : s.record? x.handle with
      | none => rw [hrec] at b; cases b
      | some r => exact ⟨r, State.current?_eq_some.mpr ⟨a, hrec⟩⟩
    obtain ⟨r, hc⟩ := hc
    rw [hc]
    dsimp only
    have hrec := State.record?_of_current? hc
    refine ⟨?_, ?_⟩
    · rw [State.quarOf, State.quar_freeMarked]; exact hx
    · have := o.expireRef hq hr w
      rw [show ((s.view.setQuar l (q :: ps ++ xs)).free x.handle).setQuar l (ps ++ xs)
        = (s.view.free x.handle).setQuar l (ps ++ xs) from DirView.setQuar_setQuar (s.view.free x.handle) _ _ _] at this
      rw [State.view_freeMarked _ hrec, State.view_setMap]
      exact this

theorem State.ok_expireEntries (l : Line) (xs : List QuarEntry) : ∀ (ps : List QuarEntry) (s : State), s.quarOf l = xs →
    (s.view.setQuar l (ps ++ xs)).Ok → (ps.foldl (fun s q => s.expireEntry l q) s).view.Ok
  | [], s, hx, o => by
    have : s.view.setQuar l xs = s.view := by
      unfold DirView.setQuar State.view
      congr 1
      funext k
      dsimp only
      split
      · next e => rw [e, hx]
      · rfl
    rwa [List.nil_append, this] at o
  | q :: ps, s, hx, o => by
    obtain ⟨a, b⟩ := State.ok_expireEntry hx o
    exact State.ok_expireEntries l xs ps _ a b

/-- A list split by a test and put together again. -/
theorem ok_split {v : DirView} {l : Line} (o : v.Ok) (ys : List QuarEntry) (p : QuarEntry → Bool)
    (hm : ∀ st x, (∃ q ∈ ys, q.station = st ∧ q.ref = x) ↔ ∃ q ∈ v.quar l, q.station = st ∧ q.ref = x)
    (hn : (ys.map QuarEntry.station).Nodup) : (v.setQuar l (ys.filter p ++ ys.filter fun q => !p q)).Ok := by
  refine o.sameEntries (fun st x => ?_) ?_
  · rw [← hm]
    simp only [List.mem_append, List.mem_filter]
    constructor
    · rintro ⟨q, h | h, e⟩
      · exact ⟨q, h.1, e⟩
      · exact ⟨q, h.1, e⟩
    · rintro ⟨q, h, e⟩
      cases hp : p q
      · exact ⟨q, .inr ⟨h, by simp [hp]⟩, e⟩
      · exact ⟨q, .inl ⟨h, hp⟩, e⟩
  · have := (List.filter_append_perm p ys).map QuarEntry.station
    exact (this.nodup_iff).mpr hn

theorem State.ok_quarStageOf {s : State} (l : Line) (o : s.view.Ok) : (s.quarStageOf l).view.Ok := by
  unfold State.quarStageOf
  dsimp only
  refine State.ok_expireEntries l (((s.quarOf l).map QuarEntry.age).filter fun q => q.hold != 0) _ _
    (PerLine.get_set_self ..) ?_
  rw [State.view_setQuar, DirView.setQuar_setQuar]
  refine ok_split o ((s.quarOf l).map QuarEntry.age) (fun q => q.hold == 0) (fun st x => ?_) ?_
  · simp only [List.mem_map]
    constructor
    · rintro ⟨_, ⟨q, h, rfl⟩, e⟩; exact ⟨q, h, e⟩
    · rintro ⟨q, h, e⟩; exact ⟨_, ⟨q, h, rfl⟩, e⟩
  · rw [List.map_map]; exact o.nodup l

theorem State.ok_quarStage {s : State} (o : s.view.Ok) : s.quarStage.view.Ok :=
  State.ok_quarStageOf _ (State.ok_quarStageOf _ o)

theorem State.ok_quarantineExpiry {s : State} {l : Line} {q : QuarEntry} {p : QuarEntry → Bool} (o : s.view.Ok)
    (hq : (s.quarOf l).find? p = some q) : ((s.setQuar l ((s.quarOf l).eraseP p)).expireEntry l q).view.Ok := by
  have perm : (q :: (s.quarOf l).eraseP p).Perm (s.quarOf l) := by
    obtain ⟨hp, as, bs, he, hn⟩ := List.find?_eq_some_iff_append.mp hq
    rw [he, List.eraseP_append_right _ (by simpa using hn), List.eraseP_cons_of_pos hp]
    exact List.perm_middle.symm
  refine State.ok_expireEntries l _ [q] _ (PerLine.get_set_self ..) ?_
  rw [State.view_setQuar, DirView.setQuar_setQuar]
  refine o.sameEntries (fun st x => ?_) ?_
  · simp only [List.singleton_append, perm.mem_iff]; rfl
  · exact ((perm.map QuarEntry.station).nodup_iff).mpr (o.nodup l)

/-! ### Host commands (R40, R138, R144 to R146, R175 to R177) -/

/-- A command that names a record acts on it or leaves the records, the maps and the lists. -/
theorem State.ok_withReference {s : State} (o : s.view.Ok) (r : RefOperand) (act : Handle → Record → State × Reply)
    (h : ∀ (k : Handle) (q : Record), s.record? k = some q → (act k q).1.view.Ok) : (s.withReference r act).1.view.Ok := by
  unfold State.withReference
  split
  · exact o
  · split
    · exact o
    · split
      · exact o
      · split
        · exact o
        · next hr => exact h _ _ hr
  · split
    · exact o
    · next hc => exact h _ _ (State.record?_of_current? hc)

theorem mem_waysOf_of_freeWay {s : State} {id : Identity} {h : Handle} (hw : s.freeWay? id = some h) :
    h ∈ waysOf (setIndex id) := by
  unfold State.freeWay? at hw
  split at hw
  · next k hk => cases hw; exact List.mem_of_find?_eq_some hk
  · exact List.mem_of_find?_eq_some hw

/-- A lookup that finds nothing: no record has the identity (R4). -/
theorem State.absent_of_lookup {s : State} (o : s.view.Ok) {id : Identity} (hn : s.lookup? id = none) (h : Handle)
    (k : RecKey) (hk : s.view.key h = some k) : k.identity ≠ id := by
  intro e
  have hw := o.ways h k hk
  rw [e] at hw
  have := List.find?_eq_none.mp hn h hw
  simp only [State.view, Option.map_eq_some_iff] at hk
  obtain ⟨r, hr, rfl⟩ := hk
  change (s.slot h).content = some r at hr
  simp only [Slot.holds, hr] at this
  exact this (beq_iff_eq.mpr e)

theorem State.ok_place {s : State} (o : s.view.Ok) {id : Identity} {h : Handle} {r : Record} (hi : r.identity = id)
    (hw : s.freeWay? id = some h) (hn : s.lookup? id = none) (hm : s.mapAt r.line r.station = .free)
    (h1 : r.state ≠ .lapsed) (h2 : ∀ t, r.state ≠ .moving t) :
    ((s.placeRecord h r).setMap r.line r.station (.held h)).view.Ok := by
  subst hi
  rw [State.view_setMap, State.view_placeRecord]
  refine o.place ?_ hm h1 h2 (mem_waysOf_of_freeWay hw) (State.absent_of_lookup o hn)
  simp [State.view, State.record?, State.freeWay_free hw]

theorem State.ok_reserve {s : State} (o : s.view.Ok) (id : Identity) (line st : Byte) (n : Nat) :
    (s.reserve id line st n).1.view.Ok := by
  have on : ∀ (l : Line) (x : Option Station), (s.reserveOn id l x n).1.view.Ok := by
    intro l x
    unfold State.reserveOn
    split
    · exact o
    · next hn =>
      split
      · exact o
      · next h hw =>
        have at' : ∀ y : Station, s.mapAt l y = .free → (s.reserveAt id l h y n).1.view.Ok := fun y hy =>
          State.ok_place (r := Record.reserved id l y (if n = 0 then s.arb.grantCfg.leaseLength else n)) o rfl hw hn hy
            (by simp [Record.reserved]) (by simp [Record.reserved])
        split
        · split
          · next hm => exact at' _ hm
          · exact o
        · split
          · next y hy => exact at' y (by simpa using List.find?_some hy)
          · exact o
  unfold State.reserve
  split
  · exact o
  · split
    · exact o
    · split
      · exact on _ _
      · split
        · exact o
        · exact on _ _

theorem State.ok_sameKey {s : State} (o : s.view.Ok) {h : Handle} {q r : Record} (hr : s.record? h = some q)
    (hk : r.key = q.key) : (s.setRecord h r).view.Ok := by
  rw [State.view_setRecord_same hr hk]; exact o

theorem State.ok_pinCommand {s : State} (o : s.view.Ok) (r : RefOperand) : (s.pinCommand r).1.view.Ok := by
  refine State.ok_withReference o r _ fun k q hq => ?_
  split
  · exact State.ok_sameKey o hq rfl
  · exact State.ok_sameKey o hq rfl
  · exact o

theorem State.ok_unpinCommand {s : State} (o : s.view.Ok) (r : RefOperand) : (s.unpinCommand r).1.view.Ok := by
  refine State.ok_withReference o r _ fun k q hq => ?_
  split
  · exact o
  · split
    · next hs =>
      have set := State.settled o hq (by simp [hs]) (by simp [hs])
      dsimp only
      split
      · rw [State.view_freeByHost (r := q) (by exact hq), State.view_quarantine]
        exact set.freeQuar _
      · rw [State.view_freeByHost (r := q) (by exact hq), State.view_setMap]
        exact set.freeHeld
    · exact State.ok_sameKey o hq rfl

theorem State.ok_placeRelease {s : State} {h : Handle} {r : Record} (hr : s.record? h = some r)
    (o : s.view.Settled h r.key) (l : Line) (d : Dest) : (s.placeRelease h l d).view.Ok := by
  unfold State.placeRelease
  rw [State.view_modLine, State.modRecord_eq _ _ _ _ hr, State.view_setRecord]
  exact o.relabel (st := .retiring) (by decide) (by decide)

theorem State.ok_retireTaken {s : State} (o : s.view.Ok) {h : Handle} {r : Record} (hr : s.record? h = some r)
    (h1 : r.state ≠ .lapsed) : (s.retireTaken h r).1.view.Ok := by
  unfold State.retireTaken
  split
  · next hs => exact State.ok_endRecord _ hr (State.settled o hr h1 (by simp [hs]))
  · next t hs => exact State.ok_placeRelease (by simpa using hr) (State.settled_abandonMove o hr hs) _ _
  · next hj hm => exact State.ok_placeRelease hr (State.settled o hr h1 fun t e => hm t e) _ _

theorem State.ok_retireCommand {s : State} (o : s.view.Ok) (r : RefOperand) (b : Byte) :
    (s.retireCommand r b).1.view.Ok := by
  unfold State.retireCommand
  split
  · exact o
  · refine State.ok_withReference o r _ fun k q hq => ?_
    split
    · exact o
    · exact o
    · exact o
    · next h1 h2 h3 =>
      split
      · exact o
      · split
        · exact o
        · dsimp only
          have hk : (if b = 1 then { q with pinned := false } else q).key = q.key := by split <;> rfl
          refine State.ok_retireTaken (State.ok_sameKey o hq hk) (State.record?_setRecord_self ..) ?_
          intro e
          exact h3 ((congrArg RecKey.state hk).symm.trans e)

theorem State.ok_reassignCommand {s : State} (o : s.view.Ok) (r : RefOperand) (b : Byte) :
    (s.reassignCommand r b).1.view.Ok := by
  unfold State.reassignCommand
  split
  · exact o
  · refine State.ok_withReference o r _ fun k q hq => ?_
    repeat' split
    all_goals try exact o
    next hb _ _ hm _ =>
      unfold State.reassignTaken
      rw [State.view_modLine, State.view_setMap, State.view_setRecord]
      refine o.startMove (State.key_view hq) ?_ ?_ ?_
      · show q.state ≠ .lapsed
        grind
      · show ∀ t, q.state ≠ .moving t
        grind
      · exact Decidable.of_not_not hm

theorem State.ok_purgeCommand {s : State} (o : s.view.Ok) (r : RefOperand) : (s.purgeCommand r).1.view.Ok := by
  refine State.ok_withReference o r _ fun k q hq => ?_
  split
  · next hs =>
    rw [State.view_freeByHost (r := q) (by exact hq), State.dropQuarRef, State.view_setQuar]
    exact o.purge (State.key_view hq) hs
  · exact o

theorem State.ok_setLeaseCommand {s : State} (o : s.view.Ok) (r : RefOperand) (n : Nat) (b : Byte) :
    (s.setLeaseCommand r n b).1.view.Ok := by
  unfold State.setLeaseCommand
  split
  · exact o
  · exact State.ok_withReference o r _ fun k q hq => State.ok_sameKey o hq rfl

theorem State.ok_setGroupsCommand {s : State} (o : s.view.Ok) (r : RefOperand) (v : BitVec 16) :
    (s.setGroupsCommand r v).1.view.Ok := by
  refine State.ok_withReference o r _ fun k q hq => ?_
  split
  · exact o
  · have e := State.ok_sameKey (r := { q with groups := v }) o hq rfl
    dsimp only
    rw [State.view_setGroups]
    exact e

theorem State.ok_setGroupLimitCommand {s : State} (o : s.view.Ok) (g n : Byte) :
    (s.setGroupLimitCommand g n).1.view.Ok := by
  unfold State.setGroupLimitCommand
  split
  · dsimp only
    split <;> exact o
  · exact o

theorem State.ok_setTagCommand {s : State} (o : s.view.Ok) (r : RefOperand) (bs : List Byte) :
    (s.setTagCommand r bs).1.view.Ok := by
  unfold State.setTagCommand
  split
  · exact o
  · exact State.ok_withReference o r _ fun k q hq => State.ok_sameKey o hq rfl

theorem State.ok_ackChangeCommand {s : State} (o : s.view.Ok) (h : Handle) (g : Gen) :
    (s.ackChangeCommand h g).1.view.Ok := by
  unfold State.ackChangeCommand
  split
  · have hs : ∀ k, ((s.acknowledge h).slot k).content = (s.slot k).content
        ∧ ((s.acknowledge h).slot k).gen = (s.slot k).gen := by
      intro k
      have : (s.acknowledge h).slot k = (s.setSlot h { s.slot h with mask := 0 }).slot k := rfl
      rw [this, State.slot_setSlot]
      split <;> simp_all
    have : (s.acknowledge h).view = s.view := by
      unfold State.view
      congr 1
      · funext k; simp only [State.record?, (hs k).1]
      · funext k; exact (hs k).2
    rw [this]; exact o
  · exact o

theorem State.ok_clampMisses {s : State} (o : s.view.Ok) (n : Nat) : (s.clampMisses n).view.Ok := by
  have hslot : ∀ h : Handle, (s.clampMisses n).slot h = (s.slot h).clampMiss n := by
    intro h
    show (Vector.map _ s.dir.slots).get h = _
    simp [Vector.get, State.slot]
  have : (s.clampMisses n).view = s.view := by
    unfold State.view
    congr 1
    · funext k
      simp only [State.record?, hslot, Slot.clampMiss]
      split
      · next r hr => rw [hr]; rfl
      · rfl
    · funext k
      rw [hslot]
      unfold Slot.clampMiss
      split <;> rfl
  rw [this]; exact o

/-! ### Polls (R98) -/

theorem State.ok_applyPresence {s : State} (o : s.view.Ok) {h : Handle} {r : Record} (hr : s.record? h = some r) :
    (s.applyPresence h r).view.Ok := by
  unfold State.applyPresence
  split
  · next hs =>
    rw [State.view_mark, State.view_setRecord]
    exact (State.settled o hr (by simp [hs]) (by simp [hs])).relabel (st := .bound) (by decide) (by decide)
  · exact State.ok_sameKey o hr rfl

theorem State.ok_presence {s : State} (o : s.view.Ok) (l : Line) (st : Station) (ref : Ref) :
    (s.presence l st ref).view.Ok := by
  unfold State.presence
  split
  · next hp =>
    split
    · exact State.ok_applyPresence o (State.record?_of_current? (State.polledRecord?_current hp))
    · exact o
  · exact o

theorem State.ok_miss {s : State} (o : s.view.Ok) (l : Line) (st : Station) (ref : Ref) : (s.miss l st ref).view.Ok := by
  unfold State.miss
  split
  · next r hp =>
    have hr := State.record?_of_current? (State.polledRecord?_current hp)
    split
    · unfold State.applyMiss
      split
      · next hf =>
        have hb : r.state = .bound := by unfold State.fallsQuiet at hf; simp at hf; exact hf.1
        rw [State.view_mark, State.view_setRecord]
        exact (State.settled o hr (by simp [hb]) (by simp [hb])).relabel (st := .quiet) (by decide) (by decide)
      · exact State.ok_sameKey o hr rfl
    · exact o
  · exact o

/-! ### Joins (R108 to R118) -/

@[simp] theorem State.view_takeCaps (s : State) (l : Line) (h : Handle) (es : List CapEntry) :
    (s.takeCaps l h es).view = s.view := by
  unfold State.takeCaps
  split
  · rfl
  · next r hr =>
    have e : ((s.countIntake l (intake es)).setRecord h { r with caps := (intake es).kept }).view = s.view :=
      (State.view_setRecord_same (s := s.countIntake l (intake es)) (q := r) (r := { r with caps := (intake es).kept })
        hr rfl).trans (State.view_countIntake ..)
    dsimp only
    split
    · exact e
    · rw [State.view_mark]; exact e

@[simp] theorem State.view_refuseJoin (s : State) (l : Line) (id : Identity) (x : RefusalReason) :
    (s.refuseJoin l id x).view = s.view := by
  unfold State.refuseJoin
  cases x <;> rfl

@[simp] theorem State.view_placeAssign (s : State) (l : Line) (h : Handle) (k : JoinKind) :
    (s.placeAssign l h k).view = s.view := by
  unfold State.placeAssign
  split <;> rfl

theorem State.ok_joinNew {s : State} (o : s.view.Ok) (l : Line) {id : Identity} (caps : List CapEntry)
    (hn : s.lookup? id = none) : (s.joinNew l id caps).view.Ok := by
  unfold State.joinNew
  split
  · rw [State.view_refuseJoin]; exact o
  · next h hw =>
    split
    · rw [State.view_refuseJoin]; exact o
    · next st hst =>
      have hm : s.mapAt l st = .free := by simpa using List.find?_some hst
      rw [State.view_placeAssign]
      exact State.ok_place (s := s.countIntake l (intake caps))
        (r := Record.joining id l st s.arb.grantCfg.leaseLength (intake caps).kept) o rfl hw hn
        hm (by simp [Record.joining]) (by simp [Record.joining])

theorem State.view_rejoin {s : State} {h : Handle} {r : Record} (hr : s.record? h = some r) (l : Line)
    (caps : List CapEntry) (k : JoinKind) :
    (s.rejoin l h caps k).view = s.view.setRec h { r.key with state := .joining } := by
  obtain ⟨e, -, q, -⟩ := s.withdrawRequest_eq h r hr
  unfold State.rejoin
  rw [State.view_placeAssign, State.view_takeCaps, q, State.modRecord_eq _ _ _ _ (State.record?_setRecord_self ..),
    State.setRecord_setRecord, State.view_setRecord, State.view_setLine]
  rfl

theorem State.ok_rejoin {s : State} {h : Handle} {r : Record} (hr : s.record? h = some r) (o : s.view.Settled h r.key)
    (l : Line) (caps : List CapEntry) (k : JoinKind) : (s.rejoin l h caps k).view.Ok := by
  rw [State.view_rejoin hr]
  exact o.relabel (by decide) (by decide)

theorem eraseP_eq_filter {xs : List QuarEntry} {p : QuarEntry → Bool} (hn : (xs.map QuarEntry.station).Nodup)
    {st : Station} (hp : ∀ q ∈ xs, p q = true ↔ q.station = st) : Without xs st (xs.eraseP p) := by
  refine ⟨fun q => ?_, hn.sublist ((List.eraseP_sublist).map _)⟩
  induction xs with
  | nil => simp
  | cons x xs ih =>
    simp only [List.map_cons, List.nodup_cons, List.mem_map, not_exists, not_and] at hn
    have hx := hp x (List.mem_cons_self ..)
    cases hpx : p x with
    | true =>
      rw [List.eraseP_cons_of_pos hpx]
      have := hx.mp hpx
      constructor
      · intro hq
        exact ⟨List.mem_cons_of_mem _ hq, fun e => hn.1 q hq (e.trans this.symm)⟩
      · rintro ⟨hq, hne⟩
        rcases List.mem_cons.mp hq with rfl | hq
        · exact absurd this hne
        · exact hq
    | false =>
      rw [List.eraseP_cons_of_neg (by simp [hpx])]
      have hne : x.station ≠ st := fun e => by rw [hx.mpr e] at hpx; cases hpx
      have := ih hn.2 fun q hq => hp q (List.mem_cons_of_mem _ hq)
      simp only [List.mem_cons, this]
      grind

theorem State.ok_takeBack {s : State} (o : s.view.Ok) {h : Handle} {r : Record} (hr : s.record? h = some r)
    (hs : r.state = .lapsed) : (s.takeBack r.line h r).view.Settled h r.key := by
  unfold State.takeBack State.takeQuarEntry DirView.Settled
  rw [State.view_setMap, State.view_setQuar]
  refine o.takeBack (State.key_view hr) hs (eraseP_eq_filter (o.nodup _) fun q hq => ?_) (by decide) (by decide)
  obtain ⟨p, hp, e1, e2⟩ := o.past h r.key (State.key_view hr) hs
  constructor
  · intro hx
    obtain ⟨-, k, hk, -, -, hst⟩ := o.refs _ q hq (s.refOf h) (by simpa using hx)
    rw [show s.view.key (s.refOf h).handle = some r.key from State.key_view hr] at hk
    cases hk
    exact hst.symm
  · intro hx
    have := entry_unique (o.nodup _) hq hp (hx.trans e1.symm)
    rw [this, e2]
    simp only [beq_iff_eq]
    rfl

theorem State.ok_migrate {s : State} (o : s.view.Ok) {h : Handle} {r : Record} (hr : s.record? h = some r) (l : Line)
    (caps : List CapEntry) (h2 : ∀ t, r.state ≠ .moving t) : (s.migrate l h r caps).view.Ok := by
  unfold State.migrate
  split
  · rw [State.view_refuseJoin]; exact o
  · next st hst =>
    have hm : s.mapAt l st = .free := by simpa using List.find?_some hst
    rw [State.view_placeAssign, State.view_takeCaps, State.view_setMap]
    have tail : ∀ s1 : State, s1.record? h = some { r with requestPending := false } ∨ s1.record? h = some r →
        (s1.modRecord h fun r => { r with line := l, station := st, state := .joining }).view
          = s1.view.setRec h ⟨r.identity, l, st, .joining⟩ := by
      intro s1 h1
      rcases h1 with h1 | h1 <;> rw [State.modRecord_eq _ _ _ _ h1, State.view_setRecord] <;> rfl
    unfold State.leaveOldLine
    split
    · next hs =>
      rw [tail (s.dropQuarRef r.line (s.refOf h)) (.inr hr), State.dropQuarRef, State.view_setQuar]
      exact o.migrateLapsed (State.key_view hr) hs hm (by decide) (by decide)
    · next hs =>
      obtain ⟨e, -, q, -⟩ := s.withdrawRequest_eq h r hr
      have hw : (s.withdrawRequest h).record? h = some { r with requestPending := false } := by
        rw [q]; exact State.record?_setRecord_self ..
      rw [tail ((s.withdrawRequest h).quarantine r.line r.station none) (.inl hw), State.view_quarantine,
        State.view_withdrawRequest]
      exact o.migrateHeld (State.key_view hr) hs h2 hm (by decide) (by decide) _

theorem State.ok_joinAgain {s : State} (o : s.view.Ok) (l : Line) (h : Handle) (r : Record) (caps : List CapEntry) :
    (s.joinAgain l h r caps).view.Ok := by
  unfold State.joinAgain
  rw [State.view_modLine, State.view_takeCaps, State.view_modLine]; exact o

theorem State.ok_joinFound {s : State} (o : s.view.Ok) {h : Handle} {r : Record} (hr : s.record? h = some r) (l : Line)
    (caps : List CapEntry) : (s.joinFound l h r caps).view.Ok := by
  have set := @State.settled s o h r hr
  unfold State.joinFound
  split
  · next hl =>
    split
    · next hs => exact State.ok_rejoin hr (set (by simp [hs]) (by simp [hs])) _ _ _
    · next hs => exact State.ok_rejoin hr (set (by simp [hs]) (by simp [hs])) _ _ _
    · next hs => exact State.ok_rejoin hr (set (by simp [hs]) (by simp [hs])) _ _ _
    · next hs =>
      subst hl
      exact State.ok_rejoin (by exact hr) (State.ok_takeBack o hr hs) _ _ _
    · next t hs =>
      subst hl
      exact State.ok_rejoin (by simpa using hr) (State.settled_abandonMove o hr hs) _ _ _
    · exact State.ok_joinAgain o _ _ _ _
    · rw [State.view_refuseJoin]; exact o
  · split
    · next hs => exact State.ok_migrate o hr _ _ (by simp [hs])
    · next hs => exact State.ok_migrate o hr _ _ (by simp [hs])
    all_goals rw [State.view_refuseJoin]; exact o

theorem State.ok_joinClaim {s : State} (o : s.view.Ok) (l : Line) (id : Identity) (caps : List CapEntry)
    (p : CallPolicy) : (s.joinClaim l id caps p).view.Ok := by
  unfold State.joinClaim
  dsimp only
  split
  · rw [State.view_refuseJoin]; exact o
  · unfold State.found?
    split
    · next h r hf =>
      refine State.ok_joinFound o ?_ _ _
      split at hf
      · next k _ =>
        simp only [Option.map_eq_some_iff, Prod.mk.injEq] at hf
        obtain ⟨q, hq, rfl, rfl⟩ := hf
        exact hq
      · cases hf
    · next hf =>
      refine State.ok_joinNew o _ _ ?_
      split at hf
      · next k hk =>
        have := List.find?_some hk
        simp only [Option.map_eq_none_iff, State.record?] at hf
        simp [Slot.holds, hf] at this
      · next hk => exact hk

/-! ### Requests (R123 to R131) -/

theorem State.view_answer (s : State) (l : Line) (st : Station) (ref : Ref) (code : Byte) (content : List Byte) :
    (s.answer l st ref code content).view = s.view := by
  unfold State.answer
  rw [State.view_modLine]
  exact s.view_modRecord _ _ fun _ => rfl

theorem State.ok_requestClaim {s : State} (o : s.view.Ok) (l : Line) (st : Station) (ref : Ref) (code : Byte)
    (handle : State → Record → State × List Byte) (hk : ∀ (t : State) (r : Record), (handle t r).1.view = t.view) :
    (s.requestClaim l st ref code handle).view.Ok := by
  unfold State.requestClaim
  split
  · exact o
  · next r hr =>
    dsimp only
    rw [State.view_answer, hk]
    unfold State.requestPresence
    split
    · exact State.ok_applyPresence (s := s.bump l .requestsTaken) o (State.requester?_record (s := s) hr)
    · exact o

theorem State.view_renewRequest (ref : Ref) (n : Nat) (s : State) (r : Record) :
    (State.renewRequest ref n s r).1.view = s.view := by
  unfold State.renewRequest
  dsimp only
  split
  · rfl
  · exact s.view_modRecord _ _ fun _ => rfl

theorem State.ok_leaveClaim {s : State} (o : s.view.Ok) (l : Line) (st : Station) (ref : Ref) :
    (s.leaveClaim l st ref).view.Ok := by
  unfold State.leaveClaim
  split
  · exact o
  · next r hr =>
    obtain ⟨⟨-, hl, -, -⟩, ht, -⟩ := State.requester?_eq_some.mp hr
    have hrec : (s.bump l .requestsTaken).record? ref.handle = some r := State.requester?_record (s := s) hr
    unfold State.answerLeave
    rw [State.view_modLine]
    unfold State.leaveRecord
    split
    · next hs => exact State.ok_endRecord _ hrec (State.settled o hrec (by simp [hs]) (by simp [hs]))
    · next t hs =>
      subst hl
      exact State.ok_endRecord _ (by simpa using hrec)
        (State.settled_abandonMove (s := s.bump r.line .requestsTaken) o hrec hs)
    · next h1 h2 =>
      refine State.ok_endRecord _ hrec (State.settled o hrec (fun e => ?_) fun t e => h2 t e)
      rw [e] at ht
      cases ht

/-! ### Outcomes (R100, R119 to R121, R133, R140 to R142, R149) -/

theorem State.ok_outcomeClaim {s : State} (o : s.view.Ok) (l : Line) (k : OrderKind) (ref : Ref)
    (conclude : State → Order → Record → State)
    (hk : ∀ (t : State) (x : Order) (r : Record), t.view.Ok → t.record? ref.handle = some r → (conclude t x r).view.Ok) :
    (s.outcomeClaim l k ref conclude).view.Ok := by
  unfold State.outcomeClaim
  split
  · exact o
  · dsimp only
    split
    · next hc => exact hk _ _ _ o (State.record?_of_current? hc)
    · exact o

theorem State.ok_joinConfirmed {s : State} (o : s.view.Ok) {h : Handle} {r : Record} (hr : s.record? h = some r)
    (hs : r.state = .joining) (k : JoinKind) : (s.joinConfirmed h k r).view.Ok := by
  unfold State.joinConfirmed
  rw [State.view_mark, State.view_setRecord]
  exact (State.settled o hr (by simp [hs]) (by simp [hs])).relabel (st := .bound) (by decide) (by decide)

theorem State.ok_joinDeclined {s : State} (o : s.view.Ok) {h : Handle} {r : Record} (hr : s.record? h = some r)
    (hs : r.state = .joining) : (s.joinDeclined h r).view.Ok := by
  have set := State.settled o hr (by simp [hs]) (by simp [hs])
  unfold State.joinDeclined
  split
  · rw [State.view_returnToReserved _ hr]
    exact set.relabel (by decide) (by decide)
  · have e : (s.setOutcome h .joinAbandoned).view = s.view := s.view_modRecord _ _ fun _ => rfl
    have hr' : (s.setOutcome h .joinAbandoned).record? h = some { r with outcome := .joinAbandoned } := by
      unfold State.setOutcome
      rw [State.modRecord_eq _ _ _ _ hr]
      exact State.record?_setRecord_self ..
    rw [State.view_freeMarked (r := { r with outcome := .joinAbandoned }) _ (by exact hr'), State.view_setMap, e]
    exact set.freeHeld

theorem State.ok_moveDone {s : State} (o : s.view.Ok) {h : Handle} {r : Record} (hr : s.record? h = some r) {t : Station}
    (hs : r.state = .moving t) : (s.moveDone h r t).view.Ok := by
  unfold State.moveDone
  rw [State.view_mark, State.view_setRecord, State.view_setMap, State.view_quarantine]
  exact o.moveDone (State.key_view hr) hs _

theorem State.ok_moveBack {s : State} (o : s.view.Ok) {h : Handle} {r : Record} (hr : s.record? h = some r) {t : Station}
    (hs : r.state = .moving t) (x : RecOutcome) : (s.moveBack h r t x).view.Ok := by
  unfold State.moveBack
  rw [State.view_mark, State.view_setRecord, State.view_setMap]
  exact o.endMoveFree (State.key_view hr) hs (st := .bound) (by decide) (by decide)

theorem State.ok_moveUncertain {s : State} (o : s.view.Ok) {h : Handle} {r : Record} (hr : s.record? h = some r)
    {t : Station} (hs : r.state = .moving t) : (s.moveUncertain h r t).view.Ok := by
  unfold State.moveUncertain
  rw [State.view_mark, State.view_setRecord, State.view_quarantine]
  exact o.endMoveQuar (State.key_view hr) hs (st := .quiet) (by decide) (by decide) _

theorem State.ok_probeConclusion {s : State} (o : s.view.Ok) {h : Handle} {r : Record} (hr : s.record? h = some r)
    {t : Station} (hs : r.state = .moving t) (a b : Bool) : (s.probeConclusion h r t a b).view.Ok := by
  unfold State.probeConclusion
  split
  · exact State.ok_moveDone o hr hs
  · split
    · exact State.ok_moveBack o hr hs _
    · exact State.ok_moveUncertain o hr hs

theorem State.ok_moveClaim {s : State} (o : s.view.Ok) (l : Line) (ref : Ref) (conclude : State → Record → Station → State)
    (hk : ∀ (u : State) (r : Record) (t : Station), u.view.Ok → u.record? ref.handle = some r → r.state = .moving t →
      (conclude u r t).view.Ok) : (s.moveClaim l ref conclude).view.Ok := by
  refine State.ok_outcomeClaim o l _ ref _ fun u _ r ou hr => ?_
  split
  · next hs => exact hk u r _ ou hr hs
  · exact ou

theorem State.ok_answerClaim {s : State} (o : s.view.Ok) (l : Line) (ref : Ref) (x : OrderResult) :
    (s.answerClaim l ref x).view.Ok := by
  unfold State.answerClaim
  split
  · exact o
  · have a : (match (s.modLine l (LineEngine.removeConcluded .answer ref)).current? ref with
        | some r => (s.modLine l (LineEngine.removeConcluded .answer ref)).setRecord ref.handle
            { r with requestPending := false }
        | none => s.modLine l (LineEngine.removeConcluded .answer ref)).view.Ok := by
      split
      · next r hc =>
        exact State.ok_sameKey (s := s.modLine l (LineEngine.removeConcluded .answer ref)) o
          (State.record?_of_current? hc) rfl
      · exact o
    dsimp only
    split
    · exact a
    · exact a

/-! ### The claims of a line (R84, R85) -/

theorem State.ok_stopSlot {s : State} (l : Line) (h : Handle) (o : s.view.Ok) : (State.stopSlot l s h).view.Ok := by
  unfold State.stopSlot
  split
  · next r hr =>
    split
    · next hl =>
      subst hl
      unfold State.stopRecord
      split
      · next hs => exact State.ok_endRecord _ hr (State.settled o hr (by simp [hs]) (by simp [hs]))
      · next t hs =>
        rw [State.view_withdrawRequest, State.view_mark, State.modRecord_eq _ _ _ r (by simpa using hr),
          State.view_setRecord]
        exact (State.settled_abandonMove o hr hs).relabel (st := .bound) (by decide) (by decide)
      · next hs => exact State.ok_endRecord _ hr (State.settled o hr (by simp [hs]) (by simp [hs]))
      · split
        · rw [State.view_withdrawRequest]; exact o
        · exact o
    · exact o
  · exact o

theorem State.ok_lineWork {s : State} (l : Line) (o : s.view.Ok) : (s.lineWork l).view.Ok := by
  unfold State.lineWork
  rw [State.view_modLine]
  exact ok_visit (State.stopSlot l) (fun _ h => State.ok_stopSlot l h) _ s o

theorem State.ok_flushSlot {s : State} (l : Line) (h : Handle) (o : s.view.Ok) : (State.flushSlot l s h).view.Ok := by
  unfold State.flushSlot
  split
  · next r hr =>
    split
    · next hc => exact State.ok_lapseRecord o hr (by grind)
    · exact o
  · exact o

theorem State.ok_flushWork {s : State} (l : Line) (o : s.view.Ok) : (s.flushWork l).view.Ok := by
  unfold State.flushWork
  rw [State.view_modLine]
  exact ok_visit (State.flushSlot l) (fun _ h => State.ok_flushSlot l h) _ s o

theorem State.ok_leaseStage {s : State} (o : s.view.Ok) : s.leaseStage.view.Ok := by
  unfold State.leaseStage
  exact ok_visit _ (fun _ h => State.ok_ageSlot h) _ s o

/-! ### Fresh directories -/

theorem ok_fresh {s : State} {slots : Vector Slot 256} (hd : s.dir = .fresh slots)
    (hs : ∀ h : Handle, (slots.get h).content = none) : s.view.Ok := by
  have hk : ∀ h, s.view.key h = none := by
    intro h
    simp only [State.view, State.record?, State.slot, hd]
    show Option.map _ (slots.get h).content = none
    rw [hs]; rfl
  have hm : ∀ l st, s.view.map l st = .free := by
    intro l st
    simp only [State.view, State.mapAt, hd]
    cases l <;> simp [Directory.fresh, PerLine.both, PerLine.get, Vector.get]
  have hq : ∀ l, s.view.quar l = [] := by
    intro l
    simp only [State.view, State.quarOf, hd]
    cases l <;> rfl
  constructor <;> intros <;> simp_all

end Sys2Proof.Machine
end

