-- ==== Sys2Proof/Laws/Orders.lean ====
section
/-! SUPPORT. What the order queues hold for the records (R90, R124): first over what the laws read of the state, then one
lemma for each operation. -/

namespace Sys2Proof.Machine

/-! ### What the laws read -/

/-- What the laws of the orders read of a record. -/
structure OrdKey where
  line : Line
  state : RecState
  pending : Bool
  deriving DecidableEq, Repr

def Record.ordKey (r : Record) : OrdKey := ⟨r.line, r.state, r.requestPending⟩

/-- The number of live orders of a kind for a record in a queue, and of reservations of its solicited polls. -/
def LineEngine.live (e : LineEngine) (k : OrderKind) (x : Ref) : Nat := e.orders.countP (Order.isLive k x)
def LineEngine.polls (e : LineEngine) (x : Ref) : Nat := e.reservations.count (.poll x)

/-- What the laws of the orders read of the state. -/
@[ext] structure OrdView where
  key : Handle → Option OrdKey
  gen : Handle → Gen
  live : Line → OrderKind → Ref → Nat
  polls : Line → Ref → Nat

def State.ordView (s : State) : OrdView :=
  ⟨fun h => (s.record? h).map Record.ordKey, fun h => (s.slot h).gen, fun l => (s.line l).live, fun l => (s.line l).polls⟩

def OrdView.setRec (v : OrdView) (h : Handle) (k : OrdKey) : OrdView :=
  { v with key := fun i => if i = h then some k else v.key i }
def OrdView.free (v : OrdView) (h : Handle) : OrdView :=
  { v with key := fun i => if i = h then none else v.key i, gen := fun i => if i = h then v.gen h + 1 else v.gen i }
def OrdView.setLive (v : OrdView) (l : Line) (k : OrderKind) (x : Ref) (n : Nat) : OrdView :=
  { v with live := fun l' k' x' => if l' = l ∧ k' = k ∧ x' = x then n else v.live l' k' x' }
def OrdView.setPolls (v : OrdView) (l : Line) (x : Ref) (n : Nat) : OrdView :=
  { v with polls := fun l' x' => if l' = l ∧ x' = x then n else v.polls l' x' }

/-- The laws of the orders, of a view. -/
structure OrdView.Ok (v : OrdView) : Prop where
  one : ∀ l k h g, k.isDirected = true → v.live l k ⟨h, g⟩ ≤ 1
  backed : ∀ l k h g, k.isDirected = true → 0 < v.live l k ⟨h, g⟩ →
    v.gen h = g ∧ ∃ r, v.key h = some r ∧ r.line = l ∧ r.state.directed = some k
  pending : ∀ h r, v.key h = some r → r.pending = true →
    r.state.takesRequests = true ∧ v.live r.line .answer ⟨h, v.gen h⟩ = 1
  answers : ∀ l h g, 0 < v.live l .answer ⟨h, g⟩ → v.gen h = g ∧ ∃ r, v.key h = some r ∧ r.line = l ∧ r.pending = true
  onePoll : ∀ l h g, v.polls l ⟨h, g⟩ ≤ 1
  idle : ∀ l h r, v.key h = some r → r.line = l → 0 < v.polls l ⟨h, v.gen h⟩ → r.pending = false

/-- The record of a slot has no directed order. -/
def OrdView.Bare (v : OrdView) (h : Handle) : Prop := ∀ l k, k.isDirected = true → v.live l k ⟨h, v.gen h⟩ = 0

theorem RecState.directed_isDirected {st : RecState} {k : OrderKind} (h : st.directed = some k) : k.isDirected = true := by
  cases st <;> cases h <;> rfl

/-- A record in a state without directed orders has none. -/
theorem OrdView.Ok.bare {v : OrdView} (o : v.Ok) {h : Handle} {r : OrdKey} (hr : v.key h = some r)
    (hd : r.state.directed = none) : v.Bare h := by
  intro l k hk
  have := o.backed l k h (v.gen h) hk
  grind

/-- The withdrawal of a record's directed order leaves it none. -/
theorem OrdView.Ok.withdraw {v : OrdView} (o : v.Ok) {h : Handle} {r : OrdKey} (hr : v.key h = some r) {k : OrderKind}
    (hd : r.state.directed = some k) :
    (v.setLive r.line k ⟨h, v.gen h⟩ 0).Ok ∧ (v.setLive r.line k ⟨h, v.gen h⟩ 0).Bare h := by
  have hk := RecState.directed_isDirected hd
  have ha : k ≠ .answer := by rintro rfl; cases hk
  obtain ⟨one, backed, pending, answers, onePoll, idle⟩ := o
  refine ⟨?_, ?_⟩
  · constructor <;> simp only [OrdView.setLive] <;> grind
  · intro l k' hk'
    have := backed l k' h (v.gen h) hk'
    simp only [OrdView.setLive]
    grind

/-- The withdrawal of a record's request. -/
theorem OrdView.Ok.withdrawRequest {v : OrdView} (o : v.Ok) {h : Handle} {r : OrdKey} (hr : v.key h = some r) :
    (((v.setLive r.line .answer ⟨h, v.gen h⟩ 0).setPolls r.line ⟨h, v.gen h⟩ 0).setRec h { r with pending := false }).Ok := by
  obtain ⟨one, backed, pending, answers, onePoll, idle⟩ := o
  constructor <;> simp only [OrdView.setLive, OrdView.setPolls, OrdView.setRec] <;> grind [OrderKind.isDirected]

/-- A record without directed order and request goes into any state on any line. -/
theorem OrdView.Ok.settle {v : OrdView} (o : v.Ok) {h : Handle} {r : OrdKey} (hr : v.key h = some r) (b : v.Bare h)
    (hp : r.pending = false) {q : OrdKey} (hq : q.pending = false) : (v.setRec h q).Ok := by
  unfold OrdView.Bare at b
  obtain ⟨one, backed, pending, answers, onePoll, idle⟩ := o
  constructor <;> simp only [OrdView.setRec] <;> grind

/-- A record without directed order goes into another state on its line, with its request where that state takes one. -/
theorem OrdView.Ok.relabel {v : OrdView} (o : v.Ok) {h : Handle} {r : OrdKey} (hr : v.key h = some r) (b : v.Bare h)
    {st : RecState} (ht : r.pending = true → st.takesRequests = true) : (v.setRec h { r with state := st }).Ok := by
  unfold OrdView.Bare at b
  obtain ⟨one, backed, pending, answers, onePoll, idle⟩ := o
  constructor <;> simp only [OrdView.setRec] <;> grind

/-- A record without directed order and request is freed. -/
theorem OrdView.Ok.free {v : OrdView} (o : v.Ok) {h : Handle} {r : OrdKey} (hr : v.key h = some r) (b : v.Bare h)
    (hp : r.pending = false) : (v.free h).Ok := by
  unfold OrdView.Bare at b
  obtain ⟨one, backed, pending, answers, onePoll, idle⟩ := o
  have ne : v.gen h + 1 ≠ v.gen h := by generalize v.gen h = g; revert g; decide
  constructor <;> simp only [OrdView.free] <;> grind

/-- A record is placed into a FREE slot. -/
theorem OrdView.Ok.place {v : OrdView} (o : v.Ok) {h : Handle} (hr : v.key h = none) {q : OrdKey}
    (hq : q.pending = false) : (v.setRec h q).Ok := by
  obtain ⟨one, backed, pending, answers, onePoll, idle⟩ := o
  constructor <;> simp only [OrdView.setRec] <;> grind

theorem OrdView.Ok.bare_place {v : OrdView} (o : v.Ok) {h : Handle} (hr : v.key h = none) (q : OrdKey) :
    (v.setRec h q).Bare h := by
  intro l k hk
  have := o.backed l k h (v.gen h) hk
  simp only [OrdView.setRec]
  grind

/-- A record without directed order takes the one of its state. -/
theorem OrdView.Ok.direct {v : OrdView} (o : v.Ok) {h : Handle} {r : OrdKey} (hr : v.key h = some r) {k : OrderKind}
    (hd : r.state.directed = some k) : (v.setLive r.line k ⟨h, v.gen h⟩ 1).Ok := by
  have hk := RecState.directed_isDirected hd
  have ha : k ≠ .answer := by rintro rfl; cases hk
  obtain ⟨one, backed, pending, answers, onePoll, idle⟩ := o
  constructor <;> simp only [OrdView.setLive] <;> grind

/-- A request is answered: the poll's reservation goes, and the ANSWER stands. -/
theorem OrdView.Ok.answer {v : OrdView} (o : v.Ok) {h : Handle} {r : OrdKey} (hr : v.key h = some r)
    (ht : r.state.takesRequests = true) :
    (((v.setRec h { r with pending := true }).setPolls r.line ⟨h, v.gen h⟩ 0).setLive r.line .answer ⟨h, v.gen h⟩ 1).Ok := by
  obtain ⟨one, backed, pending, answers, onePoll, idle⟩ := o
  constructor <;> simp only [OrdView.setLive, OrdView.setPolls, OrdView.setRec] <;> grind [OrderKind.isDirected]

/-- An ANSWER goes, and its record has no request pending. -/
theorem OrdView.Ok.answered {v : OrdView} (o : v.Ok) {h : Handle} {r : OrdKey} (hr : v.key h = some r) :
    ((v.setLive r.line .answer ⟨h, v.gen h⟩ 0).setRec h { r with pending := false }).Ok := by
  obtain ⟨one, backed, pending, answers, onePoll, idle⟩ := o
  constructor <;> simp only [OrdView.setLive, OrdView.setRec] <;> grind [OrderKind.isDirected]

/-- Fewer reservations of polls. -/
theorem OrdView.Ok.fewerPolls {v : OrdView} (o : v.Ok) {polls : Line → Ref → Nat}
    (hp : ∀ l x, polls l x ≤ v.polls l x) : OrdView.Ok { v with polls := polls } := by
  obtain ⟨one, backed, pending, answers, onePoll, idle⟩ := o
  exact ⟨one, backed, pending, answers, fun l h g => Nat.le_trans (hp l _) (onePoll l h g),
    fun l h r hr hl hq => idle l h r hr hl (Nat.lt_of_lt_of_le hq (hp l _))⟩

/-- A solicited poll makes its reservation. -/
theorem OrdView.Ok.solicit {v : OrdView} (o : v.Ok) {h : Handle} {r : OrdKey} (hr : v.key h = some r)
    (hq : r.pending = false) (l : Line) : (v.setPolls l ⟨h, v.gen h⟩ 1).Ok := by
  obtain ⟨one, backed, pending, answers, onePoll, idle⟩ := o
  constructor <;> simp only [OrdView.setPolls] <;> grind

/-- The orders and reservations of a line are cleared, none of its records having a request pending. -/
theorem OrdView.Ok.clear {v : OrdView} (o : v.Ok) (l : Line)
    (hn : ∀ h r, v.key h = some r → r.line = l → r.pending = false) :
    OrdView.Ok { v with
      live := fun l' k x => if l' = l then 0 else v.live l' k x
      polls := fun l' x => if l' = l then 0 else v.polls l' x } := by
  obtain ⟨one, backed, pending, answers, onePoll, idle⟩ := o
  constructor <;> dsimp only <;> grind

/-! ### The view of a state -/

/-- The directed orders of a record in a queue, counted by kind. -/
theorem countP_isDirectedFor (x : Ref) (os : List Order) :
    os.countP (Order.isDirectedFor x) = os.countP (Order.isLive .assign x) + os.countP (Order.isLive .reassign x)
      + os.countP (Order.isLive .release x) := by
  induction os with
  | nil => rfl
  | cons o os ih =>
    rw [List.countP_cons, List.countP_cons, List.countP_cons, List.countP_cons, ih]
    have : ∀ k : OrderKind, o.isLive k x = (o.kind == k && (o.ref == some x && !o.withdrawn)) := fun k => by
      simp [Order.isLive, Bool.and_assoc]
    simp only [Order.isDirectedFor, this]
    cases o.kind <;> cases (o.ref == some x && !o.withdrawn) <;> simp [OrderKind.isDirected] <;> omega

theorem Order.isLive_kind {k : OrderKind} {x : Ref} {o : Order} (h : o.isLive k x = true) : o.kind = k := by
  simp only [Order.isLive, Bool.and_eq_true, beq_iff_eq] at h
  exact h.1.1

theorem Order.isDirectedFor_iff {x : Ref} {o : Order} :
    o.isDirectedFor x = true ↔ ∃ k : OrderKind, k.isDirected = true ∧ o.isLive k x = true := by
  constructor
  · intro h
    simp only [Order.isDirectedFor, Bool.and_eq_true] at h
    exact ⟨_, h.1, h.2⟩
  · rintro ⟨k, hk, hl⟩
    cases Order.isLive_kind hl
    simp [Order.isDirectedFor, hk, hl]

theorem State.ordView_key {s : State} {h : Handle} {r : Record} (hr : s.record? h = some r) :
    s.ordView.key h = some r.ordKey := by simp [State.ordView, hr]

theorem State.orderLaw_iff (s : State) : s.DirectedLaw ∧ s.RequestLaw ↔ s.ordView.Ok := by
  have key : ∀ (h : Handle) (g : Gen) (p : OrdKey → Prop),
      (s.ordView.gen h = g ∧ ∃ k, s.ordView.key h = some k ∧ p k) ↔ ∃ r, s.current? ⟨h, g⟩ = some r ∧ p r.ordKey := by
    intro h g p
    simp only [State.ordView, Option.map_eq_some_iff, State.current?_eq_some]
    grind
  have all : ∀ (h : Handle) (p : OrdKey → Prop),
      (∀ k, s.ordView.key h = some k → p k) ↔ ∀ r, s.record? h = some r → p r.ordKey := by
    intro h p
    simp only [State.ordView, Option.map_eq_some_iff]
    grind
  constructor
  · rintro ⟨d, p, q⟩
    refine ⟨fun l k h g hk => ?_, fun l k h g hk hp => ?_, fun h => (all h _).mpr fun r hr hp => p h r hr hp, ?_, ?_, ?_⟩
    · have := (d l ⟨h, g⟩).1
      rw [countP_isDirectedFor] at this
      show (s.line l).orders.countP _ ≤ 1
      cases k <;> first | omega | cases hk
    · obtain ⟨o, ho, hl⟩ := List.countP_pos_iff.mp hp
      obtain ⟨r, h1, h2, h3⟩ := (d l ⟨h, g⟩).2 o ho (Order.isDirectedFor_iff.mpr ⟨k, hk, hl⟩)
      rw [Order.isLive_kind hl] at h3
      exact (key h g _).mpr ⟨r, h1, h2, h3⟩
    · intro l h g hp
      obtain ⟨o, ho, hl⟩ := List.countP_pos_iff.mp hp
      obtain ⟨r, h1, h2, h3⟩ := (q l ⟨h, g⟩).1 o ho hl
      exact (key h g _).mpr ⟨r, h1, h2, h3⟩
    · exact fun l h g => (q l ⟨h, g⟩).2.1
    · refine fun l h => (all h _).mpr fun r hr hl hp => ?_
      exact (q l (s.refOf h)).2.2 (List.count_pos_iff.mp hp) r (State.current?_eq_some.mpr ⟨rfl, hr⟩) hl
  · rintro ⟨one, backed, pending, answers, onePoll, idle⟩
    refine ⟨fun l ⟨h, g⟩ => ⟨?_, fun o ho hd => ?_⟩, fun h => (all h _).mp (pending h), fun l ⟨h, g⟩ => ⟨fun o ho hl => ?_, onePoll l h g, ?_⟩⟩
    · rw [countP_isDirectedFor]
      have a := one l .assign h g rfl
      have b := one l .reassign h g rfl
      have c := one l .release h g rfl
      have a' := backed l .assign h g rfl
      have b' := backed l .reassign h g rfl
      have c' := backed l .release h g rfl
      simp only [State.ordView, LineEngine.live] at a b c a' b' c'
      grind
    · obtain ⟨k, hk, hl⟩ := Order.isDirectedFor_iff.mp hd
      have := (key h g _).mp (backed l k h g hk (List.countP_pos_iff.mpr ⟨o, ho, hl⟩))
      rw [Order.isLive_kind hl]; exact this
    · exact (key h g _).mp (answers l h g (List.countP_pos_iff.mpr ⟨o, ho, hl⟩))
    · intro hm r hr hl
      obtain ⟨h1, h2⟩ := State.current?_eq_some.mp hr
      have h1 : (s.slot h).gen = g := h1
      subst h1
      exact (all h _).mp (idle l h) r h2 hl (List.count_pos_iff.mpr hm)

theorem State.ordView_congr {s t : State} (hk : ∀ h, (t.record? h).map Record.ordKey = (s.record? h).map Record.ordKey)
    (hg : ∀ h, (t.slot h).gen = (s.slot h).gen) (hl : ∀ l, (t.line l).live = (s.line l).live)
    (hp : ∀ l, (t.line l).polls = (s.line l).polls) : t.ordView = s.ordView := by
  unfold State.ordView
  congr 1
  · funext h; exact hk h
  · funext h; exact hg h
  · funext l; exact hl l
  · funext l; exact hp l

/-- Whatever leaves the slots and the line engines leaves the view. -/
theorem State.ordView_of_parts {s t : State} (hs : ∀ h, t.slot h = s.slot h) (hl : ∀ l, t.line l = s.line l) :
    t.ordView = s.ordView :=
  State.ordView_congr (fun h => by unfold State.record?; rw [hs]) (fun h => by rw [hs]) (fun l => by rw [hl])
    fun l => by rw [hl]

theorem State.ordView_modLine (s : State) (l : Line) (f : LineEngine → LineEngine) :
    (s.modLine l f).ordView = { s.ordView with
      live := fun k => if k = l then (f (s.line l)).live else s.ordView.live k
      polls := fun k => if k = l then (f (s.line l)).polls else s.ordView.polls k } := by
  unfold State.ordView
  congr 1 <;> funext k <;> simp only [State.modLine, State.line_setLine] <;> split <;> rfl

/-- A change of a line engine that keeps its live orders and its reservations of polls. -/
theorem State.ordView_modLine_same {s : State} {l : Line} {f : LineEngine → LineEngine}
    (hl : (f (s.line l)).live = (s.line l).live) (hp : (f (s.line l)).polls = (s.line l).polls) :
    (s.modLine l f).ordView = s.ordView := by
  rw [State.ordView_modLine]
  refine OrdView.ext rfl rfl (funext fun k => ?_) (funext fun k => ?_)
  · dsimp only; split
    · next h => rw [hl, h]; rfl
    · rfl
  · dsimp only; split
    · next h => rw [hp, h]; rfl
    · rfl

theorem State.ordView_setLive {s : State} {l : Line} {f : LineEngine → LineEngine} {k : OrderKind} {x : Ref} {n : Nat}
    (hl : ∀ k' x', (f (s.line l)).live k' x' = if k' = k ∧ x' = x then n else (s.line l).live k' x')
    (hp : (f (s.line l)).polls = (s.line l).polls) : (s.modLine l f).ordView = s.ordView.setLive l k x n := by
  rw [State.ordView_modLine]
  refine OrdView.ext rfl rfl ?_ (funext fun l' => ?_)
  · funext l' k' x'
    simp only [OrdView.setLive]
    split
    · next h => subst h; rw [hl]; simp [State.ordView]
    · next h => simp [h]
  · simp only [OrdView.setLive]
    split
    · next h => rw [hp, h]; rfl
    · rfl

theorem State.ordView_setPolls {s : State} {l : Line} {f : LineEngine → LineEngine} {x : Ref} {n : Nat}
    (hl : (f (s.line l)).live = (s.line l).live)
    (hp : ∀ x', (f (s.line l)).polls x' = if x' = x then n else (s.line l).polls x') :
    (s.modLine l f).ordView = s.ordView.setPolls l x n := by
  rw [State.ordView_modLine]
  refine OrdView.ext rfl rfl (funext fun l' => ?_) ?_
  · simp only [OrdView.setPolls]
    split
    · next h => rw [hl, h]; rfl
    · rfl
  · funext l' x'
    simp only [OrdView.setPolls]
    split
    · next h => subst h; rw [hp]; simp [State.ordView]
    · next h => simp [h]

/-! ### The queue of a line engine -/

theorem Order.not_isLive_withdrawn {o : Order} (h : o.withdrawn = true) (k : OrderKind) (x : Ref) :
    o.isLive k x = false := by simp [Order.isLive, h]

theorem Order.not_isLive_noRef {o : Order} (h : o.ref = none) (k : OrderKind) (x : Ref) : o.isLive k x = false := by
  simp [Order.isLive, h]

/-- A live order is one record's, by one kind. -/
theorem Order.isLive_unique {o : Order} {k k' : OrderKind} {x x' : Ref} (h : o.isLive k x = true)
    (h' : o.isLive k' x' = true) : k' = k ∧ x' = x := by
  simp only [Order.isLive, Bool.and_eq_true, beq_iff_eq] at h h'
  grind

/-- The withdrawal takes the live orders of its kind and record, and no other. -/
theorem LineEngine.live_withdraw (k : OrderKind) (x : Ref) (e : LineEngine) (k' : OrderKind) (x' : Ref) :
    (e.withdraw k x).live k' x' = if k' = k ∧ x' = x then 0 else e.live k' x' := by
  unfold LineEngine.live LineEngine.withdraw
  dsimp only
  induction e.orders with
  | nil => simp
  | cons o os ih =>
    rw [List.filterMap_cons]
    by_cases h : o.isLive k x = true
    · have hn : ¬ (k' = k ∧ x' = x) → o.isLive k' x' = false := fun hne => by
        cases hv : o.isLive k' x' with
        | false => rfl
        | true => exact absurd (Order.isLive_unique h hv) hne
      simp only [h, if_true]
      split
      · next hp => cases hq : (if o.progress = .sending then some { o with withdrawn := true } else none) <;> grind
      · next hp =>
        have hb : Order.isLive k' x' _ = false := Order.not_isLive_withdrawn (o := { o with withdrawn := true }) rfl k' x'
        grind
    · simp only [h]
      grind

theorem LineEngine.polls_withdraw (k : OrderKind) (x : Ref) (e : LineEngine) : (e.withdraw k x).polls = e.polls := rfl
theorem LineEngine.live_releasePolls (x : Ref) (e : LineEngine) : (e.releasePolls x).live = e.live := rfl
theorem LineEngine.live_release (x : Reservation) (e : LineEngine) : (e.release x).live = e.live := rfl

theorem LineEngine.polls_releasePolls (x : Ref) (e : LineEngine) (x' : Ref) :
    (e.releasePolls x).polls x' = if x' = x then 0 else e.polls x' := by
  unfold LineEngine.polls LineEngine.releasePolls
  dsimp only
  split
  · next h => subst h; rw [List.count_eq_zero]; simp
  · next h => rw [List.count_filter]; simpa using h

theorem LineEngine.polls_release_le (r : Reservation) (e : LineEngine) (x : Ref) : (e.release r).polls x ≤ e.polls x :=
  (List.erase_sublist ..).count_le _

theorem LineEngine.polls_release_call (e : LineEngine) : (e.release .call).polls = e.polls := by
  funext x
  exact List.count_erase_of_ne (by simp)

theorem LineEngine.polls_release_poll (e : LineEngine) (x x' : Ref) (h1 : e.polls x ≤ 1) :
    (e.release (.poll x)).polls x' = if x' = x then 0 else e.polls x' := by
  unfold LineEngine.polls LineEngine.release at *
  dsimp only
  split
  · next h => subst h; rw [List.count_erase_self]; omega
  · next h => exact List.count_erase_of_ne (by simpa using h)

theorem LineEngine.live_place (o : Order) (e : LineEngine) (h : 0 < e.freeCount) (k : OrderKind) (x : Ref) :
    (e.place o).live k x = e.live k x + (o.isLive k x).toNat := by
  unfold LineEngine.place LineEngine.live
  rw [if_pos h]
  dsimp only
  rw [List.countP_append]
  cases hk : o.isLive k x <;> simp [hk]

theorem LineEngine.live_place_noRef (o : Order) (e : LineEngine) (h : o.ref = none) : (e.place o).live = e.live := by
  funext k x
  unfold LineEngine.place
  split
  · next hf =>
    unfold LineEngine.live
    dsimp only
    rw [List.countP_append]
    simp [Order.not_isLive_noRef h]
  · rfl

theorem LineEngine.polls_place (o : Order) (e : LineEngine) : (e.place o).polls = e.polls := by
  unfold LineEngine.place; split <;> rfl

/-- The removal of an order that is concluding leaves one less. -/
theorem LineEngine.live_removeConcluded {k : OrderKind} {x : Ref} {e : LineEngine} {o : Order}
    (ho : e.orders.find? (Order.isConcluding k x) = some o) (k' : OrderKind) (x' : Ref) :
    (e.removeConcluded k x).live k' x' = e.live k' x' - (if k' = k ∧ x' = x then 1 else 0) := by
  unfold LineEngine.live LineEngine.removeConcluded
  dsimp only
  generalize e.orders = os at ho ⊢
  induction os with
  | nil => cases ho
  | cons y ys ih =>
    rw [List.find?_cons] at ho
    rw [List.eraseP_cons]
    cases hy : y.isConcluding k x with
    | true =>
      have hl : y.isLive k x = true := by
        simp only [Order.isConcluding, Bool.and_eq_true] at hy; exact hy.1
      rw [List.countP_cons]
      by_cases h : k' = k ∧ x' = x
      · rw [h.1, h.2, hl]; simp
      · cases hv : y.isLive k' x' with
        | false => simp [h]
        | true => exact absurd (Order.isLive_unique hl hv) h
    | false =>
      rw [hy] at ho
      dsimp only at ho ⊢
      have := ih ho
      rw [cond_false, List.countP_cons, List.countP_cons, this]
      have pos : (k' = k ∧ x' = x) → 0 < ys.countP (Order.isLive k' x') := by
        rintro ⟨rfl, rfl⟩
        refine List.countP_pos_iff.mpr ⟨o, List.mem_of_find?_eq_some ho, ?_⟩
        have := List.find?_some ho
        simp only [Order.isConcluding, Bool.and_eq_true] at this; exact this.1
      split
      · next h => have := pos h; omega
      · omega

theorem LineEngine.polls_removeConcluded (k : OrderKind) (x : Ref) (e : LineEngine) :
    (e.removeConcluded k x).polls = e.polls := rfl

/-- A change of the orders one by one that keeps which are live. -/
theorem live_map {e d : LineEngine} {f : Order → Order} (hd : d.orders = e.orders.map f)
    (hf : ∀ o k x, (f o).isLive k x = o.isLive k x) : d.live = e.live := by
  funext k x
  unfold LineEngine.live
  rw [hd, List.countP_map]
  exact List.countP_congr fun o _ => by rw [Function.comp_apply, hf]

/-! ### Updates of the state -/

@[simp] theorem State.ordView_setMap (s : State) (l : Line) (st : Station) (e : MapEntry) :
    (s.setMap l st e).ordView = s.ordView := rfl
@[simp] theorem State.ordView_setQuar (s : State) (l : Line) (q : List QuarEntry) :
    (s.setQuar l q).ordView = s.ordView := rfl
@[simp] theorem State.ordView_quarantine (s : State) (l : Line) (st : Station) (x : Option Ref) :
    (s.quarantine l st x).ordView = s.ordView := rfl
@[simp] theorem State.ordView_dropQuarRef (s : State) (l : Line) (x : Ref) :
    (s.dropQuarRef l x).ordView = s.ordView := rfl
@[simp] theorem State.ordView_takeQuarEntry (s : State) (l : Line) (x : Ref) :
    (s.takeQuarEntry l x).ordView = s.ordView := rfl
theorem State.ordView_setGroups (s : State) (v : Vector GroupEntry 16) :
    State.ordView { s with dir := { s.dir with groups := v } } = s.ordView := rfl
@[simp] theorem State.ordView_modHost (s : State) (f : HostPort → HostPort) : (s.modHost f).ordView = s.ordView := rfl
@[simp] theorem State.ordView_raiseAlarm (s : State) (a : Alarm) : (s.raiseAlarm a).ordView = s.ordView := rfl
@[simp] theorem State.ordView_engineIdle (s : State) : s.engineIdle.ordView = s.ordView := rfl
@[simp] theorem State.ordView_grant (s : State) : s.grant.ordView = s.ordView := by
  obtain ⟨a, h⟩ := s.grant_eq
  rw [h]; rfl
@[simp] theorem State.ordView_mark (s : State) (h : Handle) (a : ChangeMask) : (s.mark h a).ordView = s.ordView :=
  State.ordView_congr (fun k => by rw [State.record?_mark]) (fun k => by rw [State.slot_mark]; split <;> simp_all)
    (fun l => by rw [State.line_mark]) fun l => by rw [State.line_mark]
@[simp] theorem State.ordView_bump (s : State) (l : Line) (c : Ctr) : (s.bump l c).ordView = s.ordView :=
  State.ordView_modLine_same rfl rfl

theorem LineEngine.orders_bumpBy (e : LineEngine) (c : Ctr) (n : Nat) :
    (e.bumpBy c n).orders = e.orders ∧ (e.bumpBy c n).reservations = e.reservations := by
  induction n generalizing e with
  | zero => exact ⟨rfl, rfl⟩
  | succ n ih => exact ih (e.bump c)

theorem LineEngine.orders_intake (e : LineEngine) (i : Intake) :
    ((e.bumpBy .invalidCaps i.invalid).bumpBy .duplicateCaps i.duplicate).orders = e.orders
      ∧ ((e.bumpBy .invalidCaps i.invalid).bumpBy .duplicateCaps i.duplicate).reservations = e.reservations := by
  have a := e.orders_bumpBy .invalidCaps i.invalid
  have b := (e.bumpBy .invalidCaps i.invalid).orders_bumpBy .duplicateCaps i.duplicate
  exact ⟨b.1.trans a.1, b.2.trans a.2⟩

@[simp] theorem State.ordView_countIntake (s : State) (l : Line) (i : Intake) :
    (s.countIntake l i).ordView = s.ordView := by
  have := (s.line l).orders_intake i
  refine State.ordView_modLine_same ?_ ?_ <;> funext
  · unfold LineEngine.live; rw [this.1]
  · unfold LineEngine.polls; rw [this.2]

@[simp] theorem State.ordView_setRecord (s : State) (h : Handle) (r : Record) :
    (s.setRecord h r).ordView = s.ordView.setRec h r.ordKey := by
  refine OrdView.ext (funext fun k => ?_) (funext fun k => ?_) rfl rfl
  · simp only [State.ordView, OrdView.setRec, State.record?, State.slot_setRecord]
    split <;> rfl
  · exact State.gen_setRecord ..

theorem OrdView.setRec_same {v : OrdView} {h : Handle} {k : OrdKey} (hk : v.key h = some k) : v.setRec h k = v := by
  refine OrdView.ext (funext fun i => ?_) rfl rfl rfl
  simp only [OrdView.setRec]
  split
  · next e => rw [e, hk]
  · rfl

/-- A change of a record that the laws do not read. -/
theorem State.ordView_setRecord_same {s : State} {h : Handle} {q r : Record} (hr : s.record? h = some q)
    (hk : r.ordKey = q.ordKey) : (s.setRecord h r).ordView = s.ordView := by
  rw [State.ordView_setRecord, hk, OrdView.setRec_same (State.ordView_key hr)]

theorem State.ordView_modRecord (s : State) (h : Handle) (f : Record → Record)
    (hk : ∀ r : Record, (f r).ordKey = r.ordKey) : (s.modRecord h f).ordView = s.ordView := by
  cases hr : s.record? h with
  | none => simp only [State.modRecord, hr]
  | some r => rw [State.modRecord_eq _ _ _ _ hr]; exact State.ordView_setRecord_same hr (hk r)

@[simp] theorem State.ordView_emptySlot (s : State) (h : Handle) (r : Record) :
    (s.emptySlot h r).ordView = s.ordView.free h := by
  unfold State.emptySlot State.ordView OrdView.free
  dsimp only
  congr 1
  · funext k
    show (State.record? (s.setSlot h _) k).map _ = _
    simp only [State.record?, State.slot_setSlot]
    split <;> rfl
  · funext k
    show (State.slot (s.setSlot h _) k).gen = _
    rw [State.slot_setSlot]
    split <;> rfl

@[simp] theorem State.ordView_markFreed (s : State) (h : Handle) (o : RecOutcome) (m : ChangeMask) :
    (s.markFreed h o m).ordView = s.ordView := by
  unfold State.markFreed
  rw [State.ordView_mark]
  exact State.ordView_congr (fun k => by simp only [State.record?, State.slot_setSlot]; split <;> simp_all)
    (fun k => by rw [State.slot_setSlot]; split <;> simp_all) (fun _ => rfl) fun _ => rfl

theorem State.ordView_placeRecord (s : State) (h : Handle) (r : Record) :
    (s.placeRecord h r).ordView = s.ordView.setRec h r.ordKey := by
  refine OrdView.ext (funext fun k => ?_) (funext fun k => ?_) rfl rfl
  · simp only [State.ordView, OrdView.setRec, State.record?, State.slot_placeRecord]
    split <;> rfl
  · simp only [State.ordView, OrdView.setRec, State.slot_placeRecord]; split <;> simp_all

@[simp] theorem State.ordView_release_call (s : State) (l : Line) :
    (s.modLine l (LineEngine.release .call)).ordView = s.ordView :=
  State.ordView_modLine_same rfl (LineEngine.polls_release_call _)

/-- A reservation goes. -/
theorem State.ord_release {s : State} (o : s.ordView.Ok) (l : Line) (x : Reservation) :
    (s.modLine l (LineEngine.release x)).ordView.Ok := by
  have h : (s.modLine l (LineEngine.release x)).ordView
      = { s.ordView with polls := (s.modLine l (LineEngine.release x)).ordView.polls } := by
    rw [State.ordView_modLine]
    refine OrdView.ext rfl rfl (funext fun k => ?_) rfl
    dsimp only; split
    · next h => rw [h]; rfl
    · rfl
  rw [h]
  refine o.fewerPolls fun k y => ?_
  rw [State.ordView_modLine]
  dsimp only
  split
  · next h => subst h; exact LineEngine.polls_release_le ..
  · exact Nat.le_refl _

/-- An order of no record is placed. -/
theorem State.ordView_place_noRef (s : State) (l : Line) {d : Order} (h : d.ref = none) :
    (s.modLine l (LineEngine.place d)).ordView = s.ordView :=
  State.ordView_modLine_same (LineEngine.live_place_noRef d _ h) (LineEngine.polls_place d _)

/-- The directed order of its state is placed for a record that has none. -/
theorem State.ord_place {s : State} (o : s.ordView.Ok) {h : Handle} {r : Record} (hr : s.record? h = some r)
    (b : s.ordView.Bare h) {k : OrderKind} (hd : r.state.directed = some k) {d : Order}
    (hl : ∀ k' x', d.isLive k' x' = true ↔ k' = k ∧ x' = s.refOf h) :
    (s.modLine r.line (LineEngine.place d)).ordView.Ok := by
  by_cases hf : 0 < (s.line r.line).freeCount
  · have e : (s.modLine r.line (LineEngine.place d)).ordView = s.ordView.setLive r.line k (s.refOf h) 1 := by
      refine State.ordView_setLive (fun k' x' => ?_) (LineEngine.polls_place d _)
      rw [LineEngine.live_place d _ hf]
      split
      · next hc =>
        rw [(hl k' x').mpr hc, hc.1, hc.2]
        have := b r.line k (RecState.directed_isDirected hd)
        change (s.line r.line).live k (s.refOf h) = 0 at this
        simp [this]
      · next hc => rw [Bool.eq_false_iff.mpr fun e => hc ((hl k' x').mp e)]; simp
    rw [e]
    exact o.direct (State.ordView_key hr) hd
  · have e : s.modLine r.line (LineEngine.place d) = s := by
      unfold State.modLine LineEngine.place
      rw [if_neg hf]; exact State.setLine_line ..
    rw [e]; exact o

/-! ### Withdrawals, endings and lapses (R30, R31, R41 to R43, R53 to R55) -/

/-- A record whose directed order and request are withdrawn. -/
structure State.Cleared (s : State) (h : Handle) (r : Record) : Prop where
  ok : s.ordView.Ok
  bare : s.ordView.Bare h
  record : s.record? h = some r
  idle : r.requestPending = false

theorem State.ord_withdrawDirected {s : State} (o : s.ordView.Ok) {h : Handle} {r : Record} (hr : s.record? h = some r) :
    (s.withdrawDirected h).ordView.Ok ∧ (s.withdrawDirected h).ordView.Bare h
      ∧ (s.withdrawDirected h).record? h = some r := by
  unfold State.withdrawDirected
  rw [hr]
  dsimp only
  split
  · next k hk =>
    rw [State.ordView_setLive (LineEngine.live_withdraw k (s.refOf h) _) (LineEngine.polls_withdraw ..)]
    have := o.withdraw (State.ordView_key hr) hk
    exact ⟨this.1, this.2, hr⟩
  · next hk => exact ⟨o, o.bare (State.ordView_key hr) hk, hr⟩

theorem State.ordView_withdrawRequest {s : State} (o : s.ordView.Ok) {h : Handle} {r : Record} (hr : s.record? h = some r) :
    (s.withdrawRequest h).ordView
      = ((s.ordView.setLive r.line .answer (s.refOf h) 0).setPolls r.line (s.refOf h) 0).setRec h
          { r.ordKey with pending := false } := by
  unfold State.withdrawRequest
  rw [hr]
  dsimp only
  rw [State.ordView_setRecord, State.ordView_setPolls (LineEngine.live_releasePolls ..) (LineEngine.polls_releasePolls _ _)]
  congr 2
  split
  · exact State.ordView_setLive (LineEngine.live_withdraw .answer (s.refOf h) _) (LineEngine.polls_withdraw ..)
  · next hp =>
    refine OrdView.ext rfl rfl ?_ rfl
    funext l k x
    simp only [OrdView.setLive]
    split
    · next hc =>
      obtain ⟨rfl, rfl, rfl⟩ := hc
      have a := o.answers r.line h (s.slot h).gen
      have b : s.ordView.key h = some r.ordKey := State.ordView_key hr
      refine Nat.eq_zero_of_not_pos fun hpos => ?_
      obtain ⟨-, q, hq, -, hq2⟩ := a hpos
      rw [b] at hq
      cases hq
      exact hp hq2
    · rfl

theorem State.record?_withdrawRequest {s : State} {h : Handle} {r : Record} (hr : s.record? h = some r) :
    (s.withdrawRequest h).record? h = some { r with requestPending := false } := by
  obtain ⟨e, -, q, -⟩ := s.withdrawRequest_eq h r hr
  rw [q]; exact State.record?_setRecord_self ..

theorem State.ord_withdrawRequest {s : State} (o : s.ordView.Ok) (h : Handle) : (s.withdrawRequest h).ordView.Ok := by
  cases hr : s.record? h with
  | none => simp only [State.withdrawRequest, hr]; exact o
  | some r =>
    rw [State.ordView_withdrawRequest o hr]
    exact o.withdrawRequest (State.ordView_key hr)

/-- A record without directed order has its request withdrawn. -/
theorem State.cleared_withdrawRequest {s : State} (o : s.ordView.Ok) {h : Handle} {r : Record} (hr : s.record? h = some r)
    (b : s.ordView.Bare h) : (s.withdrawRequest h).Cleared h { r with requestPending := false } := by
  refine ⟨State.ord_withdrawRequest o h, ?_, State.record?_withdrawRequest hr, rfl⟩
  rw [State.ordView_withdrawRequest o hr]
  intro l k hk
  have := b l k hk
  have ha : k ≠ .answer := by rintro rfl; cases hk
  simp only [OrdView.setRec, OrdView.setPolls, OrdView.setLive, ha, false_and, and_false, if_false]
  exact this

theorem State.cleared_withdrawn {s : State} (o : s.ordView.Ok) {h : Handle} {r : Record} (hr : s.record? h = some r) :
    ((s.withdrawDirected h).withdrawRequest h).Cleared h { r with requestPending := false } := by
  have := State.ord_withdrawDirected o hr
  exact State.cleared_withdrawRequest this.1 this.2.2 this.2.1

theorem State.Cleared.settle {s : State} {h : Handle} {r : Record} (c : s.Cleared h r) {q : Record}
    (hq : q.requestPending = false) : (s.setRecord h q).ordView.Ok := by
  rw [State.ordView_setRecord]
  exact c.ok.settle (State.ordView_key c.record) c.bare c.idle hq

theorem State.Cleared.mod {s : State} {h : Handle} {r : Record} (c : s.Cleared h r) {f : Record → Record}
    (hf : ∀ x : Record, (f x).requestPending = x.requestPending) : (s.modRecord h f).Cleared h (f r) := by
  rw [State.modRecord_eq _ _ _ _ c.record]
  have hi : (f r).requestPending = false := (hf r).trans c.idle
  refine ⟨c.settle hi, ?_, State.record?_setRecord_self .., hi⟩
  rw [State.ordView_setRecord]
  exact c.bare

theorem State.ord_returnToReserved {s : State} (o : s.ordView.Ok) (h : Handle) (x : RecOutcome) :
    (s.returnToReserved h x).ordView.Ok := by
  unfold State.returnToReserved
  rw [State.ordView_mark]
  cases hr : s.record? h with
  | none => simp only [State.withdrawDirected, State.withdrawRequest, State.modRecord, hr]; exact o
  | some r => exact (State.Cleared.mod (State.cleared_withdrawn o hr) (f := fun q => { q with
      state := .reserved, leaseRemaining := q.leaseLength, missCount := 0, outcome := x }) fun _ => rfl).ok

theorem State.ord_emptied {s : State} (o : s.ordView.Ok) {h : Handle} {r : Record} (hr : s.record? h = some r) :
    (((s.withdrawDirected h).withdrawRequest h).emptySlot h r).ordView.Ok := by
  have c := State.cleared_withdrawn o hr
  rw [State.ordView_emptySlot]
  exact c.ok.free (State.ordView_key c.record) c.bare rfl

theorem State.ord_freeMarked {s : State} (o : s.ordView.Ok) (h : Handle) (m : ChangeMask) :
    (s.freeMarked h m).ordView.Ok := by
  unfold State.freeMarked
  split
  · exact o
  · next r hr => rw [State.ordView_markFreed]; exact State.ord_emptied o hr

theorem State.ord_freeByHost {s : State} (o : s.ordView.Ok) (h : Handle) : (s.freeByHost h).ordView.Ok := by
  unfold State.freeByHost
  split
  · exact o
  · next r hr =>
    dsimp only
    split
    · exact State.ord_emptied o hr
    · rw [State.ordView_markFreed]; exact State.ord_emptied o hr

theorem State.ord_endRecord {s : State} (o : s.ordView.Ok) (h : Handle) (x : RecOutcome) :
    (s.endRecord h x).ordView.Ok := by
  unfold State.endRecord
  split
  · exact o
  · split
    · exact State.ord_returnToReserved o h x
    · refine State.ord_freeMarked ?_ h _
      rw [State.ordView_quarantine]
      have e : (s.setOutcome h x).ordView = s.ordView := s.ordView_modRecord h _ fun _ => rfl
      rw [e]; exact o

/-- A move is abandoned: its REASSIGN is withdrawn. -/
theorem State.ord_abandonMove {s : State} (o : s.ordView.Ok) {h : Handle} {r : Record} (hr : s.record? h = some r)
    {t : Station} (ht : r.state = .moving t) :
    (s.abandonMove h r.line t).ordView.Ok ∧ (s.abandonMove h r.line t).ordView.Bare h
      ∧ (s.abandonMove h r.line t).record? h = some r := by
  have e : (s.abandonMove h r.line t).ordView = s.ordView.setLive r.line .reassign (s.refOf h) 0 := by
    unfold State.abandonMove
    dsimp only
    split <;> exact State.ordView_setLive (LineEngine.live_withdraw .reassign (s.refOf h) _) (LineEngine.polls_withdraw ..)
  have := o.withdraw (State.ordView_key hr) (k := .reassign) (by show r.state.directed = _; rw [ht]; rfl)
  rw [e]
  exact ⟨this.1, this.2, by simpa using hr⟩

theorem State.ord_lapseRecord {s : State} (o : s.ordView.Ok) {h : Handle} {r : Record} (hr : s.record? h = some r)
    (h1 : r.state.leaseRuns = true) : (s.lapseRecord h).ordView.Ok := by
  have tail : ∀ s1 : State, s1.ordView.Ok → s1.ordView.Bare h → s1.record? h = some r → OrdView.Ok (State.ordView
      (if r.pinned then s1.returnToReserved h .lapsed
      else ((((s1.quarantine r.line r.station (some (s1.refOf h))).withdrawRequest h).modRecord h fun r =>
        { r with state := .lapsed, leaseRemaining := 0, outcome := .lapsed }).mark h
          (ChangeMask.state ||| ChangeMask.outcome)))) := by
    intro s1 o1 b1 r1
    split
    · exact State.ord_returnToReserved o1 h _
    · rw [State.ordView_mark]
      exact (State.Cleared.mod
        (State.cleared_withdrawRequest (s := s1.quarantine r.line r.station (some (s1.refOf h))) o1 r1 b1)
        (f := fun q => { q with state := .lapsed, leaseRemaining := 0, outcome := .lapsed }) fun _ => rfl).ok
  unfold State.lapseRecord
  rw [hr]
  dsimp only
  apply tail
  · split
    · next t ht => exact (State.ord_abandonMove o hr ht).1
    · exact o
  · split
    · next t ht => exact (State.ord_abandonMove o hr ht).2.1
    · next hn =>
      refine o.bare (State.ordView_key hr) ?_
      show r.state.directed = none
      cases hs : r.state <;> rw [hs] at h1 hn <;> first | rfl | exact (hn _ rfl).elim | cases h1
  · split
    · next t ht => exact (State.ord_abandonMove o hr ht).2.2
    · exact hr

/-! ### The sweep (R52, R61, R62) -/

theorem State.ord_ageSlot {s : State} (h : Handle) (o : s.ordView.Ok) : (s.ageSlot h).ordView.Ok := by
  unfold State.ageSlot
  split
  · exact o
  · next r hr =>
    split
    · next ha =>
      dsimp only
      have e : (s.setRecord h { r with leaseRemaining := r.leaseRemaining - 1 }).ordView = s.ordView :=
        State.ordView_setRecord_same hr rfl
      split
      · refine State.ord_lapseRecord (r := { r with leaseRemaining := r.leaseRemaining - 1 }) (e ▸ o) (by simp) ?_
        simp only [State.ages, Bool.and_eq_true] at ha
        exact ha.1
      · rw [e]; exact o
    · exact o

/-- A visit by an operation that keeps the laws keeps them. -/
theorem ord_visit {α : Type} (f : State → α → State) (hf : ∀ s h, s.ordView.Ok → (f s h).ordView.Ok) :
    ∀ (hs : List α) (s : State), s.ordView.Ok → (hs.foldl f s).ordView.Ok
  | [], _, o => o
  | h :: hs, s, o => ord_visit f hf hs _ (hf s h o)

theorem State.ord_leaseStage {s : State} (o : s.ordView.Ok) : s.leaseStage.ordView.Ok :=
  ord_visit _ (fun _ h => State.ord_ageSlot h) _ s o

theorem State.ord_expireEntry {s : State} (o : s.ordView.Ok) (l : Line) (q : QuarEntry) :
    (s.expireEntry l q).ordView.Ok := by
  unfold State.expireEntry
  dsimp only
  split
  · exact o
  · split
    · exact State.ord_freeMarked (s := s.setMap l q.station .free) o _ _
    · exact o

theorem State.ord_quarStage {s : State} (o : s.ordView.Ok) : s.quarStage.ordView.Ok := by
  have st : ∀ (u : State) (l : Line), u.ordView.Ok → (u.quarStageOf l).ordView.Ok := fun u l ou =>
    ord_visit _ (fun _ q ov => State.ord_expireEntry ov l q) _ _ ou
  exact st _ _ (st _ _ o)

/-! ### Host commands -/

theorem State.ord_withReference {s : State} (o : s.ordView.Ok) (r : RefOperand) (act : Handle → Record → State × Reply)
    (h : ∀ (k : Handle) (q : Record), s.record? k = some q → (act k q).1.ordView.Ok) :
    (s.withReference r act).1.ordView.Ok := by
  unfold State.withReference
  split
  · exact o
  · split
    · exact o
    · split
      · exact o
      · split
        · exact o
        · next hr => exact h _ _ hr
  · split
    · exact o
    · next hc => exact h _ _ (State.record?_of_current? hc)

theorem State.ord_sameKey {s : State} (o : s.ordView.Ok) {h : Handle} {q r : Record} (hr : s.record? h = some q)
    (hk : r.ordKey = q.ordKey) : (s.setRecord h r).ordView.Ok := by
  rw [State.ordView_setRecord_same hr hk]; exact o

theorem State.ord_placeRecord {s : State} (o : s.ordView.Ok) {h : Handle} {r : Record} (hf : s.record? h = none)
    (hp : r.requestPending = false) :
    (s.placeRecord h r).ordView.Ok ∧ (s.placeRecord h r).ordView.Bare h := by
  have hk : s.ordView.key h = none := by simp [State.ordView, hf]
  rw [State.ordView_placeRecord]
  exact ⟨o.place hk hp, o.bare_place hk _⟩

theorem State.ord_reserve {s : State} (o : s.ordView.Ok) (id : Identity) (line st : Byte) (n : Nat) :
    (s.reserve id line st n).1.ordView.Ok := by
  have on : ∀ (l : Line) (x : Option Station), (s.reserveOn id l x n).1.ordView.Ok := by
    intro l x
    unfold State.reserveOn
    split
    · exact o
    · split
      · exact o
      · next h hw =>
        have at' : ∀ y : Station, (s.reserveAt id l h y n).1.ordView.Ok := fun y =>
          (State.ord_placeRecord (r := Record.reserved id l y (if n = 0 then s.arb.grantCfg.leaseLength else n)) o
            (State.freeWay_free hw) rfl).1
        repeat' split
        all_goals first | exact at' _ | exact o
  unfold State.reserve
  repeat' split
  all_goals first | exact on _ _ | exact o

theorem State.ord_pinCommand {s : State} (o : s.ordView.Ok) (r : RefOperand) : (s.pinCommand r).1.ordView.Ok := by
  refine State.ord_withReference o r _ fun k q hq => ?_
  split
  · exact State.ord_sameKey o hq rfl
  · exact State.ord_sameKey o hq rfl
  · exact o

theorem State.ord_unpinCommand {s : State} (o : s.ordView.Ok) (r : RefOperand) : (s.unpinCommand r).1.ordView.Ok := by
  refine State.ord_withReference o r _ fun k q hq => ?_
  split
  · exact o
  · split
    · dsimp only
      refine State.ord_freeByHost ?_ k
      split <;> exact o
    · exact State.ord_sameKey o hq rfl

/-- RELEASE in the form in which it is placed is live for its record alone. -/
theorem Order.isLive_fresh (x : Ref) (d : Dest) (y : OrderPayload) (n : Nat) (b : Bool) (k' : OrderKind) (x' : Ref) :
    (Order.fresh (some x) d y n b).isLive k' x' = true ↔ k' = y.kind ∧ x' = x := by
  simp only [Order.isLive, Order.fresh, Order.kind, Bool.and_eq_true, beq_iff_eq, Option.some.injEq, Bool.not_false,
    and_true]
  constructor
  · rintro ⟨h1, h2⟩; exact ⟨h1.symm, h2.symm⟩
  · rintro ⟨h1, h2⟩; exact ⟨h1.symm, h2.symm⟩

theorem State.ord_placeRelease {s : State} (o : s.ordView.Ok) {h : Handle} {r : Record} (hr : s.record? h = some r)
    (b : s.ordView.Bare h) (d : Dest) :
    (s.placeRelease h r.line d).ordView.Ok := by
  unfold State.placeRelease
  rw [State.modRecord_eq _ _ _ _ hr]
  have e := s.ordView_setRecord h { r with state := .retiring }
  have o1 : (s.setRecord h { r with state := .retiring }).ordView.Ok := by
    rw [e]; exact o.relabel (State.ordView_key hr) b fun _ => rfl
  refine State.ord_place o1 (State.record?_setRecord_self ..) (k := .release) ?_ rfl fun k' x' => ?_
  · rw [e]; exact b
  · rw [State.refOf_setRecord]
    exact Order.isLive_fresh ..

theorem State.ord_retireTaken {s : State} (o : s.ordView.Ok) {h : Handle} {r : Record} (hr : s.record? h = some r)
    (h1 : r.state ≠ .retiring) : (s.retireTaken h r).1.ordView.Ok := by
  unfold State.retireTaken
  split
  · exact State.ord_endRecord o h _
  · next t hs =>
    have a := State.ord_abandonMove o hr hs
    exact State.ord_placeRelease a.1 a.2.2 a.2.1 _
  · next hj hm =>
    refine State.ord_placeRelease o hr (o.bare (State.ordView_key hr) ?_) _
    show r.state.directed = none
    cases hs : r.state <;> first | rfl | exact (hj hs).elim | exact (hm _ hs).elim | exact (h1 hs).elim

theorem State.ord_retireCommand {s : State} (o : s.ordView.Ok) (r : RefOperand) (b : Byte) :
    (s.retireCommand r b).1.ordView.Ok := by
  unfold State.retireCommand
  split
  · exact o
  · refine State.ord_withReference o r _ fun k q hq => ?_
    split
    · exact o
    · exact o
    · exact o
    · next h1 h2 h3 =>
      split
      · exact o
      · split
        · exact o
        · dsimp only
          have hk : (if b = 1 then { q with pinned := false } else q).ordKey = q.ordKey := by split <;> rfl
          refine State.ord_retireTaken (State.ord_sameKey o hq hk) (State.record?_setRecord_self ..) ?_
          intro e
          exact h2 ((congrArg OrdKey.state hk).symm.trans e)

theorem State.ord_reassignCommand {s : State} (o : s.ordView.Ok) (r : RefOperand) (b : Byte) :
    (s.reassignCommand r b).1.ordView.Ok := by
  unfold State.reassignCommand
  split
  · exact o
  · next t _ =>
    refine State.ord_withReference o r _ fun k q hq => ?_
    split
    · exact o
    · next hb =>
      have hb : q.state = .bound := Decidable.of_not_not hb
      repeat' split
      all_goals try exact o
      unfold State.reassignTaken
      have bare := o.bare (State.ordView_key hq) (by show q.state.directed = none; rw [hb]; rfl)
      have e := s.ordView_setRecord k { q with state := .moving t }
      refine State.ord_place (s := (s.setRecord k { q with state := .moving t }).setMap q.line t (.target k))
        (h := k) (r := { q with state := .moving t }) (k := .reassign) ?_ (by simp) ?_ rfl fun k' x' => ?_
      · rw [State.ordView_setMap, e]
        exact o.relabel (State.ordView_key hq) bare fun _ => rfl
      · rw [State.ordView_setMap, e]; exact bare
      · rw [State.refOf_setMap, State.refOf_setRecord]
        exact Order.isLive_fresh ..

theorem State.ord_purgeCommand {s : State} (o : s.ordView.Ok) (r : RefOperand) : (s.purgeCommand r).1.ordView.Ok := by
  refine State.ord_withReference o r _ fun k q hq => ?_
  split
  · have h : (s.dropQuarRef q.line (s.refOf k)).ordView.Ok := by rw [State.ordView_dropQuarRef]; exact o
    exact State.ord_freeByHost h k
  · exact o

theorem State.ord_setLeaseCommand {s : State} (o : s.ordView.Ok) (r : RefOperand) (n : Nat) (b : Byte) :
    (s.setLeaseCommand r n b).1.ordView.Ok := by
  unfold State.setLeaseCommand
  split
  · exact o
  · exact State.ord_withReference o r _ fun k q hq => State.ord_sameKey o hq rfl

theorem State.ord_setGroupsCommand {s : State} (o : s.ordView.Ok) (r : RefOperand) (v : BitVec 16) :
    (s.setGroupsCommand r v).1.ordView.Ok := by
  refine State.ord_withReference o r _ fun k q hq => ?_
  split
  · exact o
  · have e := State.ord_sameKey (r := { q with groups := v }) o hq rfl
    dsimp only
    rw [State.ordView_setGroups]
    exact e

theorem State.ord_setGroupLimitCommand {s : State} (o : s.ordView.Ok) (g n : Byte) :
    (s.setGroupLimitCommand g n).1.ordView.Ok := by
  unfold State.setGroupLimitCommand
  split
  · dsimp only
    split <;> exact o
  · exact o

theorem State.ord_setTagCommand {s : State} (o : s.ordView.Ok) (r : RefOperand) (bs : List Byte) :
    (s.setTagCommand r bs).1.ordView.Ok := by
  unfold State.setTagCommand
  split
  · exact o
  · exact State.ord_withReference o r _ fun k q hq => State.ord_sameKey o hq rfl

theorem State.ord_ackChangeCommand {s : State} (o : s.ordView.Ok) (h : Handle) (g : Gen) :
    (s.ackChangeCommand h g).1.ordView.Ok := by
  unfold State.ackChangeCommand
  split
  · have hs : ∀ k, ((s.acknowledge h).slot k).content = (s.slot k).content
        ∧ ((s.acknowledge h).slot k).gen = (s.slot k).gen := by
      intro k
      have : (s.acknowledge h).slot k = (s.setSlot h { s.slot h with mask := 0 }).slot k := rfl
      rw [this, State.slot_setSlot]
      split <;> simp_all
    have : (s.acknowledge h).ordView = s.ordView :=
      State.ordView_congr (fun k => by simp only [State.record?, (hs k).1]) (fun k => (hs k).2) (fun _ => rfl) fun _ => rfl
    rw [this]; exact o
  · exact o

theorem State.ord_clampMisses {s : State} (o : s.ordView.Ok) (n : Nat) : (s.clampMisses n).ordView.Ok := by
  have hslot : ∀ h : Handle, (s.clampMisses n).slot h = (s.slot h).clampMiss n := by
    intro h
    show (Vector.map _ s.dir.slots).get h = _
    simp [Vector.get, State.slot]
  have : (s.clampMisses n).ordView = s.ordView := by
    refine State.ordView_congr (fun k => ?_) (fun k => ?_) (fun _ => rfl) fun _ => rfl
    · simp only [State.record?, hslot, Slot.clampMiss]
      split
      · next r hr => rw [hr]; rfl
      · rfl
    · rw [hslot]
      unfold Slot.clampMiss
      split <;> rfl
  rw [this]; exact o

/-! ### Polls (R98) -/

theorem State.ord_applyPresence {s : State} (o : s.ordView.Ok) {h : Handle} {r : Record} (hr : s.record? h = some r) :
    (s.applyPresence h r).ordView.Ok := by
  unfold State.applyPresence
  split
  · next hs =>
    rw [State.ordView_mark, State.ordView_setRecord]
    exact o.relabel (State.ordView_key hr) (o.bare (State.ordView_key hr) (by show r.state.directed = none; rw [hs]; rfl))
      (st := .bound) fun _ => rfl
  · exact State.ord_sameKey o hr rfl

theorem State.ord_presence {s : State} (o : s.ordView.Ok) (l : Line) (st : Station) (ref : Ref) :
    (s.presence l st ref).ordView.Ok := by
  unfold State.presence
  split
  · next hp =>
    split
    · exact State.ord_applyPresence o (State.record?_of_current? (State.polledRecord?_current hp))
    · exact o
  · exact o

theorem State.ord_miss {s : State} (o : s.ordView.Ok) (l : Line) (st : Station) (ref : Ref) :
    (s.miss l st ref).ordView.Ok := by
  unfold State.miss
  split
  · next r hp =>
    have hr := State.record?_of_current? (State.polledRecord?_current hp)
    split
    · unfold State.applyMiss
      split
      · next hf =>
        have hb : r.state = .bound := by unfold State.fallsQuiet at hf; simp at hf; exact hf.1
        rw [State.ordView_mark, State.ordView_setRecord]
        exact o.relabel (State.ordView_key hr)
          (o.bare (State.ordView_key hr) (by show r.state.directed = none; rw [hb]; rfl)) (st := .quiet) fun _ => rfl
      · exact State.ord_sameKey o hr rfl
    · exact o
  · exact o

/-! ### Joins (R108 to R118) -/

@[simp] theorem State.ordView_takeCaps (s : State) (l : Line) (h : Handle) (es : List CapEntry) :
    (s.takeCaps l h es).ordView = s.ordView := by
  unfold State.takeCaps
  split
  · rfl
  · next r hr =>
    have e : ((s.countIntake l (intake es)).setRecord h { r with caps := (intake es).kept }).ordView = s.ordView :=
      (State.ordView_setRecord_same (s := s.countIntake l (intake es)) (q := r)
        (r := { r with caps := (intake es).kept }) hr rfl).trans (State.ordView_countIntake ..)
    dsimp only
    split
    · exact e
    · rw [State.ordView_mark]; exact e

/-- An order of no record fills the call's reservation. -/
theorem State.ordView_fill_noRef (s : State) (l : Line) {d : Order} (h : d.ref = none) :
    (s.modLine l (LineEngine.fill .call d)).ordView = s.ordView :=
  State.ordView_modLine_same (LineEngine.live_place_noRef d _ h)
    ((LineEngine.polls_place d _).trans (LineEngine.polls_release_call _))

@[simp] theorem State.ordView_refuseJoin (s : State) (l : Line) (id : Identity) (x : RefusalReason) :
    (s.refuseJoin l id x).ordView = s.ordView := by
  have e : ((s.modLine l (LineEngine.fill .call (Order.fresh none (.identity id) (.refuse x s.arb.grantCfg.backoff)
      s.arb.grantCfg.retryLimit false))).bump l x.ctr).ordView = s.ordView := by
    rw [State.ordView_bump, State.ordView_fill_noRef _ _ rfl]
  unfold State.refuseJoin State.refusalAlso
  cases x <;> exact e

/-- The ASSIGN of a JOINING record that has no directed order yet. -/
theorem State.ord_placeAssign {s : State} (o : s.ordView.Ok) {h : Handle} {r : Record} (hr : s.record? h = some r)
    (b : s.ordView.Bare h) (hs : r.state = .joining) (k : JoinKind) : (s.placeAssign r.line h k).ordView.Ok := by
  unfold State.placeAssign
  rw [hr]
  dsimp only
  have e := s.ordView_release_call r.line
  have := State.ord_place (s := s.modLine r.line (LineEngine.release .call)) (h := h) (r := r) (k := .assign)
    (d := Order.fresh (some (s.refOf h)) (.identity r.identity) (.assign r.station r.leaseLength k)
        s.arb.grantCfg.retryLimit false)
    (e ▸ o) hr (e ▸ b) (by rw [hs]; rfl) fun k' x' => Order.isLive_fresh ..
  unfold State.modLine at this ⊢
  rw [State.line_setLine_self, State.setLine_setLine] at this
  exact this

theorem State.Cleared.assign {s : State} {h : Handle} {r : Record} (c : s.Cleared h r) (hs : r.state = .joining)
    (caps : List CapEntry) (k : JoinKind) : ((s.takeCaps r.line h caps).placeAssign r.line h k).ordView.Ok := by
  have e := s.ordView_takeCaps r.line h caps
  have hk : (s.takeCaps r.line h caps).ordView.key h = some r.ordKey := by rw [e]; exact State.ordView_key c.record
  obtain ⟨q, hq, hqk⟩ : ∃ q, (s.takeCaps r.line h caps).record? h = some q ∧ q.ordKey = r.ordKey := by
    simpa [State.ordView] using hk
  have hl : q.line = r.line := congrArg OrdKey.line hqk
  rw [← hl]
  rw [← hl] at e
  exact State.ord_placeAssign (e ▸ c.ok) (hl ▸ hq) (e ▸ c.bare) ((congrArg OrdKey.state hqk).trans hs) k

theorem State.ord_rejoin {s : State} (o : s.ordView.Ok) {h : Handle} {r : Record} (hr : s.record? h = some r)
    (b : s.ordView.Bare h) (caps : List CapEntry) (k : JoinKind) : (s.rejoin r.line h caps k).ordView.Ok := by
  have c := State.Cleared.mod (State.cleared_withdrawRequest o hr b) (f := fun q => { q with state := .joining })
    fun _ => rfl
  exact c.assign rfl caps k

theorem State.ord_joinNew {s : State} (o : s.ordView.Ok) (l : Line) (id : Identity) (caps : List CapEntry) :
    (s.joinNew l id caps).ordView.Ok := by
  unfold State.joinNew
  split
  · rw [State.ordView_refuseJoin]; exact o
  · next h hw =>
    split
    · rw [State.ordView_refuseJoin]; exact o
    · next st hst =>
      have e := s.ordView_countIntake l (intake caps)
      have p := State.ord_placeRecord (s := s.countIntake l (intake caps)) (h := h)
        (r := Record.joining id l st s.arb.grantCfg.leaseLength (intake caps).kept) (e ▸ o) (State.freeWay_free hw) rfl
      exact State.ord_placeAssign (s := ((s.countIntake l (intake caps)).placeRecord h
          (Record.joining id l st s.arb.grantCfg.leaseLength (intake caps).kept)).setMap l st (.held h))
        (r := Record.joining id l st s.arb.grantCfg.leaseLength (intake caps).kept) p.1
        (by rw [State.record?_setMap, State.record?, State.slot_placeRecord, if_pos rfl]) p.2 rfl .new

theorem State.ord_migrate {s : State} (o : s.ordView.Ok) {h : Handle} {r : Record} (hr : s.record? h = some r) (l : Line)
    (caps : List CapEntry) (h1 : r.state = .lapsed ∨ r.state = .quiet) : (s.migrate l h r caps).ordView.Ok := by
  have b : s.ordView.Bare h := o.bare (State.ordView_key hr) (by
    show r.state.directed = none
    rcases h1 with h1 | h1 <;> rw [h1] <;> rfl)
  unfold State.migrate
  split
  · rw [State.ordView_refuseJoin]; exact o
  · next st hst =>
    have c : (s.leaveOldLine h r).Cleared h { r with requestPending := false } := by
      unfold State.leaveOldLine
      split
      · next hs =>
        have hp : r.requestPending = false := by
          cases hp : r.requestPending with
          | false => rfl
          | true =>
            have := (o.pending h _ (State.ordView_key hr) hp).1
            change r.state.takesRequests = true at this
            rw [hs] at this; cases this
        have e : { r with requestPending := false } = r := by rw [← hp]
        rw [e]
        exact ⟨o, b, hr, hp⟩
      · have c := State.cleared_withdrawRequest o hr b
        exact ⟨c.ok, c.bare, c.record, c.idle⟩
    have c2 := State.Cleared.mod c (f := fun q => { q with line := l, station := st, state := .joining }) fun _ => rfl
    exact State.Cleared.assign (s := ((s.leaveOldLine h r).modRecord h fun q =>
      { q with line := l, station := st, state := .joining }).setMap l st (.held h)) ⟨c2.ok, c2.bare, c2.record, c2.idle⟩
      rfl caps .migrated

theorem Order.isLive_refreshed (r : Record) (o : Order) (k : OrderKind) (x : Ref) :
    (o.refreshed r).isLive k x = o.isLive k x := by
  unfold Order.refreshed
  split
  · next hp =>
    split
    · rfl
    · simp [Order.isLive, Order.kind, hp, OrderPayload.kind]
  · rfl

theorem State.ord_joinAgain {s : State} (o : s.ordView.Ok) (l : Line) (h : Handle) (r : Record) (caps : List CapEntry) :
    (s.joinAgain l h r caps).ordView.Ok := by
  unfold State.joinAgain
  rw [State.ordView_release_call, State.ordView_takeCaps, State.ordView_modLine_same]
  · exact o
  · refine live_map rfl fun x k y => ?_
    split
    · exact Order.isLive_refreshed ..
    · rfl
  · rfl

theorem State.ord_joinFound {s : State} (o : s.ordView.Ok) {h : Handle} {r : Record} (hr : s.record? h = some r) (l : Line)
    (caps : List CapEntry) : (s.joinFound l h r caps).ordView.Ok := by
  have bare : r.state.directed = none → s.ordView.Bare h := o.bare (State.ordView_key hr)
  unfold State.joinFound
  split
  · next hl =>
    subst hl
    split
    · next hs => exact State.ord_rejoin o hr (bare (by rw [hs]; rfl)) _ _
    · next hs => exact State.ord_rejoin o hr (bare (by rw [hs]; rfl)) _ _
    · next hs => exact State.ord_rejoin o hr (bare (by rw [hs]; rfl)) _ _
    · next hs =>
      exact State.ord_rejoin (s := s.takeBack r.line h r) o (by exact hr) (bare (by rw [hs]; rfl)) _ _
    · next t hs =>
      have a := State.ord_abandonMove o hr hs
      exact State.ord_rejoin a.1 a.2.2 a.2.1 _ _
    · exact State.ord_joinAgain o _ _ _ _
    · rw [State.ordView_refuseJoin]; exact o
  · split
    · next hs => exact State.ord_migrate o hr _ _ (.inl hs)
    · next hs => exact State.ord_migrate o hr _ _ (.inr hs)
    all_goals rw [State.ordView_refuseJoin]; exact o

theorem State.ord_joinClaim {s : State} (o : s.ordView.Ok) (l : Line) (id : Identity) (caps : List CapEntry)
    (p : CallPolicy) : (s.joinClaim l id caps p).ordView.Ok := by
  unfold State.joinClaim
  dsimp only
  split
  · rw [State.ordView_refuseJoin]; exact o
  · unfold State.found?
    split
    · next h r hf =>
      refine State.ord_joinFound o ?_ _ _
      split at hf
      · next k _ =>
        simp only [Option.map_eq_some_iff, Prod.mk.injEq] at hf
        obtain ⟨q, hq, rfl, rfl⟩ := hf
        exact hq
      · cases hf
    · exact State.ord_joinNew o _ _ _

/-! ### Requests (R123 to R131) -/

/-- An ANSWER fills the reservation of its poll, where the queue keeps its bound. -/
theorem State.ord_answer {s : State} (o : s.ordView.Ok) {ref : Ref} {r : Record} (hr : s.current? ref = some r)
    (ht : r.state.takesRequests = true) (hm : .poll ref ∈ (s.line r.line).reservations)
    (hq : (s.line r.line).orders.length + (s.line r.line).reservations.length ≤ 8) (st : Station) (code : Byte)
    (content : List Byte) : (s.answer r.line st ref code content).ordView.Ok := by
  obtain ⟨hg, hrec⟩ := State.current?_eq_some.mp hr
  have href : ref = s.refOf ref.handle := by cases ref; exact congrArg (Ref.mk _) hg.symm
  have hk := State.ordView_key hrec
  have hpos : 0 < s.ordView.polls r.line ⟨ref.handle, s.ordView.gen ref.handle⟩ := by
    rw [href] at hm; exact List.count_pos_iff.mpr hm
  have hidle := o.idle r.line ref.handle _ hk rfl hpos
  have hzero : s.ordView.live r.line .answer ⟨ref.handle, s.ordView.gen ref.handle⟩ = 0 := by
    refine Nat.eq_zero_of_not_pos fun hp => ?_
    obtain ⟨-, q, hq, -, hq2⟩ := o.answers _ _ _ hp
    rw [hk] at hq; cases hq
    rw [hidle] at hq2; cases hq2
  have hone := o.onePoll r.line ref.handle (s.ordView.gen ref.handle)
  unfold State.answer
  rw [State.modRecord_eq _ _ _ _ hrec]
  have hfree : 0 < ((s.line r.line).release (.poll ref)).freeCount := by
    have := List.length_erase_of_mem hm
    have := List.length_pos_of_mem hm
    unfold LineEngine.freeCount LineEngine.release
    dsimp only
    omega
  have e : ((s.setRecord ref.handle { r with requestPending := true }).modLine r.line (LineEngine.fill (.poll ref)
      (Order.fresh (some ref) (.station st) (.answer code content) s.arb.grantCfg.retryLimit false))).ordView
      = ((s.ordView.setRec ref.handle { r.ordKey with pending := true }).setPolls r.line
          ⟨ref.handle, s.ordView.gen ref.handle⟩ 0).setLive r.line .answer ⟨ref.handle, s.ordView.gen ref.handle⟩ 1 := by
    rw [State.ordView_modLine, State.ordView_setRecord]
    refine OrdView.ext rfl rfl ?_ ?_
    · funext l k x
      simp only [OrdView.setLive, OrdView.setPolls, OrdView.setRec, State.line_setRecord]
      by_cases hl : l = r.line
      · subst hl
        rw [if_pos rfl]
        unfold LineEngine.fill
        rw [LineEngine.live_place _ _ hfree, LineEngine.live_release]
        by_cases hc : k = .answer ∧ x = ref
        · obtain ⟨rfl, rfl⟩ := hc
          have hz : (s.line r.line).live .answer x = 0 := by rw [href]; exact hzero
          rw [(Order.isLive_fresh x (.station st) (.answer code content) s.arb.grantCfg.retryLimit false .answer x).mpr ⟨rfl, rfl⟩,
            if_pos ⟨rfl, rfl, href⟩, hz]
          rfl
        · rw [Bool.eq_false_iff.mpr fun e => hc ((Order.isLive_fresh ..).mp e),
            if_neg fun e => hc ⟨e.2.1, e.2.2.trans href.symm⟩]
          rfl
      · simp [hl]
    · funext l x
      simp only [OrdView.setLive, OrdView.setPolls, OrdView.setRec, State.line_setRecord]
      by_cases hl : l = r.line
      · subst hl
        rw [if_pos rfl]
        unfold LineEngine.fill
        rw [LineEngine.polls_place, LineEngine.polls_release_poll _ _ _ (by rw [href]; exact hone)]
        by_cases hx : x = ref
        · rw [if_pos hx, if_pos ⟨rfl, hx.trans href⟩]
        · rw [if_neg hx, if_neg fun e => hx (e.2.trans href.symm)]; rfl
      · simp [hl]
  rw [e]
  exact o.answer hk ht

/-- What the handling of a request leaves: the view, the queues, and the names of the records. -/
structure State.Handled (s t : State) : Prop where
  view : t.ordView = s.ordView
  lines : ∀ l, (t.line l).orders = (s.line l).orders ∧ (t.line l).reservations = (s.line l).reservations

theorem State.ord_requestClaim {s : State} (o : s.ordView.Ok) (q : s.QueueLaw) (l : Line) (st : Station) (ref : Ref)
    (code : Byte) (handle : State → Record → State × List Byte) (hk : ∀ (t : State) (r : Record), t.Handled (handle t r).1) :
    (s.requestClaim l st ref code handle).ordView.Ok := by
  unfold State.requestClaim
  split
  · unfold State.discardRequest
    rw [State.ordView_bump]; exact State.ord_release o l _
  · next r hr =>
    obtain ⟨⟨hc, rfl, -, -⟩, ht, hm⟩ := State.requester?_eq_some.mp hr
    have hrec := State.record?_of_current? hc
    dsimp only
    have a : ((s.bump r.line .requestsTaken).requestPresence ref.handle r).ordView.Ok
        ∧ (∃ q, ((s.bump r.line .requestsTaken).requestPresence ref.handle r).record? ref.handle = some q ∧ q.line = r.line
          ∧ q.state.takesRequests = true)
        ∧ (∀ k, ((s.bump r.line .requestsTaken).requestPresence ref.handle r).ordView.gen k = s.ordView.gen k)
        ∧ ∀ k, (((s.bump r.line .requestsTaken).requestPresence ref.handle r).line k).orders = (s.line k).orders
          ∧ (((s.bump r.line .requestsTaken).requestPresence ref.handle r).line k).reservations = (s.line k).reservations := by
      have hb : ∀ k, ((s.bump r.line .requestsTaken).line k).orders = (s.line k).orders
          ∧ ((s.bump r.line .requestsTaken).line k).reservations = (s.line k).reservations := by
        intro k
        simp only [State.bump, State.modLine, State.line_setLine]
        split
        · next h => subst h; exact ⟨rfl, rfl⟩
        · exact ⟨rfl, rfl⟩
      have ob : (s.bump r.line .requestsTaken).ordView.Ok := by rw [State.ordView_bump]; exact o
      unfold State.requestPresence
      split
      · refine ⟨State.ord_applyPresence ob hrec, ?_, ?_, ?_⟩
        · unfold State.applyPresence
          split
          · exact ⟨_, (State.record?_mark _ _ _ _).trans (State.record?_setRecord_self ..), rfl, rfl⟩
          · exact ⟨_, State.record?_setRecord_self .., rfl, ht⟩
        · intro k
          unfold State.applyPresence
          split <;> simp [OrdView.setRec]
        · intro k
          unfold State.applyPresence
          split <;> simp [hb k]
      · exact ⟨ob, ⟨r, hrec, rfl, ht⟩, fun k => by rw [State.ordView_bump], hb⟩
    obtain ⟨a1, ⟨q', hq', hl, ht'⟩, ag, al⟩ := a
    generalize (s.bump r.line .requestsTaken).requestPresence ref.handle r = s1 at a1 hq' ag al
    obtain ⟨v, ln⟩ := hk s1 r
    have hkey : (handle s1 r).1.ordView.key ref.handle = some q'.ordKey := by rw [v]; exact State.ordView_key hq'
    obtain ⟨x, hx, hxk⟩ : ∃ x, (handle s1 r).1.record? ref.handle = some x ∧ x.ordKey = q'.ordKey := by
      simpa [State.ordView] using hkey
    have hxl : x.line = r.line := (congrArg OrdKey.line hxk).trans hl
    have hgen : ((handle s1 r).1.slot ref.handle).gen = ref.gen := by
      have : (handle s1 r).1.ordView.gen ref.handle = s.ordView.gen ref.handle := by rw [v]; exact ag _
      exact this.trans (State.current?_eq_some.mp hc).1
    have ll := ln r.line
    rw [(al r.line).1, (al r.line).2] at ll
    have := State.ord_answer (s := (handle s1 r).1) (v ▸ a1) (State.current?_eq_some.mpr ⟨hgen, hx⟩)
      (by rw [show x.state = q'.state from congrArg OrdKey.state hxk]; exact ht')
      (by rw [hxl, ll.2]; exact hm) (by rw [hxl, ll.1, ll.2]; exact q r.line) st code (handle s1 r).2
    rw [hxl] at this
    exact this

theorem State.handled_refl (s : State) : s.Handled s := ⟨rfl, fun _ => ⟨rfl, rfl⟩⟩

theorem State.handled_renewRequest (ref : Ref) (n : Nat) (s : State) (r : Record) :
    s.Handled (State.renewRequest ref n s r).1 := by
  unfold State.renewRequest
  dsimp only
  split
  · exact s.handled_refl
  · refine ⟨s.ordView_modRecord _ _ fun _ => rfl, fun l => ?_⟩
    unfold State.modRecord
    split <;> exact ⟨rfl, rfl⟩

theorem State.handled_capsRequest (l : Line) (ref : Ref) (es : List CapEntry) (s : State) (r : Record) :
    s.Handled (State.capsRequest l ref es s r).1 := by
  refine ⟨s.ordView_takeCaps _ _ _, fun k => ?_⟩
  unfold State.capsRequest State.takeCaps
  split
  · exact ⟨rfl, rfl⟩
  · have a : ((s.countIntake l (intake es)).line k).orders = (s.line k).orders
        ∧ ((s.countIntake l (intake es)).line k).reservations = (s.line k).reservations := by
      simp only [State.countIntake, State.modLine, State.line_setLine]
      split
      · next h => subst h; exact LineEngine.orders_intake ..
      · exact ⟨rfl, rfl⟩
    dsimp only
    split <;> simp [a]

theorem State.ord_leaveClaim {s : State} (o : s.ordView.Ok) (l : Line) (st : Station) (ref : Ref) :
    (s.leaveClaim l st ref).ordView.Ok := by
  unfold State.leaveClaim
  split
  · unfold State.discardRequest
    rw [State.ordView_bump]; exact State.ord_release o l _
  · next r hr =>
    obtain ⟨⟨-, hl, -, -⟩, ht, -⟩ := State.requester?_eq_some.mp hr
    have hrec : (s.bump l .requestsTaken).record? ref.handle = some r := State.requester?_record (s := s) hr
    have ob : (s.bump l .requestsTaken).ordView.Ok := by rw [State.ordView_bump]; exact o
    have ol : ((s.bump l .requestsTaken).leaveRecord l ref.handle r).ordView.Ok := by
      unfold State.leaveRecord
      split
      · exact State.ord_endRecord ob _ _
      · next t hs =>
        subst hl
        exact State.ord_endRecord (State.ord_abandonMove ob hrec hs).1 _ _
      · exact State.ord_endRecord ob _ _
    have e := State.ord_release ol l (.poll ref)
    have e2 := State.ordView_place_noRef (((s.bump l .requestsTaken).leaveRecord l ref.handle r).modLine l
      (LineEngine.release (.poll ref))) l (d := Order.fresh none (.station st) (.answer 0x02 [])
        (((s.bump l .requestsTaken).leaveRecord l ref.handle r)).arb.grantCfg.retryLimit true) rfl
    rw [← e2] at e
    unfold State.answerLeave
    unfold State.modLine at e ⊢
    rw [State.line_setLine_self, State.setLine_setLine] at e
    exact e

/-! ### Outcomes (R100, R119 to R121, R133, R140 to R142, R149) -/

/-- An outcome claim whose order is there removes it; the record it names then has no directed order. -/
theorem State.ord_outcomeClaim {s : State} (o : s.ordView.Ok) (l : Line) {k : OrderKind} (hd : k.isDirected = true)
    (ref : Ref) (conclude : State → Order → Record → State)
    (hk : ∀ (t : State) (x : Order) (r : Record), t.ordView.Ok → t.record? ref.handle = some r →
      t.ordView.Bare ref.handle → r.line = l → (conclude t x r).ordView.Ok) :
    (s.outcomeClaim l k ref conclude).ordView.Ok := by
  unfold State.outcomeClaim
  split
  · exact o
  · next d hf =>
    have hpos : 0 < s.ordView.live l k ref := List.countP_pos_iff.mpr ⟨d, List.mem_of_find?_eq_some hf, by
      have := List.find?_some hf
      simp only [Order.isConcluding, Bool.and_eq_true] at this; exact this.1⟩
    obtain ⟨hg, q, hq, hql, hqs⟩ := o.backed l k ref.handle ref.gen hd hpos
    have hone := o.one l k ref.handle ref.gen hd
    have href : ref = ⟨ref.handle, s.ordView.gen ref.handle⟩ := by cases ref; exact congrArg (Ref.mk _) hg.symm
    have e : (s.modLine l (LineEngine.removeConcluded k ref)).ordView
        = s.ordView.setLive q.line k ⟨ref.handle, s.ordView.gen ref.handle⟩ 0 := by
      rw [hql, ← href]
      refine State.ordView_setLive (fun k' x' => ?_) (LineEngine.polls_removeConcluded ..)
      rw [LineEngine.live_removeConcluded hf]
      split
      · next hc =>
        rw [hc.1, hc.2]
        change (s.line l).live k ref ≤ 1 at hone
        omega
      · rfl
    have w := o.withdraw hq hqs
    rw [← e] at w
    have hg' : (s.modLine l (LineEngine.removeConcluded k ref)).ordView.gen ref.handle = s.ordView.gen ref.handle := rfl
    dsimp only
    split
    · next r hc =>
      have hr := State.record?_of_current? hc
      refine hk _ _ _ w.1 hr w.2 ?_
      have : s.ordView.key ref.handle = some r.ordKey := State.ordView_key (by exact hr)
      rw [hq] at this
      cases this
      exact hql
    · exact w.1

theorem State.ord_joinConfirmed {s : State} (o : s.ordView.Ok) {h : Handle} {r : Record} (hr : s.record? h = some r)
    (b : s.ordView.Bare h) (k : JoinKind) : (s.joinConfirmed h k r).ordView.Ok := by
  unfold State.joinConfirmed
  rw [State.ordView_mark, State.ordView_setRecord]
  exact o.relabel (State.ordView_key hr) b (st := .bound) fun _ => rfl

theorem State.ord_joinDeclined {s : State} (o : s.ordView.Ok) (h : Handle) (r : Record) :
    (s.joinDeclined h r).ordView.Ok := by
  unfold State.joinDeclined
  split
  · exact State.ord_returnToReserved o h _
  · refine State.ord_freeMarked ?_ h _
    have e : (s.setOutcome h .joinAbandoned).ordView = s.ordView := s.ordView_modRecord h _ fun _ => rfl
    rw [State.ordView_setMap, e]; exact o

theorem State.ord_probeConclusion {s : State} (o : s.ordView.Ok) {h : Handle} {r : Record} (hr : s.record? h = some r)
    (b : s.ordView.Bare h) (t : Station) (x y : Bool) : (s.probeConclusion h r t x y).ordView.Ok
      ∧ (s.moveDone h r t).ordView.Ok ∧ ∀ z, (s.moveBack h r t z).ordView.Ok := by
  have done : (s.moveDone h r t).ordView.Ok := by
    unfold State.moveDone
    rw [State.ordView_mark, State.ordView_setRecord, State.ordView_setMap, State.ordView_quarantine]
    exact o.relabel (State.ordView_key hr) b (st := .bound) fun _ => rfl
  have back : ∀ z, (s.moveBack h r t z).ordView.Ok := by
    intro z
    unfold State.moveBack
    rw [State.ordView_mark, State.ordView_setRecord, State.ordView_setMap]
    exact o.relabel (State.ordView_key hr) b (st := .bound) fun _ => rfl
  refine ⟨?_, done, back⟩
  unfold State.probeConclusion
  split
  · exact done
  · split
    · exact back _
    · unfold State.moveUncertain
      rw [State.ordView_mark, State.ordView_setRecord, State.ordView_quarantine]
      exact o.relabel (State.ordView_key hr) b (st := .quiet) fun _ => rfl

theorem State.ord_moveClaim {s : State} (o : s.ordView.Ok) (l : Line) (ref : Ref)
    (conclude : State → Record → Station → State)
    (hk : ∀ (u : State) (r : Record) (t : Station), u.ordView.Ok → u.record? ref.handle = some r →
      u.ordView.Bare ref.handle → (conclude u r t).ordView.Ok) : (s.moveClaim l ref conclude).ordView.Ok := by
  refine State.ord_outcomeClaim o l rfl ref _ fun u _ r ou hr b _ => ?_
  split
  · exact hk u r _ ou hr b
  · exact ou

theorem State.ord_answerClaim {s : State} (o : s.ordView.Ok) (l : Line) (ref : Ref) (x : OrderResult) :
    (s.answerClaim l ref x).ordView.Ok := by
  unfold State.answerClaim
  split
  · exact o
  · next d hf =>
    have hpos : 0 < s.ordView.live l .answer ref := List.countP_pos_iff.mpr ⟨d, List.mem_of_find?_eq_some hf, by
      have := List.find?_some hf
      simp only [Order.isConcluding, Bool.and_eq_true] at this; exact this.1⟩
    obtain ⟨hg, q, hq, hql, hqp⟩ := o.answers l ref.handle ref.gen hpos
    have href : ref = ⟨ref.handle, s.ordView.gen ref.handle⟩ := by cases ref; exact congrArg (Ref.mk _) hg.symm
    obtain ⟨r, hr, hrk⟩ : ∃ r, s.record? ref.handle = some r ∧ r.ordKey = q := by simpa [State.ordView] using hq
    have hone := (o.pending ref.handle q hq hqp).2
    have e : (s.modLine l (LineEngine.removeConcluded .answer ref)).ordView
        = s.ordView.setLive q.line .answer ⟨ref.handle, s.ordView.gen ref.handle⟩ 0 := by
      rw [hql, ← href]
      refine State.ordView_setLive (fun k' x' => ?_) (LineEngine.polls_removeConcluded ..)
      rw [LineEngine.live_removeConcluded hf]
      split
      · next hc =>
        rw [hc.1, hc.2]
        rw [hql, ← href] at hone
        change (s.line l).live .answer ref = 1 at hone
        omega
      · rfl
    have hc : (s.modLine l (LineEngine.removeConcluded .answer ref)).current? ref = some r :=
      State.current?_eq_some.mpr ⟨hg, hr⟩
    dsimp only
    rw [hc]
    have a : ((s.modLine l (LineEngine.removeConcluded .answer ref)).setRecord ref.handle
        { r with requestPending := false }).ordView.Ok := by
      rw [State.ordView_setRecord, e]
      have := o.answered hq
      rw [← hrk] at this ⊢
      exact this
    dsimp only
    split
    · rw [State.ordView_bump]; exact a
    · exact a

/-! ### The claims of a line (R84, R85) -/

theorem State.ord_stopSlot {s : State} (l : Line) (h : Handle) (o : s.ordView.Ok) : (State.stopSlot l s h).ordView.Ok := by
  unfold State.stopSlot
  split
  · next r hr =>
    split
    · next hl =>
      subst hl
      unfold State.stopRecord
      split
      · exact State.ord_endRecord o _ _
      · next t hs =>
        have a := State.ord_abandonMove o hr hs
        refine State.ord_withdrawRequest ?_ h
        rw [State.ordView_mark, State.modRecord_eq _ _ _ r a.2.2, State.ordView_setRecord]
        exact a.1.relabel (State.ordView_key a.2.2) a.2.1 (st := .bound) fun _ => rfl
      · exact State.ord_endRecord o _ _
      · split
        · exact State.ord_withdrawRequest o h
        · exact o
    · exact o
  · exact o

theorem State.slot_stopSlot_of_ne (s : State) (l : Line) {h k : Handle} (ne : k ≠ h) :
    (State.stopSlot l s h).slot k = s.slot k := by
  unfold State.stopSlot
  split
  · next r hr =>
    split
    · unfold State.stopRecord
      split
      · exact s.slot_endRecord_of_ne _ ne
      · rw [State.slot_withdrawRequest_of_ne _ ne, State.slot_mark_of_ne _ _ ne,
          State.modRecord_eq _ _ _ r (by simpa using hr), State.slot_setRecord_of_ne _ _ ne, State.slot_abandonMove]
      · exact s.slot_endRecord_of_ne _ ne
      · split
        · exact State.slot_withdrawRequest_of_ne _ ne
        · rfl
    · rfl
  · rfl

/-- The line claim leaves the slot it visits without a pending request of its line. -/
theorem State.idle_stopSlot (s : State) (l : Line) {h : Handle} {r : Record}
    (hr : (State.stopSlot l s h).record? h = some r) (hl : r.line = l) : r.requestPending = false := by
  have ended : ∀ (x : RecOutcome) (q : Record), s.record? h = some q → (s.endRecord h x).record? h = some r →
      r.requestPending = false := by
    intro x q hq he
    rw [s.endRecord_eq h x q hq] at he
    split at he
    · obtain ⟨e, -, eq⟩ := s.returnToReserved_eq h x q hq
      rw [eq] at he
      simp only [State.record?_mark, State.record?_setRecord_self, Option.some.injEq] at he
      rw [← he]
    · have := State.slot_freeMarked ((s.setRecord h { q with outcome := x }).quarantine q.line q.station none) h h
        ChangeMask.outcome { q with outcome := x } (by simp [State.record?, State.quarantine])
      unfold State.record? at he
      rw [this, if_pos rfl] at he
      cases he
  have w : ∀ (u : State) (q : Record), u.record? h = some q → (u.withdrawRequest h).record? h = some r →
      r.requestPending = false := by
    intro u q hq he
    rw [State.record?_withdrawRequest hq] at he
    cases he; rfl
  unfold State.stopSlot at hr
  split at hr
  · next q hq =>
    split at hr
    · unfold State.stopRecord at hr
      split at hr
      · exact ended _ q hq hr
      · next t _ =>
        refine w _ ?_ ?_ hr
        · exact { q with state := .bound, outcome := .moveAborted }
        · obtain ⟨e, -, eq⟩ := s.abandonMove_eq h l t
          have : (s.abandonMove h l t).record? h = some q := by
            rw [eq]; split <;> exact hq
          rw [State.record?_mark, State.modRecord_eq _ _ _ _ this, State.record?_setRecord_self]
      · exact ended _ q hq hr
      · split at hr
        · exact w _ q hq hr
        · next hp => rw [hq] at hr; cases hr; simpa using hp
    · next hn => rw [hq] at hr; cases hr; exact absurd hl hn
  · next hq => rw [hq] at hr; cases hr

theorem State.slot_stopSlots (l : Line) : ∀ (hs : List Handle) (s : State) (k : Handle), k ∉ hs →
    (hs.foldl (State.stopSlot l) s).slot k = s.slot k
  | [], _, _, _ => rfl
  | h :: hs, s, k, hk => by
    rw [List.mem_cons, not_or] at hk
    rw [List.foldl_cons, State.slot_stopSlots l hs _ k hk.2, s.slot_stopSlot_of_ne l hk.1]

theorem State.idle_stopSlots (l : Line) : ∀ (hs : List Handle) (s : State), hs.Nodup → ∀ (h : Handle) (r : Record), h ∈ hs →
    (hs.foldl (State.stopSlot l) s).record? h = some r → r.line = l → r.requestPending = false
  | [], _, _, _, _, hm, _, _ => by cases hm
  | k :: hs, s, nd, h, r, hm, hr, hl => by
    rw [List.nodup_cons] at nd
    rw [List.foldl_cons] at hr
    rcases List.mem_cons.mp hm with rfl | hm
    · unfold State.record? at hr
      rw [State.slot_stopSlots l hs _ h nd.1] at hr
      exact s.idle_stopSlot l hr hl
    · exact State.idle_stopSlots l hs _ nd.2 h r hm hr hl

theorem State.ord_lineWork {s : State} (l : Line) (o : s.ordView.Ok) : (s.lineWork l).ordView.Ok := by
  have a : (allHandles.foldl (State.stopSlot l) s).ordView.Ok := ord_visit _ (fun _ h => State.ord_stopSlot l h) _ s o
  have n : ∀ h r, (allHandles.foldl (State.stopSlot l) s).ordView.key h = some r → r.line = l → r.pending = false := by
    intro h r hk hl
    simp only [State.ordView, Option.map_eq_some_iff] at hk
    obtain ⟨q, hq, rfl⟩ := hk
    exact State.idle_stopSlots l allHandles s (List.nodup_finRange _) h q (List.mem_finRange h) hq hl
  have e : (s.lineWork l).ordView = { (allHandles.foldl (State.stopSlot l) s).ordView with
      live := fun k c x => if k = l then 0 else (allHandles.foldl (State.stopSlot l) s).ordView.live k c x
      polls := fun k x => if k = l then 0 else (allHandles.foldl (State.stopSlot l) s).ordView.polls k x } := by
    unfold State.lineWork
    rw [State.ordView_modLine]
    refine OrdView.ext rfl rfl ?_ ?_
    · funext k c x; dsimp only; split <;> rfl
    · funext k x; dsimp only; split <;> rfl
  rw [e]
  exact a.clear l n

theorem State.ord_flushWork {s : State} (l : Line) (o : s.ordView.Ok) : (s.flushWork l).ordView.Ok := by
  unfold State.flushWork
  rw [State.ordView_modLine_same rfl rfl]
  refine ord_visit (State.flushSlot l) (fun u h ou => ?_) _ s o
  unfold State.flushSlot
  split
  · next r hr =>
    split
    · next hc => exact State.ord_lapseRecord ou hr (by rcases hc.2 with e | e <;> rw [e] <;> rfl)
    · exact ou
  · exact ou

end Sys2Proof.Machine
end

