-- ==== Sys2Proof/Laws/Transactions.lean ====
section
/-! SUPPORT. Which orders are in transaction: directory work takes none in, and the line engine keeps one at most; and what
the line engine at work leaves of the queue. -/

namespace Sys2Proof.Machine

/-! ### Orders in transaction -/

/-- No line's transaction changes, and no order comes into one. -/
def State.Thin (s t : State) : Prop :=
  ∀ l : Line, (t.line l).tx = (s.line l).tx ∧ (t.line l).orders.countP Order.chosen ≤ (s.line l).orders.countP Order.chosen

theorem State.Thin.trans {s t u : State} (h : s.Thin t) (k : t.Thin u) : s.Thin u :=
  fun l => ⟨(k l).1.trans (h l).1, Nat.le_trans (k l).2 (h l).2⟩

theorem State.Thin.of_lines {s t : State} (h : ∀ l, t.line l = s.line l) : s.Thin t := by
  intro l; rw [h]; exact ⟨rfl, Nat.le_refl _⟩

theorem State.Thin.refl (s : State) : s.Thin s := .of_lines fun _ => rfl

theorem State.LinesShrunk.thin {s t : State} (h : s.LinesShrunk t) : s.Thin t := by
  intro l
  obtain ⟨os, rs, e, -, -, hc⟩ := h l
  rw [e]
  exact ⟨rfl, hc⟩

theorem State.thin_modLine {s : State} {l : Line} {f : LineEngine → LineEngine} (ht : (f (s.line l)).tx = (s.line l).tx)
    (hc : (f (s.line l)).orders.countP Order.chosen ≤ (s.line l).orders.countP Order.chosen) : s.Thin (s.modLine l f) := by
  intro k
  unfold State.modLine
  rw [State.line_setLine]
  split
  · next h => subst h; exact ⟨ht, hc⟩
  · exact ⟨rfl, Nat.le_refl _⟩

theorem State.thin_bump (s : State) (l : Line) (c : Ctr) : s.Thin (s.bump l c) := State.thin_modLine rfl (Nat.le_refl _)

theorem State.thin_release (s : State) (l : Line) (x : Reservation) : s.Thin (s.modLine l (LineEngine.release x)) :=
  State.thin_modLine rfl (Nat.le_refl _)

theorem LineEngine.place_thin (e : LineEngine) {d : Order} (h : d.chosen = false) :
    (e.place d).tx = e.tx ∧ (e.place d).orders.countP Order.chosen ≤ e.orders.countP Order.chosen := by
  unfold LineEngine.place
  split
  · exact ⟨rfl, by simp [h]⟩
  · exact ⟨rfl, Nat.le_refl _⟩

theorem State.thin_place (s : State) (l : Line) {d : Order} (h : d.chosen = false) :
    s.Thin (s.modLine l (LineEngine.place d)) := State.thin_modLine (LineEngine.place_thin _ h).1 (LineEngine.place_thin _ h).2

theorem State.thin_fill (s : State) (l : Line) (x : Reservation) {d : Order} (h : d.chosen = false) :
    s.Thin (s.modLine l (LineEngine.fill x d)) :=
  State.thin_modLine (LineEngine.place_thin ((s.line l).release x) h).1 (LineEngine.place_thin ((s.line l).release x) h).2

theorem State.thin_modRecord (s : State) (h : Handle) (f : Record → Record) : s.Thin (s.modRecord h f) := by
  unfold State.modRecord
  split
  · exact .of_lines fun _ => rfl
  · exact .refl s

theorem State.thin_countIntake (s : State) (l : Line) (i : Intake) : s.Thin (s.countIntake l i) := by
  have a : ∀ (e : LineEngine) (c : Ctr) (n : Nat), (e.bumpBy c n).tx = e.tx := by
    intro e c n
    induction n generalizing e with
    | zero => rfl
    | succ n ih => exact ih (e.bump c)
  refine State.thin_modLine ((a _ _ _).trans (a _ _ _)) ?_
  exact Nat.le_of_eq (by rw [((s.line l).orders_intake i).1])

theorem State.thin_returnToReserved (s : State) (h : Handle) (x : RecOutcome) : s.Thin (s.returnToReserved h x) := by
  cases hr : s.record? h with
  | none =>
    refine .of_lines fun l => ?_
    simp only [State.returnToReserved, State.withdrawDirected, State.withdrawRequest, State.modRecord, hr]
    exact State.line_mark ..
  | some r =>
    obtain ⟨e, he, q⟩ := s.returnToReserved_eq h x r hr
    rw [q]
    refine (State.LinesShrunk.of_setLine he).thin.trans (.of_lines fun l => ?_)
    rw [State.line_mark]; rfl

theorem State.thin_freeByHost (s : State) (h : Handle) : s.Thin (s.freeByHost h) := by
  unfold State.freeByHost
  split
  · exact .refl s
  · next r hr =>
    have a : s.Thin (((s.withdrawDirected h).withdrawRequest h).emptySlot h r) := by
      obtain ⟨e, he, q, -⟩ := s.withdrawn_emptySlot_eq h r hr
      rw [q]
      exact (State.LinesShrunk.of_setLine he).thin.trans (.of_lines fun _ => rfl)
    dsimp only
    split
    · exact a
    · refine a.trans (.of_lines fun l => ?_)
      unfold State.markFreed
      rw [State.line_mark]; rfl

theorem State.thin_expireEntry (s : State) (l : Line) (q : QuarEntry) : s.Thin (s.expireEntry l q) := by
  have a : s.Thin (s.setMap l q.station .free) := .of_lines fun _ => rfl
  unfold State.expireEntry
  dsimp only
  split
  · exact a
  · split
    · exact a.trans (State.linesShrunk_freeMarked _ _ _).thin
    · exact a

theorem thin_visit {α : Type} (f : State → α → State) (hf : ∀ (s : State) (h : α), s.Thin (f s h)) :
    ∀ (hs : List α) (s : State), s.Thin (hs.foldl f s)
  | [], s => .refl s
  | h :: hs, s => (hf s h).trans (thin_visit f hf hs _)

theorem State.thin_leaseStage (s : State) : s.Thin s.leaseStage := by
  refine thin_visit _ (fun u h => ?_) _ s
  unfold State.ageSlot
  split
  · exact .refl u
  · next r hr =>
    split
    · dsimp only
      have a : u.Thin (u.setRecord h { r with leaseRemaining := r.leaseRemaining - 1 }) := .of_lines fun _ => rfl
      split
      · exact a.trans (State.linesShrunk_lapseRecord _ _).thin
      · exact a
    · exact .refl u

theorem State.thin_quarStage (s : State) : s.Thin s.quarStage := by
  have st : ∀ (u : State) (l : Line), u.Thin (u.quarStageOf l) := fun u l =>
    State.Thin.trans (.of_lines fun _ => rfl) (thin_visit _ (fun v q => v.thin_expireEntry l q) _ _)
  exact (st s .A).trans (st _ .B)

theorem State.thin_withReference (s : State) (r : RefOperand) (act : Handle → Record → State × Reply)
    (h : ∀ (k : Handle) (q : Record), s.Thin (act k q).1) : s.Thin (s.withReference r act).1 := by
  unfold State.withReference
  repeat' split
  all_goals first | exact h _ _ | exact .of_lines fun _ => rfl

theorem State.thin_reserve (s : State) (id : Identity) (line st : Byte) (n : Nat) :
    s.Thin (s.reserve id line st n).1 := by
  have on : ∀ (l : Line) (x : Option Station), s.Thin (s.reserveOn id l x n).1 := by
    intro l x
    unfold State.reserveOn
    repeat' split
    all_goals exact .of_lines fun _ => rfl
  unfold State.reserve
  repeat' split
  all_goals first | exact on _ _ | exact .refl s

theorem State.thin_pinCommand (s : State) (r : RefOperand) : s.Thin (s.pinCommand r).1 := by
  refine s.thin_withReference r _ fun k q => ?_
  split <;> exact .of_lines fun _ => rfl

theorem State.thin_unpinCommand (s : State) (r : RefOperand) : s.Thin (s.unpinCommand r).1 := by
  refine s.thin_withReference r _ fun k q => ?_
  split
  · exact .refl s
  · split
    · have a : s.Thin (if 0 < q.joinCount then s.quarantine q.line q.station none
          else s.setMap q.line q.station .free) := by split <;> exact .of_lines fun _ => rfl
      exact a.trans (State.thin_freeByHost _ k)
    · exact .of_lines fun _ => rfl

theorem State.thin_placeRelease (s : State) (h : Handle) (l : Line) (d : Dest) : s.Thin (s.placeRelease h l d) :=
  (s.thin_modRecord h _).trans (State.thin_place _ l rfl)

theorem State.thin_retireCommand (s : State) (r : RefOperand) (b : Byte) : s.Thin (s.retireCommand r b).1 := by
  have taken : ∀ (u : State) (k : Handle) (q : Record), u.Thin (u.retireTaken k q).1 := by
    intro u k q
    unfold State.retireTaken
    split
    · exact (u.linesShrunk_endRecord _ _).thin
    · exact (u.linesShrunk_abandonMove _ _ _).thin.trans (State.thin_placeRelease _ _ _ _)
    · exact u.thin_placeRelease _ _ _
  unfold State.retireCommand
  split
  · exact .refl s
  · refine s.thin_withReference r _ fun k q => ?_
    split
    · exact .refl s
    · exact .refl s
    · exact .refl s
    · split
      · exact .refl s
      · split
        · exact .refl s
        · exact State.Thin.trans (.of_lines fun _ => rfl) (taken _ _ _)

theorem State.thin_reassignCommand (s : State) (r : RefOperand) (b : Byte) : s.Thin (s.reassignCommand r b).1 := by
  unfold State.reassignCommand
  split
  · exact .refl s
  · next t _ =>
    refine s.thin_withReference r _ fun k q => ?_
    repeat' split
    all_goals try exact .refl s
    have a : s.Thin ((s.setRecord k { q with state := .moving t }).setMap q.line t (.target k)) := .of_lines fun _ => rfl
    exact a.trans (State.thin_place _ q.line rfl)

theorem State.thin_purgeCommand (s : State) (r : RefOperand) : s.Thin (s.purgeCommand r).1 := by
  refine s.thin_withReference r _ fun k q => ?_
  split
  · have a : s.Thin (s.dropQuarRef q.line (s.refOf k)) := .of_lines fun _ => rfl
    exact a.trans (State.thin_freeByHost _ k)
  · exact .refl s

theorem State.thin_setLeaseCommand (s : State) (r : RefOperand) (n : Nat) (b : Byte) :
    s.Thin (s.setLeaseCommand r n b).1 := by
  unfold State.setLeaseCommand
  split
  · exact .refl s
  · exact s.thin_withReference r _ fun k q => .of_lines fun _ => rfl

theorem State.thin_setGroupsCommand (s : State) (r : RefOperand) (v : BitVec 16) :
    s.Thin (s.setGroupsCommand r v).1 := by
  refine s.thin_withReference r _ fun k q => ?_
  split <;> exact .of_lines fun _ => rfl

theorem State.thin_setTagCommand (s : State) (r : RefOperand) (bs : List Byte) : s.Thin (s.setTagCommand r bs).1 := by
  unfold State.setTagCommand
  split
  · exact .refl s
  · exact s.thin_withReference r _ fun k q => .of_lines fun _ => rfl

theorem State.thin_takeCaps (s : State) (l : Line) (h : Handle) (es : List CapEntry) : s.Thin (s.takeCaps l h es) := by
  unfold State.takeCaps
  split
  · exact .refl s
  · next r hr =>
    have a : s.Thin ((s.countIntake l (intake es)).setRecord h { r with caps := (intake es).kept }) :=
      (s.thin_countIntake l _).trans (.of_lines fun _ => rfl)
    dsimp only
    split
    · exact a
    · exact a.trans (.of_lines fun l => by rw [State.line_mark])

theorem State.thin_refuseJoin (s : State) (l : Line) (id : Identity) (x : RefusalReason) :
    s.Thin (s.refuseJoin l id x) := by
  refine ((s.thin_fill l .call (d := Order.fresh none (.identity id) (.refuse x s.arb.grantCfg.backoff)
    s.arb.grantCfg.retryLimit false) rfl).trans (State.thin_bump _ l x.ctr)).trans (.of_lines fun k => ?_)
  unfold State.refuseJoin State.refusalAlso
  cases x <;> rfl

theorem State.thin_placeAssign (s : State) (l : Line) (h : Handle) (k : JoinKind) : s.Thin (s.placeAssign l h k) := by
  unfold State.placeAssign
  split
  · exact s.thin_fill l _ rfl
  · exact .refl s

theorem State.thin_rejoin (s : State) (l : Line) (h : Handle) (caps : List CapEntry) (k : JoinKind) :
    s.Thin (s.rejoin l h caps k) :=
  (((s.linesShrunk_withdrawRequest h).thin.trans (State.thin_modRecord _ h _)).trans (State.thin_takeCaps _ l h caps)).trans
    (State.thin_placeAssign _ l h k)

theorem State.thin_migrate (s : State) (l : Line) (h : Handle) (r : Record) (caps : List CapEntry) :
    s.Thin (s.migrate l h r caps) := by
  unfold State.migrate
  split
  · exact s.thin_refuseJoin _ _ _
  · next st _ =>
    have a : s.Thin (s.leaveOldLine h r) := by
      unfold State.leaveOldLine
      split
      · exact .of_lines fun _ => rfl
      · exact (s.linesShrunk_withdrawRequest h).thin.trans (.of_lines fun _ => rfl)
    have b := (a.trans (State.thin_modRecord _ h fun q => { q with line := l, station := st, state := .joining })).trans
      (State.Thin.of_lines (t := ((s.leaveOldLine h r).modRecord h fun q =>
        { q with line := l, station := st, state := .joining }).setMap l st (.held h)) fun _ => rfl)
    exact (b.trans (State.thin_takeCaps _ l h caps)).trans (State.thin_placeAssign _ l h _)

theorem Order.chosen_refreshed (r : Record) (o : Order) : (o.refreshed r).chosen = o.chosen := by
  unfold Order.refreshed
  split
  · split <;> rfl
  · rfl

theorem countP_chosen_map {f : Order → Order} (hf : ∀ o, (f o).chosen = o.chosen) (os : List Order) :
    (os.map f).countP Order.chosen = os.countP Order.chosen := by
  rw [List.countP_map]
  exact List.countP_congr fun o _ => by rw [Function.comp_apply, hf]

theorem State.thin_joinFound (s : State) (l : Line) (h : Handle) (r : Record) (caps : List CapEntry) :
    s.Thin (s.joinFound l h r caps) := by
  unfold State.joinFound
  split
  · split
    · exact s.thin_rejoin _ _ _ _
    · exact s.thin_rejoin _ _ _ _
    · exact s.thin_rejoin _ _ _ _
    · have a : s.Thin (s.takeBack l h r) := .of_lines fun _ => rfl
      exact a.trans (State.thin_rejoin _ _ _ _ _)
    · exact (s.linesShrunk_abandonMove _ _ _).thin.trans (State.thin_rejoin _ _ _ _ _)
    · unfold State.joinAgain
      refine (State.Thin.trans (State.thin_modLine rfl (Nat.le_of_eq (countP_chosen_map (fun o => ?_) _)))
        (State.thin_takeCaps _ l h caps)).trans (State.thin_release _ _ _)
      split
      · exact Order.chosen_refreshed ..
      · rfl
    · exact s.thin_refuseJoin _ _ _
  · split
    · exact s.thin_migrate _ _ _ _
    · exact s.thin_migrate _ _ _ _
    all_goals exact s.thin_refuseJoin _ _ _

theorem State.thin_joinClaim (s : State) (l : Line) (id : Identity) (caps : List CapEntry) (p : CallPolicy) :
    s.Thin (s.joinClaim l id caps p) := by
  unfold State.joinClaim
  dsimp only
  split
  · exact s.thin_refuseJoin _ _ _
  · split
    · exact s.thin_joinFound _ _ _ _
    · unfold State.joinNew
      split
      · exact s.thin_refuseJoin _ _ _
      · split
        · exact s.thin_refuseJoin _ _ _
        · exact ((s.thin_countIntake l _).trans (.of_lines fun _ => rfl)).trans (State.thin_placeAssign _ _ _ _)

theorem State.thin_applyPresence (s : State) (h : Handle) (r : Record) : s.Thin (s.applyPresence h r) := by
  refine .of_lines fun l => ?_
  unfold State.applyPresence
  split
  · rw [State.line_mark]; rfl
  · rfl

theorem State.thin_presence (s : State) (l : Line) (st : Station) (ref : Ref) :
    s.Thin (s.presence l st ref) ∧ s.Thin (s.miss l st ref) := by
  constructor
  · unfold State.presence
    repeat' split
    all_goals first | exact s.thin_applyPresence _ _ | exact .refl s
  · unfold State.miss State.applyMiss
    repeat' split
    all_goals first | exact .of_lines fun l => by rw [State.line_mark]; rfl | exact .of_lines fun _ => rfl

theorem State.thin_requestClaim (s : State) (l : Line) (st : Station) (ref : Ref) (code : Byte)
    (handle : State → Record → State × List Byte) (hk : ∀ (t : State) (r : Record), t.Thin (handle t r).1) :
    s.Thin (s.requestClaim l st ref code handle) := by
  unfold State.requestClaim
  split
  · exact (s.thin_release l _).trans (State.thin_bump _ _ _)
  · next r hr =>
    have a : (s.bump l .requestsTaken).Thin ((s.bump l .requestsTaken).requestPresence ref.handle r) := by
      unfold State.requestPresence
      split
      · exact State.thin_applyPresence _ _ _
      · exact .refl _
    dsimp only
    unfold State.answer
    exact ((((s.thin_bump l _).trans a).trans (hk _ _)).trans (State.thin_modRecord _ _ _)).trans (State.thin_fill _ l _ rfl)

theorem State.thin_renewRequest (ref : Ref) (n : Nat) (s : State) (r : Record) :
    s.Thin (State.renewRequest ref n s r).1 := by
  unfold State.renewRequest
  dsimp only
  split
  · exact .refl s
  · exact s.thin_modRecord _ _

theorem State.thin_leaveClaim (s : State) (l : Line) (st : Station) (ref : Ref) : s.Thin (s.leaveClaim l st ref) := by
  unfold State.leaveClaim
  split
  · exact (s.thin_release l _).trans (State.thin_bump _ _ _)
  · next r hr =>
    have a : ∀ u : State, u.Thin (u.leaveRecord l ref.handle r) := by
      intro u
      unfold State.leaveRecord
      split
      · exact (u.linesShrunk_endRecord _ _).thin
      · exact (u.linesShrunk_abandonMove _ _ _).thin.trans (State.linesShrunk_endRecord _ _ _).thin
      · exact (u.linesShrunk_endRecord _ _).thin
    unfold State.answerLeave
    exact ((s.thin_bump l _).trans (a _)).trans (State.thin_fill _ l _ rfl)

theorem State.thin_removeConcluded (s : State) (l : Line) (k : OrderKind) (ref : Ref) :
    s.Thin (s.modLine l (LineEngine.removeConcluded k ref)) :=
  (State.LinesShrunk.of_setLine (LineEngine.shrunk_removeConcluded k ref _)).thin

theorem State.thin_outcomeClaim (s : State) (l : Line) (k : OrderKind) (ref : Ref)
    (conclude : State → Order → Record → State) (hk : ∀ (t : State) (x : Order) (r : Record), t.Thin (conclude t x r)) :
    s.Thin (s.outcomeClaim l k ref conclude) := by
  unfold State.outcomeClaim
  split
  · exact .refl s
  · dsimp only
    split
    · exact (s.thin_removeConcluded l k ref).trans (hk _ _ _)
    · exact s.thin_removeConcluded l k ref

theorem State.thin_joinConfirmed (s : State) (h : Handle) (k : JoinKind) (r : Record) :
    s.Thin (s.joinConfirmed h k r) := .of_lines fun l => by unfold State.joinConfirmed; rw [State.line_mark]; rfl

theorem State.thin_joinDeclined (s : State) (h : Handle) (r : Record) : s.Thin (s.joinDeclined h r) := by
  unfold State.joinDeclined
  split
  · exact s.thin_returnToReserved _ _
  · exact ((s.thin_modRecord h _).trans (.of_lines fun _ => rfl)).trans (State.linesShrunk_freeMarked _ _ _).thin

theorem State.thin_move (s : State) (h : Handle) (r : Record) (t : Station) (x y : Bool) (z : RecOutcome) :
    s.Thin (s.probeConclusion h r t x y) ∧ s.Thin (s.moveDone h r t) ∧ s.Thin (s.moveBack h r t z) := by
  have done : s.Thin (s.moveDone h r t) := .of_lines fun l => by unfold State.moveDone; rw [State.line_mark]; rfl
  have back : ∀ z, s.Thin (s.moveBack h r t z) := fun z =>
    .of_lines fun l => by unfold State.moveBack; rw [State.line_mark]; rfl
  refine ⟨?_, done, back z⟩
  unfold State.probeConclusion
  split
  · exact done
  · split
    · exact back _
    · exact .of_lines fun l => by unfold State.moveUncertain; rw [State.line_mark]; rfl

theorem State.thin_moveClaim (s : State) (l : Line) (ref : Ref) (conclude : State → Record → Station → State)
    (hk : ∀ (u : State) (r : Record) (t : Station), u.Thin (conclude u r t)) : s.Thin (s.moveClaim l ref conclude) := by
  refine s.thin_outcomeClaim l _ ref _ fun u _ r => ?_
  split
  · exact hk u r _
  · exact .refl u

theorem State.thin_answerClaim (s : State) (l : Line) (ref : Ref) (x : OrderResult) :
    s.Thin (s.answerClaim l ref x) := by
  unfold State.answerClaim
  split
  · exact .refl s
  · have a := s.thin_removeConcluded l .answer ref
    dsimp only
    split
    · split
      · exact (a.trans (.of_lines fun _ => rfl)).trans (State.thin_bump _ _ _)
      · exact a.trans (State.thin_bump _ _ _)
    · split
      · exact a.trans (.of_lines fun _ => rfl)
      · exact a

theorem State.thin_stopSlot (l : Line) (s : State) (h : Handle) : s.Thin (State.stopSlot l s h) := by
  unfold State.stopSlot
  split
  · next r hr =>
    split
    · unfold State.stopRecord
      split
      · exact (s.linesShrunk_endRecord _ _).thin
      · next t _ =>
        have a := (s.linesShrunk_abandonMove h l t).thin.trans
          (State.thin_modRecord _ h fun r => { r with state := .bound, outcome := .moveAborted })
        exact (a.trans (.of_lines fun l => State.line_mark ..)).trans (State.linesShrunk_withdrawRequest _ h).thin
      · exact (s.linesShrunk_endRecord _ _).thin
      · split
        · exact (s.linesShrunk_withdrawRequest h).thin
        · exact .refl s
    · exact .refl s
  · exact .refl s

theorem State.thin_lineWork (s : State) (l : Line) : s.Thin (s.lineWork l) :=
  (thin_visit (State.stopSlot l) (State.thin_stopSlot l) _ s).trans (State.thin_modLine rfl (Nat.zero_le _))

theorem State.thin_flushWork (s : State) (l : Line) : s.Thin (s.flushWork l) := by
  refine (thin_visit (State.flushSlot l) (fun u h => ?_) _ s).trans (State.thin_modLine rfl (Nat.le_refl _))
  unfold State.flushSlot
  repeat' split
  all_goals first | exact (u.linesShrunk_lapseRecord _).thin | exact .refl u

/-! ### The line engine at work -/

/-- One order at most is in transaction; none is. -/
def LineEngine.Sole (e : LineEngine) : Prop := e.orders.countP Order.chosen ≤ 1
def LineEngine.NoneChosen (e : LineEngine) : Prop := ∀ o ∈ e.orders, o.chosen = false
def LineEngine.ChosenOk (e : LineEngine) : Prop := e.Sole ∧ (e.tx = none → e.NoneChosen)

theorem LineEngine.NoneChosen.ok {e : LineEngine} (h : e.NoneChosen) : e.ChosenOk :=
  ⟨by unfold LineEngine.Sole; rw [List.countP_eq_zero.mpr fun o ho => by simp [h o ho]]; omega, fun _ => h⟩

theorem LineEngine.noneChosen_iff {e : LineEngine} : e.NoneChosen ↔ e.chosen? = none := by
  unfold LineEngine.NoneChosen LineEngine.chosen?
  rw [List.find?_eq_none]
  simp

/-- The one order in transaction is the order found. -/
theorem LineEngine.Sole.eq {e : LineEngine} (h : e.Sole) {o x : Order} (ho : e.chosen? = some o) (hx : x ∈ e.orders)
    (hc : x.chosen = true) : x = o := by
  have h1 : (e.orders.filter Order.chosen).length ≤ 1 := by rw [← List.countP_eq_length_filter]; exact h
  have mx : x ∈ e.orders.filter Order.chosen := List.mem_filter.mpr ⟨hx, hc⟩
  have mo : o ∈ e.orders.filter Order.chosen :=
    List.mem_filter.mpr ⟨List.mem_of_find?_eq_some ho, List.find?_some ho⟩
  generalize e.orders.filter Order.chosen = ys at h1 mx mo
  rcases ys with - | ⟨y, - | ⟨z, ys⟩⟩
  · cases mx
  · rw [List.mem_singleton] at mx mo
    rw [mx, mo]
  · simp only [List.length_cons] at h1
    omega

/-- A change of a line engine that keeps the live orders, but for REFUSE, and makes no reservation of a poll. -/
structure LineEngine.SameLive (e d : LineEngine) : Prop where
  live : ∀ k x, k ≠ .refuse → d.live k x = e.live k x
  polls : ∀ x, d.polls x ≤ e.polls x

theorem LineEngine.SameLive.refl (e : LineEngine) : e.SameLive e := ⟨fun _ _ _ => rfl, fun _ => Nat.le_refl _⟩
theorem LineEngine.SameLive.trans {e d c : LineEngine} (h : e.SameLive d) (k : d.SameLive c) : e.SameLive c :=
  ⟨fun a x n => (k.live a x n).trans (h.live a x n), fun x => Nat.le_trans (k.polls x) (h.polls x)⟩

theorem LineEngine.SameLive.of_eq {e d : LineEngine} (ho : d.orders = e.orders) (hr : d.reservations = e.reservations) :
    e.SameLive d :=
  ⟨fun k x _ => by unfold LineEngine.live; rw [ho], fun x => Nat.le_of_eq (by unfold LineEngine.polls; rw [hr])⟩

theorem LineEngine.SameLive.of_map {e d : LineEngine} {f : Order → Order} (ho : d.orders = e.orders.map f)
    (hf : ∀ o k x, (f o).isLive k x = o.isLive k x) (hr : d.reservations = e.reservations) : e.SameLive d :=
  ⟨fun k x _ => by rw [live_map ho hf], fun x => Nat.le_of_eq (by unfold LineEngine.polls; rw [hr])⟩

/-- A change of the state at one line alone that keeps its live orders. -/
structure State.Turn (s : State) (l : Line) (t : State) : Prop where
  dir : t.dir = s.dir
  other : ∀ k, k ≠ l → t.line k = s.line k
  live : (s.line l).SameLive (t.line l)

theorem State.Turn.refl (s : State) (l : Line) : s.Turn l s := ⟨rfl, fun _ _ => rfl, .refl _⟩
theorem State.Turn.trans {s t u : State} {l : Line} (h : s.Turn l t) (k : t.Turn l u) : s.Turn l u :=
  ⟨k.dir.trans h.dir, fun x n => (k.other x n).trans (h.other x n), h.live.trans k.live⟩

theorem State.Turn.of_same {s t : State} {l : Line} (hd : t.dir = s.dir) (hl : ∀ k, t.line k = s.line k) : s.Turn l t :=
  ⟨hd, fun k _ => hl k, hl l ▸ .refl _⟩

theorem State.turn_modLine {s : State} {l : Line} {f : LineEngine → LineEngine} (h : (s.line l).SameLive (f (s.line l))) :
    s.Turn l (s.modLine l f) := by
  refine ⟨rfl, fun k hk => ?_, ?_⟩
  · unfold State.modLine; rw [State.line_setLine, if_neg hk]
  · unfold State.modLine; rw [State.line_setLine_self]; exact h

theorem State.turn_setLine {s : State} {l : Line} {e : LineEngine} (h : (s.line l).SameLive e) :
    s.Turn l (s.setLine l e) := State.turn_modLine (f := fun _ => e) h

theorem State.turn_bump (s : State) (l : Line) (c : Ctr) : s.Turn l (s.bump l c) :=
  State.turn_modLine (.of_eq rfl rfl)

theorem State.turn_grant (s : State) (l : Line) : s.Turn l s.grant := .of_same (by simp) fun k => by simp

/-- A change at one line that keeps its live orders keeps the laws. -/
theorem State.Turn.ok {s t : State} {l : Line} (h : s.Turn l t) (o : s.ordView.Ok) : t.ordView.Ok := by
  have hk : t.ordView.key = s.ordView.key := by
    funext i; simp only [State.ordView, State.record?, State.slot, h.dir]
  have hg : t.ordView.gen = s.ordView.gen := by funext i; simp only [State.ordView, State.slot, h.dir]
  have hl : ∀ k c x, c ≠ .refuse → t.ordView.live k c x = s.ordView.live k c x := by
    intro k c x hc
    by_cases hkl : k = l
    · subst hkl; exact h.live.live c x hc
    · show (t.line k).live c x = (s.line k).live c x
      rw [h.other k hkl]
  have hp : ∀ k x, t.ordView.polls k x ≤ s.ordView.polls k x := by
    intro k x
    by_cases hkl : k = l
    · subst hkl; exact h.live.polls x
    · show (t.line k).polls x ≤ (s.line k).polls x
      exact Nat.le_of_eq (by rw [h.other k hkl])
  have nd : ∀ {c : OrderKind}, c.isDirected = true → c ≠ .refuse := by rintro _ h rfl; cases h
  obtain ⟨one, backed, pending, answers, onePoll, idle⟩ := o
  refine ⟨fun k c i g hc => ?_, fun k c i g hc hpos => ?_, fun i r hr hpd => ?_, fun k i g hpos => ?_, fun k i g => ?_,
    fun k i r hr hrl hpos => ?_⟩
  · rw [hl k c _ (nd hc)]; exact one k c i g hc
  · rw [hl k c _ (nd hc)] at hpos; rw [hk, hg]; exact backed k c i g hc hpos
  · rw [hk] at hr; rw [hg, hl _ _ _ (by decide)]; exact pending i r hr hpd
  · rw [hl _ _ _ (by decide)] at hpos; rw [hk, hg]; exact answers k i g hpos
  · exact Nat.le_trans (hp k _) (onePoll k i g)
  · rw [hk] at hr; rw [hg] at hpos; exact idle k i r hr hrl (Nat.lt_of_lt_of_le hpos (hp k _))

/-- A change at one line keeps the law of the orders in transaction where that line keeps it. -/
theorem State.Turn.chosenLaw {s t : State} {l : Line} (h : s.Turn l t) (hc : (t.line l).ChosenOk) (o : s.ChosenLaw) :
    t.ChosenLaw := by
  intro k
  by_cases hk : k = l
  · subst hk; exact hc
  · rw [h.other k hk]; exact o k

theorem State.Thin.chosenLaw {s t : State} (h : s.Thin t) (o : s.ChosenLaw) : t.ChosenLaw := by
  intro l
  obtain ⟨h1, h2⟩ := h l
  refine ⟨Nat.le_trans h2 (o l).1, fun ht x hx => ?_⟩
  have hz : (s.line l).orders.countP Order.chosen = 0 :=
    List.countP_eq_zero.mpr fun y hy => by simp [(o l).2 (h1 ▸ ht) y hy]
  have := List.countP_eq_zero.mp (Nat.le_zero.mp (hz ▸ h2)) x hx
  simpa using this

/-! #### The orders -/

theorem LineEngine.noneChosen_map {e d : LineEngine} {f : Order → Order} (hd : d.orders = e.orders.map f)
    (hf : ∀ o ∈ e.orders, (f o).chosen = false) : d.NoneChosen := by
  intro x hx
  rw [hd, List.mem_map] at hx
  obtain ⟨o, ho, rfl⟩ := hx
  exact hf o ho

theorem LineEngine.noneChosen_endTx (e : LineEngine) : e.endTx.NoneChosen := LineEngine.noneChosen_map rfl fun _ _ => rfl

theorem LineEngine.sameLive_endTx (e : LineEngine) : e.SameLive e.endTx := .of_map rfl (fun _ _ _ => rfl) rfl

theorem LineEngine.sameLive_modChosen (e : LineEngine) {f : Order → Order}
    (hf : ∀ o k x, (f o).isLive k x = o.isLive k x) : e.SameLive (e.modChosen f) :=
  .of_map rfl (fun o k x => by split <;> first | exact hf o k x | rfl) rfl

theorem LineEngine.noneChosen_modChosen (e : LineEngine) {f : Order → Order} (hf : ∀ o, (f o).chosen = false) :
    (e.modChosen f).NoneChosen := by
  refine LineEngine.noneChosen_map rfl fun o _ => ?_
  split
  · exact hf o
  · next h => simpa using h

theorem LineEngine.noneChosen_removeChosen (e : LineEngine) : e.removeChosen.NoneChosen := by
  intro x hx
  have := (List.mem_filter.mp hx).2
  simpa using this

/-- The removal of the order in transaction, where it is no live order but a REFUSE. -/
theorem LineEngine.sameLive_removeChosen {e : LineEngine} (h : e.Sole) {o : Order} (ho : e.chosen? = some o)
    (hn : ∀ k x, k ≠ .refuse → o.isLive k x = false) : e.SameLive e.removeChosen := by
  refine ⟨fun k x hk => ?_, fun _ => Nat.le_refl _⟩
  unfold LineEngine.live LineEngine.removeChosen
  dsimp only
  rw [List.countP_filter]
  refine List.countP_congr fun y hy => ?_
  cases hc : y.chosen with
  | false => simp
  | true => rw [h.eq ho hy hc, hn k x hk]; simp

theorem LineEngine.sole_modChosen {e : LineEngine} (h : e.Sole) {f : Order → Order} (hf : ∀ o, (f o).chosen = o.chosen) :
    (e.modChosen f).Sole := by
  unfold LineEngine.Sole LineEngine.modChosen
  dsimp only
  rw [countP_chosen_map]
  · exact h
  · intro o; split
    · exact hf o
    · rfl

theorem LineEngine.chosen?_modChosen (e : LineEngine) {f : Order → Order} (hf : ∀ o, (f o).chosen = o.chosen) :
    (e.modChosen f).chosen? = e.chosen?.map f := by
  unfold LineEngine.chosen? LineEngine.modChosen
  dsimp only
  rw [List.find?_map]
  have : (fun o : Order => o.chosen) ∘ (fun o => if o.chosen = true then f o else o) = fun o => o.chosen := by
    funext o
    simp only [Function.comp_apply]
    split
    · exact hf o
    · rfl
  rw [this]
  cases h : e.orders.find? fun o => o.chosen with
  | none => rfl
  | some o =>
    have := List.find?_some h
    simp [this]

/-- What an operation on the order in transaction leaves: no order is in transaction, and the transaction is as it was.
-/
structure State.Parts (s : State) (l : Line) (t : State) : Prop where
  turn : s.Turn l t
  none : (t.line l).NoneChosen
  tx : (t.line l).tx = (s.line l).tx

theorem State.line_handOver (s : State) (l k : Line) (c : LineClaim) :
    ((s.handOver l c).line k).orders = (s.line k).orders ∧ ((s.handOver l c).line k).reservations = (s.line k).reservations
      ∧ ((s.handOver l c).line k).tx = (s.line k).tx := by
  unfold State.handOver
  rw [State.line_grant]
  simp only [State.modLine, State.line_setLine]
  split
  · next h => subst h; split <;> exact ⟨rfl, rfl, rfl⟩
  · exact ⟨rfl, rfl, rfl⟩

theorem State.turn_handOver (s : State) (l : Line) (c : LineClaim) : s.Turn l (s.handOver l c) := by
  refine ⟨by simp [State.handOver]; rfl, fun k hk => ?_, .of_eq (s.line_handOver l l c).1 (s.line_handOver l l c).2.1⟩
  unfold State.handOver
  rw [State.line_grant]
  simp [State.modLine, State.line_setLine, hk]

theorem State.line_modLine_self (s : State) (l : Line) (f : LineEngine → LineEngine) :
    (s.modLine l f).line l = f (s.line l) := State.line_setLine_self ..

theorem State.parts_removeChosen {s : State} {l : Line} (h : (s.line l).Sole) {o : Order}
    (ho : (s.line l).chosen? = some o) (hn : ∀ k x, k ≠ .refuse → o.isLive k x = false) :
    s.Parts l (s.modLine l LineEngine.removeChosen) :=
  ⟨State.turn_modLine (LineEngine.sameLive_removeChosen h ho hn),
    by rw [State.line_modLine_self]; exact LineEngine.noneChosen_removeChosen _, by rw [State.line_modLine_self]; rfl⟩

theorem State.parts_modChosen {s : State} {l : Line} {f : Order → Order} (h1 : ∀ o k x, (f o).isLive k x = o.isLive k x)
    (h2 : ∀ o, (f o).chosen = false) : s.Parts l (s.modLine l (LineEngine.modChosen f)) :=
  ⟨State.turn_modLine (LineEngine.sameLive_modChosen _ h1),
    by rw [State.line_modLine_self]; exact LineEngine.noneChosen_modChosen _ h2, by rw [State.line_modLine_self]; rfl⟩

theorem State.Parts.after {s t u : State} {l : Line} (h : s.Turn l t) (ht : (t.line l).tx = (s.line l).tx)
    (p : t.Parts l u) : s.Parts l u := ⟨h.trans p.turn, p.none, p.tx.trans ht⟩

theorem State.parts_concludeOrder {s : State} {l : Line} (h : (s.line l).Sole) (x : OrderResult) :
    s.Parts l (s.concludeOrder l x) := by
  unfold State.concludeOrder
  split
  · next hn => exact ⟨.refl s l, LineEngine.noneChosen_iff.mpr hn, rfl⟩
  · next o ho =>
    split
    · next hr => exact State.parts_removeChosen h ho fun k x _ => Order.not_isLive_noRef hr k x
    · next ref hr =>
      have p := State.parts_modChosen (s := s) (l := l)
        (f := fun o => { o with progress := .concluding, chosen := false }) (fun _ _ _ => rfl) fun _ => rfl
      have a := State.line_handOver (s.modLine l (LineEngine.modChosen fun o =>
        { o with progress := .concluding, chosen := false })) l l (.outcome o.kind ref x)
      refine ⟨p.turn.trans (State.turn_handOver _ _ _), ?_, a.2.2.trans p.tx⟩
      unfold LineEngine.NoneChosen
      rw [a.1]; exact p.none

theorem State.parts_attemptEnd {s : State} {l : Line} (h : (s.line l).Sole) : s.Parts l (s.attemptEnd l) := by
  unfold State.attemptEnd
  split
  · next hn => exact ⟨.refl s l, LineEngine.noneChosen_iff.mpr hn, rfl⟩
  · next o ho =>
    have b := s.turn_bump l .ordersExhausted
    split
    · dsimp only
      split
      · exact .after b (by rw [State.bump, State.line_modLine_self]; rfl)
          (State.parts_modChosen (f := Order.probing) (fun _ _ _ => rfl) fun _ => rfl)
      · have c := State.turn_modLine (s := s.bump l .ordersExhausted) (l := l)
          (LineEngine.sameLive_modChosen _ (f := Order.spentOrder) fun _ _ _ => rfl)
        refine .after (b.trans c) ?_ (State.parts_concludeOrder ?_ _)
        · rw [State.line_modLine_self, State.bump, State.line_modLine_self]; rfl
        · rw [State.line_modLine_self, State.bump, State.line_modLine_self]
          exact LineEngine.sole_modChosen (e := (s.line l).bump .ordersExhausted) h fun _ => rfl
    · exact State.parts_modChosen (f := Order.deferredOrder) (fun _ _ _ => rfl) fun _ => rfl

theorem State.parts_probeEnd {s : State} {l : Line} (h : (s.line l).Sole) (o : Order) (b : Bool) :
    s.Parts l (s.probeEnd l o b) := by
  unfold State.probeEnd
  split
  · exact State.parts_concludeOrder h _
  · split
    · exact State.parts_concludeOrder h _
    · exact State.parts_modChosen (f := fun o => { o with progress := .waiting, targetMissed := true, chosen := false })
        (fun _ _ _ => rfl) fun _ => rfl

/-- An order that was sent whole is a REFUSE. -/
def OrderEnd.Fits (x : OrderEnd) (o : Order) : Prop := x = .sent → o.kind = .refuse

theorem State.parts_sendEnd {s : State} {l : Line} (h : (s.line l).Sole) {o : Order} (ho : (s.line l).chosen? = some o)
    {x : OrderEnd} (hx : x.Fits o) : s.Parts l (s.sendEnd l o x) := by
  unfold State.sendEnd
  split
  · exact State.parts_concludeOrder h _
  · exact State.parts_concludeOrder h _
  · refine State.parts_removeChosen h ho fun k y hk => ?_
    cases hv : o.isLive k y with
    | false => rfl
    | true => exact absurd ((Order.isLive_kind hv).symm.trans (hx rfl)) hk
  · split
    · exact State.parts_modChosen (f := fun o => { o with progress := .waiting, onSecond := true, chosen := false })
        (fun _ _ _ => rfl) fun _ => rfl
    · exact State.parts_attemptEnd h

/-- What the end of a transaction leaves: no order is in transaction. -/
structure State.Ends (s : State) (l : Line) (t : State) : Prop where
  turn : s.Turn l t
  none : (t.line l).NoneChosen

theorem State.Ends.before {s t u : State} {l : Line} (h : s.Turn l t) (e : t.Ends l u) : s.Ends l u :=
  ⟨h.trans e.turn, e.none⟩

theorem State.ends_endTx (s : State) (l : Line) : s.Ends l (s.modLine l LineEngine.endTx) :=
  ⟨State.turn_modLine (LineEngine.sameLive_endTx _), by rw [State.line_modLine_self]; exact LineEngine.noneChosen_endTx _⟩

theorem State.ends_handOver {s t : State} {l : Line} (e : s.Ends l t) (c : LineClaim) : s.Ends l (t.handOver l c) := by
  refine ⟨e.turn.trans (State.turn_handOver _ _ _), ?_⟩
  unfold LineEngine.NoneChosen
  rw [(t.line_handOver l l c).1]; exact e.none

theorem State.ends_orderEnd {s : State} {l : Line} (h : (s.line l).Sole) {x : OrderEnd}
    (hx : ∀ o, (s.line l).chosen? = some o → x.Fits o) : s.Ends l (s.orderEnd l x) := by
  unfold State.orderEnd
  refine .before ?_ (State.ends_endTx _ l)
  split
  · exact .refl s l
  · next o ho =>
    split
    · next hw =>
      exact (State.parts_removeChosen h ho fun k x _ => Order.not_isLive_withdrawn hw k x).turn.trans
        (State.turn_bump _ _ _)
    · split
      · exact (State.parts_sendEnd h ho (hx o ho)).turn
      · exact (State.parts_probeEnd h o _).turn

/-! #### Polls and replies -/

theorem State.ends_pollEnd (s : State) (l : Line) (ref : Ref) (keep : Bool) (c : LineClaim) :
    s.Ends l (s.pollEnd l ref keep c) := by
  have a : s.Turn l (s.modLine l fun e => if keep then e else e.release (.poll ref)) := by
    refine State.turn_modLine ?_
    split
    · exact .refl _
    · exact ⟨fun _ _ _ => rfl, fun x => LineEngine.polls_release_le _ _ x⟩
  exact State.ends_handOver (.before a (State.ends_endTx _ l)) c

theorem OrderEnd.fits_of_ne {x : OrderEnd} (h : x ≠ .sent) (o : Order) : x.Fits o := fun e => absurd e h

theorem State.sole_bump {s : State} {l : Line} (h : (s.line l).Sole) (c : Ctr) : ((s.bump l c).line l).Sole := by
  rw [State.bump, State.line_modLine_self]; exact h

theorem State.ends_noReplyEnd {s : State} {l : Line} (h : (s.line l).Sole) (t : Tx) : s.Ends l (s.noReplyEnd l t) := by
  unfold State.noReplyEnd
  have a : s.Turn l (if t.afterHold then s.bump l .holdOffFailures else s)
      ∧ ((if t.afterHold then s.bump l .holdOffFailures else s).line l).Sole := by
    split
    · exact ⟨s.turn_bump l _, State.sole_bump h _⟩
    · exact ⟨.refl s l, h⟩
  dsimp only
  split
  · exact .before a.1 (State.ends_pollEnd _ _ _ _ _)
  · exact .before a.1 (State.ends_orderEnd a.2 fun o _ => OrderEnd.fits_of_ne (by decide) o)

/-- What an event of a line leaves of its queue. -/
structure State.Works (s : State) (l : Line) (t : State) : Prop where
  turn : s.Turn l t
  chosen : (t.line l).ChosenOk

theorem State.Ends.works {s t : State} {l : Line} (e : s.Ends l t) : s.Works l t := ⟨e.turn, e.none.ok⟩
theorem State.Works.before {s t u : State} {l : Line} (h : s.Turn l t) (e : t.Works l u) : s.Works l u :=
  ⟨h.trans e.turn, e.chosen⟩

theorem State.Works.laws {s t : State} {l : Line} (w : s.Works l t) (o : s.ordView.Ok) (c : s.ChosenLaw) :
    t.ordView.Ok ∧ t.ChosenLaw := ⟨w.turn.ok o, w.turn.chosenLaw w.chosen c⟩

theorem LineEngine.beginFrame_works {e : LineEngine} (h : e.Sole) (hn : e.tx = none → e.NoneChosen) (n : Nat) :
    e.SameLive (e.beginFrame n) ∧ (e.beginFrame n).ChosenOk := by
  unfold LineEngine.beginFrame
  split
  · next ht => exact ⟨.refl e, h, fun _ => hn ht⟩
  · next t ht =>
    split
    · exact ⟨.of_eq rfl rfl, h, fun hc => by cases hc⟩
    · dsimp only
      split
      · split
        · exact ⟨e.sameLive_endTx, e.noneChosen_endTx.ok⟩
        · exact ⟨(e.sameLive_modChosen (f := Order.sent) fun _ _ _ => rfl).trans (.of_eq rfl rfl),
            LineEngine.sole_modChosen h fun _ => rfl, fun hc => by cases hc⟩
      · exact ⟨.of_eq rfl rfl, h, fun hc => by cases hc⟩
      · exact ⟨.of_eq rfl rfl, h, fun hc => by cases hc⟩
      · exact ⟨.of_eq rfl rfl, h, fun hc => by cases hc⟩

theorem LineEngine.checkLead_works {e : LineEngine} (h : e.Sole) (n : Nat) (t : Tx) :
    e.SameLive (e.checkLead n t) ∧ (e.checkLead n t).ChosenOk := by
  unfold LineEngine.checkLead
  dsimp only
  split
  · exact ⟨.of_eq rfl rfl, h, fun hc => by cases hc⟩
  · have := LineEngine.beginFrame_works (e := { e with tx := some { t with phase := .check } }) h (fun hc => by cases hc) n
    exact ⟨LineEngine.SameLive.trans (d := { e with tx := some { t with phase := .check } }) (.of_eq rfl rfl) this.1, this.2⟩

theorem State.works_modLine {s : State} {l : Line} {f : LineEngine → LineEngine} (h : (s.line l).SameLive (f (s.line l)))
    (hc : (f (s.line l)).ChosenOk) : s.Works l (s.modLine l f) :=
  ⟨State.turn_modLine h, by rw [State.line_modLine_self]; exact hc⟩

theorem State.works_startTx {s : State} {l : Line} (h : (s.line l).Sole) (w : TxWork) (c : Byte) :
    s.Works l (s.startTx l w c) :=
  State.works_modLine (LineEngine.checkLead_works h _ _).1 (LineEngine.checkLead_works h _ _).2

theorem State.works_repeatOrEnd {s : State} {l : Line} (h : (s.line l).Sole) (t : Tx) : s.Works l (s.repeatOrEnd l t) := by
  unfold State.repeatOrEnd
  split
  · exact (State.ends_noReplyEnd h t).works
  · exact State.works_modLine (LineEngine.checkLead_works h _ _).1 (LineEngine.checkLead_works h _ _).2

theorem State.works_holdOn {s : State} {l : Line} (h : (s.line l).Sole) (t : Tx) : s.Works l (s.holdOn l t) := by
  unfold State.holdOn
  dsimp only
  split
  · exact .before (s.turn_bump l _) (State.ends_noReplyEnd (State.sole_bump h _) t).works
  · refine .before (s.turn_bump l .holdOffs) (State.works_modLine (.of_eq rfl rfl) ⟨State.sole_bump h _, fun hc => by cases hc⟩)

theorem State.works_pollReply {s : State} {l : Line} (h : (s.line l).Sole) (t : Tx) (c : Byte) (q : Option NodeRequest) :
    s.Works l (s.pollReply l t c q) := by
  have fits : ∀ (x : OrderEnd), x ≠ .sent → ∀ (u : State) o, (u.line l).chosen? = some o → x.Fits o :=
    fun x hx u o _ => OrderEnd.fits_of_ne hx o
  unfold State.pollReply
  split
  · split
    · exact (State.Ends.before (s.turn_bump l _) (State.ends_pollEnd _ _ _ _ _)).works
    · split
      · exact (State.ends_pollEnd _ _ _ _ _).works
      · split
        · exact (State.ends_pollEnd _ _ _ _ _).works
        · exact (State.Ends.before (s.turn_bump l _) (State.ends_pollEnd _ _ _ _ _)).works
  · split
    · exact (State.Ends.before (s.turn_bump l _) (State.ends_orderEnd (State.sole_bump h _) (fits _ (by decide) _))).works
    · split
      · exact (State.Ends.before (s.turn_bump l _) (State.ends_orderEnd (State.sole_bump h _) (fits _ (by decide) _))).works
      · exact (State.ends_orderEnd h (fits _ (by decide) _)).works

theorem State.works_refl {s : State} (c : s.ChosenLaw) (l : Line) : s.Works l s := ⟨.refl s l, c l⟩

theorem State.works_receive {s : State} (c : s.ChosenLaw) (l : Line) (q : Option NodeReply) :
    s.Works l (s.receive l q) := by
  have h : (s.line l).Sole := (c l).1
  have err : ∀ t, s.Works l (s.checkErrorOn l t) := fun t =>
    .before (s.turn_bump l _) (State.works_repeatOrEnd (State.sole_bump h _) t)
  unfold State.receive
  split
  · exact State.works_refl c l
  · split
    · split
      · split
        · unfold State.validReply
          split
          · exact State.works_pollReply h _ _ _
          · exact State.works_pollReply h _ _ _
          · exact (State.ends_orderEnd h fun o _ => OrderEnd.fits_of_ne (by decide) o).works
          · exact (State.ends_orderEnd h fun o _ => OrderEnd.fits_of_ne (by decide) o).works
          · exact State.works_holdOn h _
        · exact err _
      · exact err _
    · exact State.works_refl c l

/-! #### Faults, line starts, calls -/

theorem LineEngine.orders_raiseOwed (e : LineEngine) :
    e.raiseOwed.orders = e.orders ∧ e.raiseOwed.reservations = e.reservations ∧ e.raiseOwed.tx = e.tx := by
  unfold LineEngine.raiseOwed
  repeat' split
  all_goals exact ⟨rfl, rfl, rfl⟩

theorem State.turn_raiseOwed (s : State) (l : Line) : s.Turn l (s.raiseOwed l) :=
  (State.turn_modLine (.of_eq (LineEngine.orders_raiseOwed _).1 (LineEngine.orders_raiseOwed _).2.1)).trans
    (State.turn_grant _ l)

theorem State.works_raiseOwed {s t : State} {l : Line} (w : s.Works l t) : s.Works l (t.raiseOwed l) := by
  refine ⟨w.turn.trans (State.turn_raiseOwed _ l), ?_⟩
  rw [State.line_raiseOwed, if_pos rfl]
  obtain ⟨h1, -, h3⟩ := LineEngine.orders_raiseOwed (t.line l)
  unfold LineEngine.ChosenOk LineEngine.Sole LineEngine.NoneChosen
  rw [h1, h3]; exact w.chosen

theorem State.works_enterFault (s : State) (l : Line) : s.Works l (s.enterFault l) := by
  unfold State.enterFault
  refine State.works_raiseOwed ⟨(State.turn_modLine ?_).trans (.of_same rfl fun _ => rfl), ?_⟩
  · exact .of_map rfl (fun _ _ _ => rfl) rfl
  · show LineEngine.ChosenOk ((s.modLine l LineEngine.fault).line l)
    rw [State.line_modLine_self]
    exact LineEngine.NoneChosen.ok (LineEngine.noneChosen_map (e := s.line l) rfl fun _ _ => rfl)

theorem LineEngine.tryRunning_works (e : LineEngine) :
    e.SameLive e.tryRunning ∧ (e.ChosenOk → e.tryRunning.ChosenOk) := by
  unfold LineEngine.tryRunning
  split <;> exact ⟨.of_eq rfl rfl, id⟩

theorem State.works_nextFlush {s : State} {l : Line} (h : (s.line l).ChosenOk) : s.Works l (s.nextFlush l) := by
  unfold State.nextFlush
  split
  · exact ⟨.refl s l, h⟩
  · exact State.works_startTx h.1 _ _

theorem State.works_flushSent (s : State) (l : Line) : s.Works l (s.flushSent l) := by
  unfold State.flushSent
  split
  · next n hn =>
    have e : ∀ g : StartStage, s.Ends l (s.modLine l fun e => { e.endTx with stage := g }) := fun g =>
      ⟨State.turn_modLine ((LineEngine.sameLive_endTx _).trans (.of_eq rfl rfl)),
        by rw [State.line_modLine_self]; exact LineEngine.noneChosen_endTx (s.line l)⟩
    split
    · exact .before (e _).turn (State.works_nextFlush (e _).none.ok)
    · have w := State.works_raiseOwed (e .ready).works
      refine .before w.turn (State.works_modLine (LineEngine.tryRunning_works _).1 ((LineEngine.tryRunning_works _).2 w.chosen))
  · exact (s.ends_endTx l).works

theorem State.works_collisionOn {s : State} (c : s.ChosenLaw) (l : Line) (t : Tx) : s.Works l (s.collisionOn l t) := by
  have h : (s.line l).Sole := (c l).1
  have a : s.Turn l ((s.bump l .collisions).modLine l fun e => { e with leadDominant := true }) :=
    (s.turn_bump l _).trans (State.turn_modLine (.of_eq rfl rfl))
  have hl : ((s.bump l .collisions).modLine l fun e => { e with leadDominant := true }).line l
      = { (s.line l).bump .collisions with leadDominant := true } := by
    rw [State.line_modLine_self, State.bump, State.line_modLine_self]
  have h1 : (((s.bump l .collisions).modLine l fun e => { e with leadDominant := true }).line l).Sole := by
    rw [hl]; exact h
  have hc : (((s.bump l .collisions).modLine l fun e => { e with leadDominant := true }).line l).chosen?
      = (s.line l).chosen? := by rw [hl]; rfl
  unfold State.collisionOn
  dsimp only
  split
  · exact .before a (State.works_modLine ((LineEngine.sameLive_endTx _).trans
      ⟨fun _ _ _ => rfl, fun x => LineEngine.polls_release_le .call _ x⟩)
      (LineEngine.NoneChosen.ok (LineEngine.noneChosen_endTx _)))
  · exact .before a (State.works_flushSent _ l)
  · exact .before a (State.works_repeatOrEnd h1 t)
  · split
    · next o ho =>
      split
      · next hk =>
        refine .before a (State.ends_orderEnd h1 fun q hq _ => ?_).works
        rw [hc, ho] at hq
        cases hq; exact hk
      · exact .before a (State.works_repeatOrEnd h1 t)
    · exact .before a (State.works_repeatOrEnd h1 t)

theorem State.works_frameSent {s : State} (c : s.ChosenLaw) (l : Line) (t : Tx) : s.Works l (s.frameSent l t) := by
  have h : (s.line l).Sole := (c l).1
  have w : s.Works l (s.modLine l fun e => { e with tx := some { t with phase := .window } }) :=
    State.works_modLine (.of_eq rfl rfl) ⟨h, fun hc => by cases hc⟩
  unfold State.frameSent
  dsimp only
  split
  · refine ⟨(State.turn_modLine (.of_eq rfl rfl)).trans (State.turn_bump _ _ _), ?_⟩
    rw [State.bump, State.line_modLine_self, State.line_modLine_self]
    exact ⟨h, fun hc => by cases hc⟩
  · exact State.works_flushSent s l
  · exact w
  · split
    · next o ho =>
      split
      · next hk =>
        refine (State.ends_orderEnd h fun q hq _ => ?_).works
        rw [ho] at hq
        cases hq; exact hk
      · exact w
    · exact w

theorem LineEngine.noBid_works (e : LineEngine) : e.SameLive e.noBid ∧ e.noBid.NoneChosen :=
  ⟨(LineEngine.sameLive_endTx _).trans ⟨fun _ _ _ => rfl, fun x => LineEngine.polls_release_le .call _ x⟩,
    LineEngine.noneChosen_endTx e⟩

theorem State.works_arbitrationOn {s : State} (c : s.ChosenLaw) (l : Line) (t : Tx) (id : Identity) :
    s.Works l (s.arbitrationOn l t id) := by
  unfold State.arbitrationOn
  split
  · exact State.works_modLine ((s.line l).noBid_works.1.trans (.of_eq rfl rfl))
      (LineEngine.NoneChosen.ok (s.line l).noBid_works.2)
  · have w : s.Works l (s.modLine l fun e => { e with tx := some { t with phase := .joinWait id } }) :=
      State.works_modLine (.of_eq rfl rfl) ⟨(c l).1, fun hc => by cases hc⟩
    dsimp only
    split
    · refine ⟨w.turn.trans (State.turn_bump _ _ _), ?_⟩
      rw [State.bump, State.line_modLine_self]; exact w.chosen
    · exact w

theorem LineEngine.orders_trackClash (id : Identity) (e : LineEngine) :
    (e.trackClash id).1.orders = e.orders ∧ (e.trackClash id).1.reservations = e.reservations := by
  unfold LineEngine.trackClash
  repeat' split
  all_goals exact ⟨rfl, rfl⟩

theorem State.works_garbled (s : State) (l : Line) (id : Identity) : s.Works l (s.garbled l id) := by
  have e := LineEngine.orders_trackClash id ((((s.line l).endTx).release .call).bump .garbledCalls)
  have w : s.Works l (s.setLine l (((((s.line l).endTx).release .call).bump .garbledCalls).trackClash id).1) := by
    refine State.works_modLine (f := fun _ => (((((s.line l).endTx).release .call).bump .garbledCalls).trackClash id).1) ?_ ?_
    · have a : (s.line l).endTx.SameLive (((s.line l).endTx.release .call).bump .garbledCalls) :=
        ⟨fun _ _ _ => rfl, fun x => LineEngine.polls_release_le .call _ x⟩
      exact ((LineEngine.sameLive_endTx _).trans a).trans (.of_eq e.1 e.2)
    · refine LineEngine.NoneChosen.ok ?_
      unfold LineEngine.NoneChosen
      rw [e.1]
      exact LineEngine.noneChosen_endTx _
  unfold State.garbled
  dsimp only
  split
  · exact ⟨w.turn.trans (.of_same rfl fun _ => rfl), w.chosen⟩
  · exact w

theorem State.works_joinWon (s : State) (l : Line) (id : Identity) (caps : List CapEntry) (p : CallPolicy) :
    s.Works l (s.joinWon l id caps p) := by
  have e : s.Ends l ((s.modLine l fun e => { e.endTx with tracker := .empty }).bump l .joinsWon) := by
    have a : s.Turn l (s.modLine l fun e => { e.endTx with tracker := .empty }) :=
      State.turn_modLine ((LineEngine.sameLive_endTx _).trans (.of_eq rfl rfl))
    refine ⟨a.trans (State.turn_bump _ _ _), ?_⟩
    rw [State.bump, State.line_modLine_self, State.line_modLine_self]
    exact LineEngine.noneChosen_endTx (s.line l)
  exact (State.ends_handOver e _).works

/-! #### The choice (R92, R94, R95, R101) -/

/-- What the choice takes and leaves: no order in transaction and no transaction. -/
structure State.AtRest (s : State) (l : Line) : Prop where
  ok : s.ordView.Ok
  law : s.ChosenLaw
  tx : (s.line l).tx = none

theorem State.AtRest.none {s : State} {l : Line} (a : s.AtRest l) : (s.line l).NoneChosen := (a.law l).2 a.tx

theorem State.AtRest.of_parts {s t u : State} {l : Line} (a : s.AtRest l) (o : t.ordView.Ok)
    (h : ∀ k, k ≠ l → t.line k = s.line k) (ht : (t.line l).tx = (s.line l).tx) (p : t.Parts l u) : u.AtRest l := by
  refine ⟨p.turn.ok o, fun k => ?_, p.tx.trans (ht.trans a.tx)⟩
  by_cases hk : k = l
  · subst hk; exact p.none.ok
  · rw [p.turn.other k hk, h k hk]; exact a.law k

theorem updateFirst_find {p : Order → Bool} {f : Order → Order} {os : List Order} {o : Order} (h : os.find? p = some o) :
    ∃ pre rest, os = pre ++ o :: rest ∧ updateFirst p f os = pre ++ f o :: rest := by
  induction os with
  | nil => cases h
  | cons x xs ih =>
    rw [List.find?_cons] at h
    unfold updateFirst
    cases hx : p x with
    | true => rw [hx] at h; cases h; exact ⟨[], xs, rfl, rfl⟩
    | false =>
      rw [hx] at h
      obtain ⟨pre, rest, rfl, e⟩ := ih h
      exact ⟨x :: pre, rest, rfl, by simp [e]⟩

/-- The order taken by the choice is the one in transaction. -/
theorem LineEngine.choose_works {e : LineEngine} (hn : e.NoneChosen) {o : Order} (ho : e.orders.find? Order.sendable = some o) :
    e.SameLive e.choose ∧ e.choose.Sole ∧ e.choose.chosen? = some { o with chosen := true } := by
  obtain ⟨pre, rest, he, hc⟩ := updateFirst_find (f := fun o => { o with chosen := true }) ho
  have hpre : ∀ x ∈ pre, x.chosen = false := fun x hx => hn x (he ▸ List.mem_append_left _ hx)
  have hrest : ∀ x ∈ rest, x.chosen = false := fun x hx => hn x (he ▸ List.mem_append_right _ (List.mem_cons_of_mem _ hx))
  have ho' : e.choose.orders = pre ++ { o with chosen := true } :: rest := hc
  refine ⟨⟨fun k x _ => ?_, fun _ => Nat.le_refl _⟩, ?_, ?_⟩
  · unfold LineEngine.live
    rw [ho', he, List.countP_append, List.countP_append, List.countP_cons, List.countP_cons]
    rfl
  · unfold LineEngine.Sole
    rw [ho', List.countP_append, List.countP_cons, List.countP_eq_zero.mpr fun x hx => by simp [hpre x hx],
      List.countP_eq_zero.mpr fun x hx => by simp [hrest x hx]]
    simp
  · unfold LineEngine.chosen?
    rw [ho', List.find?_append, List.find?_eq_none.mpr fun x hx => by simp [hpre x hx]]
    rfl

theorem State.rest_chooseOrder (l : Line) (n : Nat) (s : State) (a : s.AtRest l) :
    (State.chooseOrder l n s).1.ordView.Ok ∧ (State.chooseOrder l n s).1.ChosenLaw
      ∧ ((State.chooseOrder l n s).2 = false → (State.chooseOrder l n s).1.AtRest l) := by
  induction n generalizing s with
  | zero => exact ⟨a.ok, a.law, fun _ => a⟩
  | succ n ih =>
    unfold State.chooseOrder
    split
    · exact ⟨a.ok, a.law, fun h => by cases h⟩
    · split
      · exact ⟨a.ok, a.law, fun _ => a⟩
      · next o ho =>
        obtain ⟨c1, c2, c3⟩ := LineEngine.choose_works a.none ho
        have ct : s.Turn l (s.modLine l LineEngine.choose) := State.turn_modLine c1
        have cl : (s.modLine l LineEngine.choose).line l = (s.line l).choose := State.line_modLine_self ..
        have cs : ((s.modLine l LineEngine.choose).line l).Sole := by rw [cl]; exact c2
        have bt : s.Turn l ((s.modLine l LineEngine.choose).bump l .staleAnswers) := ct.trans (State.turn_bump _ _ _)
        have bl : ((s.modLine l LineEngine.choose).bump l .staleAnswers).line l = (s.line l).choose.bump .staleAnswers := by
          rw [State.bump, State.line_modLine_self, cl]
        have bx : (((s.modLine l LineEngine.choose).bump l .staleAnswers).line l).tx = (s.line l).tx := by rw [bl]; rfl
        dsimp only
        split
        · have w := State.works_startTx cs .order (s.orderCheck o)
          have := (State.Works.before ct w).laws a.ok a.law
          exact ⟨this.1, this.2, fun h => by cases h⟩
        · next hx =>
          refine ih _ (a.of_parts (bt.ok a.ok) bt.other bx (State.parts_removeChosen ?_ (o := { o with chosen := true }) ?_
            fun k x hk => ?_))
          · rw [bl]; exact c2
          · rw [bl]; exact c3
          · cases hv : ({ o with chosen := true } : Order).isLive k x with
            | false => rfl
            | true =>
              exfalso
              have hv : o.isLive k x = true := hv
              unfold State.examine at hx
              split at hx
              · next code content ref st hp href hd =>
                split at hx
                · cases hx
                · split at hx
                  · cases hx
                  · next hcur =>
                    have hk : k = .answer := by
                      rw [← Order.isLive_kind hv]; simp [Order.kind, hp, OrderPayload.kind]
                    subst hk
                    have hxr : x = ref := by
                      simp only [Order.isLive, Bool.and_eq_true, beq_iff_eq] at hv
                      have := hv.1.2
                      rw [href] at this
                      cases this; rfl
                    subst hxr
                    have hpos : 0 < s.ordView.live l .answer x :=
                      List.countP_pos_iff.mpr ⟨o, List.mem_of_find?_eq_some ho, hv⟩
                    obtain ⟨hg, q, hq, -, -⟩ := a.ok.answers l x.handle x.gen hpos
                    obtain ⟨r, hr, -⟩ : ∃ r, s.record? x.handle = some r ∧ r.ordKey = q := by simpa [State.ordView] using hq
                    rw [State.current?_eq_some.mpr ⟨hg, hr⟩] at hcur
                    exact hcur rfl
              · split at hx <;> cases hx
              · cases hx
        · refine ih _ (a.of_parts (bt.ok a.ok) bt.other bx (State.parts_concludeOrder ?_ _))
          rw [bl]; exact c2
        · refine ih _ (a.of_parts (ct.ok a.ok) ct.other (by rw [cl]; rfl) (State.parts_attemptEnd cs))

theorem State.rest_startPoll {s : State} {l : Line} (a : s.AtRest l) (st : Station) :
    (s.startPoll l st).ordView.Ok ∧ (s.startPoll l st).ChosenLaw := by
  unfold State.startPoll
  split
  · exact ⟨a.ok, a.law⟩
  · next h r hp =>
    have hr : s.record? h = some r := by
      unfold State.pollable? at hp
      split at hp
      · split at hp
        · next hrec =>
          split at hp
          · cases hp; exact hrec
          · cases hp
        · cases hp
      · cases hp
    dsimp only
    split
    · next hs =>
      simp only [Bool.and_eq_true, Bool.not_eq_true', decide_eq_true_eq] at hs
      obtain ⟨⟨hpend, hawait⟩, hfree⟩ := hs
      have hz : (s.line l).polls (s.refOf h) = 0 := by
        unfold LineEngine.awaitsRequest at hawait
        refine List.count_eq_zero.mpr fun hm => ?_
        rw [List.contains_iff_mem.mpr hm] at hawait
        cases hawait
      have e : (s.modLine l (LineEngine.reserve (.poll (s.refOf h)))).ordView
          = s.ordView.setPolls l ⟨h, s.ordView.gen h⟩ 1 := by
        refine State.ordView_setPolls ?_ fun x => ?_
        · unfold LineEngine.reserve; split <;> rfl
        · unfold LineEngine.reserve LineEngine.polls
          rw [if_pos hfree]
          dsimp only
          rw [List.count_append]
          split
          · next hx =>
            subst hx
            have : (s.line l).reservations.count (.poll (s.refOf h)) = 0 := hz
            show List.count (Reservation.poll (s.refOf h)) _ + List.count (Reservation.poll (s.refOf h)) _ = 1
            rw [this]; simp
          · next hx =>
            have : List.count (Reservation.poll x) [Reservation.poll (s.refOf h)] = 0 :=
              List.count_eq_zero.mpr (by
                simp only [List.mem_singleton, Reservation.poll.injEq]
                exact hx)
            rw [this]; rfl
      have o1 : (s.modLine l (LineEngine.reserve (.poll (s.refOf h)))).ordView.Ok := by
        rw [e]; exact a.ok.solicit (State.ordView_key hr) hpend l
      have t1 : s.Thin (s.modLine l (LineEngine.reserve (.poll (s.refOf h)))) := by
        refine State.thin_modLine ?_ ?_ <;> unfold LineEngine.reserve <;> split <;> first | rfl | exact Nat.le_refl _
      exact (State.works_startTx (t1.chosenLaw a.law l).1 _ _).laws o1 (t1.chosenLaw a.law)
    · exact (State.works_startTx (a.law l).1 _ _).laws a.ok a.law

theorem LineEngine.polls_reserve_call (e : LineEngine) (x : Ref) : (e.reserve .call).polls x = e.polls x := by
  unfold LineEngine.reserve
  split
  · unfold LineEngine.polls
    dsimp only
    rw [List.count_append, List.count_eq_zero (l := [Reservation.call]) |>.mpr (by simp)]
    rfl
  · rfl

theorem State.rest_roundEnd {s : State} {l : Line} (a : s.AtRest l) :
    (s.roundEnd l).ordView.Ok ∧ (s.roundEnd l).ChosenLaw := by
  have t1 : s.Turn l (s.modLine l LineEngine.roundEnd) := State.turn_modLine (.of_map rfl (fun _ _ _ => rfl) rfl)
  have n1 : ((s.modLine l LineEngine.roundEnd).line l).NoneChosen := by
    rw [State.line_modLine_self]
    exact LineEngine.noneChosen_map rfl fun o ho => a.none o ho
  have rest : ∀ (u : State) (b : Bool), s.Turn l u → (u.line l).NoneChosen →
      s.Works l (u.modLine l fun e => { e with resting := b }) := fun u b h hn =>
    .before h (State.works_modLine (.of_eq rfl rfl) hn.ok)
  have w : s.Works l (s.roundEnd l) := by
    unfold State.roundEnd
    dsimp only
    split
    · exact rest _ _ t1 n1
    · split
      · have t2 : (s.modLine l LineEngine.roundEnd).Turn l
            ((s.modLine l LineEngine.roundEnd).modLine l (LineEngine.reserve .call)) := by
          refine State.turn_modLine ⟨fun _ _ _ => ?_, fun x => ?_⟩
          · unfold LineEngine.reserve; split <;> rfl
          · exact Nat.le_of_eq (LineEngine.polls_reserve_call _ x)
        refine .before (t1.trans t2) (State.works_startTx ?_ _ _)
        rw [State.line_modLine_self]
        unfold LineEngine.reserve
        split
        · exact n1.ok.1
        · exact n1.ok.1
      · refine rest _ _ (t1.trans (State.turn_bump _ _ _)) ?_
        rw [State.bump, State.line_modLine_self]; exact n1
  exact w.laws a.ok a.law

theorem State.rest_chooseTx (l : Line) (n : Nat) (s : State) (a : s.AtRest l) :
    (State.chooseTx l n s).ordView.Ok ∧ (State.chooseTx l n s).ChosenLaw := by
  induction n generalizing s with
  | zero => exact ⟨a.ok, a.law⟩
  | succ n ih =>
    have c := State.rest_chooseOrder l ((s.line l).orders.length + 1) s a
    unfold State.chooseTx
    split
    · next s1 hs => rw [hs] at c; exact ⟨c.1, c.2.1⟩
    · next s1 hs =>
      rw [hs] at c
      have a1 := c.2.2 rfl
      split
      · exact State.rest_startPoll a1 _
      · have r := State.rest_roundEnd a1
        dsimp only
        split
        · exact r
        · next hn =>
          simp only [Bool.or_eq_true, not_or, Bool.not_eq_true, Option.isSome_eq_false_iff, Option.isNone_iff_eq_none] at hn
          exact ih _ ⟨r.1, r.2, hn.1⟩

/-! ### The laws of the orders, of a state -/

/-- The laws of the orders but for the bound of the queue (R90, R124). -/
def State.OrdersOk (s : State) : Prop := s.ordView.Ok ∧ s.ChosenLaw

theorem State.OrdersOk.thin {s t : State} (o : s.OrdersOk) (h : t.ordView.Ok) (k : s.Thin t) : t.OrdersOk := ⟨h, k.chosenLaw o.2⟩
theorem State.OrdersOk.works {s t : State} {l : Line} (o : s.OrdersOk) (w : s.Works l t) : t.OrdersOk := w.laws o.1 o.2

/-- What reads the same to the laws of the orders. -/
structure State.Still (s t : State) : Prop where
  slots : ∀ h, t.slot h = s.slot h
  lines : ∀ l, (t.line l).orders = (s.line l).orders ∧ (t.line l).reservations = (s.line l).reservations
    ∧ (t.line l).tx = (s.line l).tx

theorem State.Still.refl (s : State) : s.Still s := ⟨fun _ => rfl, fun _ => ⟨rfl, rfl, rfl⟩⟩
theorem State.Still.trans {s t u : State} (h : s.Still t) (k : t.Still u) : s.Still u :=
  ⟨fun x => (k.slots x).trans (h.slots x), fun l => ⟨(k.lines l).1.trans (h.lines l).1,
    (k.lines l).2.1.trans (h.lines l).2.1, (k.lines l).2.2.trans (h.lines l).2.2⟩⟩

theorem State.Still.ok {s t : State} (h : s.Still t) (o : s.OrdersOk) : t.OrdersOk := by
  constructor
  · have : t.ordView = s.ordView := State.ordView_congr (fun i => by unfold State.record?; rw [h.slots])
      (fun i => by rw [h.slots]) (fun l => by funext k x; unfold LineEngine.live; rw [(h.lines l).1])
      fun l => by funext x; unfold LineEngine.polls; rw [(h.lines l).2.1]
    rw [this]; exact o.1
  · intro l; rw [(h.lines l).1, (h.lines l).2.2]; exact o.2 l

theorem State.still_of {s t : State} (hd : t.dir = s.dir) (hl : ∀ l, t.line l = s.line l) : s.Still t :=
  ⟨fun h => by simp only [State.slot, hd], fun l => by rw [hl]; exact ⟨rfl, rfl, rfl⟩⟩

theorem State.still_modLine {s : State} {l : Line} {f : LineEngine → LineEngine} (h1 : (f (s.line l)).orders = (s.line l).orders)
    (h2 : (f (s.line l)).reservations = (s.line l).reservations) (h3 : (f (s.line l)).tx = (s.line l).tx) :
    s.Still (s.modLine l f) := by
  refine ⟨fun _ => rfl, fun k => ?_⟩
  unfold State.modLine
  rw [State.line_setLine]
  split
  · next h => subst h; exact ⟨h1, h2, h3⟩
  · exact ⟨rfl, rfl, rfl⟩

theorem State.still_grant (s : State) : s.Still s.grant := .trans (.refl s) (State.still_of (by simp) fun l => by simp)

theorem State.still_raiseOwed (s : State) (l : Line) : s.Still (s.raiseOwed l) :=
  (State.still_modLine (LineEngine.orders_raiseOwed _).1 (LineEngine.orders_raiseOwed _).2.1 (LineEngine.orders_raiseOwed _).2.2).trans
    (State.still_grant _)

theorem State.still_endClaim (s : State) (l : Line) : s.Still (s.endClaim l) :=
  ((State.still_of (s := s) (t := s.engineIdle) rfl fun _ => rfl).trans (State.still_modLine (s := s.engineIdle) (l := l)
    (f := fun e => { e with claim := none }) rfl rfl rfl)).trans (State.still_raiseOwed _ l)

theorem State.still_completeHost (s : State) (r : Reply) : s.Still (State.completeHost (s, r)) := by
  unfold State.completeHost
  dsimp only
  split
  · exact (State.still_of (s := s) (t := (s.answerSlot _ _ r).engineIdle) rfl fun _ => rfl).trans (State.still_grant _)
  · exact (State.still_of (s := s) (t := s.engineIdle) rfl fun _ => rfl).trans (State.still_grant _)

theorem State.still_completeClock (s : State) : s.Still s.completeClock :=
  (State.still_of (s := s) (t := { s.engineIdle with clock := s.clock.complete }) rfl fun _ => rfl).trans (State.still_grant _)

theorem State.still_modHost (s : State) (f : HostPort → HostPort) : s.Still (s.modHost f) := .trans (.refl s) (State.still_of rfl fun _ => rfl)

theorem LineEngine.abandonTx_works (e : LineEngine) : e.SameLive e.abandonTx ∧ e.abandonTx.NoneChosen :=
  ⟨.of_map rfl (fun _ _ _ => rfl) rfl, LineEngine.noneChosen_map rfl fun _ _ => rfl⟩

/-- A part without records and orders keeps the laws. -/
theorem State.ordersOk_empty {s : State} (hr : ∀ h, s.record? h = none) (hl : ∀ l, (s.line l).orders = [] ∧ (s.line l).reservations = []) :
    s.OrdersOk := by
  refine ⟨?_, fun l => by rw [(hl l).1]; exact ⟨Nat.zero_le _, fun _ _ h => by cases h⟩⟩
  have k : ∀ h, s.ordView.key h = none := fun h => by simp [State.ordView, hr]
  have v : ∀ l c x, s.ordView.live l c x = 0 := fun l c x => by
    show List.countP _ (s.line l).orders = 0; rw [(hl l).1]; rfl
  have p : ∀ l x, s.ordView.polls l x = 0 := fun l x => by
    show List.count _ (s.line l).reservations = 0; rw [(hl l).2]; rfl
  constructor <;> intros <;> simp_all

theorem State.record?_softReset (s : State) (i : Fin 4) (h : Handle) : (s.softReset i).record? h = none := by
  show ((s.dir.slots.map fun x => Slot.fresh (x.gen + 1)).get h).content = none
  simp [Vector.get, Slot.fresh]

theorem State.record?_powerOn (s : State) (b : Bool) (h : Handle) : (s.powerOn b).record? h = none := by
  show ((Vector.replicate 256 (Slot.fresh 0)).get h).content = none
  simp [Vector.get, Slot.fresh]

theorem State.ordersOk_powerOn (s : State) (b : Bool) : (s.powerOn b).OrdersOk :=
  State.ordersOk_empty (State.record?_powerOn s b) fun l => by cases l <;> exact ⟨rfl, rfl⟩
theorem State.ordersOk_softReset (s : State) (i : Fin 4) : (s.softReset i).OrdersOk :=
  State.ordersOk_empty (State.record?_softReset s i) fun l => by cases l <;> exact ⟨rfl, rfl⟩

theorem State.ordersOk_completeLine {s : State} (o : s.OrdersOk) (l : Line) : (s.completeLine l).OrdersOk := by
  have e := (s.still_endClaim l).ok o
  unfold State.completeLine
  split
  · exact (State.works_startTx (e.2 l).1 _ _).laws e.1 e.2
  · exact e

theorem State.OrdersOk.line {s t : State} (o : s.OrdersOk) (l : Line) (ht : t.ordView.Ok) (k : s.Thin t) : (t.completeLine l).OrdersOk :=
  State.ordersOk_completeLine (o.thin ht k) l

theorem State.OrdersOk.host {s : State} (o : s.OrdersOk) {x : State × Reply} (ht : x.1.ordView.Ok) (k : s.Thin x.1) :
    (State.completeHost x).OrdersOk := (State.still_completeHost x.1 x.2).ok (o.thin ht k)

theorem State.OrdersOk.hostWorks {s : State} (o : s.OrdersOk) {x : State × Reply} {l : Line} (k : s.Works l x.1) :
    (State.completeHost x).OrdersOk := (State.still_completeHost x.1 x.2).ok (o.works k)
theorem State.OrdersOk.hostStill {s : State} (o : s.OrdersOk) {x : State × Reply} (k : s.Still x.1) :
    (State.completeHost x).OrdersOk := (State.still_completeHost x.1 x.2).ok (k.ok o)

theorem State.ordersOk_withLine {s : State} (o : s.OrdersOk) (b : Byte) (act : Line → State × Reply) (h : ∀ l, (act l).1.OrdersOk) :
    (State.completeHost (s.withLine b act)).OrdersOk := by
  have : (s.withLine b act).1.OrdersOk := by
    unfold State.withLine
    split
    · exact h _
    · exact o
  exact (State.still_completeHost _ _).ok this

theorem LineEngine.resume_works {e : LineEngine} (h : e.ChosenOk) (n : Nat) :
    e.SameLive (e.resume n) ∧ (e.resume n).ChosenOk := by
  unfold LineEngine.resume
  have same : e.SameLive { e with state := .running } := .of_eq rfl rfl
  dsimp only
  split
  · exact ⟨.of_eq rfl rfl, h⟩
  · split
    · split
      · exact (LineEngine.checkLead_works (e := { e with state := .running }) h.1 _ _).imp_left (same.trans ·)
      · split
        · exact ⟨(LineEngine.SameLive.trans (d := LineEngine.release _ { e with state := .running })
            ⟨fun _ _ _ => rfl, fun x => LineEngine.polls_release_le _ _ x⟩ (LineEngine.sameLive_endTx _)),
            (LineEngine.noneChosen_endTx _).ok⟩
        · exact ⟨same.trans (LineEngine.sameLive_endTx _), (LineEngine.noneChosen_endTx _).ok⟩
      · exact ⟨same.trans (LineEngine.sameLive_endTx _), (LineEngine.noneChosen_endTx _).ok⟩
    · exact ⟨.of_eq rfl rfl, h⟩

theorem LineEngine.stop_works (e : LineEngine) : e.SameLive e.stop ∧ e.stop.ChosenOk :=
  ⟨e.abandonTx_works.1.trans (.of_eq rfl rfl), LineEngine.NoneChosen.ok e.abandonTx_works.2⟩

theorem LineEngine.start_works {e : LineEngine} (h : e.ChosenOk) (b : Bool) (r : Rate) :
    e.SameLive (e.start b r) ∧ (e.start b r).ChosenOk := by
  unfold LineEngine.start
  dsimp only
  split
  · exact ⟨e.stop_works.1.trans (.of_eq rfl rfl), e.stop_works.2⟩
  · exact ⟨.of_eq rfl rfl, h⟩

theorem State.still_config (s : State) (c : ConfigStore) : s.Still { s with cfg := c } := State.still_of rfl fun _ => rfl

theorem State.ordersOk_configure {s : State} (o : s.OrdersOk) (is : List (Byte × Nat)) :
    (s.configureClaim is).1.OrdersOk ∧ (s.configureStore is).1.OrdersOk := by
  have a : (s.configureStore is).1.OrdersOk := by
    unfold State.configureStore
    repeat' split
    all_goals first | exact o | exact (State.still_config s _).ok o
  refine ⟨?_, a⟩
  unfold State.configureClaim
  split
  next t r e =>
  rw [e] at a
  split
  · refine a.thin (State.ord_clampMisses a.1 _) (.of_lines fun _ => rfl)
  · exact a

theorem State.ordersOk_exchange {Sent : Type} {s : State} (o : s.OrdersOk) (kind : HostPort → HostPort)
    (close : Sent → HostPort → HostPort) (part : ExchangePart Sent) : (s.exchange kind close part).OrdersOk := by
  have still : ∀ (u : State) (f : HostPort → HostPort), u.OrdersOk → (u.modHost f).OrdersOk :=
    fun u f h => (State.still_modHost u f).ok h
  have ho : s.openExchange.OrdersOk := still s _ o
  unfold State.exchange
  repeat' split
  all_goals first | exact o | exact ho | exact still _ _ o | exact still _ _ (still _ _ ho)

theorem State.OrdersOk.moves {s : State} (o : s.OrdersOk) (l : Line) (ref : Ref) (f : State → Record → Station → State)
    (hk : ∀ (u : State) (r : Record) (t : Station), u.ordView.Ok → u.record? ref.handle = some r →
      u.ordView.Bare ref.handle → (f u r t).ordView.Ok)
    (ht : ∀ (u : State) r t, u.Thin (f u r t)) : ((s.moveClaim l ref f).completeLine l).OrdersOk :=
  State.OrdersOk.line o l (State.ord_moveClaim o.1 l ref f hk) (State.thin_moveClaim s l ref f ht)

end Sys2Proof.Machine
end

