-- ==== Sys2Proof/Laws/Withdrawals.lean ====
section
/-! SUPPORT. What is left of a line engine when a record's orders, request and reservations are withdrawn. -/

namespace Sys2Proof.Machine

/-- A withdrawal leaves nothing for a second one. -/
theorem LineEngine.withdraw_withdraw (k : OrderKind) (ref : Ref) (e : LineEngine) :
    (e.withdraw k ref).withdraw k ref = e.withdraw k ref := by
  unfold LineEngine.withdraw
  dsimp only
  congr 1
  rw [List.filterMap_filterMap]
  congr 1
  funext o
  by_cases h : o.isLive k ref = true
  · by_cases hp : o.progress = .sending <;> simp [h, hp]
  · simp [h]

/-- A withdrawal leaves no live order of its kind. -/
theorem LineEngine.liveOrder?_withdraw (k : OrderKind) (ref : Ref) (e : LineEngine) :
    (e.withdraw k ref).liveOrder? k ref = none := by
  unfold LineEngine.liveOrder? LineEngine.withdraw
  rw [List.find?_eq_none]
  intro x hx
  rw [List.mem_filterMap] at hx
  obtain ⟨o, -, ho⟩ := hx
  split at ho
  · split at ho
    · cases ho; simp [Order.isLive]
    · cases ho
  · next h => cases ho; exact h

theorem LineEngine.unrequested_eq (e : LineEngine) (ref : Ref) (p : Bool) :
    e.unrequested ref p = (if p then e.withdraw .answer ref else e).releasePolls ref := by
  cases p <;> rfl

/-- The withdrawal of a record's request (R30). -/
theorem State.withdrawRequest_is (s : State) {h : Handle} {r : Record} (hr : s.record? h = some r) :
    s.withdrawRequest h = (s.setLine r.line ((s.line r.line).unrequested (s.refOf h) r.requestPending)).setRecord h
      { r with requestPending := false } := by
  unfold State.withdrawRequest
  rw [hr, LineEngine.unrequested_eq]
  dsimp only
  split <;> simp [State.modLine]

/-- The withdrawals before a record ends, or returns to RESERVED (R41, R42). -/
theorem State.withdrawn_is (s : State) {h : Handle} {r : Record} (hr : s.record? h = some r) :
    (s.withdrawDirected h).withdrawRequest h
      = (s.setLine r.line ((s.line r.line).without (s.refOf h) r)).setRecord h { r with requestPending := false } := by
  have a : ∀ e : LineEngine, (s.setLine r.line e).withdrawRequest h
      = (s.setLine r.line (e.unrequested (s.refOf h) r.requestPending)).setRecord h { r with requestPending := false } := by
    intro e
    rw [State.withdrawRequest_is (s := s.setLine r.line e) (r := r) hr]
    simp
  have b := a (s.line r.line)
  rw [State.setLine_line] at b
  unfold State.withdrawDirected LineEngine.without RecState.directed
  rw [hr]
  dsimp only
  split <;> (next hs => split at hs <;> simp_all [State.modLine])

/-- The return to RESERVED (R41). -/
theorem State.returnToReserved_is (s : State) {h : Handle} {r : Record} (hr : s.record? h = some r) (o : RecOutcome) :
    s.returnToReserved h o = ((s.setLine r.line ((s.line r.line).without (s.refOf h) r)).setRecord h (r.returned o)).mark h
      (ChangeMask.state ||| ChangeMask.outcome) := by
  unfold State.returnToReserved
  rw [State.withdrawn_is s hr, State.modRecord_eq _ _ _ _ (State.record?_setRecord_self ..)]
  simp [Record.returned]

/-- The freeing of a record by a marked change (R42, R43). -/
theorem State.freeMarked_is (s : State) {h : Handle} {r : Record} (hr : s.record? h = some r) (m : ChangeMask) :
    s.freeMarked h m
      = ((s.setLine r.line ((s.line r.line).without (s.refOf h) r)).emptySlot h r).markFreed h r.outcome m := by
  unfold State.freeMarked
  rw [hr]
  dsimp only
  rw [State.withdrawn_is s hr]
  simp [State.emptySlot, State.setRecord]

theorem LineEngine.without_congr (e : LineEngine) (ref : Ref) {r q : Record} (hs : q.state = r.state)
    (hp : q.requestPending = r.requestPending) : e.without ref q = e.without ref r := by
  unfold LineEngine.without; rw [hs, hp]

/-- The line engines after a record ends (R41, R42). -/
theorem State.line_endRecord (s : State) {h : Handle} {r : Record} (hr : s.record? h = some r) (o : RecOutcome) (k : Line) :
    (s.endRecord h o).line k = if k = r.line then (s.line k).without (s.refOf h) r else s.line k := by
  rw [s.endRecord_eq h o r hr]
  split
  · rw [State.returnToReserved_is s hr]
    simp only [State.line_mark, State.line_setRecord, State.line_setLine]
    split <;> simp_all
  · rw [State.freeMarked_is (r := { r with outcome := o }) _ (by simp)]
    simp only [State.line_markFreed, State.line_emptySlot, State.line_setLine]
    split
    · next hk => simp [hk]; exact LineEngine.without_congr _ _ rfl rfl
    · simp

/-- A record whose move has been abandoned has no REASSIGN left to withdraw (R31). -/
theorem LineEngine.without_abandoned (e : LineEngine) (ref : Ref) {r : Record} {x : Station} (hs : r.state = .moving x) :
    (e.withdraw .reassign ref).without ref r = e.without ref r := by
  unfold LineEngine.without
  simp only [hs, LineEngine.withdraw_withdraw]

theorem State.line_abandonMove (s : State) (h : Handle) (l k : Line) (x : Station) :
    (s.abandonMove h l x).line k = if k = l then (s.line k).withdraw .reassign (s.refOf h) else s.line k := by
  have : (s.abandonMove h l x).line k = (s.setLine l ((s.line l).withdraw .reassign (s.refOf h))).line k := by
    show (if s.moveSent h then _ else _ : State).line k = _
    split <;> rfl
  rw [this, State.line_setLine]
  split
  · next hk => rw [hk]
  · rfl

/-- The line engines after a lapse (R53 to R55). -/
theorem State.line_lapseRecord (s : State) {h : Handle} {r : Record} (hr : s.record? h = some r)
    (hs : r.state.leaseRuns = true) (k : Line) :
    (s.lapseRecord h).line k = if k = r.line then (s.line k).without (s.refOf h) r else s.line k := by
  have two : ∀ (u : State) (e : LineEngine), u.record? h = some r → u.refOf h = s.refOf h →
      (∀ j, u.line j = if j = r.line then e else s.line j) →
      (if r.pinned then u.returnToReserved h .lapsed
        else (((u.quarantine r.line r.station (some (u.refOf h))).withdrawRequest h).modRecord h fun r =>
          { r with state := .lapsed, leaseRemaining := 0, outcome := .lapsed }).mark h
            (ChangeMask.state ||| ChangeMask.outcome)).line k
        = if k = r.line then (if r.pinned then e.without (s.refOf h) r
            else e.unrequested (s.refOf h) r.requestPending) else s.line k := by
    intro u e hu hf hl
    have hl' : u.line r.line = e := by rw [hl, if_pos rfl]
    split
    · rw [State.returnToReserved_is u hu]
      simp only [State.line_mark, State.line_setRecord, State.line_setLine, hl', hf]
      split
      · rfl
      · next hk => rw [hl, if_neg hk]
    · rw [State.withdrawRequest_is (r := r) _ (by exact hu), State.modRecord_eq _ _ _ _ (State.record?_setRecord_self ..)]
      simp only [State.line_mark, State.line_setRecord, State.line_setLine, State.line_quarantine, State.refOf_quarantine, hl', hf]
      split
      · rfl
      · next hk => rw [hl, if_neg hk]
  unfold State.lapseRecord
  rw [hr]
  cases hst : r.state with
  | moving x =>
    have ab := two (s.abandonMove h r.line x) ((s.line r.line).withdraw .reassign (s.refOf h)) (by simpa using hr) (by simp)
      fun j => by
        rw [State.line_abandonMove]
        split
        · next hj => rw [hj]
        · rfl
    simp only [hst]
    rw [ab]
    split
    · next hk =>
      rw [hk]
      split
      · exact LineEngine.without_abandoned _ _ hst
      · unfold LineEngine.without; rw [hst]
    · rfl
  | bound =>
    simp only [hst]
    rw [two s (s.line r.line) hr rfl fun j => by split <;> simp_all]
    split
    · next hk => rw [hk]; unfold LineEngine.without; simp [hst]
    · rfl
  | quiet =>
    simp only [hst]
    rw [two s (s.line r.line) hr rfl fun j => by split <;> simp_all]
    split
    · next hk => rw [hk]; unfold LineEngine.without; simp [hst]
    · rfl
  | reserved => rw [hst] at hs; cases hs
  | joining => rw [hst] at hs; cases hs
  | retiring => rw [hst] at hs; cases hs
  | lapsed => rw [hst] at hs; cases hs

end Sys2Proof.Machine
end

