-- ==== Sys2Proof/WellFormed.lean ====
section
/-! DEFINITION. Which commands describe an event that can reach the part. The meanings are total and do not
assume it. -/

namespace Sys2Proof

/-- A command is well formed when its operands describe one event: an incomplete SPI byte has fewer than 8 bits, and
stands at the end of an exchange; an unknown kind byte is none of WRITE COMMAND 5AH, READ RESPONSE A5H and READ STATUS
3CH (R160, R194); an exchange that ended before its kind byte was complete clocked nothing beyond it, and its kind byte
is never complete. -/
def Instr.wf : Instr → Bool
  | .writeCommand part extra => decide (extra < 8) && (part.sent?.isSome || extra == 0)
  | .unknownKindByte (some k) _ => (exchangeKind? k).isNone
  | .unknownKindByte none part => part != .kindByte && part.sent?.all (· == 0)
  | _ => true

end Sys2Proof
end

