-- ==== Sys2Proof/Tests/Slice0.lean ====
section
/-! SUPPORT. The model's own tests: which commands are well formed, values the spec writes out, single steps, and for each
statement with hypotheses a state and operands that meet them (test_meets_…, one conjunction for each clause). -/

namespace Sys2Proof.Tests

open Sys2Proof Sys2Proof.Machine

/-! ### Well-formed and ill-formed commands -/

theorem test_wf_accepts :
    (Instr.writeCommand (.whole [0x05]) 7).wf = true ∧ (Instr.unknownKindByte (some 0x00) (.whole 3)).wf = true
      ∧ (Instr.unknownKindByte none .opens).wf = true ∧ (Instr.unknownKindByte none (.closes 0)).wf = true := by decide

theorem test_wf_refuses_eight_extra_bits : (Instr.writeCommand (.whole []) 8).wf = false := by decide

theorem test_wf_refuses_extra_bits_before_the_end :
    (Instr.writeCommand .opens 1).wf = false ∧ (Instr.writeCommand .kindByte 1).wf = false := by decide

theorem test_wf_refuses_known_kind_bytes :
    (Instr.unknownKindByte (some 0x5A) (.whole 0)).wf = false ∧ (Instr.unknownKindByte (some 0xA5) (.whole 0)).wf = false
      ∧ (Instr.unknownKindByte (some 0x3C) .kindByte).wf = false := by decide

theorem test_wf_refuses_bytes_without_kind :
    (Instr.unknownKindByte none (.whole 1)).wf = false ∧ (Instr.unknownKindByte none .kindByte).wf = false := by decide

/-! ### Values the spec writes out -/

/-- Table 1-9: the six identities of the worked example belong to set 19. -/
theorem test_setIndex :
    setIndex 0x0A13C50077E2 = 19 ∧ setIndex 0x8423C50077E2 = 19 ∧ setIndex 0x2947A8CBC074 = 19
      ∧ setIndex 0xFC000000002C = 19 ∧ setIndex 0x0420C41461D3 = 19 ∧ setIndex 0xB6D4C8200000 = 19 := by decide

/-- Set 19 has the handles 76 to 79 (1.2). -/
theorem test_waysOf : waysOf 19 = [76, 77, 78, 79] := by decide

/-- 13.2: the identity check of 0A13C50077E2H is 49H. -/
theorem test_identityCheck : identityCheck 0x0A13C50077E2 = 0x49 := by decide

/-- The check of R191 over one byte 00H, worked by hand from FFFFH: 7FFBH, FFF6H, 7FE9H, FFD2H, 7FA1H, FF42H, 7E81H,
FD02H. -/
theorem test_checkValue : checkValue [0x00] = 0xFD02 := by decide

/-! ### Small states -/

/-- Identity I1 of the worked examples; its slots are 76 to 79. -/
def i1 : Identity := 0x0A13C50077E2

def i1Bytes : List Byte := [0x0A, 0x13, 0xC5, 0x00, 0x77, 0xE2]

/-- A record of I1 on line A at station 1, with a lease of 300 ticks. -/
def record (st : RecState) : Record :=
  { identity := i1, state := st, pinned := false, line := .A, station := 0, leaseLength := 300, leaseRemaining := 300
    missCount := 0, joinCount := 1, caps := [], groups := 0, tag := none, outcome := .none, requestPending := false }

/-- The machine after reset with one record, in slot 76. -/
def holding (r : Record) : State := (State.reset.setRecord 76 r).setMap .A r.station (.held 76)

/-- The name of the record in slot 76. -/
def ref76 : Ref := { handle := 76, gen := 0 }

/-- The operand bytes of a reference by handle 76, generation 0. -/
def byHandle : List Byte := [0x01, 76, 0, 0, 0, 0, 0]

/-- A state in which a command frame stands in slot 0, ACTIVE, begun as the lines stand, and its claim is granted. -/
def running (f : CmdFrame) (s : State) : State :=
  { s with
    arb := { engine := some .host, rotation := .host, grantCfg := s.cfg }
    host := { s.host with slots := s.host.slots.set 0 (.active f s.stopsDue), acceptance := [0] } }

/-- A state in which a command frame stands in slot 0, ACTIVE and granted, begun while stop due of line A was set. -/
def begunInStop (f : CmdFrame) (s : State) : State :=
  { running f s with host := { (running f s).host with slots := s.host.slots.set 0 (.active f ⟨true, false⟩) } }

/-- A state in which a command frame stands in slot 0, QUEUED. -/
def queued (f : CmdFrame) (s : State) : State :=
  s.modHost fun p => { p with slots := p.slots.set 0 (.queued f), acceptance := [0] }

def cmd (code : Byte) (operands : List Byte) : CmdFrame := ⟨code, 7, operands⟩

/-- A state in which a claim of line A is granted. -/
def claiming (c : LineClaim) (s : State) : State :=
  { s.modLine .A fun e => { e with claim := some c } with
    arb := { engine := some (.line .A), rotation := .line .A, grantCfg := s.cfg } }

/-- A state whose line A is in the given state. -/
def lineIn (st : LineState) (s : State) : State := s.modLine .A fun e => { e with state := st }

/-- A state whose line A has stop due and flush due as given. -/
def owing (stop flush : Bool) (s : State) : State := s.modLine .A fun e => { e with stopDue := stop, flushDue := flush }

/-- A state whose line A runs the given transaction. -/
def transacting (t : Tx) (s : State) : State := (lineIn .running s).modLine .A fun e => { e with tx := some t }

def tx (work : TxWork) (phase : TxPhase) : Tx :=
  { work := work, phase := phase, frame := [], idCheck := 0x49, repeated := false, held := false, holdOffLimit := 5 }

/-- A state whose queue of line A holds the given orders. -/
def ordered (os : List Order) (s : State) : State := s.modLine .A fun e => { e with orders := os }

/-- A state whose line A has the given reservations. -/
def reserved (rs : List Reservation) (s : State) : State := s.modLine .A fun e => { e with reservations := rs }

/-- An order for the record in slot 76 at station 1. -/
def order (p : OrderPayload) : Order := Order.fresh (some ref76) (.station 0) p 3 false

/-- An order in transaction. -/
def sending (p : OrderPayload) : Order := (order p).sent |> fun o => { o with chosen := true }

/-- An order that is CONCLUDING. -/
def concluding (p : OrderPayload) : Order := { order p with progress := .concluding }

/-- A state with a quarantine entry of station 0 of line A, and its map entry. -/
def quarantined (q : QuarEntry) (s : State) : State := (s.setQuar .A [q]).setMap .A 0 .quarantined

/-- The machine after reset with the record of I1 MOVING from station 0 to station 1 of line A. -/
def moving : State :=
  ((holding (record .bound)).setRecord 76 (record (.moving 1))).setMap .A 1 (.target 76)

/-- The records, maps and lists of `holding` agree. -/
theorem law_holding (st : RecState) (h1 : st ≠ .lapsed) (h2 : ∀ x, st ≠ .moving x) (p : Bool) (n : Nat) :
    (holding { record st with pinned := p, leaseRemaining := n }).view.Ok := by
  have fresh : ∀ h : Handle, State.reset.slot h = Slot.fresh 0 := by decide +kernel
  have none : ∀ h, State.reset.view.key h = none := by
    intro h; simp only [State.view, State.record?, fresh]; rfl
  have key : Record.key { record st with pinned := p, leaseRemaining := n } = ⟨i1, .A, 0, st⟩ := rfl
  unfold holding
  rw [State.view_setMap, State.view_setRecord, key]
  exact (ok_fresh (s := State.reset) rfl (by decide +kernel)).place (k := ⟨i1, .A, 0, st⟩) (none 76)
    (show State.reset.mapAt .A 0 = .free by decide +kernel) h1 h2 (show (76 : Handle) ∈ waysOf (setIndex i1) by decide)
    fun h k hk => by rw [none] at hk; cases hk

/-- The records, maps and lists of `moving` agree. -/
theorem law_moving : moving.view.Ok := by
  unfold moving
  rw [State.view_setMap, State.view_setRecord]
  have o := law_holding .bound (by decide) (by intro x h; cases h) false 300
  have key : (holding (record .bound)).view.key 76 = some (record .bound).key := by decide +kernel
  exact o.startMove (k := (record .bound).key) key (by decide) (by intro x h; cases h) (by decide +kernel)

/-- The state a command leaves, where it leaves one. -/
def after (o : Host.Outcome State Fault Refusal) : Option State :=
  match o with
  | .next t => some t
  | .fault _ => none
  | .refused _ => none

/-- The response in command slot 0 of the state a command leaves. -/
def response (o : Host.Outcome State Fault Refusal) : Option CmdSlot := (after o).map fun t => t.host.slots.get 0

/-! ### Single steps -/

/-- Table 1-10, event 1: RESERVE of I1 on line A, station ANY, takes way 0 (slot 76) and station 1. -/
theorem test_reserve_takes_way_0 :
    response (exec .reserve (running (cmd 0x01 (i1Bytes ++ [0, 0, 0, 0])) State.reset))
      = some (.answered ⟨7, .ok, [76, 0, 1]⟩) := by decide +kernel

/-- A frame shorter than five bytes raises FRAME_ERROR; SDO carried the status byte, four slots free (R161, R162). -/
theorem test_writeCommand_short_frame :
    (after (exec (.writeCommand (.whole [0x04, 0x1A, 0x00, 0x00]) 0) State.reset)).map
        (fun t => (t.host.flags, t.host.lastError, t.host.sdo, t.atnDriven))
      = some (0x080, .frame, [0x04, 0, 0, 0, 0], true) := by decide +kernel

/-- STATUS, read from its frame: length 5, code 1AH, tag 01H. -/
theorem test_writeCommand_status :
    (after (exec (.writeCommand (.whole (withCheck [0x05, 0x1A, 0x01])) 0) State.reset)).map
        (fun t => t.host.slots.get 0) = some (.queued ⟨0x1A, 0x01, []⟩) := by decide +kernel

/-- A poll of station 1: kind 01H, station, SOLICIT; its identity check is that of the record (R76, R95). -/
theorem test_nextTransaction_polls :
    (after (exec (.nextTransaction .A) (lineIn .running (holding (record .bound))))).bind
        (fun t => (t.line .A).tx.map fun x => (x.frame.take 3, x.idCheck, x.work))
      = some ([0x01, 0x01, 0x01], 0x49, .poll 0 ref76 true) := by decide +kernel

theorem test_readResponse_empty_marker :
    (after (exec (.readResponse (.whole 2)) State.reset)).map (fun t => t.host.sdo) = some [0x04, 0x00, 0x00] := by
  decide +kernel

/-- A response chosen and then discarded by RESET DEVICE is still sent, and no slot is emptied (R173): the soft reset
falls between the kind byte and the end of the exchange. -/
theorem test_readResponse_after_reset :
    let s := (running (cmd 0x1B []) State.reset).modHost fun p =>
      { p with slots := p.slots.set 1 (.answered ⟨9, .ok, []⟩), acceptance := [1, 0] }
    let chosen := (after (exec (.readResponse .opens) s)).bind fun t => after (exec (.readResponse .kindByte) t)
    let closed := (chosen.bind fun t => after (exec .resetDevice t)).bind fun t =>
      after (exec (.readResponse (.closes 9)) t)
    closed.map (fun t => (t.host.sdo.take 4, t.host.slots.get 0, t.host.slots.get 1, t.host.acceptance))
      = some ([0x0A, 0x05, 0x09, 0x00], .answered ⟨7, .ok, []⟩, .empty, [0]) := by decide +kernel

/-- A soft reset within a WRITE COMMAND: SDO carries the status byte of SCS going LOW, no slot free, and the frame goes
into a slot that the reset has emptied (R161, R162). -/
theorem test_writeCommand_over_reset :
    let s := (running (cmd 0x1B []) State.reset).modHost fun p =>
      { p with slots := ((p.slots.set 1 (.queued (cmd 0x1A []))).set 2 (.queued (cmd 0x1A []))).set 3
                (.queued (cmd 0x1A [])), acceptance := [0, 1, 2, 3] }
    let begun := (after (exec (.writeCommand .opens 0) s)).bind fun t => after (exec (.writeCommand .kindByte 0) t)
    let closed := (begun.bind fun t => after (exec .resetDevice t)).bind fun t =>
      after (exec (.writeCommand (.closes (withCheck [0x05, 0x1A, 0x01])) 0) t)
    closed.map (fun t => (t.host.sdo.head?, t.host.slots.get 1, t.host.acceptance, t.host.flags))
      = some (some 0x00, .queued ⟨0x1A, 0x01, []⟩, [0, 1], 0) := by decide +kernel

/-- An answer written while the kind byte comes in is chosen, and the status byte, sampled before, shows none ready
(R161, R165). -/
theorem test_readResponse_answered_in_kind_byte :
    let t := (after (exec (.readResponse .opens) (running (cmd 0x1A []) State.reset))).bind fun t =>
      (after (exec .status t)).bind fun t => after (exec (.readResponse .kindByte) t)
    t.map (fun t => (t.host.sdo, t.host.exchange.map fun x => match x.phase with
        | .reading (some (i, r)) => (i, r.tag)
        | _ => (none, 0))) = some ([0x03], some (some 0, 7)) := by decide +kernel

/-- The kind byte picks the exchange (R194). -/
theorem test_exchangeCommand :
    exchangeCommand [0x5A, 0x05, 0x1A] 3 = .writeCommand (.whole [0x05, 0x1A]) 3
      ∧ exchangeCommand [0xA5, 0, 0, 0] 0 = .readResponse (.whole 3) ∧ exchangeCommand [0x3C] 0 = .readStatus (.whole 0)
      ∧ exchangeCommand [0x5B, 0] 0 = .unknownKindByte (some 0x5B) (.whole 1)
      ∧ exchangeCommand [] 5 = .unknownKindByte none (.whole 0) := by decide

/-- A LINE START begun after a LINE STOP, before the stop's line claim, gives LINE_BUSY, although its own claim is granted
after it; the line stays OFF, with nothing due (R180). -/
theorem test_lineStart_begun_in_stop :
    let s := queued (cmd 0x11 [0, 1]) (claiming .line (owing true false State.reset))
    let begun := after (exec .commandBegin s)
    let closed := (begun.bind fun t => after (exec .lineClaim t)).bind fun t => after (exec .lineStart t)
    closed.map (fun t => (t.host.slots.get 0, (t.line .A).state, (t.line .A).stopDue))
      = some (.answered ⟨7, .lineBusy, []⟩, .off, false) := by decide +kernel

/-! ### States and operands that meet the hypotheses of the statements -/

theorem test_meets_StepRunsFrontCommand :
    (State.reset.pushFront .commandBegin).pending = Instr.commandBegin :: [] := by decide

theorem test_meets_PowerOnReset : (State.reset.powerOn true).rst = true := by decide

/-- Any exchange in progress, and none. -/
theorem test_meets_SoftReset (x : Option Exchange) :
    ((running (cmd 0x1B []) State.reset).modHost fun p => { p with exchange := x }).HostRuns 0 (cmd 0x1B []) .resetDevice
      ∧ ((running (cmd 0x1B []) State.reset).modHost fun p => { p with exchange := x }).host.exchange = x :=
  ⟨⟨rfl, by rfl, by decide⟩, rfl⟩

/-- No exchange in progress, and one at its kind byte and in a WRITE COMMAND; a frame that passes its tests with a slot
EMPTY and with none, and one that fails them. -/
theorem test_meets_WriteCommandTests :
    let at_ := fun (p : ExchangePhase) => State.reset.modHost fun h => { h with exchange := some ⟨4, p⟩ }
    (State.reset.rst = false ∧ State.reset.host.ignoreExchange = false ∧ State.reset.host.exchange = none)
      ∧ (∀ p ∈ [ExchangePhase.kindByte, .writing], (at_ p).rst = false ∧ (at_ p).host.ignoreExchange = false
        ∧ (at_ p).host.exchange = some ⟨4, p⟩)
      ∧ (readCommandFrame? (withCheck [0x05, 0x1A, 0x01]) 0 = some ⟨0x1A, 0x01, []⟩
        ∧ State.reset.host.slots.get 0 = .empty ∧ ∀ j : Fin 4, j < 0 → State.reset.host.slots.get j ≠ .empty)
      ∧ (∀ i : Fin 4, (State.reset.modHost fun p =>
          { p with slots := Vector.replicate 4 (.queued (cmd 0x1A [])) }).host.slots.get i ≠ .empty)
      ∧ readCommandFrame? (withCheck [0x05, 0x1A, 0x01]) 1 = none := by decide +kernel

theorem test_meets_ReadResponseSendsTheOldest :
    let s := State.reset.modHost fun p =>
      { p with slots := p.slots.set 0 (.answered ⟨7, .ok, []⟩), acceptance := [0] }
    let at_ := fun (x : ExchangePhase) => s.modHost fun p => { p with exchange := some ⟨4, x⟩ }
    (s.rst = false ∧ s.host.ignoreExchange = false ∧ s.host.exchange = none)
      ∧ s.host.oldestAnswer? = some (0, ⟨7, .ok, []⟩) ∧ State.reset.host.oldestAnswer? = none
      ∧ (∀ x ∈ [ExchangePhase.kindByte, .reading (some (some 0, ⟨7, .ok, []⟩)), .reading (some (none, ⟨7, .ok, []⟩)),
          .reading none], (at_ x).rst = false ∧ (at_ x).host.ignoreExchange = false
        ∧ (at_ x).host.exchange = some ⟨4, x⟩ ∧ (at_ x).host.slots.get 0 = .answered ⟨7, .ok, []⟩) := by
  decide +kernel

theorem test_meets_StatusReadsAndUnknownKinds :
    let at_ := fun (x : ExchangePhase) => State.reset.modHost fun p => { p with exchange := some ⟨4, x⟩ }
    (State.reset.rst = false ∧ State.reset.host.ignoreExchange = false ∧ State.reset.host.exchange = none)
      ∧ ((0x00 : Byte) ≠ 0x5A ∧ (0x00 : Byte) ≠ 0xA5 ∧ (0x00 : Byte) ≠ 0x3C)
      ∧ (∀ x ∈ [ExchangePhase.kindByte, .status, .ignored], (at_ x).rst = false ∧ (at_ x).host.ignoreExchange = false
        ∧ (at_ x).host.exchange = some ⟨4, x⟩)
      ∧ (let s := State.reset.modHost fun p => { p with ignoreExchange := true }
        s.rst = false ∧ s.host.ignoreExchange = true) := by decide

theorem test_meets_AtnIsDrivenExactlyWhen : State.reset.WaitingLaw ∧ (State.reset.powerOn true).WaitingLaw :=
  ⟨rfl, rfl⟩

/-- A directory command, each local command, and a frame whose code no command has. -/
theorem test_meets_CommandBeginTakesTheOldest :
    (∀ f ∈ [cmd 0x1A [], cmd 0x0F [], cmd 0x10 [0x01, 0xFF], cmd 0x19 [5, 0, 7], cmd 0x1C []],
        (queued f State.reset).host.nextQueued? = some (0, f))
      ∧ (parseCommand? (cmd 0x1A []) = some .status ∧ HostCmd.status.isLocal = false)
      ∧ parseCommand? (cmd 0x0F []) = some .readAlarms ∧ parseCommand? (cmd 0x10 [0x01, 0xFF]) = some (.ackAlarms 511)
      ∧ (parseCommand? (cmd 0x19 [5, 0, 7]) = some (.configure [(5, 7)]) ∧ ∀ x ∈ [((5 : Byte), 7)], x.1 ≠ 0x04)
      ∧ parseCommand? (cmd 0x1C []) = none ∧ (cmd 0x1C []).code ≠ 0x19 ∧ (cmd 0x1C []).code ≠ 0x10 := by
  decide +kernel

theorem test_meets_AlarmCommandsAreLocal :
    ((queued (cmd 0x0F []) State.reset).host.nextQueued? = some (0, cmd 0x0F [])
        ∧ parseCommand? (cmd 0x0F []) = some .readAlarms)
      ∧ (queued (cmd 0x10 [0x01, 0xFF]) State.reset).host.nextQueued? = some (0, cmd 0x10 [0x01, 0xFF])
        ∧ parseCommand? (cmd 0x10 [0x01, 0xFF]) = some (.ackAlarms 511) ∧ 511 < 512 := by decide +kernel

/-- With a miss limit item, as a claim; without one, in the host port. A rate item for a RUNNING line is blocked. -/
theorem test_meets_ConfigureWritesAllOrNothing :
    let blocked := running (cmd 0x19 [4, 0, 15, 8, 0, 1]) (lineIn .running State.reset)
    let loc := fun (operands : List Byte) => queued (cmd 0x19 operands) (lineIn .running State.reset)
    ((running (cmd 0x19 [4, 0, 15]) State.reset).HostRuns 0 (cmd 0x19 [4, 0, 15]) (.configure [(4, 15)])
      ∧ (running (cmd 0x19 [4, 0, 16]) State.reset).HostRuns 0 (cmd 0x19 [4, 0, 16]) (.configure [(4, 16)])
      ∧ blocked.HostRuns 0 (cmd 0x19 [4, 0, 15, 8, 0, 1]) (.configure [(4, 15), (8, 1)]))
      ∧ (ConfigStore.default.writeAll? [(4, 15)] = some { ConfigStore.default with missLimit := 15 }
        ∧ hasRepeat [(4 : Byte)] = false ∧ ¬ ∃ x ∈ [((4 : Byte), 15)], x.1 = 0x08 ∨ x.1 = 0x09)
      ∧ (ConfigStore.default.writeAll? [(4, 16)] = none ∧ hasRepeat [(4 : Byte), 4] = true)
      ∧ ((ConfigStore.default.writeAll? [(4, 15), (8, 1)]).isSome = true ∧ (blocked.line .A).state ≠ .off)
      ∧ ((loc [5, 0, 7]).host.nextQueued? = some (0, cmd 0x19 [5, 0, 7])
        ∧ parseCommand? (cmd 0x19 [5, 0, 7]) = some (.configure [(5, 7)])
        ∧ (ConfigStore.default.writeAll? [(5, 7)]).isSome = true)
      ∧ (parseCommand? (cmd 0x19 [5, 0, 8]) = some (.configure [(5, 8)])
        ∧ ConfigStore.default.writeAll? [(5, 8)] = none)
      ∧ (parseCommand? (cmd 0x19 [8, 0, 1]) = some (.configure [(8, 1)])
        ∧ (ConfigStore.default.writeAll? [(8, 1)]).isSome = true ∧ ((loc [8, 0, 1]).line .A).state ≠ .off) :=
  ⟨⟨⟨rfl, by decide, by decide⟩, ⟨rfl, by decide, by decide⟩, rfl, by decide, by decide⟩, by decide +kernel⟩

/-- LOOKUP by a reference, and by a station that is FREE, HELD and TARGET. -/
theorem test_meets_ReadingCommandsChangeNothing :
    let at_ := fun (b : Byte) => cmd 0x07 [2, 0, b, 0, 0, 0, 0]
    (running (cmd 0x07 byHandle) (holding (record .bound))).HostRuns 0 (cmd 0x07 byHandle)
        (.lookup (.ref (.handle 76 0)))
      ∧ ((running (at_ 1) State.reset).HostRuns 0 (at_ 1) (.lookup (.station 0 1)) ∧ lineOf? 0 = some .A
          ∧ stationOf? 1 = some 0 ∧ State.reset.mapAt .A 0 = .free)
      ∧ ((running (at_ 1) moving).HostRuns 0 (at_ 1) (.lookup (.station 0 1)) ∧ moving.mapAt .A 0 = .held 76
          ∧ moving.record? 76 = some (record (.moving 1)))
      ∧ ((running (at_ 2) moving).HostRuns 0 (at_ 2) (.lookup (.station 0 2)) ∧ stationOf? 2 = some 1
          ∧ moving.mapAt .A 1 = .target 76)
      ∧ ((running (cmd 0x08 [12, 0, 126]) State.reset).HostRuns 0 (cmd 0x08 [12, 0, 126]) (.find 12 0 126)
          ∧ stationOf? 126 = some 125)
      ∧ (running (cmd 0x17 [1]) State.reset).HostRuns 0 (cmd 0x17 [1]) (.lineStatus 1)
      ∧ (running (cmd 0x1A []) State.reset).HostRuns 0 (cmd 0x1A []) .status :=
  ⟨⟨rfl, by decide, by decide⟩, ⟨⟨rfl, by decide, by decide⟩, by decide +kernel⟩,
    ⟨⟨rfl, by decide, by decide⟩, by decide +kernel⟩, ⟨⟨rfl, by decide, by decide⟩, by decide +kernel⟩,
    ⟨⟨rfl, by decide, by decide⟩, by decide⟩, ⟨rfl, by decide, by decide⟩, rfl, by decide, by decide⟩

theorem test_meets_NextChangeReadsTheHead :
    (running (cmd 0x0D []) ((holding (record .bound)).mark 76 ChangeMask.state)).HostRuns 0 (cmd 0x0D []) .nextChange
      ∧ (running (cmd 0x0D []) ((holding (record .bound)).mark 76 ChangeMask.state)).dir.changeSet = [76]
      ∧ State.reset.dir.changeSet = [] :=
  ⟨⟨rfl, by decide +kernel, by decide⟩, by decide +kernel⟩

theorem test_meets_AckChangeRemovesTheNotice :
    (running (cmd 0x0E [76, 0]) ((holding (record .bound)).mark 76 ChangeMask.state)).HostRuns 0 (cmd 0x0E [76, 0])
        (.ackChange 76 0)
      ∧ (76 ∈ ((holding (record .bound)).mark 76 ChangeMask.state).dir.changeSet
        ∧ (((holding (record .bound)).mark 76 ChangeMask.state).slot 76).noticeGen = 0)
      ∧ 76 ∉ State.reset.dir.changeSet :=
  ⟨⟨rfl, by decide +kernel, by decide⟩, by decide +kernel⟩

theorem test_meets_PinAndUnpin :
    (running (cmd 0x02 byHandle) (holding (record .bound))).HostRuns 0 (cmd 0x02 byHandle) (.pin (.handle 76 0))
      ∧ (running (cmd 0x02 byHandle) (holding (record .bound))).Names (.handle 76 0) 76 (record .bound)
      ∧ (running (cmd 0x03 byHandle) (holding { record .reserved with pinned := true })).HostRuns 0
          (cmd 0x03 byHandle) (.unpin (.handle 76 0))
      ∧ (running (cmd 0x03 byHandle) (holding { record .reserved with pinned := true })).Names (.handle 76 0) 76
          { record .reserved with pinned := true } :=
  ⟨⟨rfl, by decide +kernel, by decide⟩, ⟨rfl, by decide +kernel⟩, ⟨rfl, by decide +kernel, by decide⟩,
    ⟨rfl, by decide +kernel⟩⟩

/-- One form of reference serves every command of the statement; the operands of each are in its ranges. -/
theorem test_meets_StaleReferenceIsRefused :
    State.reset.current? ref76 = none
      ∧ parseCommand? (cmd 0x02 byHandle) = some (.pin (.handle 76 0))
      ∧ parseCommand? (cmd 0x03 byHandle) = some (.unpin (.handle 76 0))
      ∧ parseCommand? (cmd 0x04 (byHandle ++ [1])) = some (.retire (.handle 76 0) 1)
      ∧ parseCommand? (cmd 0x05 (byHandle ++ [126])) = some (.reassign (.handle 76 0) 126)
      ∧ parseCommand? (cmd 0x06 byHandle) = some (.purge (.handle 76 0))
      ∧ parseCommand? (cmd 0x07 byHandle) = some (.lookup (.ref (.handle 76 0)))
      ∧ parseCommand? (cmd 0x09 (byHandle ++ [0xFF, 0xFF, 1])) = some (.setLease (.handle 76 0) 65535 1)
      ∧ parseCommand? (cmd 0x0A (byHandle ++ [0, 1])) = some (.setGroups (.handle 76 0) 1)
      ∧ parseCommand? (cmd 0x0C (byHandle ++ [0])) = some (.setTag (.handle 76 0) [])
      ∧ (running (cmd 0x02 byHandle) State.reset).HostRuns 0 (cmd 0x02 byHandle) (.pin (.handle 76 0)) :=
  ⟨by decide +kernel, by decide, by decide, by decide, by decide, by decide, by decide, by decide, by decide,
    by decide, rfl, by decide, by decide⟩

/-- A named station that is FREE and one that is not, no named station on a line with one and with none, a full set, and
an identity that has a record. -/
theorem test_meets_ReservePlacesARecord :
    let f := cmd 0x01 (i1Bytes ++ [0, 1, 0, 0])
    let any := cmd 0x01 (i1Bytes ++ [0, 0, 0, 0])
    let crowded := { State.reset with dir := { State.reset.dir with maps := .both (Vector.replicate 126 .quarantined) } }
    ((running f State.reset).HostRuns 0 f (.reserve i1 0 1 0) ∧ identityInvalid i1 = false
      ∧ State.reset.lookup? i1 = none ∧ State.reset.freeWay? i1 = some 76
      ∧ (stationOf? 1 = some 0 ∧ State.reset.mapAt .A 0 = .free) ∧ State.reset.freeStation? .A = some 0
      ∧ (State.reset.setMap .A 0 .quarantined).mapAt .A 0 ≠ .free
      ∧ ([76, 77, 78, 79].foldl (fun s h => s.setRecord h { record .reserved with identity := 1 })
          State.reset).freeWay? i1 = none)
      ∧ ((running any crowded).HostRuns 0 any (.reserve i1 0 0 0) ∧ crowded.lookup? i1 = none
        ∧ crowded.freeWay? i1 = some 76 ∧ crowded.freeStation? .A = none)
      ∧ (running any (holding (record .bound))).HostRuns 0 any (.reserve i1 0 0 0)
      ∧ (holding (record .bound)).lookup? i1 = some 76 :=
  ⟨⟨⟨rfl, by decide, by decide⟩, by decide +kernel⟩, ⟨⟨rfl, by decide, by decide⟩, by decide +kernel⟩,
    ⟨rfl, by decide, by decide⟩, by decide +kernel⟩

/-- A BOUND, a JOINING and a MOVING record, on a RUNNING line and on one that is OFF, with an entry free and with none,
and with the record's own REASSIGN being sent. -/
theorem test_meets_RetireByState :
    let f := cmd 0x04 (byHandle ++ [1])
    let up := fun (st : RecState) => lineIn .running (holding (record st))
    let full := reserved (List.replicate 8 .call) (up (.moving 1))
    let busy := reserved (List.replicate 7 .call) (ordered [sending (.reassign 1)] (up (.moving 1)))
    let states : List RecState := [.reserved, .retiring, .lapsed, .bound, .quiet, .joining, .moving 1]
    ((running f (up .bound)).HostRuns 0 f (.retire (.handle 76 0) 1)
        ∧ ∀ st : RecState, (running f (up st)).Names (.handle 76 0) 76 (record st)
          ∧ (running f (holding (record st))).Names (.handle 76 0) 76 (record st))
      ∧ (∀ st ∈ states, ((running f (up st)).line .A).state = .running
        ∧ ((running f (holding (record st))).line .A).state = .off)
      ∧ (((running f full).line .A).freeCount = 0 ∧ (running f full).Names (.handle 76 0) 76 (record (.moving 1))
        ∧ ((running f full).line .A).liveOrder? .reassign ref76 = none)
      ∧ (((running f busy).line .A).freeCount = 0
        ∧ ((running f busy).line .A).liveOrder? .reassign ref76 = some (sending (.reassign 1))
        ∧ (sending (.reassign 1)).progress = .sending)
      ∧ (running f (up (.moving 1))).canTakeRelease 76 (record (.moving 1)) = true
      ∧ ((running f (up (.moving 1))).line .A).orders.length
        + ((running f (up (.moving 1))).line .A).reservations.length ≤ 8 :=
  ⟨⟨⟨rfl, by decide +kernel, by decide⟩, fun _ => ⟨⟨rfl, by rfl⟩, rfl, by rfl⟩⟩, by decide +kernel,
    ⟨by decide +kernel, ⟨rfl, by decide +kernel⟩, by decide +kernel⟩, by decide +kernel⟩

theorem test_meets_ReassignStartsAMove :
    let f := cmd 0x05 (byHandle ++ [126])
    (running f (holding (record .bound))).HostRuns 0 f (.reassign (.handle 76 0) 126) ∧ stationOf? 126 = some 125
      ∧ (running f (holding (record .bound))).Names (.handle 76 0) 76 (record .bound) :=
  ⟨⟨rfl, by decide +kernel, by decide⟩, by decide, ⟨rfl, by decide +kernel⟩⟩

theorem test_meets_PurgeFreesLapsed :
    let f := cmd 0x06 byHandle
    (running f (holding (record .lapsed))).HostRuns 0 f (.purge (.handle 76 0))
      ∧ (running f (holding (record .lapsed))).Names (.handle 76 0) 76 (record .lapsed)
      ∧ (running f (holding (record .quiet))).Names (.handle 76 0) 76 (record .quiet) :=
  ⟨⟨rfl, by decide +kernel, by decide⟩, ⟨rfl, by decide +kernel⟩, ⟨rfl, by decide +kernel⟩⟩

/-- The group clauses at the limit: with limit 1 and count 1 an addition is too many, with limit 2 it is not. -/
theorem test_meets_LeaseGroupsAndTagsAreSet :
    let limited := fun (n : Nat) (s : State) =>
      { s with dir := { s.dir with groups := s.dir.groups.set 0 { count := 1, limit := n } } }
    let f := cmd 0x0A (byHandle ++ [0, 1])
    ((running f (limited 1 (holding (record .bound)))).HostRuns 0 f (.setGroups (.handle 76 0) 1)
      ∧ (∃ g : Fin 16, (1 : BitVec 16).getLsbD g = true ∧ (record .bound).groups.getLsbD g = false
          ∧ ((limited 1 State.reset).dir.groups.get g).limit ≠ 0
          ∧ ((limited 1 State.reset).dir.groups.get g).limit < ((limited 1 State.reset).dir.groups.get g).count + 1))
      ∧ (∀ g : Fin 16, (1 : BitVec 16).getLsbD g = true → (record .bound).groups.getLsbD g = false →
          ((limited 2 State.reset).dir.groups.get g).limit = 0
            ∨ ((limited 2 State.reset).dir.groups.get g).count + 1 ≤ ((limited 2 State.reset).dir.groups.get g).limit)
      ∧ ((running (cmd 0x0B [15, 1]) State.reset).HostRuns 0 (cmd 0x0B [15, 1]) (.setGroupLimit 15 1)
        ∧ (15 : Byte).toNat = (15 : Fin 16).val)
      ∧ ((running (cmd 0x0C (byHandle ++ [1, 0x41])) (holding (record .bound))).HostRuns 0
          (cmd 0x0C (byHandle ++ [1, 0x41])) (.setTag (.handle 76 0) [0x41])
        ∧ (running (cmd 0x0C (byHandle ++ [1, 0x41])) (holding (record .bound))).Names (.handle 76 0) 76
          (record .bound))
      ∧ (running (cmd 0x09 (byHandle ++ [0xFF, 0xFF, 1])) (holding (record .bound))).HostRuns 0
          (cmd 0x09 (byHandle ++ [0xFF, 0xFF, 1])) (.setLease (.handle 76 0) 65535 1) :=
  ⟨⟨⟨rfl, by decide +kernel, by decide⟩, 0, by decide +kernel⟩, by decide +kernel,
    ⟨⟨rfl, by decide, by decide⟩, by decide⟩, ⟨⟨rfl, by decide +kernel, by decide⟩, ⟨rfl, by decide +kernel⟩⟩,
    rfl, by decide +kernel, by decide⟩

/-- A tag of 13 bytes, with a reference that names no record. -/
theorem test_meets_LeaseGroupsAndTagsAreSet_long :
    let f := cmd 0x0C (byHandle ++ 13 :: List.replicate 13 0x41)
    (running f State.reset).HostRuns 0 f (.setTag (.handle 76 0) (List.replicate 13 0x41))
      ∧ 12 < (List.replicate 13 (0x41 : Byte)).length :=
  ⟨⟨rfl, by decide, by decide⟩, by decide⟩

theorem test_meets_LineStartByState :
    let f := cmd 0x11 [0, 1]
    (running f State.reset).HostRuns 0 f (.lineStart 0 1) ∧ lineOf? 0 = some .A
      ∧ ((running f State.reset).line .A).stopDue = false ∧ ((running f State.reset).line .A).flushDue = false
      ∧ ((running f State.reset).line .A).state ≠ .starting
      ∧ ((lineIn .starting State.reset).line .A).state = .starting
      ∧ ((State.reset.modLine .A fun e => { e with stopDue := true }).line .A).stopDue = true
      ∧ (running f State.reset).host.begunStopDue .A = false
      ∧ (begunInStop f State.reset).HostRuns 0 f (.lineStart 0 1)
      ∧ (begunInStop f State.reset).host.begunStopDue .A = true
      ∧ ((begunInStop f State.reset).line .A).stopDue = false ∧ ((begunInStop f State.reset).line .A).flushDue = false :=
  ⟨⟨rfl, by decide, by decide⟩, by decide, rfl, rfl, by decide, rfl, rfl, by decide, ⟨rfl, by decide, by decide⟩,
    by decide, rfl, rfl⟩

/-- The commands begun with and without stop due; a line OFF and RUNNING for the stop; a PAUSED line with no transaction, and with a CALL, a poll and an order at its
stuck-line check. -/
theorem test_meets_StopPauseAndResumeByState :
    let checks := fun (w : TxWork) => lineIn .paused (transacting (tx w .check) State.reset)
    (∀ stop flush : Bool, ((owing stop flush (lineIn .off State.reset)).line .A).stopDue = stop
        ∧ ((owing stop flush (lineIn .off State.reset)).line .A).flushDue = flush
        ∧ ((owing stop flush (lineIn .off State.reset)).line .A).state ≠ .starting)
      ∧ ((running (cmd 0x12 [0]) (lineIn .running State.reset)).HostRuns 0 (cmd 0x12 [0]) (.lineStop 0)
      ∧ ((lineIn .running State.reset).line .A).state ≠ .off ∧ (State.reset.line .A).state = .off
      ∧ (State.reset.line .A).stopDue = false ∧ (State.reset.line .A).flushDue = false)
      ∧ (running (cmd 0x13 [0]) State.reset).HostRuns 0 (cmd 0x13 [0]) (.linePause 0)
      ∧ (running (cmd 0x14 [0]) State.reset).HostRuns 0 (cmd 0x14 [0]) (.lineResume 0)
      ∧ (∀ f ∈ [cmd 0x12 [0], cmd 0x13 [0], cmd 0x14 [0]], (running f State.reset).host.begunStopDue .A = false
        ∧ (begunInStop f State.reset).host.begunStopDue .A = true
        ∧ (begunInStop f State.reset).host.activeSlot? = some (0, f))
      ∧ ((lineIn .paused State.reset).line .A).tx = none
      ∧ ∀ w ∈ [TxWork.call .callOpen, .poll 0 ref76 true, .poll 0 ref76 false, .order],
        ((checks w).line .A).state = .paused ∧ ((checks w).line .A).tx = some (tx w .check)
          ∧ (tx w .check).phase = .check ∧ (tx w .check).repeated = false :=
  ⟨by decide, ⟨⟨rfl, by decide, by decide⟩, by decide, rfl, rfl, rfl⟩, ⟨rfl, by decide, by decide⟩, ⟨rfl, by decide, by decide⟩,
    by decide, by decide +kernel⟩

theorem test_meets_CallPolicyAndExclusions :
    ((running (cmd 0x15 [0, 2]) State.reset).HostRuns 0 (cmd 0x15 [0, 2]) (.setCallPolicy 0 2)
        ∧ CallPolicy.ofCode? 2 = some .reservedOnly)
      ∧ (running (cmd 0x16 ([0, 0] ++ i1Bytes)) State.reset).HostRuns 0 (cmd 0x16 ([0, 0] ++ i1Bytes))
          (.clearExclusion 0 0 i1)
      ∧ (running (cmd 0x16 ([0, 1] ++ i1Bytes)) State.reset).HostRuns 0 (cmd 0x16 ([0, 1] ++ i1Bytes))
          (.clearExclusion 0 1 i1) ∧ identityInvalid i1 = false :=
  ⟨⟨⟨rfl, by decide, by decide⟩, by decide⟩, ⟨rfl, by decide, by decide⟩, ⟨rfl, by decide, by decide⟩, by decide⟩

theorem test_meets_ClearCountersClearsOneLine :
    (running (cmd 0x18 [1]) State.reset).HostRuns 0 (cmd 0x18 [1]) (.clearCounters 1) ∧ lineOf? 1 = some .B
      ∧ (running (cmd 0x18 [2]) State.reset).HostRuns 0 (cmd 0x18 [2]) (.clearCounters 2) ∧ lineOf? 2 = none :=
  ⟨⟨rfl, by decide, by decide⟩, by decide, ⟨rfl, by decide, by decide⟩, by decide⟩

theorem test_meets_GrantIsCyclic :
    (running (cmd 0x1A []) State.reset).arb.engine ≠ none
      ∧ (State.reset.arb.engine = none
        ∧ State.reset.arb.rotation.cycleAfter = [.host] ++ .line .A :: [.line .B, .clock]
        ∧ State.reset.outstanding .host = false
        ∧ (State.reset.modLine .A fun e => { e with claim := some .line }).outstanding (.line .A) = true) := by
  decide +kernel

/-- RST asserted and not; the divider at the last millisecond of its period, and below it. -/
theorem test_meets_TickPeriodEndRaisesOrCounts :
    let late := { State.reset with clock := { State.reset.clock with divider := 999 } }
    (State.reset.powerOn true).rst = true ∧ (State.reset.powerOn true).pending = [] ∧ State.reset.rst = false
      ∧ (late.rst = false ∧ late.pending = [] ∧ late.clock.period.ms ≤ late.clock.divider + 1)
      ∧ (State.reset.pending = [] ∧ State.reset.clock.divider + 1 < State.reset.clock.period.ms) := by decide +kernel

/-- A lease that ages, one that does not because its line is OFF, and one with a tick left; a move, its REASSIGN sent
and not; an entry at its last tick that references a record. -/
theorem test_meets_LeaseTickAgesRunningLeases :
    let on := fun (s : State) => { lineIn .running s with
      arb := { engine := some .clock, rotation := .clock, grantCfg := .default } }
    let one := fun (p : Bool) => { record .bound with pinned := p, leaseRemaining := 1 }
    let entry : QuarEntry := ⟨0, 1, some ref76⟩
    ((on (holding (record .bound))).arb.engine = some .clock
        ∧ (on (holding (record .bound))).record? 76 = some (record .bound)
        ∧ (on (holding (record .bound))).Ages (record .bound) ∧ 2 ≤ (record .bound).leaseRemaining
        ∧ ¬ (holding (record .bound)).Ages (record .bound))
      ∧ (∀ p : Bool, (on (holding (one p))).record? 76 = some (one p) ∧ (on (holding (one p))).Ages (one p)
        ∧ (on (holding (one p))).DirectoryLaw)
      ∧ ((on moving).record? 76 = some (record (.moving 1)) ∧ (on moving).Ages (record (.moving 1))
        ∧ (on moving).DirectoryLaw ∧ (on moving).moveSent 76 = false
        ∧ (on (ordered [sending (.reassign 1)] moving)).moveSent 76 = true)
      ∧ (entry ∈ (on (quarantined entry (holding (record .lapsed)))).quarOf .A ∧ entry.hold ≤ 1
        ∧ (on (quarantined entry (holding (record .lapsed)))).current? ref76 = some (record .lapsed)) := by
  refine ⟨⟨rfl, by decide +kernel, ⟨.inl rfl, .inl rfl⟩, by decide, ?_⟩, fun p => ⟨by cases p <;> decide +kernel,
    ⟨.inl rfl, .inl rfl⟩, ?_⟩, ⟨by decide +kernel, ⟨.inr (.inr ⟨1, rfl⟩), .inl rfl⟩, ?_, by decide +kernel,
    by decide +kernel⟩, by decide +kernel⟩
  · rintro ⟨-, h | h⟩ <;> cases h
  · exact (State.directoryLaw_iff _).mpr (law_holding .bound (by decide) (by intro x h; cases h) p 1)
  · exact (State.directoryLaw_iff _).mpr law_moving

theorem test_meets_LapseAndExpiry :
    let r := { record .bound with leaseRemaining := 0 }
    let m := { record (.moving 1) with leaseRemaining := 0 }
    let entry : QuarEntry := ⟨0, 0, some ref76⟩
    ((holding r).record? 76 = some r ∧ r.state = .bound ∧ r.leaseRemaining = 0 ∧ r.pinned = false)
      ∧ { r with pinned := true }.pinned = true
      ∧ ((moving.setRecord 76 m).record? 76 = some m ∧ m.state = .moving 1 ∧ m.leaseRemaining = 0 ∧ 1 ≠ m.station
        ∧ (moving.setRecord 76 m).moveSent 76 = false
        ∧ (ordered [sending (.reassign 1)] (moving.setRecord 76 m)).moveSent 76 = true)
      ∧ (State.reset.setQuar .A [⟨0, 0, none⟩]).quarOf .A = ⟨0, 0, none⟩ :: []
      ∧ ((quarantined entry (holding (record .lapsed))).quarOf .A = entry :: [] ∧ entry.hold = 0
        ∧ (quarantined entry (holding (record .lapsed))).current? ref76 = some (record .lapsed)) := by decide +kernel

/-- The choice, in the state of each clause: an order of each kind behind an order that cannot be taken, both stations
of a pair below the retry limit and at it, an ANSWER with its record gone, there and elsewhere, a poll of each kind, and
a round end with a deferred order, under CLOSED and under OPEN, with an entry free and with none. -/
theorem test_meets_NextTransactionSendsOrPolls :
    let s := lineIn .running (holding (record .bound))
    let behind := fun (o : Order) => ordered [concluding .release, o] s
    let asking := { record .bound with requestPending := true }
    let full := reserved (List.replicate 8 .call) s
    let ends := fun (p : CallPolicy) (b : Bool) (n : Nat) => (ordered [{ order .release with deferred := true }]
      { lineIn .running State.reset with cfg := { ConfigStore.default with policies := .both p } }).modLine .A fun e =>
        { e with txSinceRound := b, reservations := List.replicate n .call }
    let spent := { order .release with dest := .pair 0 1, onSecond := true, attempts := 2 }
    (∀ u ∈ [s, behind (order .release), full], (u.line .A).Chooses ∧ (u.line .A).leadDominant = false
        ∧ ∀ x ∈ (u.line .A).orders, x.chosen = false)
      ∧ (NoneSendable [concluding .release]
        ∧ ((behind (order .release)).line .A).orders = [concluding .release] ++ order .release :: []
        ∧ (order .release).progress = .waiting ∧ (order .release).deferred = false)
      ∧ (∀ p ∈ [OrderPayload.assign 0 300 .new, .refuse .full 16], p.kind = .assign ∨ p.kind = .refuse)
      ∧ ((order (.reassign 1)).payload = .reassign 1 ∧ (order (.reassign 1)).dest = .station 0)
      ∧ (∀ b : Bool, { order .release with dest := .pair 0 1, onSecond := b }.dest = .pair 0 1)
      ∧ ((s.setMap .A 1 .quarantined).mapAt .A 1 = .quarantined ∧ s.mapAt .A 1 ≠ .quarantined
        ∧ (order .release).attempts + 1 < (order .release).retryLimit ∧ spent.retryLimit ≤ spent.attempts + 1
        ∧ spent.ref = some ref76 ∧ spent.payload = .release)
      ∧ ((order (.answer 1 [])).ref = some ref76 ∧ { order (.answer 1 []) with ref := none }.ref = none
        ∧ State.reset.current? ref76 = none ∧ s.current? ref76 = some (record .bound)
        ∧ ((record .bound).line = .A ∧ (record .bound).station = 0 ∧ s.mapAt .A 0 = .held 76)
        ∧ (record .bound).station ≠ 1 ∧ (s.line .A).claim = none
        ∧ ((claiming (.miss 0 ref76) s).line .A).claim ≠ none)
      ∧ ((NoneSendable (s.line .A).orders ∧ s.NextPolled .A 0 76 (record .bound)
          ∧ (record .bound).requestPending = false ∧ .poll (s.refOf 76) ∉ (s.line .A).reservations
          ∧ (s.line .A).orders.length + (s.line .A).reservations.length < 8)
        ∧ asking.requestPending = true ∧ .poll ref76 ∈ ((reserved [.poll ref76] s).line .A).reservations
        ∧ 8 ≤ (full.line .A).orders.length + (full.line .A).reservations.length)
      ∧ (∀ (p : CallPolicy) (b : Bool) (n : Nat), (((ends p b n).line .A).Chooses
          ∧ ((ends p b n).line .A).leadDominant = false
          ∧ ∀ x ∈ ((ends p b n).line .A).orders, x.chosen = false)
        ∧ NoneSendable ((ends p b n).line .A).orders ∧ (ends p b n).RoundOver .A ∧ (ends p b n).cfg.policies.get .A = p
        ∧ ((ends p b n).line .A).txSinceRound = b
        ∧ ((ends p b n).line .A).orders.length + ((ends p b n).line .A).reservations.length = 1 + n) := by
  refine ⟨?_, ⟨?_, by decide +kernel⟩, by decide, ⟨rfl, rfl⟩, fun _ => rfl, by decide +kernel, by decide +kernel,
    ⟨⟨?_, ?_, by decide +kernel⟩, by decide +kernel⟩, fun p b n => ⟨⟨⟨rfl, rfl, rfl, rfl⟩, rfl, ?_⟩, ?_, ?_, ?_, rfl, ?_⟩⟩
  · simp only [List.forall_mem_cons, List.not_mem_nil, false_implies, implies_true, and_true]
    exact ⟨⟨⟨rfl, rfl, rfl, rfl⟩, rfl, by decide⟩, ⟨⟨rfl, rfl, rfl, rfl⟩, rfl, by decide⟩,
      ⟨rfl, rfl, rfl, rfl⟩, rfl, by decide⟩
  · unfold NoneSendable; decide
  · unfold NoneSendable; decide
  · exact ⟨by decide, ⟨by decide +kernel, by decide +kernel, .inl rfl⟩, fun st _ _ => Nat.zero_le st.val⟩
  · intro x hx; cases List.mem_singleton.mp hx; rfl
  · intro x hx; cases List.mem_singleton.mp hx; exact .inr rfl
  · rintro st h r - ⟨hm, -⟩
    have free : ∀ st : Station, (State.reset.mapAt .A st) = .free := by decide +kernel
    exact absurd ((free st).symm.trans hm) nofun
  · cases p <;> rfl
  · exact congrArg (1 + ·) List.length_replicate

/-- A round end after no transaction and after one; a repetition at the stuck-line check; the first frame of a poll of
each kind, of a call, of a FLUSH and of an order there, in RUNNING and in PAUSED, and that of an order that was
withdrawn. -/
theorem test_meets_RestsAndLeads :
    let s := lineIn .running State.reset
    let again := { tx (.poll 0 ref76 true) .check with repeated := true }
    let chosen := { order .release with chosen := true }
    let works : List TxWork := [.poll 0 ref76 true, .poll 0 ref76 false, .call .callOpen, .flush, .order]
    ((s.line .A).Chooses ∧ (s.line .A).orders = [] ∧ s.cfg.policies.get .A = .callClosed ∧ s.RoundOver .A
        ∧ (s.line .A).txSinceRound = false)
      ∧ ((∀ (st : Station) (h : Handle), s.mapAt .A st ≠ .held h)
        ∧ ((s.modLine .A fun e => { e with txSinceRound := true }).line .A).txSinceRound = true)
      ∧ ((s.modLine .A fun e => { e with resting := true }).line .A).resting = true ∧ (s.line .A).tx = none
      ∧ (¬ ((s.modLine .A fun e => { e with waiting := some .line }).line .A).Chooses
        ∧ ¬ ((transacting again s).line .A).Chooses)
      ∧ (((transacting again s).line .A).tx = some again ∧ again.phase = .check)
      ∧ (∀ w ∈ works, ((transacting (tx w .check) s).line .A).tx = some (tx w .check)
        ∧ (tx w .check).phase = .check ∧ (tx w .check).repeated = false
        ∧ ((transacting (tx w .check) s).line .A).state ≠ .paused
        ∧ ((lineIn .paused (transacting (tx w .check) s)).line .A).state = .paused)
      ∧ ((ordered [chosen] (transacting (tx .order .check) s)).line .A).InTransaction (tx .order .check) chosen
      ∧ ∀ o ∈ ((transacting (tx .order .check) s).line .A).orders, o.chosen = false := by
  have free : ∀ st : Station, (State.reset.mapAt .A st) = .free := by decide +kernel
  refine ⟨⟨⟨rfl, rfl, rfl, rfl⟩, rfl, rfl, ?_, rfl⟩, ⟨?_, rfl⟩, by decide, rfl,
    ⟨(fun h => nomatch h.2.2.1), (fun h => nomatch h.2.1)⟩, by decide, by decide, ⟨rfl, rfl, by decide⟩, by decide⟩
  · rintro st h r - ⟨hm, -⟩
    exact absurd ((free st).symm.trans hm) nofun
  · intro st h hm
    exact absurd ((free st).symm.trans hm) nofun

/-- The idle check; a first frame at its check in RUNNING and in PAUSED, and a repetition in PAUSED. -/
theorem test_meets_FaultsStopTheLine :
    let s := (lineIn .starting State.reset).modLine .A fun e =>
      { e with stage := .idleCheck, leadDominant := true }
    let again := { tx .order .check with repeated := true }
    ((s.line .A).leadDominant = true ∧ (s.line .A).stage = .idleCheck ∧ (s.line .A).state = .starting)
      ∧ (((transacting (tx .order .check) State.reset).line .A).tx = some (tx .order .check)
        ∧ ((transacting (tx .order .check) State.reset).line .A).state ≠ .paused)
      ∧ (((lineIn .paused (transacting again State.reset)).line .A).tx = some again ∧ again.repeated = true)
      ∧ (((lineIn .paused (transacting (tx .order .check) State.reset)).line .A).state = .paused
        ∧ ((lineIn .paused (transacting (tx .order .check) State.reset)).line .A).stage = .none
        ∧ (tx .order .check).repeated = false) := by decide

theorem test_meets_CollisionsStopTheFrame :
    let sends := fun (w : TxWork) => transacting (tx w .sending) State.reset
    (∀ w ∈ [TxWork.poll 0 ref76 true, .poll 0 ref76 false, .call .callOpen, .flush],
        ((sends w).line .A).tx = some (tx w .sending) ∧ (tx w .sending).phase = .sending
          ∧ (tx w .sending).repeated = false)
      ∧ ∀ p ∈ [OrderPayload.release, .refuse .full 16],
        ((ordered [sending p] (sends .order)).line .A).InTransaction (tx .order .sending) (sending p) := by
  refine ⟨by decide, fun p hp => ?_⟩
  simp only [List.mem_cons, List.not_mem_nil, or_false] at hp
  rcases hp with rfl | rfl <;> exact ⟨rfl, rfl, by decide⟩

/-- A RELEASE and a REFUSE in transaction, and the first and the third FLUSH, with a claim outstanding, a result
waiting, a stop due and none of these; the other two clauses are met as in CollisionsStopTheFrame. -/
theorem test_meets_HeadFrameSentByKind :
    let flushes := fun (n : Nat) (claim waiting : Option LineClaim) (stop lead : Bool) =>
      (lineIn .starting (transacting (tx .flush .sending) State.reset)).modLine .A fun e =>
        { e with
          stage := .flushing n, flushDue := true, claim := claim, waiting := waiting, stopDue := stop
          leadDominant := lead }
    (((ordered [sending .release] (transacting (tx .order .sending) State.reset)).line .A).InTransaction
        (tx .order .sending) (sending .release)
      ∧ ((ordered [sending (.refuse .full 16)] (transacting (tx .order .sending) State.reset)).line .A).InTransaction
        (tx .order .sending) (sending (.refuse .full 16)) ∧ (sending (.refuse .full 16)).payload.kind = .refuse
      ∧ (sending (.refuse .full 16)).withdrawn = false ∧ (sending (.refuse .full 16)).phase = .send)
      ∧ ∀ (n : Nat) (claim waiting : Option LineClaim) (stop lead : Bool),
        let e := (flushes n claim waiting stop lead).line .A
        (e.tx = some (tx .flush .sending) ∧ e.stage = .flushing n ∧ e.flushDue = true)
          ∧ e.claim = claim ∧ e.waiting = waiting ∧ e.stopDue = stop ∧ e.leadDominant = lead :=
  ⟨⟨⟨rfl, rfl, by decide⟩, ⟨rfl, rfl, by decide⟩, by decide⟩, fun _ _ _ _ _ => ⟨⟨rfl, rfl, rfl⟩, rfl, rfl, rfl, rfl⟩⟩

/-- The bodies of an IDLE and of a LEAVE request, and a poll and a probe, of the target and of the old station, in each
of the two waits, with a HOLD before and repeated. -/
theorem test_meets_PollsEndByReplyOrSilence :
    let s := transacting (tx (.poll 0 ref76 true) .window) State.reset
    let late := fun (w : TxWork) => { tx w .holdOff with held := true, repeated := true }
    let probe := fun (b : Bool) => { sending (.reassign 1) with phase := .probe, targetMissed := b }
    let probing := fun (b : Bool) (t : Tx) => ordered [probe b] (transacting t State.reset)
    (s.line .A).Polling (tx (.poll 0 ref76 true) .window) 0 ref76 true ∧ (s.line .A).claim = none
      ∧ readIdle? ([0x49] ++ checkBytes [0x11, 0x49]) = some (.idle 0x49)
      ∧ readRequest? ([0x49, 0x02] ++ checkBytes [0x12, 0x49, 0x02]) = some (.request 0x49 .leave)
      ∧ ((transacting (late (.poll 0 ref76 false)) State.reset).line .A).Polling (late (.poll 0 ref76 false)) 0 ref76 false
      ∧ ((late .order).phase = .holdOff ∧ (late .order).held = true ∧ (late .order).repeated = true)
      ∧ ∀ b : Bool, ((probing b (tx .order .window)).line .A).InTransaction (tx .order .window) (probe b)
        ∧ ((probing b (late .order)).line .A).InTransaction (late .order) (probe b)
        ∧ (probe b).phase = .probe ∧ (probe b).payload.kind = .reassign ∧ (probe b).ref = some ref76
        ∧ (probe b).withdrawn = false ∧ (probe b).targetMissed = b :=
  ⟨⟨rfl, rfl⟩, rfl, by decide +kernel, by decide +kernel, ⟨rfl, rfl⟩, by decide,
    fun _ => ⟨⟨rfl, rfl, rfl⟩, ⟨rfl, rfl, rfl⟩, rfl, rfl, rfl, rfl, rfl⟩⟩

/-- A RELEASE, a terminal ANSWER and an order that was withdrawn, in transaction. -/
theorem test_meets_OrderRepliesRaiseOutcomes :
    let o := sending .release
    let a := { sending (.answer 2 []) with ref := none }
    let w := { o with withdrawn := true }
    let inTx := fun (x : Order) (p : TxPhase) =>
      ((ordered [x] (transacting (tx .order p) State.reset)).line .A).InTransaction (tx .order p) x
    (inTx o .window ∧ o.phase = .send ∧ o.ref = some ref76 ∧ o.withdrawn = false)
      ∧ ((ordered [o] (transacting (tx .order .window) State.reset)).line .A).claim = none
      ∧ (inTx a .window ∧ a.phase = .send ∧ a.ref = none ∧ a.withdrawn = false)
      ∧ inTx w .holdOff ∧ w.phase = .send ∧ w.withdrawn = true :=
  ⟨⟨⟨rfl, rfl, rfl⟩, rfl, rfl, rfl⟩, rfl, ⟨⟨rfl, rfl, rfl⟩, rfl, rfl, rfl⟩, ⟨rfl, rfl, rfl⟩, rfl, rfl⟩

theorem test_meets_HoldAndRepetition :
    ((transacting (tx .order .window) State.reset).line .A).tx = some (tx .order .window)
      ∧ (tx .order .window).held = false ∧ (tx .order .window).repeated = false
      ∧ ((transacting (tx .order .window) State.reset).line .A).leadDominant = false := by decide

/-- Attempts 1 below and 2 at a retry limit of 3, for a RELEASE and for a REASSIGN; a pair with each station due;
silence after a HOLD; an ANSWER that has no record. -/
theorem test_meets_SilentOrdersAreDeferredOrExhausted :
    let meets := fun (o : Order) (p : TxPhase) =>
      ((ordered [o] (transacting (tx .order p) State.reset)).line .A).InTransaction (tx .order p) o
        ∧ o.withdrawn = false ∧ o.phase = .send
    let o := sending .release
    let m := sending (.reassign 1)
    let a := { sending (.answer 1 []) with ref := none, attempts := 2 }
    (∀ (b : Bool) (n : Nat), meets { o with dest := .pair 0 1, onSecond := b, attempts := n } .window)
      ∧ (∀ n : Nat, meets { o with attempts := n } .window ∧ meets { o with attempts := n } .holdOff
        ∧ meets { m with attempts := n } .window)
      ∧ meets a .window
      ∧ ((∃ x y, { o with dest := .pair 0 1 }.dest = .pair x y)
        ∧ ∀ x y : Station, o.dest = .pair x y → o.onSecond = true)
      ∧ ({ o with attempts := 1 }.attempts + 1 < o.retryLimit ∧ o.retryLimit ≤ { o with attempts := 2 }.attempts + 1)
      ∧ m.payload.kind = .reassign ∧ o.payload.kind ≠ .reassign ∧ o.ref = some ref76 ∧ a.ref = none
      ∧ a.payload.kind ≠ .reassign ∧ a.retryLimit ≤ a.attempts + 1
      ∧ ((ordered [o] (transacting (tx .order .window) State.reset)).line .A).claim = none :=
  ⟨fun _ _ => ⟨⟨rfl, rfl, rfl⟩, rfl, rfl⟩,
    fun _ => ⟨⟨⟨rfl, rfl, rfl⟩, rfl, rfl⟩, ⟨⟨rfl, rfl, rfl⟩, rfl, rfl⟩, ⟨rfl, rfl, rfl⟩, rfl, rfl⟩,
    ⟨⟨rfl, rfl, rfl⟩, rfl, rfl⟩, ⟨⟨0, 1, rfl⟩, fun x y h => by cases h⟩, by decide, by decide⟩

/-- An open call in its arbitration field, and one that waits for a JOIN body without entries. -/
theorem test_meets_CallsEndNoBidOrWin :
    (((transacting (tx (.call .callOpen) .arbitration) State.reset).line .A).tx
        = some (tx (.call .callOpen) .arbitration)
      ∧ ∀ o ∈ ((transacting (tx (.call .callOpen) .arbitration) State.reset).line .A).orders, o.chosen = false)
      ∧ (tx (.call .callOpen) (.joinWait i1)).phase = .joinWait i1 ∧ i1 ≠ 0
      ∧ readJoinBody? i1 ([0] ++ checkBytes (i1Bytes ++ [0])) = some []
      ∧ ((transacting (tx (.call .callOpen) (.joinWait i1)) State.reset).line .A).claim = none := by decide +kernel

/-- Any identity read, 0 among them; any count of the tracker
and any exclusion list, one that is full and one that holds the identity among them. -/
theorem test_meets_GarbledCallsAreTracked :
    let s := fun (id : Identity) => transacting (tx (.call .callOpen) (.joinWait id)) State.reset
    let tracked := fun (n : Nat) (xs : List Identity) => (s i1).modLine .A fun e =>
      { e with tracker := { identity := some i1, count := n }, exclusions := xs }
    (∀ id : Identity, ((s id).line .A).tx = some (tx (.call .callOpen) (.joinWait id))
        ∧ (∀ o ∈ ((s id).line .A).orders, o.chosen = false) ∧ ((s id).line .A).tracker.identity ≠ some id)
      ∧ (∀ (n : Nat) (xs : List Identity),
        ((tracked n xs).line .A).tracker = { identity := some i1, count := n } ∧ ((tracked n xs).line .A).exclusions = xs
          ∧ ((tracked n xs).line .A).tx = some (tx (.call .callOpen) (.joinWait i1)))
      ∧ i1 ∉ ([] : List Identity) ∧ ([] : List Identity).length < 4 ∧ i1 ∈ [i1]
      ∧ 4 ≤ ([1, 2, 3, 4] : List Identity).length :=
  ⟨fun _ => ⟨rfl, fun _ h => absurd h List.not_mem_nil, fun h => absurd h.symm (Option.some_ne_none _)⟩,
    fun _ _ => ⟨rfl, rfl, rfl⟩, by decide⟩

/-- A JOIN body whose check is not right. -/
theorem test_meets_GarbledCallsAreTracked_body : readJoinBody? i1 [0, 0, 0] = none := by decide +kernel

/-- KEEP with nothing owed, with a stop due and with a flush due, and FLUSH. -/
theorem test_meets_IdleCheckPassStartsTheLine :
    let s := fun (stage : StartStage) (flush stop owed : Bool) (waiting : Option LineClaim) =>
      (lineIn .starting State.reset).modLine .A fun e =>
        { e with stage := stage, startFlush := flush, stopDue := stop, flushDue := owed, waiting := waiting }
    ∀ (stage : StartStage) (flush stop owed : Bool) (waiting : Option LineClaim),
      let e := (s stage flush stop owed waiting).line .A
      (e.state = .starting ∧ e.stage = stage ∧ e.leadDominant = false ∧ e.tx = none)
        ∧ e.startFlush = flush ∧ e.stopDue = stop ∧ e.flushDue = owed ∧ e.waiting = waiting :=
  fun _ _ _ _ _ => ⟨⟨rfl, rfl, rfl, rfl⟩, rfl, rfl, rfl, rfl⟩

/-- A poll's silence behind a claim outstanding: the result waits, and the line begins nothing while it does (R93). -/
theorem test_waiting_result :
    let s := claiming (.presence 1 ref76) (transacting (tx (.poll 0 ref76 false) .window) State.reset)
    let waits := (s.windowTimeout .A (tx (.poll 0 ref76 false) .window))
    exec (.replyWindowTimeout .A) s = .next waits
      ∧ ((waits.line .A).claim = some (.presence 1 ref76) ∧ (waits.line .A).waiting = some (.miss 0 ref76)
        ∧ (waits.line .A).tx = none)
      ∧ exec (.nextTransaction .A) waits = .next waits :=
  ⟨rfl, by decide +kernel, rfl⟩

/-- A waiting result holds back the FLUSH of a passed idle check; the completion of the claim outstanding, of a presence,
raises the result and begins the FLUSH (R79, R93). -/
theorem test_held_flush :
    let ends := LineClaim.presence 0 ref76
    let waits := LineClaim.miss 0 ref76
    let s := (claiming ends State.reset).modLine .A fun e =>
      { e with state := .starting, stage := .idleCheck, startFlush := true, waiting := some waits }
    let held := s.modLine .A fun e => { e with stage := .flushing 0 }
    exec (.idleCheckPass .A) s = .next held
      ∧ exec .presenceClaim held = .next (held.completeLine .A)
      ∧ (let e := (held.completeLine .A).line .A
        e.claim = some waits ∧ e.waiting = none ∧ e.flushDue = true ∧ e.tx.map Tx.work = some .flush
          ∧ (held.completeLine .A).arb.engine = some (.line .A)) :=
  ⟨rfl, rfl, by decide +kernel⟩

/-- A record in each state, at miss counts 0 and 2, with a miss limit of 3. -/
theorem test_meets_PresencesAndMisses :
    let s := fun (c : LineClaim) (r : Record) => claiming c (holding r)
    let states : List RecState := [.quiet, .bound, .moving 1, .reserved, .joining, .retiring, .lapsed]
    (∀ (c : LineClaim) (r : Record), (s c r).LineRuns .A c)
      ∧ (∀ st ∈ states, ∀ c ∈ [LineClaim.presence 0 ref76, .miss 0 ref76],
        (s c (record st)).current? ref76 = some (record st) ∧ (record st).line = .A ∧ (record st).station = 0
          ∧ (s c (record st)).mapAt .A 0 = .held 76)
      ∧ (record .bound).missCount + 1 < 3
      ∧ (s (.miss 0 ref76) { record .bound with missCount := 2 }).current? ref76
        = some { record .bound with missCount := 2 }
      ∧ (s (.miss 0 ref76) (record .bound)).arb.grantCfg.missLimit ≤ 2 + 1 :=
  ⟨fun _ _ => ⟨rfl, rfl⟩, by decide +kernel⟩

/-- A free way and station, a full set, and a line without a FREE station. -/
theorem test_meets_JoinOfANewIdentity :
    let s := claiming (.join i1 [] .callOpen) (reserved [.call] State.reset)
    let full := [76, 77, 78, 79].foldl (fun s h => s.setRecord h { record .reserved with identity := 1 }) s
    let crowded := { s with dir := { s.dir with maps := .both (Vector.replicate 126 .quarantined) } }
    (∀ u ∈ [s, full, crowded], u.lookup? i1 = none ∧ Reservation.call ∈ (u.line .A).reservations
        ∧ (u.line .A).orders.length + (u.line .A).reservations.length ≤ 8)
      ∧ (s.freeWay? i1 = some 76 ∧ s.freeStation? .A = some 0) ∧ full.freeWay? i1 = none
      ∧ ((crowded.freeWay? i1).isSome = true ∧ crowded.freeStation? .A = none)
      ∧ (s.LineRuns .A (.join i1 [] .callOpen) ∧ full.LineRuns .A (.join i1 [] .callOpen)
        ∧ crowded.LineRuns .A (.join i1 [] .callOpen))
      ∧ (claiming (.join i1 [] .reservedOnly) (reserved [.call] State.reset)).LineRuns .A
        (.join i1 [] .reservedOnly) :=
  ⟨by decide +kernel, by decide +kernel, by decide +kernel, by decide +kernel,
    ⟨⟨rfl, rfl⟩, ⟨rfl, rfl⟩, rfl, rfl⟩, rfl, rfl⟩

/-- The record on the line of the call, and on the other line, in the states of each clause, with no request pending and
with one, under both policies; the list bid is the record's and is not. -/
theorem test_meets_JoinOfAKnownIdentity :
    let on := fun (p : CallPolicy) (r : Record) => claiming (.join i1 [] p) (reserved [.call] (holding r))
    let states : List RecState := [.reserved, .bound, .quiet, .lapsed, .moving 1, .joining, .retiring]
    let crowded := fun (s : State) => { s with dir := { s.dir with maps := .both (Vector.replicate 126 .quarantined) } }
    let meets := fun (r : Record) => (on .callOpen r).lookup? i1 = some 76 ∧ (on .callOpen r).record? 76 = some r
      ∧ r.identity = i1 ∧ Reservation.call ∈ ((on .callOpen r).line .A).reservations
      ∧ ((on .callOpen r).line .A).orders.length + ((on .callOpen r).line .A).reservations.length ≤ 8
    (∀ st ∈ states, ∀ l ∈ [Line.A, .B], ∀ b : Bool, meets { record st with line := l, requestPending := b })
      ∧ ((on .callOpen { record .quiet with line := .B }).freeStation? .A = some 1
        ∧ (crowded (on .callOpen { record .quiet with line := .B })).freeStation? .A = none
        ∧ (crowded (on .callOpen { record .quiet with line := .B })).lookup? i1 = some 76)
      ∧ ((intake []).kept = (record .bound).caps ∧ (intake []).kept ≠ [⟨1, 0, 1⟩])
      ∧ ∀ (p : CallPolicy) (r : Record), (on p r).LineRuns .A (.join i1 [] p)
        ∧ (on p r).lookup? i1 = (on .callOpen r).lookup? i1 ∧ (on p r).record? 76 = (on .callOpen r).record? 76 :=
  ⟨by decide +kernel, by decide +kernel, by decide, fun _ _ => ⟨⟨rfl, rfl⟩, rfl, rfl⟩⟩

/-- A record in each state of the clauses; a list that differs from the record's, with entries dropped. -/
theorem test_meets_RequestsAreAnswered :
    let s := fun (q : NodeRequest) (r : Record) => claiming (.request 0 ref76 q) (reserved [.poll ref76] (holding r))
    let list : List CapEntry := [⟨1, 0, 1⟩, ⟨1, 0, 1⟩, ⟨0, 0, 1⟩]
    (∀ st ∈ [RecState.bound, .quiet, .moving 1, .retiring],
        (s (.renew 0) (record st)).current? ref76 = some (record st) ∧ (s (.renew 0) (record st)).mapAt .A 0 = .held 76
          ∧ Reservation.poll ref76 ∈ ((s (.renew 0) (record st)).line .A).reservations
          ∧ ((s (.renew 0) (record st)).line .A).orders.length
            + ((s (.renew 0) (record st)).line .A).reservations.length ≤ 8)
      ∧ ((intake []).kept = (record .bound).caps ∧ (intake list).kept ≠ (record .bound).caps ∧ (intake list).duplicate = 1
        ∧ (intake list).invalid = 1)
      ∧ ∀ (q : NodeRequest) (r : Record), (s q r).LineRuns .A (.request 0 ref76 q)
        ∧ (s q r).current? ref76 = (s (.renew 0) r).current? ref76 :=
  ⟨by decide +kernel, by decide +kernel, fun _ _ => ⟨⟨rfl, rfl⟩, rfl⟩⟩

/-- A record in each state of the clauses, pinned and not, with a request pending and none; the REASSIGN of a move sent
and not. -/
theorem test_meets_LeaveFreesTheRecord :
    let s := fun (r : Record) => claiming (.request 0 ref76 .leave) (reserved [.poll ref76] (holding r))
    let r := fun (st : RecState) (p b : Bool) => { record st with pinned := p, requestPending := b }
    (∀ r : Record, (s r).LineRuns .A (.request 0 ref76 .leave))
      ∧ (∀ st ∈ [RecState.bound, .quiet, .moving 1, .retiring], ∀ p b : Bool,
        (s (r st p b)).current? ref76 = some (r st p b) ∧ (s (r st p b)).mapAt .A 0 = .held 76
          ∧ Reservation.poll ref76 ∈ ((s (r st p b)).line .A).reservations
          ∧ ((s (r st p b)).line .A).orders.length + ((s (r st p b)).line .A).reservations.length ≤ 8)
      ∧ (1 : Station) ≠ 0 ∧ (s (record (.moving 1))).moveSent 76 = false
      ∧ (ordered [sending (.reassign 1)] (s (record (.moving 1)))).moveSent 76 = true :=
  ⟨fun _ => ⟨rfl, rfl⟩, by decide +kernel, by decide, by decide +kernel, by decide +kernel⟩

/-- The record gone, elsewhere, in a state in which no request is taken, and there with its reservation released. -/
theorem test_meets_LateClaimsHaveNoEffect :
    let elsewhere := claiming (.presence 1 ref76) (holding (record .bound))
    let asks := fun (st : RecState) => claiming (.request 0 ref76 .leave) (holding (record st))
    State.reset.current? ref76 = none
      ∧ (elsewhere.current? ref76 = some (record .bound) ∧ (record .bound).station ≠ 1)
      ∧ (∀ st ∈ [RecState.reserved, .joining, .lapsed, .bound], (asks st).current? ref76 = some (record st)
        ∧ .poll ref76 ∉ ((asks st).line .A).reservations)
      ∧ (∀ k : OrderKind, State.reset.concluding? .A k ref76 = none)
      ∧ ∀ c : LineClaim, (claiming c State.reset).LineRuns .A c :=
  ⟨by decide +kernel, by decide +kernel, by decide +kernel, by intro k; cases k <;> decide +kernel,
    fun _ => ⟨rfl, rfl⟩⟩

/-- A record pinned and not, with a request pending and none. -/
theorem test_meets_AssignOutcomesConcludeTheJoin :
    let o := concluding (.assign 0 300 .new)
    let r := fun (p b : Bool) => { record .joining with pinned := p, requestPending := b }
    let s := fun (p b : Bool) (x : OrderResult) =>
      claiming (.outcome .assign ref76 x) (ordered [o] (holding (r p b)))
    (∀ p b : Bool, (s p b .confirm).concluding? .A .assign ref76 = some o
        ∧ (s p b .confirm).current? ref76 = some (r p b) ∧ (r p b).line = .A)
      ∧ ∀ (p b : Bool) (x : OrderResult), (s p b x).LineRuns .A (.outcome .assign ref76 x)
        ∧ (s p b x).concluding? .A .assign ref76 = (s p b .confirm).concluding? .A .assign ref76 :=
  ⟨by decide +kernel, fun _ _ _ => ⟨⟨rfl, rfl⟩, rfl⟩⟩

theorem test_meets_MovesConclude :
    let o := concluding (.reassign 1)
    let s := fun (x : OrderResult) =>
      claiming (.outcome .reassign ref76 x) (ordered [o] (holding (record (.moving 1))))
    ((s .confirm).concluding? .A .reassign ref76 = some o
        ∧ (s .confirm).current? ref76 = some (record (.moving 1)))
      ∧ ∀ x : OrderResult, (s x).LineRuns .A (.outcome .reassign ref76 x) :=
  ⟨by decide +kernel, fun _ => ⟨rfl, rfl⟩⟩

/-- A pinned record and one that is not, with a request pending and none. -/
theorem test_meets_ReleasesAndAnswersConclude :
    let r := fun (p b : Bool) => { record .retiring with pinned := p, requestPending := b }
    let s := fun (p b : Bool) (x : OrderResult) =>
      claiming (.outcome .release ref76 x) (ordered [concluding .release] (holding (r p b)))
    let a := fun (x : OrderResult) =>
      claiming (.outcome .answer ref76 x) (ordered [concluding (.answer 1 [])] (holding (record .bound)))
    (∀ p b : Bool, (s p b .confirm).concluding? .A .release ref76 = some (concluding .release)
        ∧ (s p b .confirm).current? ref76 = some (r p b) ∧ (r p b).line = .A)
      ∧ ((a .decline).concluding? .A .answer ref76 = some (concluding (.answer 1 []))
        ∧ (a .decline).current? ref76 = some (record .bound) ∧ (record .bound).line = .A)
      ∧ ∀ (p b : Bool) (x : OrderResult),
        (s p b x).LineRuns .A (.outcome .release ref76 x) ∧ (a x).LineRuns .A (.outcome .answer ref76 x) :=
  ⟨by decide +kernel, by decide +kernel, fun _ _ _ => ⟨⟨rfl, rfl⟩, rfl, rfl⟩⟩

/-- A record in each state of the clauses, pinned and not, a request pending, on the line and on the other one. -/
theorem test_meets_LineAndFlushClaims :
    let states : List RecState := [.joining, .retiring, .bound, .quiet, .reserved, .lapsed]
    let r := fun (st : RecState) (p : Bool) => { record st with pinned := p, leaseRemaining := 1 }
    (∀ s : State, (claiming .line s).LineRuns .A .line ∧ (claiming .flush s).LineRuns .A .flush)
      ∧ (∀ st ∈ states, ∀ p : Bool, (claiming .line (holding (r st p))).record? 76 = some (r st p))
      ∧ (∀ st ∈ [RecState.joining, .retiring, .bound, .quiet], ∀ p : Bool,
        (claiming .line (holding (r st p))).DirectoryLaw ∧ (claiming .flush (holding (r st p))).DirectoryLaw)
      ∧ ((claiming .line moving).record? 76 = some (record (.moving 1)) ∧ (claiming .line moving).DirectoryLaw
        ∧ (claiming .line moving).moveSent 76 = false
        ∧ (claiming .line (ordered [sending (.reassign 1)] moving)).moveSent 76 = true)
      ∧ { record .bound with requestPending := true }.requestPending = true
      ∧ { record .bound with line := .B }.line ≠ .A := by
  refine ⟨fun _ => ⟨⟨rfl, rfl⟩, rfl, rfl⟩, by decide +kernel, ?_, ⟨by decide +kernel, ?_, by decide +kernel,
    by decide +kernel⟩, rfl, by decide⟩
  · intro st hst p
    have o : ∀ s : State, s.dir = (holding { record st with pinned := p, leaseRemaining := 1 }).dir →
        s.DirectoryLaw := fun s h =>
      (State.directoryLaw_iff s).mpr (State.view_of_dir h ▸ law_holding st (by rintro rfl; revert hst; decide)
        (by rintro x rfl; revert hst; simp) p 1)
    exact ⟨o _ rfl, o _ rfl⟩
  · exact (State.directoryLaw_iff _).mpr law_moving

/-- A STARTING line whose own steps are done, with the other claim owed and not. -/
theorem test_meets_LineAndFlushClaims_starting :
    let s := fun (c : LineClaim) (stop flush : Bool) =>
      claiming c ((lineIn .starting (holding (record .bound))).modLine .A fun e =>
        { e with stage := .ready, stopDue := stop, flushDue := flush })
    ∀ (c : LineClaim) (stop flush : Bool), (s c stop flush).LineRuns .A c ∧ ((s c stop flush).line .A).state = .starting
      ∧ ((s c stop flush).line .A).stage = .ready ∧ ((s c stop flush).line .A).stopDue = stop
      ∧ ((s c stop flush).line .A).flushDue = flush :=
  fun _ _ _ => ⟨⟨rfl, rfl⟩, rfl, rfl, rfl, rfl⟩

/-- The machine after reset with one command waiting. -/
def waiting : State := State.reset.pushFront (.readStatus (.whole 0))

/-- The premises of every law that a step keeps: the law, and a step that answers next. -/
theorem test_meets_KeptByStep_lines :
    waiting.QueueLaw ∧ waiting.ExclusionLaw ∧ waiting.QuietLineLaw ∧ waiting.CounterLaw ∧ waiting.ConfigLaw
      ∧ ∃ t, step waiting = .next t := by
  refine ⟨?_, ?_, ?_, ⟨by decide, by decide, ?_⟩, ?_, _, rfl⟩
  · intro l; cases l <;> decide
  · intro l; cases l <;> exact ⟨by decide, by decide⟩
  · intro l _; cases l <;> exact ⟨rfl, rfl⟩
  · intro l c; cases l <;> cases c <;> decide
  · unfold State.ConfigLaw ConfigStore.InRange; decide

/-- One record, in slot 76, one order of it in line A's queue, one reservation, an order's transaction and one command
waiting. -/
def busy (r : Record) (o : Order) (x : Reservation) : State :=
  (reserved [x] (ordered [o] (transacting (tx .order .window) (holding r)))).pushFront .commandBegin

/-- The order law of `busy`, for a record on line A: its directed order agrees with its state, and its ANSWER with its
request. -/
theorem orderLaw_busy {r : Record} {o : Order} {x : Reservation} (hl : r.line = .A) (ho : o.ref = some ref76)
    (hd : o.kind.isDirected = true → r.state.directed = some o.kind)
    (hp : r.requestPending = true → r.state.takesRequests = true ∧ o.isLive .answer ref76 = true)
    (ha : o.kind = .answer → r.requestPending = true) (hx : x = .poll ref76 → r.requestPending = false) :
    (busy r o x).OrderLaw := by
  have slots : (busy r o x).dir.slots = (State.reset.setRecord 76 r).dir.slots := rfl
  have none : ∀ h : Handle, State.reset.record? h = Option.none := by decide +kernel
  have record : ∀ h q, (busy r o x).record? h = some q → h = 76 ∧ q = r := by
    intro h q e
    have e : (State.reset.setRecord 76 r).record? h = some q := e
    by_cases hh : h = 76
    · subst hh; rw [State.record?_setRecord_self] at e; exact ⟨rfl, (Option.some.inj e).symm⟩
    · simp [State.record?, State.setRecord, State.slot_setSlot, hh] at e
      exact absurd (e.symm.trans (none h)) nofun
  have ref : (busy r o x).refOf 76 = ref76 := by
    have e : (busy r o x).refOf 76 = (State.reset.setRecord 76 r).refOf 76 := rfl
    rw [e, State.refOf_setRecord]; decide +kernel
  have current : (busy r o x).current? ref76 = some r := by
    have e : (busy r o x).current? ref76 = (State.reset.setRecord 76 r).current? ref76 := rfl
    rw [e, State.current?_eq_some]
    exact ⟨congrArg Ref.gen (show (State.reset.setRecord 76 r).refOf 76 = ref76 from ref), State.record?_setRecord_self ..⟩
  have named : ∀ k y, o.isLive k y = true → y = ref76 ∧ o.kind = k := by
    intro k y h
    simp only [Order.isLive, ho, Bool.and_eq_true, beq_iff_eq] at h
    exact ⟨(Option.some.inj h.1.2).symm, h.1.1⟩
  refine ⟨fun l => ?_, fun l => ?_, fun l y => ?_, fun h q e p => ?_, fun l y => ?_⟩
  · cases l
    · exact (by decide : 1 + 1 ≤ 8)
    · exact (by decide : 0 + 0 ≤ 8)
  · cases l
    · exact ⟨List.countP_le_length, nofun⟩
    · exact ⟨Nat.zero_le _, fun _ _ h => absurd h List.not_mem_nil⟩
  · cases l
    · refine ⟨List.countP_le_length, fun z hz h => ?_⟩
      cases List.mem_singleton.mp hz
      obtain ⟨d, h⟩ := Bool.and_eq_true_iff.mp h
      exact (named _ _ h).1 ▸ ⟨r, current, hl, hd d⟩
    · exact ⟨Nat.zero_le _, fun _ h => absurd h List.not_mem_nil⟩
  · obtain ⟨rfl, rfl⟩ := record h q e
    rw [hl, ref]
    refine ⟨(hp p).1, ?_⟩
    show List.countP (Order.isLive .answer ref76) [o] = 1
    rw [List.countP_singleton, if_pos (hp p).2]
  · cases l
    · refine ⟨fun z hz h => ?_, List.count_le_length, fun hy q hq _ => ?_⟩
      · cases List.mem_singleton.mp hz
        obtain ⟨rfl, k⟩ := named _ _ h
        exact ⟨r, current, hl, ha k⟩
      · obtain ⟨e, rfl⟩ := record _ _ (State.current?_eq_some.mp hq).2
        have g := (State.refOf_of_current? hq).symm
        rw [e, ref] at g
        exact hx ((List.mem_singleton.mp hy).symm.trans (g ▸ rfl))
    · exact ⟨fun _ h => absurd h List.not_mem_nil, Nat.zero_le _, fun h => absurd h List.not_mem_nil⟩

/-- A record with a request pending and its ANSWER; one with a directed order in transaction and its poll's reservation; and
each steps. -/
theorem test_meets_KeptByStep_orders :
    (busy { record .bound with requestPending := true } (order (.answer 1 [])) .call).OrderLaw
      ∧ (busy (record (.moving 1)) (sending (.reassign 1)) (.poll ref76)).OrderLaw
      ∧ ∀ (r : Record) (o : Order) (x : Reservation), ∃ t, step (busy r o x) = .next t :=
  ⟨orderLaw_busy rfl rfl nofun (fun _ => ⟨rfl, by decide⟩) (fun _ => rfl) nofun,
    orderLaw_busy rfl rfl (fun _ => rfl) nofun nofun (fun _ => rfl), fun _ _ _ => ⟨_, rfl⟩⟩

theorem test_meets_KeptByStep_directory :
    waiting.ChangeSetLaw ∧ waiting.WaitingLaw ∧ waiting.LeaseLaw ∧ waiting.GroupLaw ∧ waiting.DirectoryLaw
      ∧ waiting.MissLaw := by
  have slot : ∀ h : Handle, waiting.slot h = Slot.fresh 0 := by decide +kernel
  refine ⟨⟨List.nodup_nil, fun h => ?_⟩, rfl, fun h r e => ?_, State.groupLaw_fresh slot (by decide),
    (State.directoryLaw_iff _).mpr (ok_fresh (s := waiting) rfl (by decide +kernel)), nofun, fun h r e => ?_⟩
  · rw [slot]; exact iff_of_false List.not_mem_nil fun x => x rfl
  · unfold State.record? at e; rw [slot] at e; cases e
  · unfold State.record? at e; rw [slot] at e; cases e

theorem test_meets_KeptByStep_port : waiting.ArbiterLaw ∧ waiting.SlotLaw := by
  refine ⟨?_, List.nodup_nil, by decide, by decide⟩
  intro r
  cases r with
  | host => decide
  | line l => cases l <;> rfl
  | clock => rfl

end Sys2Proof.Tests
end

section
/-! The directory: its arbiter, the host commands that name a record, the state after reset, and the laws that every
command and every passing of time keep. -/

namespace Sys2Proof.Machine

/-! ### The arbiter: what a grant does (R20) -/

/-- While the engine carries out a claim, a grant changes nothing. -/
theorem State.grant_of_busy (s : State) (busy : s.arb.engine ≠ none) : s.grant = s := by
  obtain ⟨r, engine⟩ := Option.ne_none_iff_exists'.mp busy
  unfold State.grant
  rw [engine]

/-- With no claim outstanding, a grant changes nothing. -/
theorem State.grant_of_unclaimed (s : State) (unclaimed : ∀ r : Requester, s.outstanding r = false) : s.grant = s := by
  have search : s.arb.rotation.cycleAfter.find? s.outstanding = none :=
    List.find?_eq_none.mpr fun r _ => by simp [unclaimed r]
  unfold State.grant
  rw [search]
  split <;> rfl

/-- With the engine idle, the first requester of the cyclic order that has a claim outstanding is granted. -/
theorem State.grant_of_first (s : State) (idle : s.arb.engine = none) {r : Requester} {before after : List Requester}
    (cycle : s.arb.rotation.cycleAfter = before ++ r :: after) (passed : ∀ x ∈ before, s.outstanding x = false)
    (claims : s.outstanding r = true) :
    s.grant = { s with arb := { engine := some r, rotation := r, grantCfg := s.cfg } } := by
  have search : s.arb.rotation.cycleAfter.find? s.outstanding = some r := by
    rw [cycle]
    exact List.find?_eq_some_iff_append.mpr ⟨claims, before, after, rfl, fun x hx => by simp [passed x hx]⟩
  unfold State.grant
  rw [idle, search]

/-- A grant after a change that leaves the arbiter and takes no claim away keeps the arbiter's law. -/
theorem State.arbiterLaw_grant_of_raised {s t : State} (arb : t.arb = s.arb)
    (raised : ∀ r : Requester, s.outstanding r = true → t.outstanding r = true) (law : s.ArbiterLaw) :
    t.grant.ArbiterLaw := by
  cases engine : s.arb.engine with
  | none => exact t.arbiterLaw_grant (by rw [arb, engine])
  | some r =>
    have busy : t.arb.engine = some r := by rw [arb, engine]
    rw [t.grant_of_busy (by rw [busy]; nofun)]
    unfold State.ArbiterLaw at law ⊢
    rw [engine] at law
    rw [busy, arb]
    exact ⟨raised r law.1, law.2⟩

/-! ### Outcomes that keep the laws -/

/-- An outcome that is a next state, with the queue of commands and every law of `State.Safe` kept. -/
def State.SafeOutcome (s : State) (o : Host.Outcome State Fault Refusal) : Prop := ∃ t, o = .next t ∧ s.Safe t

theorem State.SafeOutcome.next {s t : State} (h : s.Safe t) : s.SafeOutcome (.next t) := ⟨t, rfl, h⟩

/-! ### The lease clock keeps the laws (R49 to R51) -/

/-- A change of the lease clock that loses no tick claim, with a grant after it, keeps every law. -/
theorem State.safe_setClock_grant (s : State) (c : LeaseClock) (raised : s.clock.claim = true → c.claim = true) :
    s.Safe (State.grant { s with clock := c }) := by
  have g := State.safe_grant { s with clock := c }
  refine ⟨g.pending, g.lines, g.changes, g.leases, g.groups, g.counts, g.config, ?_, g.slots⟩
  refine State.arbiterLaw_grant_of_raised rfl fun r claims => ?_
  cases r with
  | host => exact claims
  | line l => exact claims
  | clock => exact raised claims

/-- A change of the lease clock that keeps its claim keeps every law. -/
theorem State.safe_setClock (s : State) (c : LeaseClock) (claim : c.claim = s.clock.claim) :
    s.Safe { s with clock := c } := by
  refine ⟨rfl, fun _ => .refl _, id, id, id, id, id, .congr rfl ?_, id⟩
  funext r
  cases r with
  | host => rfl
  | line l => rfl
  | clock => exact claim

/-- The end of a tick period leaves a tick claim outstanding (R51). -/
theorem LeaseClock.claim_endPeriod (c : LeaseClock) (cfg : ConfigStore) : (c.endPeriod cfg).claim = true := by
  unfold LeaseClock.endPeriod
  split <;> rfl

theorem State.safe_endIfReached (s : State) : s.Safe s.endIfReached := by
  unfold State.endIfReached
  split
  · exact s.safe_setClock_grant _ fun _ => s.clock.claim_endPeriod s.cfg
  · exact .refl s

/-- The divider runs on, and the period ends where that brings it to the tick period. -/
theorem State.safe_runDivider (s : State) (n : Nat) :
    s.Safe (State.endIfReached { s with clock := { s.clock with divider := n } }) :=
  (s.safe_setClock { s.clock with divider := n } rfl).trans (State.safe_endIfReached _)

theorem State.safe_passTime (s : State) : s.Safe s.passTime := by
  unfold State.passTime
  split
  · exact .refl s
  · exact s.safe_runDivider _

/-! ### The claims of a line keep the laws (R21, R22) -/

/-- A claim of a line that is carried out is the engine's. -/
theorem State.engine_of_lineClaim? {s : State} {l : Line} {c : LineClaim} (claim : s.lineClaim? = some (l, c)) :
    s.arb.engine.isSome = true := by
  unfold State.lineClaim? at claim
  split at claim
  · next engine => rw [engine]; rfl
  · cases claim

theorem State.safe_missClaim {s : State} {l : Line} {c : LineClaim} (claim : s.lineClaim? = some (l, c)) (st : Station)
    (ref : Ref) : s.Safe ((s.miss l st ref).completeLine l) :=
  s.safe_lineClaim _ l (s.keeps_miss (s.engine_of_lineClaim? claim) l st ref)

/-- MISS_LIMIT is the miss claim that brings its record to QUIET (log 14). -/
theorem exec_missLimit_safe (s : State) : s.SafeOutcome (exec .missLimit s) := by
  refine .next ?_
  split
  · next claim =>
    split
    · split
      · exact s.safe_missClaim claim _ _
      · exact .refl s
    · exact .refl s
  · exact .refl s

/-- The outcome claim of an order keeps the laws where its conclusion on a current record does. -/
theorem State.safe_outcomeClaim (s : State) (l : Line) (k : OrderKind) (ref : Ref)
    (conclude : State → Order → Record → State)
    (keeps : ∀ (t : State) (o : Order) (r : Record), t.record? ref.handle = some r → t.Keeps (conclude t o r)) :
    s.Safe ((s.outcomeClaim l k ref conclude).completeLine l) :=
  s.safe_lineClaim _ l (s.keeps_outcomeClaim l k ref conclude fun t o r _ current =>
    keeps t o r (State.record?_of_current? current))

/-- A conclusion that is carried out in one state of the record alone keeps the laws where it does there. -/
theorem State.keeps_ite {s t : State} {p : Prop} [Decidable p] (keeps : s.Keeps t) :
    s.Keeps (if p then t else s) := by
  split
  · exact keeps
  · exact .refl s

theorem State.safe_moveClaim {s : State} {l : Line} {ref : Ref} {conclude : State → Record → Station → State}
    (keeps : ∀ (t : State) (r : Record) (x : Station), t.arb = s.arb → t.record? ref.handle = some r →
      t.Keeps (conclude t r x)) : s.Safe ((s.moveClaim l ref conclude).completeLine l) :=
  s.safe_lineClaim _ l (s.keeps_moveClaim l ref conclude keeps)

/-! ### The events of a line keep the laws (Chapters 4 and 5) -/

theorem State.safe_leadRecessive (s : State) (l : Line) :
    s.Safe (s.modLine l (LineEngine.leadRecessive s.cfg.holdOff)) := by
  refine s.safe_modLine l _ (fun e => ?_) fun e => ?_
  all_goals unfold LineEngine.leadRecessive; dsimp only; split
  · exact (e.keeps_setLead false).trans (LineEngine.keeps_beginFrame _ _)
  · exact e.keeps_setLead false
  · exact LineEngine.claim_beginFrame _ _
  · rfl

theorem State.safe_roundRestEnd (s : State) (l : Line) :
    s.Safe (s.modLine l fun e => { e with resting := false, position := 0 }) :=
  s.safe_modLine l _ (fun _ => .of_eq (Nat.le_refl _) (Nat.le_refl _) rfl rfl rfl rfl rfl) fun _ => rfl

/-- The idle check of a line start passes: the FLUSH transactions begin, or the line engine's own steps are done (R79). -/
theorem exec_idleCheckPass_safe (s : State) (l : Line) : s.SafeOutcome (exec (.idleCheckPass l) s) := by
  refine .next ?_
  dsimp only
  split
  · next starts =>
    split
    · exact s.safe_idlePass_flush l starts.1
    · exact s.safe_idlePass_keep l starts.1
  · exact .refl s

/-- ORDER_EXHAUSTED is the end of the reply window, or of the hold-off wait, of an order's last attempt (log 14). -/
theorem exec_orderExhausted_safe (s : State) (l : Line) : s.SafeOutcome (exec (.orderExhausted l) s) := by
  refine .next ?_
  split
  · split
    · split
      · exact s.safe_windowTimeout l _
      · split
        · exact s.safe_holdOffTimeout l _
        · exact .refl s
    · exact .refl s
  · exact .refl s

/-- JOIN_BODY: the body names its node, or the call is GARBLED (R102). -/
theorem exec_joinBody_safe (s : State) (l : Line) (body : List Byte) : s.SafeOutcome (exec (.joinBody l body) s) := by
  refine .next ?_
  split
  · split
    · split
      · exact (s.keeps_garbled l _).safe
      · exact s.safe_joinWon l _ _ _
    · exact (s.keeps_garbled l _).safe
  · exact .refl s

/-! ### The beginning of a command keeps the laws (R164) -/

/-- COMMAND_BEGIN answers a bad frame and a local command in their QUEUED slot, and makes the slot of any other ACTIVE, as
no slot is. -/
theorem exec_commandBegin_safe (s : State) : s.SafeOutcome (exec .commandBegin s) := by
  refine .next ?_
  split
  · exact .refl s
  · next i f next =>
    obtain ⟨queued, free⟩ := HostPort.nextQueued_some next
    split
    · exact s.safe_answerQueued i f f.tag _ queued
    · next c _ =>
      split
      · exact s.safe_completeLocal _ i f f.tag (s.safe_runLocal c).1 (s.safe_runLocal c).2 queued
      · exact s.safe_beginClaim i f queued free

theorem exec_readAlarms_safe (s : State) : s.SafeOutcome (exec .readAlarms s) := by
  refine .next ?_
  split
  · exact .refl s
  · next i f next =>
    split
    · exact s.safe_completeLocal _ i f f.tag (.refl s) rfl (HostPort.nextQueued_some next).1
    · exact .refl s

theorem exec_ackAlarms_safe (s : State) : s.SafeOutcome (exec .ackAlarms s) := by
  refine .next ?_
  split
  · exact .refl s
  · next i f next =>
    split
    · exact s.safe_completeLocal _ i f f.tag (s.safe_ackAlarms _) (s.slots_ackAlarms _)
        (HostPort.nextQueued_some next).1
    · exact .refl s

/-- CONFIGURE is carried out as a claim, or completes in the host port where it writes no miss limit (R164, R170). -/
theorem exec_configure_safe (s : State) : s.SafeOutcome (exec .configure s) := by
  refine .next ?_
  split
  · exact s.safe_completeHost_of _ (s.safe_configureClaim _)
  · split
    · exact .refl s
    · next i f next =>
      split
      · split
        · exact s.safe_completeLocal _ i f f.tag (s.safe_configureStore _) (s.slots_configureStore _)
            (HostPort.nextQueued_some next).1
        · exact .refl s
      · exact .refl s

theorem exec_resetDevice_safe (s : State) : s.SafeOutcome (exec .resetDevice s) := by
  refine .next ?_
  split
  · next active => exact s.safe_softReset _ _ _ active
  · exact .refl s

/-- UNKNOWN_KIND_BYTE ends an exchange early, or stands for one whose kind byte is unknown (R160). -/
theorem exec_unknownKindByte_safe (s : State) (kind : Option Byte) (part : ExchangePart Nat) :
    s.SafeOutcome (exec (.unknownKindByte kind part) s) := by
  refine .next ?_
  split
  · exact s.safe_exchange (kind := id) (fun u => .refl u) (fun u _ => u.safe_closeEarly) part
  · split
    · exact .refl s
    · exact s.safe_exchange (fun u => u.safe_takeKind _) (fun u n => u.safe_closeUnknown n) part

/-! ### The host commands keep the laws -/

/-- The row of the table that carries out a host command as the engine's claim, and what it does for the command before
its completion (log 3). -/
def State.hostRow? (s : State) : HostCmd → Option (Instr × State × Reply)
  | .reserve id line st lease => some (.reserve, s.reserve id line st lease)
  | .pin r => some (.pin, s.pinCommand r)
  | .unpin r => some (.unpin, s.unpinCommand r)
  | .retire r option => some (.retire, s.retireCommand r option)
  | .reassign r target => some (.reassign, s.reassignCommand r target)
  | .purge r => some (.purge, s.purgeCommand r)
  | .lookup r => some (.lookup, s.lookupCommand r)
  | .find cls line st => some (.find, s.findCommand cls line st)
  | .setLease r lease option => some (.setLease, s.setLeaseCommand r lease option)
  | .setGroups r groups => some (.setGroups, s.setGroupsCommand r groups)
  | .setGroupLimit group limit => some (.setGroupLimit, s.setGroupLimitCommand group limit)
  | .setTag r bytes => some (.setTag, s.setTagCommand r bytes)
  | .nextChange => some (.nextChange, s.nextChangeCommand)
  | .ackChange h g => some (.ackChange, s.ackChangeCommand h g)
  | .lineStart line option => some (.lineStart, s.lineStartCommand line option)
  | .lineStop line => some (.lineStop, s.lineStopCommand line)
  | .linePause line => some (.linePause, s.linePauseCommand line)
  | .lineResume line => some (.lineResume, s.lineResumeCommand line)
  | .setCallPolicy line policy => some (.setCallPolicy, s.setCallPolicyCommand line policy)
  | .clearExclusion line form id => some (.clearExclusion, s.clearExclusionCommand line form id)
  | .lineStatus line => some (.lineStatus, s.lineStatusCommand line)
  | .clearCounters line => some (.clearCounters, s.clearCountersCommand line)
  | .configure items => some (.configure, s.configureClaim items)
  | .status => some (.status, s, ⟨.ok, s.statusPayload⟩)
  | .readAlarms => none
  | .ackAlarms _ => none
  | .resetDevice => none

/-- The row of a host command that the engine carries out does the command's work and completes it (R164, log 3). -/
theorem State.HostRuns.exec_eq {s : State} {i : Fin 4} {f : CmdFrame} {cmd : HostCmd} {c : Instr} {x : State × Reply}
    (runs : s.HostRuns i f cmd) (row : s.hostRow? cmd = some (c, x)) : exec c s = .next (State.completeHost x) := by
  have claim := runs.claim
  cases cmd <;> cases row
  all_goals show Host.Outcome.next _ = _; rw [claim]

/-- The rows that only carry out a host command as the engine's claim: they change nothing where another claim is carried
out (log 2). -/
def Instr.isHostRow : Instr → Bool
  | .reserve | .pin | .unpin | .retire | .reassign | .purge | .lookup | .find | .setLease | .setGroups
  | .setGroupLimit | .setTag | .nextChange | .ackChange | .lineStart | .lineStop | .linePause | .lineResume
  | .setCallPolicy | .clearExclusion | .lineStatus | .clearCounters | .status => true
  | _ => false

/-- A row that only carries out a host command does the work of the command that the engine carries out, or nothing. -/
theorem exec_hostRow_cases (s : State) {c : Instr} (host : Instr.isHostRow c = true) :
    ∃ t, exec c s = .next t
      ∧ (t = s ∨ ∃ cmd x, s.hostClaim? = some cmd ∧ s.hostRow? cmd = some (c, x) ∧ t = State.completeHost x) := by
  cases c <;> cases host
  all_goals
    refine ⟨_, rfl, ?_⟩
    split
    · next claim => exact .inr ⟨_, _, claim, rfl, rfl⟩
    · exact .inl rfl

theorem State.safe_hostRow {s : State} {cmd : HostCmd} {c : Instr} {x : State × Reply}
    (row : s.hostRow? cmd = some (c, x)) : s.Safe x.1 := by
  cases cmd with
  | reserve _ _ _ _ => cases row; exact (s.keeps_reserve _ _ _ _).safe
  | pin _ => cases row; exact (s.keeps_pinCommand _).safe
  | unpin _ => cases row; exact (s.keeps_unpinCommand _).safe
  | retire _ _ => cases row; exact (s.keeps_retireCommand _ _).safe
  | reassign _ _ => cases row; exact (s.keeps_reassignCommand _ _).safe
  | purge _ => cases row; exact (s.keeps_purgeCommand _).safe
  | lookup _ => cases row; exact (s.keeps_lookupCommand _).safe
  | find _ _ _ => cases row; exact (s.keeps_findCommand _ _ _).safe
  | setLease _ _ _ => cases row; exact (s.keeps_setLeaseCommand _ _ _).safe
  | setGroups _ _ => cases row; exact (s.keeps_setGroupsCommand _ _).safe
  | setGroupLimit _ _ => cases row; exact (s.keeps_setGroupLimitCommand _ _).safe
  | setTag _ _ => cases row; exact (s.keeps_setTagCommand _ _).safe
  | nextChange => cases row; exact s.keeps_nextChangeCommand.safe
  | ackChange _ _ => cases row; exact (s.keeps_ackChangeCommand _ _).safe
  | lineStart _ _ => cases row; exact s.safe_lineStartCommand _ _
  | lineStop _ => cases row; exact s.safe_lineStopCommand _
  | linePause _ => cases row; exact s.safe_linePauseCommand _
  | lineResume _ => cases row; exact s.safe_lineResumeCommand _
  | setCallPolicy _ _ => cases row; exact s.safe_setCallPolicyCommand _ _
  | clearExclusion _ _ _ => cases row; exact s.safe_clearExclusionCommand _ _ _
  | lineStatus _ => cases row; exact s.safe_lineStatusCommand _
  | clearCounters _ => cases row; exact s.safe_clearCountersCommand _
  | configure _ => cases row; exact s.safe_configureClaim _
  | status => cases row; exact .refl s
  | readAlarms => cases row
  | ackAlarms _ => cases row
  | resetDevice => cases row

theorem exec_hostRow_safe (s : State) {c : Instr} (host : Instr.isHostRow c = true) : s.SafeOutcome (exec c s) := by
  obtain ⟨t, runs, rfl | ⟨cmd, x, -, row, rfl⟩⟩ := exec_hostRow_cases s host
  · exact ⟨_, runs, .refl _⟩
  · exact ⟨_, runs, s.safe_completeHost_of x (State.safe_hostRow row)⟩

/-! ### The claims of the line engines keep the laws -/

/-- The rows that carry out a claim of a line engine (log 3). -/
def Instr.isLineRow : Instr → Bool
  | .presenceClaim | .missClaim | .missLimit | .joinClaim | .renew | .leave | .resolve | .nodeFind | .members
  | .capsRequest | .assignConfirmed | .assignDeclined | .assignExhausted | .moved | .moveDeclined | .probeOutcome
  | .releaseOutcome | .answerOutcome | .lineClaim | .flushClaim => true
  | _ => false

/-- A row that carries out a claim of a line engine does the claim's directory work and completes it, or nothing. -/
theorem exec_lineRow_safe (s : State) {c : Instr} (line : Instr.isLineRow c = true) : s.SafeOutcome (exec c s) := by
  cases c with
  | presenceClaim =>
    refine .next ?_
    split
    · exact s.safe_lineClaim _ _ (s.keeps_presence _ _ _)
    · exact .refl s
  | missClaim =>
    refine .next ?_
    split
    · exact s.safe_missClaim ‹_› _ _
    · exact .refl s
  | missLimit => exact exec_missLimit_safe s
  | joinClaim =>
    refine .next ?_
    split
    · exact s.safe_lineClaim _ _ (s.keeps_joinClaim _ _ _ _)
    · exact .refl s
  | renew =>
    refine .next ?_
    split
    · exact s.safe_lineClaim _ _ (s.keeps_requestClaim _ _ _ _ _ fun t r q => t.keeps_renewRequest _ _ r q)
    · exact .refl s
  | leave =>
    refine .next ?_
    split
    · exact s.safe_lineClaim _ _ (s.keeps_leaveClaim _ _ _)
    · exact .refl s
  | resolve =>
    refine .next ?_
    split
    · exact s.safe_lineClaim _ _ (s.keeps_requestClaim_pure _ _ _ _ _)
    · exact .refl s
  | nodeFind =>
    refine .next ?_
    split
    · exact s.safe_lineClaim _ _ (s.keeps_requestClaim_pure _ _ _ _ _)
    · exact .refl s
  | members =>
    refine .next ?_
    split
    · exact s.safe_lineClaim _ _ (s.keeps_requestClaim_pure _ _ _ _ _)
    · exact .refl s
  | capsRequest =>
    refine .next ?_
    split
    · exact s.safe_lineClaim _ _ (s.keeps_requestClaim _ _ _ _ _ fun t _ _ _ _ => t.keeps_takeCaps _ _ _)
    · exact .refl s
  | assignConfirmed =>
    refine .next ?_
    split
    · exact s.safe_outcomeClaim _ _ _ _ fun t _ r found => State.keeps_ite (t.keeps_joinConfirmed _ _ r found)
    · exact .refl s
  | assignDeclined =>
    refine .next ?_
    split
    · exact s.safe_outcomeClaim _ _ _ _ fun t _ r _ => State.keeps_ite (t.keeps_joinDeclined _ r)
    · exact .refl s
  | assignExhausted =>
    refine .next ?_
    split
    · exact s.safe_outcomeClaim _ _ _ _ fun t _ _ _ => State.keeps_ite (t.keeps_endRecord _ _)
    · exact .refl s
  | moved =>
    refine .next ?_
    split
    · exact State.safe_moveClaim fun t r x _ found => t.keeps_moveDone _ r x found
    · exact .refl s
  | moveDeclined =>
    refine .next ?_
    split
    · exact State.safe_moveClaim fun t r x _ found => t.keeps_moveBack _ r x _ found
    · exact .refl s
  | probeOutcome =>
    refine .next ?_
    split
    · next claim =>
      exact State.safe_moveClaim fun t r x arb found =>
        t.keeps_probeConclusion (by rw [arb]; exact s.engine_of_lineClaim? claim) _ r x _ _ found
    · exact .refl s
  | releaseOutcome =>
    refine .next ?_
    split
    · exact s.safe_outcomeClaim _ _ _ _ fun t _ _ _ => State.keeps_ite (t.keeps_endRecord _ _)
    · exact .refl s
  | answerOutcome =>
    refine .next ?_
    split
    · exact s.safe_lineClaim _ _ (s.keeps_answerClaim _ _ _)
    · exact .refl s
  | lineClaim =>
    refine .next ?_
    split
    · exact s.safe_lineClaim _ _ ((s.keeps_lineWork _).trans (State.keeps_tryRunning _ _))
    · exact .refl s
  | flushClaim =>
    refine .next ?_
    split
    · exact s.safe_lineClaim _ _ ((s.keeps_flushWork _).trans (State.keeps_tryRunning _ _))
    · exact .refl s
  | _ => cases line

/-! ### Every command and every step keep the laws -/

/-- Every command answers with a next state that keeps the laws: a host command by the work it does and its completion,
a claim of a line by its directory work and its completion, an event by the operation it stands for. -/
theorem exec_safe (c : Instr) (s : State) : s.SafeOutcome (exec c s) := by
  cases c with
  | reserve | pin | unpin | retire | reassign | purge | lookup | find | setLease | setGroups | setGroupLimit
  | setTag | nextChange | ackChange | lineStart | lineStop | linePause | lineResume | setCallPolicy
  | clearExclusion | lineStatus | clearCounters | status => exact exec_hostRow_safe s rfl
  | presenceClaim | missClaim | missLimit | joinClaim | renew | leave | resolve | nodeFind | members | capsRequest
  | assignConfirmed | assignDeclined | assignExhausted | moved | moveDeclined | probeOutcome | releaseOutcome
  | answerOutcome | lineClaim | flushClaim => exact exec_lineRow_safe s rfl
  | rstAsserted => exact .next (s.safe_powerOn true false)
  | rstReleased scsLow =>
    refine .next ?_
    split
    · exact s.safe_powerOn false scsLow
    · exact .refl s
  | writeCommand part extra =>
    exact .next (s.safe_exchange (fun u => u.safe_takeKind _) (fun u bs => u.safe_closeWrite extra bs) part)
  | readResponse part =>
    exact .next (s.safe_exchange (fun u => u.safe_takeKind _) (fun u n => u.safe_closeRead n) part)
  | readStatus part =>
    exact .next (s.safe_exchange (fun u => u.safe_takeKind _) (fun u n => u.safe_closeStatus n) part)
  | unknownKindByte kind part => exact exec_unknownKindByte_safe s kind part
  | commandBegin => exact exec_commandBegin_safe s
  | readAlarms => exact exec_readAlarms_safe s
  | ackAlarms => exact exec_ackAlarms_safe s
  | configure => exact exec_configure_safe s
  | resetDevice => exact exec_resetDevice_safe s
  | tickPeriodEnd =>
    refine .next ?_
    split
    · exact .refl s
    · exact s.safe_runDivider _
  | leaseTick =>
    refine .next ?_
    split
    · exact s.safe_completeClock _ (s.keeps_leaseStage.trans (State.keeps_quarStage _)).safe
    · exact .refl s
  | lapse h =>
    refine .next ?_
    split
    · exact (State.keeps_ite (s.keeps_lapseRecord h)).safe
    · exact .refl s
  | quarantineExpiry l st =>
    refine .next ?_
    split
    · exact ((s.keeps_setQuar l _).trans (State.keeps_expireEntry _ l _)).safe
    · exact .refl s
  | nextTransaction l =>
    refine .next ?_
    split
    · exact s.safe_chooseTx l 2 (s.runsOn_of_mayChoose l ‹_›)
    · exact .refl s
  | roundRestEnd l =>
    refine .next ?_
    split
    · exact s.safe_roundRestEnd l
    · exact .refl s
  | dataLeadRecessive l => exact .next (s.safe_leadRecessive l)
  | dataLeadDominant l => exact .next (s.safe_modLine l _ (fun e => e.keeps_setLead true) fun _ => rfl)
  | stuckLine l =>
    refine .next ?_
    split
    · exact s.safe_enterFault l
    · exact .refl s
  | collision l =>
    exact .next (s.safe_frameEvent l .sending _ fun t tx => s.safe_collisionOn l t (LineEngine.active_of_tx tx))
  | headFrameSent l =>
    exact .next (s.safe_frameEvent l .sending _ fun t tx => s.safe_frameSent l t (LineEngine.active_of_tx tx))
  | idle l body => exact .next (s.safe_receive l _)
  | request l body => exact .next (s.safe_receive l _)
  | confirm l body => exact .next (s.safe_receive l _)
  | decline l body => exact .next (s.safe_receive l _)
  | hold l body => exact .next (s.safe_receive l _)
  | checkError l => exact .next (s.safe_receive l none)
  | replyWindowTimeout l => exact .next (s.safe_frameEvent l .window _ fun t _ => s.safe_windowTimeout l t)
  | holdOffTimeout l => exact .next (s.safe_frameEvent l .holdOff _ fun t _ => s.safe_holdOffTimeout l t)
  | orderExhausted l => exact exec_orderExhausted_safe s l
  | arbitrationEnd l id =>
    exact .next (s.safe_frameEvent l .arbitration _ fun t tx =>
      (s.keeps_arbitrationOn l t id (LineEngine.active_of_tx tx)).safe)
  | joinBody l body => exact exec_joinBody_safe s l body
  | joinBodyTimeout l =>
    refine .next ?_
    split
    · exact (s.keeps_garbled l _).safe
    · exact .refl s
  | clashSettled l =>
    refine .next ?_
    split
    · exact (State.keeps_ite (s.keeps_garbled l _)).safe
    · exact .refl s
  | idleCheckPass l => exact exec_idleCheckPass_safe s l
  | idleCheckTimeout l =>
    refine .next ?_
    split
    · exact s.safe_enterFault l
    · exact .refl s

/-- A law that does not read the queue of commands, and that every change of `State.Safe` keeps, is kept by every step. -/
theorem keptByStep_of_safe {law : State → Prop}
    (queue : ∀ (s : State) (p : List Instr), law s → law { s with pending := p })
    (safe : ∀ s t : State, s.Safe t → law s → law t) : KeptByStep law := by
  intro s t holds stepped
  unfold step at stepped
  split at stepped
  · cases stepped
    exact safe _ _ s.safe_passTime holds
  · next c rest _ =>
    obtain ⟨u, answer, kept⟩ := exec_safe c { s with pending := rest }
    cases answer.symm.trans stepped
    exact safe _ _ kept (queue s rest holds)

/-! ### The refusal of a stale reference (R11, R18, R174) -/

/-- The row of a host command whose work is the refusal of a stale reference completes it with STALE (R11, R18). -/
theorem State.HostRuns.exec_stale {s : State} {i : Fin 4} {f : CmdFrame} {cmd : HostCmd} {c : Instr}
    (runs : s.HostRuns i f cmd)
    (row : s.hostRow? cmd
      = some (c, { s with dir := { s.dir with staleRef := min 65535 (s.dir.staleRef + 1) } }, .bare .stale)) :
    exec c s = .next (State.answered
      { s with dir := { s.dir with staleRef := min 65535 (s.dir.staleRef + 1) } } i f .stale []) := by
  rw [runs.exec_eq row]
  exact congrArg Host.Outcome.next (runs.completes rfl)

/-! ### The laws after reset (R172, R87) -/

theorem State.slot_reset (h : Handle) : State.reset.slot h = Slot.fresh 0 := by
  rw [State.slot_fresh (Vector.replicate 256 (Slot.fresh 0)) _ h rfl]
  simp [Vector.get]

theorem State.record?_reset (h : Handle) : State.reset.record? h = none := by
  rw [State.record?, State.slot_reset]
  rfl

theorem State.line_reset (l : Line) : State.reset.line l = .reset false := by cases l <;> rfl

theorem LineEngine.counter_reset (b : Bool) (c : Ctr) : (LineEngine.reset b).counter c = 0 := by
  show (Vector.replicate 32 0).get c.idx = 0
  simp [Vector.get]

theorem ConfigStore.inRange_default : ConfigStore.default.InRange := by
  unfold ConfigStore.InRange
  decide

theorem HostPort.get_slots_reset (i : Fin 4) : HostPort.reset.slots.get i = .empty := by
  simp [HostPort.reset, Vector.get]

theorem State.outstanding_reset (r : Requester) : State.reset.outstanding r = false := by
  cases r with
  | host => decide
  | line l => cases l <;> rfl
  | clock => rfl

theorem State.queueLaw_reset : State.reset.QueueLaw := fun l => by
  rw [State.line_reset]
  exact Nat.zero_le 8

theorem State.changeSetLaw_reset : State.reset.ChangeSetLaw := by
  refine ⟨List.nodup_nil, fun h => ?_⟩
  rw [State.slot_reset]
  exact iff_of_false List.not_mem_nil fun mask => mask rfl

theorem State.exclusionLaw_reset : State.reset.ExclusionLaw := fun l => by
  rw [State.line_reset]
  exact ⟨Nat.zero_le 4, List.nodup_nil⟩

theorem State.leaseLaw_reset : State.reset.LeaseLaw := fun h r found => by
  rw [State.record?_reset] at found
  cases found

theorem State.groupLaw_reset : State.reset.GroupLaw :=
  State.groupLaw_fresh State.slot_reset fun g => by
    show (Vector.replicate 16 _).get g = _
    simp [Vector.get]

theorem State.counterLaw_reset : State.reset.CounterLaw := by
  refine ⟨Nat.zero_le _, Nat.zero_le _, fun l c => ?_⟩
  rw [State.line_reset, LineEngine.counter_reset]
  exact Nat.zero_le _

theorem State.quietLineLaw_reset : State.reset.QuietLineLaw := fun l _ => by
  rw [State.line_reset]
  exact ⟨rfl, rfl⟩

theorem State.slotLaw_reset : State.reset.SlotLaw := by
  have empty : ∀ i : Fin 4, State.reset.host.slots.get i = .empty := HostPort.get_slots_reset
  refine ⟨List.nodup_nil, fun i => iff_of_false List.not_mem_nil fun occupied => occupied (empty i),
    fun i j active => ?_⟩
  rw [empty] at active
  cases active

theorem State.directoryLaw_reset : State.reset.DirectoryLaw :=
  (State.directoryLaw_iff _).mpr (ok_fresh (s := State.reset) rfl State.record?_reset)

theorem State.missLaw_reset : State.reset.MissLaw := by
  refine ⟨nofun, fun h r found => ?_⟩
  rw [State.record?_reset] at found
  cases found

theorem State.orderLaw_reset : State.reset.OrderLaw := by
  obtain ⟨view, chosen⟩ : State.reset.OrdersOk :=
    State.ordersOk_empty State.record?_reset fun l => by rw [State.line_reset]; exact ⟨rfl, rfl⟩
  obtain ⟨directed, request⟩ := (State.orderLaw_iff _).mpr view
  exact ⟨State.queueLaw_reset, chosen, directed, request⟩

/-! ### The obligations of the directory -/

/-- Settles O58: every command and every passing of time keeps the arbiter's law, since each raising and each completion
of a claim has a grant after it. -/
theorem arbiterNeverSleepsOnAClaim : Obligations.ArbiterNeverSleepsOnAClaim :=
  keptByStep_of_safe (fun _ _ law => law) fun _ _ kept => kept.arbiter

/-- Settles O17: with its other operands in range, the work of each of the nine commands is to act on its reference. -/
theorem staleReferenceIsRefused : Obligations.StaleReferenceIsRefused := by
  intro s i f h g unresolved
  have refused := @State.withReference_stale s h g unresolved
  refine ⟨fun runs => ?_, fun runs => ?_, fun o option runs => ?_, fun b st target runs => ?_, fun runs => ?_,
    fun runs => ?_, fun n o low high option runs => ?_, fun v runs => ?_, fun bs short runs => ?_⟩
  all_goals refine runs.exec_stale (congrArg (fun x => some (_, x)) ?_)
  · exact refused _
  · exact refused _
  · have inRange : ¬ (o ≠ 0 ∧ o ≠ 1) := fun ⟨not0, not1⟩ => option.elim not0 not1
    exact (if_neg inRange).trans (refused _)
  · unfold State.reassignCommand
    rw [target]
    exact refused _
  · exact refused _
  · unfold State.lookupCommand
    exact refused _
  · have inRange : ¬ (n = 0 ∨ 65535 < n ∨ o ≠ 0 ∧ o ≠ 1) := by
      rintro (zero | large | ⟨not0, not1⟩)
      · omega
      · omega
      · exact option.elim not0 not1
    exact (if_neg inRange).trans (refused _)
  · exact refused _
  · exact (if_neg (by omega)).trans (refused _)

/-- Settles O27, by the search of the cyclic order: it passes over the requesters before the first that has a claim. -/
theorem grantIsCyclic : Obligations.GrantIsCyclic := by
  intro s
  refine ⟨?_, ?_, rfl, rfl, rfl, rfl⟩
  · rintro (busy | unclaimed)
    · exact s.grant_of_busy busy
    · exact s.grant_of_unclaimed unclaimed
  · intro idle r before after cycle passed claims
    exact s.grant_of_first idle cycle passed claims

/-- Settles O60, law by law. -/
theorem lawsHoldAtReset : Obligations.LawsHoldAtReset :=
  ⟨State.queueLaw_reset, State.changeSetLaw_reset, rfl, State.exclusionLaw_reset, State.leaseLaw_reset,
    State.groupLaw_reset, State.counterLaw_reset, ⟨ConfigStore.inRange_default, ConfigStore.inRange_default⟩,
    State.quietLineLaw_reset, State.outstanding_reset, State.slotLaw_reset, State.directoryLaw_reset,
    State.missLaw_reset, State.orderLaw_reset⟩

end Sys2Proof.Machine
end

section
/-! The states of a record: PIN and UNPIN, and the freeing of a record by a host command. -/

namespace Sys2Proof.Machine

/-! ### The freeing of a record by the direct effect of a host command (R42, R43) -/

/-- The slot of a record that a host command frees: FREE, with the next generation, the record's identity as its last
(R8, R42). -/
theorem State.slot_freeByHost_self {s : State} {h : Handle} {r : Record} (found : s.record? h = some r) :
    ((s.freeByHost h).slot h).content = none ∧ ((s.freeByHost h).slot h).gen = (s.slot h).gen + 1
      ∧ ((s.freeByHost h).slot h).lastIdentity = some r.identity := by
  obtain ⟨e, -, freed⟩ := s.freeByHost_eq h r found
  rw [freed]
  split <;> simp [State.slot_emptySlot, State.slot_markFreed]

theorem State.slot_freeByHost_of_ne {s : State} {h k : Handle} {r : Record} (found : s.record? h = some r) (ne : k ≠ h) :
    (s.freeByHost h).slot k = s.slot k := by
  obtain ⟨e, -, freed⟩ := s.freeByHost_eq h r found
  rw [freed]
  split <;> simp [State.slot_emptySlot, State.slot_markFreed, ne]

/-- The cause of a freeing has dealt with the record's map entries and quarantine entry: the freeing leaves both (R42). -/
theorem State.mapAt_freeByHost {s : State} {h : Handle} {r : Record} (found : s.record? h = some r) (l : Line)
    (st : Station) : (s.freeByHost h).mapAt l st = s.mapAt l st := by
  obtain ⟨e, -, freed⟩ := s.freeByHost_eq h r found
  rw [freed]
  split <;> simp

theorem State.quarOf_freeByHost {s : State} {h : Handle} {r : Record} (found : s.record? h = some r) (l : Line) :
    (s.freeByHost h).quarOf l = s.quarOf l := by
  obtain ⟨e, -, freed⟩ := s.freeByHost_eq h r found
  rw [freed]
  split <;> simp

/-- FREED is marked only on a mask that is not empty, so the freeing adds no notice (R43, R185). -/
theorem State.changeSet_freeByHost {s : State} {h : Handle} {r : Record} (found : s.record? h = some r) :
    (s.freeByHost h).dir.changeSet = s.dir.changeSet := by
  obtain ⟨e, -, freed⟩ := s.freeByHost_eq h r found
  rw [freed]
  split
  · rfl
  · next marked =>
    exact State.changeSet_markFreed_of_mask _ _ _ _ (by simpa [State.slot_emptySlot] using marked)

/-! ### PIN and UNPIN (R39, R40) -/

theorem State.pinCommand_of_names {s : State} {ref : RefOperand} {h : Handle} {r : Record} (named : s.Names ref h r) :
    s.pinCommand ref = if r.state = .bound ∨ r.state = .quiet
      then (s.setRecord h { r with pinned := true }, .bare .ok) else (s, .bare .state) := by
  rw [State.pinCommand, State.withReference_of_names named]
  cases r.state <;> simp

theorem State.unpinCommand_of_unpinned {s : State} {ref : RefOperand} {h : Handle} {r : Record}
    (named : s.Names ref h r) (unpinned : r.pinned = false) : s.unpinCommand ref = (s, .bare .state) := by
  rw [State.unpinCommand, State.withReference_of_names named, unpinned]
  rfl

theorem State.unpinCommand_of_pinned {s : State} {ref : RefOperand} {h : Handle} {r : Record} (named : s.Names ref h r)
    (pinned : r.pinned = true) (state : r.state ≠ .reserved) :
    s.unpinCommand ref = (s.setRecord h { r with pinned := false }, .bare .ok) := by
  rw [State.unpinCommand, State.withReference_of_names named, pinned]
  cases found : r.state with
  | reserved => exact absurd found state
  | _ => rfl

/-- What UNPIN does with the station of a RESERVED record, before it frees the record: a station on which a node has
joined is QUARANTINED, any other is FREE (R40). -/
def State.giveUpStation (s : State) (r : Record) : State :=
  if 0 < r.joinCount then s.quarantine r.line r.station none else s.setMap r.line r.station .free

theorem State.unpinCommand_of_reserved {s : State} {ref : RefOperand} {h : Handle} {r : Record}
    (named : s.Names ref h r) (pinned : r.pinned = true) (reserved : r.state = .reserved) :
    s.unpinCommand ref = ((s.giveUpStation r).freeByHost h, .bare .ok) := by
  rw [State.unpinCommand, State.withReference_of_names named, pinned, reserved]
  rfl

@[simp] theorem State.slot_giveUpStation (s : State) (r : Record) (h : Handle) :
    (s.giveUpStation r).slot h = s.slot h := by
  unfold State.giveUpStation
  split <;> rfl

@[simp] theorem State.record?_giveUpStation (s : State) (r : Record) (h : Handle) :
    (s.giveUpStation r).record? h = s.record? h := by
  simp [State.record?]

@[simp] theorem State.changeSet_giveUpStation (s : State) (r : Record) :
    (s.giveUpStation r).dir.changeSet = s.dir.changeSet := by
  unfold State.giveUpStation
  split <;> rfl

theorem State.mapAt_giveUpStation (s : State) (r : Record) (l : Line) (st : Station) :
    (s.giveUpStation r).mapAt l st = if l = r.line ∧ st = r.station
      then (if 0 < r.joinCount then .quarantined else .free) else s.mapAt l st := by
  unfold State.giveUpStation
  split
  · exact State.mapAt_quarantine ..
  · exact State.mapAt_setMap ..

theorem State.quarOf_giveUpStation (s : State) (r : Record) (l : Line) :
    (s.giveUpStation r).quarOf l = if l = r.line ∧ 0 < r.joinCount
      then s.quarOf r.line ++ [⟨r.station, s.arb.grantCfg.quarHold, none⟩] else s.quarOf l := by
  unfold State.giveUpStation
  split
  · next joined => simp [State.quarOf_quarantine, joined]
  · next unjoined => simp [unjoined]

/-- Directory work leaves the command slots, so a host command that does only directory work completes with its status
(R22, R164). -/
theorem State.HostRuns.exec_bare {s t : State} {i : Fin 4} {f : CmdFrame} {cmd : HostCmd} {c : Instr} {st : Status}
    (runs : s.HostRuns i f cmd) (row : s.hostRow? cmd = some (c, t, .bare st)) (work : s.Keeps t) :
    exec c s = .next (t.answered i f st []) :=
  (runs.exec_eq row).trans (congrArg Host.Outcome.next (runs.completes (r := .bare st) work.slots))

theorem State.HostRuns.exec_pin {s t : State} {i : Fin 4} {f : CmdFrame} {ref : RefOperand} {st : Status}
    (runs : s.HostRuns i f (.pin ref)) (work : s.pinCommand ref = (t, .bare st)) :
    exec .pin s = .next (t.answered i f st []) :=
  runs.exec_bare (congrArg (fun x => some (_, x)) work) (by simpa only [work] using s.keeps_pinCommand ref)

theorem State.HostRuns.exec_unpin {s t : State} {i : Fin 4} {f : CmdFrame} {ref : RefOperand} {st : Status}
    (runs : s.HostRuns i f (.unpin ref)) (work : s.unpinCommand ref = (t, .bare st)) :
    exec .unpin s = .next (t.answered i f st []) :=
  runs.exec_bare (congrArg (fun x => some (_, x)) work) (by simpa only [work] using s.keeps_unpinCommand ref)

/-- Settles O16: the work of each command by the record's state, and its completion; UNPIN of a RESERVED record gives its
station up and frees it. -/
theorem pinAndUnpin : Obligations.PinAndUnpin := by
  intro s i f ref h r named
  have found : s.record? h = some r := State.record?_of_names named
  refine ⟨fun runs => ?_, fun runs unpinned => ?_, fun runs pinned state => ?_, fun runs pinned reserved => ?_⟩
  · have work := State.pinCommand_of_names named
    split at work
    · next served => rw [if_pos served]; exact runs.exec_pin work
    · next other => rw [if_neg other]; exact runs.exec_pin work
  · exact runs.exec_unpin (State.unpinCommand_of_unpinned named unpinned)
  · exact runs.exec_unpin (State.unpinCommand_of_pinned named pinned state)
  · refine ⟨_, runs.exec_unpin (State.unpinCommand_of_reserved named pinned reserved), ?_⟩
    have given : (s.giveUpStation r).record? h = some r := by simpa using found
    obtain ⟨content, gen, last⟩ := State.slot_freeByHost_self given
    refine ⟨State.hostSlot_answered_self .., ?_, ?_, ?_, fun k ne => ?_, ?_, fun l st ne => ?_, ?_, ?_, ?_⟩
    · simpa [State.record?] using content
    · simpa using gen
    · simpa using last
    · simp [State.slot_freeByHost_of_ne given ne]
    · simp [State.mapAt_freeByHost given, State.mapAt_giveUpStation]
    · have elsewhere : ¬ (l = r.line ∧ st = r.station) := by rintro ⟨rfl, rfl⟩; exact ne rfl
      simp [State.mapAt_freeByHost given, State.mapAt_giveUpStation, elsewhere]
    · simp [State.quarOf_freeByHost given, State.quarOf_giveUpStation]
    · simp [State.quarOf_freeByHost given, State.quarOf_giveUpStation]
    · simp [State.changeSet_freeByHost given]

end Sys2Proof.Machine
end

section
/-! The ranges that every command and every passing of time keep: the leases and miss counts of the records, the counters,
the store and the exclusion lists. -/

namespace Sys2Proof.Machine

/-! ### Outcomes that keep one law -/

/-- An outcome that is a next state, in which a law holds if it held before. -/
def State.OutcomeKeeps (s : State) (law : State → Prop) (o : Host.Outcome State Fault Refusal) : Prop :=
  ∃ t, o = .next t ∧ (law s → law t)

/-- A law that does not read the queue of commands, and that every command and every passing of time keep, is kept by
every step. -/
theorem keptByStep_of_exec {law : State → Prop}
    (queue : ∀ (s : State) (p : List Instr), law s → law { s with pending := p })
    (time : ∀ s : State, law s → law s.passTime) (command : ∀ (c : Instr) (s : State), s.OutcomeKeeps law (exec c s)) :
    KeptByStep law := by
  intro s t holds stepped
  unfold step at stepped
  split at stepped
  · cases stepped
    exact time s holds
  · next c rest _ =>
    obtain ⟨u, answer, kept⟩ := command c { s with pending := rest }
    cases answer.symm.trans stepped
    exact kept (queue s rest holds)

/-! ### The events that leave the directory and the store alone -/

/-- The exchanges of the host port, the end of a tick period, and the events of a line engine. -/
def Instr.isEvent : Instr → Bool
  | .writeCommand _ _ | .readResponse _ | .readStatus _ | .unknownKindByte _ _ | .readAlarms | .ackAlarms
  | .tickPeriodEnd | .nextTransaction _ | .roundRestEnd _ | .dataLeadRecessive _ | .dataLeadDominant _ | .stuckLine _
  | .collision _ | .headFrameSent _ | .idle _ _ | .request _ _ | .confirm _ _ | .decline _ _ | .hold _ _
  | .checkError _ | .replyWindowTimeout _ | .holdOffTimeout _ | .orderExhausted _ | .arbitrationEnd _ _
  | .joinBody _ _ | .joinBodyTimeout _ | .clashSettled _ | .idleCheckPass _ | .idleCheckTimeout _ => true
  | _ => false

/-- An outcome that is a next state with the directory and the store as they were. -/
def State.AsideOutcome (s : State) (o : Host.Outcome State Fault Refusal) : Prop := ∃ t, o = .next t ∧ s.Aside t

theorem State.AsideOutcome.next {s t : State} (aside : s.Aside t) : s.AsideOutcome (.next t) := ⟨t, rfl, aside⟩

theorem State.aside_ite {s t : State} {p : Prop} [Decidable p] (aside : s.Aside t) : s.Aside (if p then t else s) := by
  split
  · exact aside
  · exact .refl s

theorem exec_orderExhausted_aside (s : State) (l : Line) : s.AsideOutcome (exec (.orderExhausted l) s) := by
  refine .next ?_
  split
  · refine State.aside_ite ?_
    split
    · exact s.aside_windowTimeout l _
    · exact State.aside_ite (s.aside_holdOffTimeout l _)
  · exact .refl s

theorem exec_joinBody_aside (s : State) (l : Line) (body : List Byte) :
    s.AsideOutcome (exec (.joinBody l body) s) := by
  refine .next ?_
  split
  · split
    · split
      · exact s.aside_garbled l _
      · exact s.aside_joinWon l _ _ _
    · exact s.aside_garbled l _
  · exact .refl s

theorem exec_idleCheckPass_aside (s : State) (l : Line) : s.AsideOutcome (exec (.idleCheckPass l) s) := by
  refine .next (State.aside_ite ?_)
  split
  · exact (s.aside_modLine l _).trans (State.aside_nextFlush _ l)
  · exact s.aside_modLine l _

theorem exec_unknownKindByte_aside (s : State) (kind : Option Byte) (part : ExchangePart Nat) :
    s.AsideOutcome (exec (.unknownKindByte kind part) s) := by
  refine .next ?_
  split
  · exact s.aside_exchange _ _ part
  · split
    · exact .refl s
    · exact s.aside_exchange _ _ part

theorem exec_readAlarms_aside (s : State) : s.AsideOutcome (exec .readAlarms s) := by
  refine .next ?_
  split
  · exact .refl s
  · split
    · exact State.aside_completeLocal (s, s.readAlarms) _ _
    · exact .refl s

theorem exec_ackAlarms_aside (s : State) : s.AsideOutcome (exec .ackAlarms s) := by
  refine .next ?_
  split
  · exact .refl s
  · split
    · exact (s.aside_ackAlarms _).trans (State.aside_completeLocal _ _ _)
    · exact .refl s

theorem exec_event_aside (s : State) {c : Instr} (event : Instr.isEvent c = true) : s.AsideOutcome (exec c s) := by
  cases c with
  | writeCommand part extra => exact .next (s.aside_exchange _ _ part)
  | readResponse part => exact .next (s.aside_exchange _ _ part)
  | readStatus part => exact .next (s.aside_exchange _ _ part)
  | unknownKindByte kind part => exact exec_unknownKindByte_aside s kind part
  | readAlarms => exact exec_readAlarms_aside s
  | ackAlarms => exact exec_ackAlarms_aside s
  | tickPeriodEnd =>
    refine .next ?_
    split
    · exact .refl s
    · exact (s.aside_setClock _).trans (State.aside_endIfReached _)
  | nextTransaction l => exact .next (State.aside_ite (State.aside_chooseTx l 2 s))
  | roundRestEnd l => exact .next (State.aside_ite (s.aside_modLine l _))
  | dataLeadRecessive l => exact .next (s.aside_modLine l _)
  | dataLeadDominant l => exact .next (s.aside_modLine l _)
  | stuckLine l => exact .next (State.aside_ite (s.aside_enterFault l))
  | collision l => exact .next (s.aside_frameEvent l .sending _ fun t => s.aside_collisionOn l t)
  | headFrameSent l => exact .next (s.aside_frameEvent l .sending _ fun t => s.aside_frameSent l t)
  | idle l body => exact .next (s.aside_receive l _)
  | request l body => exact .next (s.aside_receive l _)
  | confirm l body => exact .next (s.aside_receive l _)
  | decline l body => exact .next (s.aside_receive l _)
  | hold l body => exact .next (s.aside_receive l _)
  | checkError l => exact .next (s.aside_receive l none)
  | replyWindowTimeout l => exact .next (s.aside_frameEvent l .window _ fun t => s.aside_windowTimeout l t)
  | holdOffTimeout l => exact .next (s.aside_frameEvent l .holdOff _ fun t => s.aside_holdOffTimeout l t)
  | orderExhausted l => exact exec_orderExhausted_aside s l
  | arbitrationEnd l id => exact .next (s.aside_frameEvent l .arbitration _ fun t => s.aside_arbitrationOn l t id)
  | joinBody l body => exact exec_joinBody_aside s l body
  | joinBodyTimeout l =>
    refine .next ?_
    split
    · exact s.aside_garbled l _
    · exact .refl s
  | clashSettled l =>
    refine .next ?_
    split
    · exact State.aside_ite (s.aside_garbled l _)
    · exact .refl s
  | idleCheckPass l => exact exec_idleCheckPass_aside s l
  | idleCheckTimeout l => exact .next (State.aside_ite (s.aside_enterFault l))
  | _ => cases event

/-! ### The claims of the line engines as directory work (R21, R22) -/

/-- The row of the table that carries out a claim of a line engine, and the directory work it does before the claim's
completion (log 3). -/
def State.lineRow? (s : State) (l : Line) : LineClaim → Option (Instr × State)
  | .presence st ref => some (.presenceClaim, s.presence l st ref)
  | .miss st ref => some (.missClaim, s.miss l st ref)
  | .join id caps policy => some (.joinClaim, s.joinClaim l id caps policy)
  | .request st ref (.renew ticks) => some (.renew, s.requestClaim l st ref 0x01 (State.renewRequest ref ticks))
  | .request st ref .leave => some (.leave, s.leaveClaim l st ref)
  | .request st ref (.resolve id) =>
    some (.resolve, s.requestClaim l st ref 0x03 fun s _ => (s, s.resolveContent id))
  | .request st ref (.find cls start) =>
    some (.nodeFind, s.requestClaim l st ref 0x04 fun s _ =>
      (s, s.searchContent l start (cls != 0x00 && cls != 0xFF) (Record.matchesClass cls)))
  | .request st ref (.members group start) =>
    some (.members, s.requestClaim l st ref 0x05 fun s _ =>
      (s, s.searchContent l start (decide (group.toNat ≤ 15)) (Record.matchesGroup group.toNat)))
  | .request st ref (.caps entries) =>
    some (.capsRequest, s.requestClaim l st ref 0x06 (State.capsRequest l ref entries))
  | .outcome .assign ref .confirm =>
    some (.assignConfirmed, s.outcomeClaim l .assign ref fun s o r =>
      if r.state = .joining then s.joinConfirmed ref.handle o.joinKind r else s)
  | .outcome .assign ref .decline =>
    some (.assignDeclined, s.outcomeClaim l .assign ref fun s _ r =>
      if r.state = .joining then s.joinDeclined ref.handle r else s)
  | .outcome .assign ref .exhausted =>
    some (.assignExhausted, s.outcomeClaim l .assign ref fun s _ r =>
      if r.state = .joining then s.endRecord ref.handle .joinAbandoned else s)
  | .outcome .reassign ref .confirm => some (.moved, s.moveClaim l ref fun s r t => s.moveDone ref.handle r t)
  | .outcome .reassign ref .decline =>
    some (.moveDeclined, s.moveClaim l ref fun s r t => s.moveBack ref.handle r t .moveDeclined)
  | .outcome .reassign ref (.probed atTarget atOld) =>
    some (.probeOutcome, s.moveClaim l ref fun s r t => s.probeConclusion ref.handle r t atTarget atOld)
  | .outcome .release ref result =>
    some (.releaseOutcome, s.outcomeClaim l .release ref fun s _ r =>
      if r.state = .retiring then s.endRecord ref.handle result.retirement else s)
  | .outcome .answer ref result => some (.answerOutcome, s.answerClaim l ref result)
  | .outcome _ _ _ => none
  | .line => some (.lineClaim, (s.lineWork l).modLine l LineEngine.tryRunning)
  | .flush => some (.flushClaim, (s.flushWork l).modLine l LineEngine.tryRunning)

/-- A row that carries out a claim of a line engine does the directory work of the claim that the engine carries out and
completes it, or nothing; MISS_LIMIT is the work of a miss claim (log 14). -/
theorem exec_lineRow_cases (s : State) {c : Instr} (line : Instr.isLineRow c = true) :
    ∃ t, exec c s = .next t ∧ (t = s ∨ ∃ l claim row u,
      s.lineClaim? = some (l, claim) ∧ s.lineRow? l claim = some (row, u) ∧ t = u.completeLine l) := by
  cases c with
  | missLimit =>
    refine ⟨_, rfl, ?_⟩
    split
    · next claim =>
      split
      · split
        · exact .inr ⟨_, _, _, _, claim, rfl, rfl⟩
        · exact .inl rfl
      · exact .inl rfl
    · exact .inl rfl
  | presenceClaim | missClaim | joinClaim | renew | leave | resolve | nodeFind | members | capsRequest
  | assignConfirmed | assignDeclined | assignExhausted | moved | moveDeclined | probeOutcome | releaseOutcome
  | answerOutcome | lineClaim | flushClaim =>
    refine ⟨_, rfl, ?_⟩
    split
    · next claim => exact .inr ⟨_, _, _, _, claim, rfl, rfl⟩
    · exact .inl rfl
  | _ => cases line

/-- The work of every claim of a line is directory work that keeps the laws; the engine that carries it out reads the miss
limit of its grant (R169). -/
theorem State.keeps_lineRow {s : State} {l : Line} {claim : LineClaim} {c : Instr} {u : State}
    (carried : s.lineClaim? = some (l, claim)) (row : s.lineRow? l claim = some (c, u)) : s.Keeps u := by
  have busy : s.arb.engine.isSome = true := s.engine_of_lineClaim? carried
  cases claim with
  | presence st ref => cases row; exact s.keeps_presence l st ref
  | miss st ref => cases row; exact s.keeps_miss busy l st ref
  | join id caps policy => cases row; exact s.keeps_joinClaim l id caps policy
  | request st ref req =>
    cases req with
    | renew ticks =>
      cases row
      exact s.keeps_requestClaim _ _ _ _ _ fun t r q => t.keeps_renewRequest _ _ r q
    | leave => cases row; exact s.keeps_leaveClaim l st ref
    | resolve id => cases row; exact s.keeps_requestClaim_pure l st ref _ _
    | find cls start => cases row; exact s.keeps_requestClaim_pure l st ref _ _
    | members group start => cases row; exact s.keeps_requestClaim_pure l st ref _ _
    | caps entries => cases row; exact s.keeps_requestClaim _ _ _ _ _ fun t _ _ _ _ => t.keeps_takeCaps _ _ _
  | outcome kind ref result =>
    cases kind with
    | assign =>
      cases result with
      | confirm =>
        cases row
        exact s.keeps_outcomeClaim _ _ _ _ fun t _ r _ current =>
          State.keeps_ite (t.keeps_joinConfirmed _ _ r (State.record?_of_current? current))
      | decline =>
        cases row
        exact s.keeps_outcomeClaim _ _ _ _ fun t _ r _ _ => State.keeps_ite (t.keeps_joinDeclined _ r)
      | exhausted =>
        cases row
        exact s.keeps_outcomeClaim _ _ _ _ fun t _ _ _ _ => State.keeps_ite (t.keeps_endRecord _ _)
      | dropped | probed _ _ => cases row
    | reassign =>
      cases result with
      | confirm => cases row; exact s.keeps_moveClaim l ref _ fun t r x _ found => t.keeps_moveDone _ r x found
      | decline => cases row; exact s.keeps_moveClaim l ref _ fun t r x _ found => t.keeps_moveBack _ r x _ found
      | probed atTarget atOld =>
        cases row
        exact s.keeps_moveClaim l ref _ fun t r x arb found =>
          t.keeps_probeConclusion (by rw [arb]; exact busy) _ r x _ _ found
      | exhausted | dropped => cases row
    | release =>
      cases row
      exact s.keeps_outcomeClaim _ _ _ _ fun t _ _ _ _ => State.keeps_ite (t.keeps_endRecord _ _)
    | answer => cases row; exact s.keeps_answerClaim l ref result
    | refuse => cases row
  | line => cases row; exact (s.keeps_lineWork l).trans (State.keeps_tryRunning _ l)
  | flush => cases row; exact (s.keeps_flushWork l).trans (State.keeps_tryRunning _ l)

/-! ### The bound of the miss counts (R26, R169, R170) -/

/-- A change of the store that keeps its miss limit keeps the bound. -/
theorem State.missLaw_setCfg {s : State} {c : ConfigStore} (same : c.missLimit = s.cfg.missLimit) (law : s.MissLaw) :
    State.MissLaw { s with cfg := c } := by
  refine ⟨fun busy => (law.1 busy).trans same.symm, fun h r found => ?_⟩
  have within := law.2 h r found
  rwa [← same] at within

/-- With no record and the engine idle, the bound holds. -/
theorem State.missLaw_empty {s : State} (idle : s.arb.engine = none) (empty : ∀ h : Handle, s.record? h = none) :
    s.MissLaw := by
  refine ⟨fun busy => ?_, fun h r found => ?_⟩
  · rw [idle] at busy; cases busy
  · rw [empty] at found; cases found

/-- A host command whose work leaves the miss counts within the store's limit completes with the bound: the claim granted
next reads that store. -/
theorem State.missLaw_completeHost {x : State × Reply} (within : x.1.MissesWithin x.1.cfg.missLimit) :
    (State.completeHost x).MissLaw := by
  have aside := State.aside_completeHost x
  refine ⟨State.limitLaw_completeHost x, fun h r found => ?_⟩
  rw [aside.cfg]
  exact within h r (by unfold State.record? State.slot at found; rwa [aside.dir] at found)

theorem State.missesWithin_clampMisses (s : State) (n : Nat) : (s.clampMisses n).MissesWithin n := by
  intro h r found
  have clamped : (s.clampMisses n).slot h = (s.slot h).clampMiss n := by
    show (Vector.map _ s.dir.slots).get h = _
    simp [Vector.get, State.slot]
  rw [clamped] at found
  unfold Slot.clampMiss at found
  split at found
  · cases found
    exact Nat.min_le_right _ _
  · next free => rw [free] at found; cases found

/-- A CONFIGURE writes every item, or is refused and writes none (R170). -/
theorem State.configureStore_cases (s : State) (items : List (Byte × Nat)) :
    (s.configureStore items).1 = s ∧ (s.configureStore items).2.status ≠ .ok
      ∨ ∃ c, s.cfg.writeAll? items = some c ∧ s.configureStore items = ({ s with cfg := c }, ⟨.ok, c.bytes⟩) := by
  unfold State.configureStore
  split
  · exact .inl ⟨rfl, nofun⟩
  · next c written =>
    split
    · exact .inl ⟨rfl, nofun⟩
    · split
      · exact .inl ⟨rfl, nofun⟩
      · exact .inr ⟨c, written, rfl⟩

/-- A CONFIGURE without a miss limit item leaves the bound (R164). -/
theorem State.missLaw_configureStore {s : State} {items : List (Byte × Nat)}
    (unlimited : ∀ x ∈ items, x.1 ≠ 0x04) (law : s.MissLaw) : (s.configureStore items).1.MissLaw := by
  obtain ⟨same, -⟩ | ⟨c, written, stored⟩ := s.configureStore_cases items
  · rwa [same]
  · rw [stored]
    exact State.missLaw_setCfg (ConfigStore.missLimit_writeAll? items _ _ written unlimited) law

/-- A CONFIGURE carried out as a claim clamps every miss count to the limit it writes (R26). -/
theorem State.missesWithin_configureClaim {s : State} (items : List (Byte × Nat)) (law : s.MissLaw) :
    (s.configureClaim items).1.MissesWithin (s.configureClaim items).1.cfg.missLimit := by
  unfold State.configureClaim
  obtain ⟨same, refused⟩ | ⟨c, -, stored⟩ := s.configureStore_cases items
  · dsimp only
    rw [if_neg refused, same]
    exact law.2
  · rw [stored]
    exact State.missesWithin_clampMisses _ _

theorem HostCmd.configure_of_isLocal {items : List (Byte × Nat)} (isLocal : (HostCmd.configure items).isLocal = true) :
    ∀ x ∈ items, x.1 ≠ 0x04 := by
  simpa [HostCmd.isLocal] using isLocal

theorem State.missLaw_runLocal {s : State} {c : HostCmd} (isLocal : c.isLocal = true) (law : s.MissLaw) :
    (s.runLocal c).1.MissLaw := by
  cases c with
  | ackAlarms flags => exact (s.aside_ackAlarms flags).missLaw law
  | configure items => exact State.missLaw_configureStore (HostCmd.configure_of_isLocal isLocal) law
  | _ => exact law

theorem State.missLaw_setCallPolicyCommand {s : State} (line policy : Byte) (law : s.MissLaw) :
    (s.setCallPolicyCommand line policy).1.MissLaw := by
  unfold State.setCallPolicyCommand State.withLine
  split
  · split
    · exact law
    · exact State.missLaw_setCfg rfl law
  · exact law

/-- The work of a host command other than CONFIGURE keeps the bound. -/
theorem State.missLaw_hostRow {s : State} {cmd : HostCmd} {c : Instr} {x : State × Reply}
    (row : s.hostRow? cmd = some (c, x)) (host : Instr.isHostRow c = true) (law : s.MissLaw) : x.1.MissLaw := by
  cases cmd with
  | reserve _ _ _ _ => cases row; exact (s.keeps_reserve _ _ _ _).missLaw law
  | pin _ => cases row; exact (s.keeps_pinCommand _).missLaw law
  | unpin _ => cases row; exact (s.keeps_unpinCommand _).missLaw law
  | retire _ _ => cases row; exact (s.keeps_retireCommand _ _).missLaw law
  | reassign _ _ => cases row; exact (s.keeps_reassignCommand _ _).missLaw law
  | purge _ => cases row; exact (s.keeps_purgeCommand _).missLaw law
  | lookup _ => cases row; exact (s.keeps_lookupCommand _).missLaw law
  | find _ _ _ => cases row; exact (s.keeps_findCommand _ _ _).missLaw law
  | setLease _ _ _ => cases row; exact (s.keeps_setLeaseCommand _ _ _).missLaw law
  | setGroups _ _ => cases row; exact (s.keeps_setGroupsCommand _ _).missLaw law
  | setGroupLimit _ _ => cases row; exact (s.keeps_setGroupLimitCommand _ _).missLaw law
  | setTag _ _ => cases row; exact (s.keeps_setTagCommand _ _).missLaw law
  | nextChange => cases row; exact s.keeps_nextChangeCommand.missLaw law
  | ackChange _ _ => cases row; exact (s.keeps_ackChangeCommand _ _).missLaw law
  | lineStart _ _ => cases row; exact (s.aside_lineStartCommand _ _).missLaw law
  | lineStop _ => cases row; exact (s.aside_lineStopCommand _).missLaw law
  | linePause _ => cases row; exact (s.aside_linePauseCommand _).missLaw law
  | lineResume _ => cases row; exact (s.aside_lineResumeCommand _).missLaw law
  | setCallPolicy _ _ => cases row; exact State.missLaw_setCallPolicyCommand _ _ law
  | clearExclusion _ _ _ => cases row; exact (s.aside_clearExclusionCommand _ _ _).missLaw law
  | lineStatus _ => cases row; exact (s.aside_withLine _ _ fun _ => .refl s).missLaw law
  | clearCounters _ => cases row; exact (s.aside_clearCountersCommand _).missLaw law
  | configure _ => cases row; cases host
  | status => cases row; exact law
  | readAlarms => cases row
  | ackAlarms _ => cases row
  | resetDevice => cases row

theorem exec_hostRow_missLaw (s : State) {c : Instr} (host : Instr.isHostRow c = true) :
    s.OutcomeKeeps State.MissLaw (exec c s) := by
  obtain ⟨t, runs, rfl | ⟨cmd, x, -, row, rfl⟩⟩ := exec_hostRow_cases s host
  · exact ⟨t, runs, id⟩
  · exact ⟨_, runs, fun law => (State.aside_completeHost x).missLaw (State.missLaw_hostRow row host law)⟩

theorem exec_lineRow_missLaw (s : State) {c : Instr} (line : Instr.isLineRow c = true) :
    s.OutcomeKeeps State.MissLaw (exec c s) := by
  obtain ⟨t, runs, rfl | ⟨l, claim, row, u, carried, works, rfl⟩⟩ := exec_lineRow_cases s line
  · exact ⟨t, runs, id⟩
  · exact ⟨_, runs, fun law => (u.aside_completeLine l).missLaw ((State.keeps_lineRow carried works).missLaw law)⟩

theorem exec_event_missLaw (s : State) {c : Instr} (event : Instr.isEvent c = true) :
    s.OutcomeKeeps State.MissLaw (exec c s) := by
  obtain ⟨t, runs, aside⟩ := exec_event_aside s event
  exact ⟨t, runs, aside.missLaw⟩

theorem exec_commandBegin_missLaw (s : State) : s.OutcomeKeeps State.MissLaw (exec .commandBegin s) := by
  refine ⟨_, rfl, fun law => ?_⟩
  split
  · exact law
  · next i f _ =>
    split
    · exact (s.aside_modHost _).missLaw law
    · next c _ =>
      split
      · next isLocal =>
        exact (State.aside_completeLocal (s.runLocal c) i f.tag).missLaw (State.missLaw_runLocal isLocal law)
      · exact (s.aside_beginClaim i f).missLaw law

/-- CONFIGURE writes the miss limit only as a claim, which clamps the miss counts to it (R26, R164). -/
theorem exec_configure_missLaw (s : State) : s.OutcomeKeeps State.MissLaw (exec .configure s) := by
  refine ⟨_, rfl, fun law => ?_⟩
  split
  · exact State.missLaw_completeHost (State.missesWithin_configureClaim _ law)
  · split
    · exact law
    · next i f _ =>
      split
      · next items _ =>
        split
        · next isLocal =>
          exact (State.aside_completeLocal (s.configureStore items) i f.tag).missLaw
            (State.missLaw_configureStore (HostCmd.configure_of_isLocal isLocal) law)
        · exact law
      · exact law

theorem State.missLaw_powerOn (s : State) (rst : Bool) : (s.powerOn rst).MissLaw :=
  State.missLaw_empty rfl (s.record?_powerOn rst)

theorem exec_resetDevice_missLaw (s : State) : s.OutcomeKeeps State.MissLaw (exec .resetDevice s) := by
  refine ⟨_, rfl, fun law => ?_⟩
  split
  · next i _ _ _ =>
    refine State.missLaw_completeHost fun h r found => ?_
    cases (s.record?_softReset i h).symm.trans found
  · exact law

theorem exec_missLaw (c : Instr) (s : State) : s.OutcomeKeeps State.MissLaw (exec c s) := by
  cases c with
  | reserve | pin | unpin | retire | reassign | purge | lookup | find | setLease | setGroups | setGroupLimit
  | setTag | nextChange | ackChange | lineStart | lineStop | linePause | lineResume | setCallPolicy
  | clearExclusion | lineStatus | clearCounters | status => exact exec_hostRow_missLaw s rfl
  | presenceClaim | missClaim | missLimit | joinClaim | renew | leave | resolve | nodeFind | members | capsRequest
  | assignConfirmed | assignDeclined | assignExhausted | moved | moveDeclined | probeOutcome | releaseOutcome
  | answerOutcome | lineClaim | flushClaim => exact exec_lineRow_missLaw s rfl
  | rstAsserted => exact ⟨_, rfl, fun _ => s.missLaw_powerOn true⟩
  | rstReleased scsLow =>
    refine ⟨_, rfl, fun law => ?_⟩
    split
    · exact (State.aside_modHost _ _).missLaw (s.missLaw_powerOn false)
    · exact law
  | commandBegin => exact exec_commandBegin_missLaw s
  | configure => exact exec_configure_missLaw s
  | resetDevice => exact exec_resetDevice_missLaw s
  | leaseTick =>
    refine ⟨_, rfl, fun law => ?_⟩
    split
    · exact (State.aside_completeClock _).missLaw ((s.keeps_leaseStage.trans (State.keeps_quarStage _)).missLaw law)
    · exact law
  | lapse h =>
    refine ⟨_, rfl, fun law => ?_⟩
    split
    · exact (State.keeps_ite (s.keeps_lapseRecord h)).missLaw law
    · exact law
  | quarantineExpiry l st =>
    refine ⟨_, rfl, fun law => ?_⟩
    split
    · exact ((s.keeps_setQuar l _).trans (State.keeps_expireEntry _ l _)).missLaw law
    · exact law
  | _ => exact exec_event_missLaw s rfl

/-! ### The ranges -/

theorem State.Safe.exclusionLaw {s t : State} (kept : s.Safe t) (law : s.ExclusionLaw) : t.ExclusionLaw :=
  fun l => (kept.lines l).exclusions (law l)

theorem State.Safe.counterLaw {s t : State} (kept : s.Safe t) (law : s.CounterLaw) : t.CounterLaw := by
  obtain ⟨setFull, staleRef, counters⟩ := law
  obtain ⟨full, stale⟩ := kept.counts ⟨setFull, staleRef⟩
  exact ⟨full, stale, fun l => (kept.lines l).counters (counters l)⟩

/-- Settles O56: the leases, the counters, the store and the exclusion lists as laws of `State.Safe`; the miss counts by
the directory work of each command, with the limit that its claim reads and the clamp of CONFIGURE. -/
theorem rangesAreKept : Obligations.RangesAreKept := by
  refine ⟨keptByStep_of_safe (fun _ _ law => law) fun s t kept law => ?_,
    keptByStep_of_exec (fun _ _ law => law) (fun s => s.aside_passTime.missLaw) exec_missLaw⟩
  obtain ⟨lease, counter, config, exclusion⟩ := law
  exact ⟨kept.leases lease, kept.counterLaw counter, kept.config config, kept.exclusionLaw exclusion⟩

end Sys2Proof.Machine
end

section
/-! Leases and quarantine: the tick period, the lapse of a record, the expiry of an entry, and the tick sweep that does
both. -/

namespace Sys2Proof.Machine

/-! ### The tick period (R49 to R51) -/

/-- The state in which a tick period has ended: the next period begins, and the tick claim is raised or a tick due is counted
(R49 to R51). -/
def State.periodEnded (s : State) : State := ({ s with clock := s.clock.endPeriod s.cfg }).grant

theorem satInc_eq (cap n : Nat) : satInc cap n = min cap (n + 1) := by
  unfold satInc
  split <;> omega

theorem LeaseClock.endPeriod_eq (c : LeaseClock) (cfg : ConfigStore) : c.endPeriod cfg =
    { period := cfg.tickPeriod, divider := 0
      ticksDue := if c.claim then min 255 (c.ticksDue + 1) else c.ticksDue, claim := true } := by
  unfold LeaseClock.endPeriod
  split <;> simp [satInc_eq]

/-- Nothing of the next period depends on where the divider of the last one stood. -/
theorem State.endIfReached_of_reached (s : State) {n : Nat} (reached : s.clock.period.ms ≤ n) :
    State.endIfReached { s with clock := { s.clock with divider := n } } = s.periodEnded := if_pos reached

theorem State.endIfReached_of_before (s : State) {n : Nat} (before : n < s.clock.period.ms) :
    State.endIfReached { s with clock := { s.clock with divider := n } }
      = { s with clock := { s.clock with divider := n } } := if_neg (Nat.not_le.mpr before)

theorem exec_tickPeriodEnd (s : State) : exec .tickPeriodEnd s = .next (if s.rst then s else s.periodEnded) :=
  congrArg (fun t => Host.Outcome.next (if s.rst then s else t)) (s.endIfReached_of_reached (Nat.le_refl _))

theorem step_of_no_command {s : State} (empty : s.pending = []) : step s = .next s.passTime := by
  rw [step, empty]

/-- Settles O28, by whether RST is asserted and whether the divider reaches the tick period. -/
theorem tickPeriodEndRaisesOrCounts : Obligations.TickPeriodEndRaisesOrCounts := by
  intro s
  refine ⟨fun asserted => ⟨?_, fun empty => ?_⟩, fun released => ?_⟩
  · rw [exec_tickPeriodEnd, if_pos asserted]
  · rw [step_of_no_command empty, State.passTime, if_pos asserted]
  · have running : ¬ s.rst = true := by simp [released]
    rw [← LeaseClock.endPeriod_eq s.clock s.cfg]
    refine ⟨?_, fun empty reached => ?_, fun empty before => ?_⟩
    · rw [exec_tickPeriodEnd, if_neg running]; rfl
    · rw [step_of_no_command empty, State.passTime, if_neg running, s.endIfReached_of_reached reached]; rfl
    · rw [step_of_no_command empty, State.passTime, if_neg running, s.endIfReached_of_before before]

/-! ### What a lapse does to the maps, the lists and the record's orders (R53 to R55) -/

/-- The entry that the abandoned move of a lapsing record makes: its target, without a reference, where the REASSIGN was
sent (R31, R55). -/
def State.moveEntries (s : State) (h : Handle) (r : Record) : List QuarEntry :=
  match r.state with
  | .moving x => if s.moveSent h then [⟨x, s.arb.grantCfg.quarHold, none⟩] else []
  | _ => []

/-- The entry of a lapsing record's own station, with a reference to it, where it is not pinned (R53). -/
def State.stationEntries (s : State) (h : Handle) (r : Record) : List QuarEntry :=
  if r.pinned then [] else [⟨r.station, s.arb.grantCfg.quarHold, some (s.refOf h)⟩]

/-- A map entry, found as `m`, after the lapse of a record (R53, R55). -/
def State.mapAfterLapse (s : State) (h : Handle) (r : Record) (l : Line) (st : Station) (m : MapEntry) : MapEntry :=
  if l = r.line ∧ st = r.station ∧ r.pinned = false then .quarantined
  else if l = r.line ∧ r.state = .moving st then (if s.moveSent h then .quarantined else .free)
  else m

theorem State.quarOf_abandonMove (s : State) (h : Handle) (l k : Line) (x : Station) :
    (s.abandonMove h l x).quarOf k = s.quarOf k ++
      if k = l ∧ s.moveSent h = true then [⟨x, s.arb.grantCfg.quarHold, none⟩] else [] := by
  obtain ⟨e, -, abandoned⟩ := s.abandonMove_eq h l x
  rw [abandoned]
  by_cases own : k = l
  · subst own
    split <;> simp_all [State.quarOf_quarantine]
  · split <;> simp [State.quarOf_quarantine, own]

theorem State.mapAt_abandonMove (s : State) (h : Handle) (l k : Line) (x y : Station) :
    (s.abandonMove h l x).mapAt k y =
      if k = l ∧ y = x then (if s.moveSent h then .quarantined else .free) else s.mapAt k y := by
  obtain ⟨e, -, abandoned⟩ := s.abandonMove_eq h l x
  rw [abandoned]
  split <;> simp [State.mapAt_quarantine, State.mapAt_setMap]

/-- A lapse appends to the record's list what its abandoned move and its own station enter, in that order. -/
theorem State.quarOf_lapseRecord {s : State} {h : Handle} {r : Record} (found : s.record? h = some r) (k : Line) :
    (s.lapseRecord h).quarOf k =
      s.quarOf k ++ if k = r.line then s.moveEntries h r ++ s.stationEntries h r else [] := by
  obtain ⟨s1, e, move, -, lapse⟩ := s.lapseRecord_eq h r found
  have moved : s1.arb = s.arb ∧ s1.quarOf k = s.quarOf k ++ if k = r.line then s.moveEntries h r else [] := by
    obtain ⟨x, moving, rfl⟩ | ⟨still, rfl⟩ := move
    · refine ⟨s.arb_abandonMove .., ?_⟩
      simp only [State.quarOf_abandonMove, State.moveEntries, moving]
      split <;> simp_all
    · refine ⟨rfl, ?_⟩
      unfold State.moveEntries
      split <;> simp_all
  obtain ⟨arb, quar⟩ := moved
  have own : ((if r.pinned then s1 else s1.quarantine r.line r.station (some (s.refOf h))).setLine r.line e).quarOf k
      = s1.quarOf k ++ if k = r.line then s.stationEntries h r else [] := by
    unfold State.stationEntries
    by_cases same : k = r.line
    · subst same
      split <;> simp [State.quarOf_quarantine, arb]
    · split <;> simp [State.quarOf_quarantine, same]
  rw [lapse, State.quarOf_mark, State.quarOf_setRecord, own, quar, List.append_assoc]
  split <;> simp

/-- A lapse changes the map at the record's station and at its target alone. -/
theorem State.mapAt_lapseRecord {s : State} {h : Handle} {r : Record} (found : s.record? h = some r) (k : Line)
    (y : Station) : (s.lapseRecord h).mapAt k y = s.mapAfterLapse h r k y (s.mapAt k y) := by
  obtain ⟨s1, e, move, -, lapse⟩ := s.lapseRecord_eq h r found
  have moved : s1.mapAt k y = if k = r.line ∧ r.state = .moving y
      then (if s.moveSent h then .quarantined else .free) else s.mapAt k y := by
    obtain ⟨x, moving, rfl⟩ | ⟨still, rfl⟩ := move
    · simp only [State.mapAt_abandonMove, moving, RecState.moving.injEq, eq_comm]
    · rw [if_neg fun ⟨_, moving⟩ => still y moving]
  rw [lapse, State.mapAt_mark, State.mapAt_setRecord, State.mapAt_setLine, State.mapAfterLapse, ← moved]
  cases r.pinned <;> simp [State.mapAt_quarantine]

theorem State.mapAfterLapse_of_ne (s : State) {h : Handle} {r : Record} {l : Line} {st : Station} (m : MapEntry)
    (own : l = r.line → st ≠ r.station) (target : l = r.line → r.state ≠ .moving st) :
    s.mapAfterLapse h r l st m = m := by
  rw [State.mapAfterLapse, if_neg fun ⟨line, station, _⟩ => own line station,
    if_neg fun ⟨line, moving⟩ => target line moving]

theorem Record.afterLapse_eq (r : Record) : r.afterLapse = if r.pinned then r.returned .lapsed else r.lapsed := rfl

/-- A withdrawal makes no order live. -/
theorem LineEngine.liveOrder?_withdraw_of_none {e : LineEngine} {k : OrderKind} {ref : Ref}
    (absent : e.liveOrder? k ref = none) (j : OrderKind) (other : Ref) : (e.withdraw j other).liveOrder? k ref = none := by
  unfold LineEngine.liveOrder? LineEngine.withdraw at *
  rw [List.find?_eq_none] at absent ⊢
  intro o left
  obtain ⟨o', queued, kept⟩ := List.mem_filterMap.mp left
  split at kept
  · split at kept
    · cases kept; simp [Order.isLive]
    · cases kept
  · cases kept; exact absent o queued

/-- A property of a line engine that withdrawals and releases of polls keep is kept as a record ends. -/
theorem LineEngine.without_keeps {P : LineEngine → Prop} (withdraw : ∀ e k ref, P e → P (LineEngine.withdraw k ref e))
    (release : ∀ e ref, P e → P (LineEngine.releasePolls ref e)) {e : LineEngine} (holds : P e) (ref : Ref) (r : Record) :
    P (e.without ref r) := by
  have pending (d : LineEngine) (holds : P d) : P (if r.requestPending then d.withdraw .answer ref else d) := by
    split
    · exact withdraw _ _ _ holds
    · exact holds
  unfold LineEngine.without
  rw [LineEngine.unrequested_eq]
  refine release _ _ (pending _ ?_)
  split
  · exact withdraw _ _ _ holds
  · exact withdraw _ _ _ holds
  · exact withdraw _ _ _ holds
  · exact holds

theorem LineEngine.liveOrder?_without_of_none {e : LineEngine} {k : OrderKind} {ref : Ref}
    (absent : e.liveOrder? k ref = none) (other : Ref) (r : Record) : (e.without other r).liveOrder? k ref = none :=
  LineEngine.without_keeps (P := fun e => e.liveOrder? k ref = none)
    (fun _ j other absent => LineEngine.liveOrder?_withdraw_of_none absent j other) (fun _ _ absent => absent) absent
    other r

theorem LineEngine.noReassign_without (e : LineEngine) (ref : Ref) {r : Record} {x : Station}
    (moving : r.state = .moving x) : (e.without ref r).liveOrder? .reassign ref = none := by
  rw [← LineEngine.without_abandoned e ref moving]
  exact LineEngine.liveOrder?_without_of_none (LineEngine.liveOrder?_withdraw ..) _ _

/-! ### What the expiry of an entry does (R61, R62) -/

/-- A slot as the expiry of an entry that references its record leaves it: the record is freed, with FREED marked (R62); a
FREE slot stays. -/
def Slot.expired (x : Slot) : Slot :=
  match x.content with
  | some r =>
    { content := none, gen := x.gen + 1, lastIdentity := some r.identity, keptOutcome := some r.outcome
      mask := x.mask ||| (ChangeMask.freed ||| 0) }
  | none => x

theorem Slot.expired_of_free {x : Slot} (free : x.content = none) : x.expired = x := by
  rw [Slot.expired, free]

@[simp] theorem Slot.content_expired (x : Slot) : x.expired.content = none := by
  cases found : x.content with
  | none => rw [Slot.expired_of_free found, found]
  | some r => simp [Slot.expired, found]

theorem Slot.freedFrom_expired {x : Slot} {r : Record} (found : x.content = some r) :
    x.expired.FreedFrom x r r.outcome 0 := by
  simp [Slot.expired, found, Slot.FreedFrom]

/-- The freeing of a record by a marked change, no further aspect marked, leaves its slot as an expiry does. -/
theorem State.slot_freeMarked_self {s : State} {h : Handle} {r : Record} (found : s.record? h = some r) :
    (s.freeMarked h 0).slot h = (s.slot h).expired := by
  have content : (s.slot h).content = some r := found
  rw [State.slot_freeMarked _ _ _ _ r found, if_pos rfl, Slot.expired, content]

theorem State.expireEntry_of_current {s : State} (l : Line) {q : QuarEntry} {ref : Ref} {r : Record}
    (named : q.ref = some ref) (found : s.current? ref = some r) :
    s.expireEntry l q = (s.setMap l q.station .free).freeMarked ref.handle 0 := by
  simp [State.expireEntry, named, found]

/-- An entry that names no current record frees none; one that names a current record frees it (R62). -/
theorem State.expireEntry_cases (s : State) (l : Line) (q : QuarEntry) :
    (∃ ref r, q.ref = some ref ∧ s.current? ref = some r
        ∧ s.expireEntry l q = (s.setMap l q.station .free).freeMarked ref.handle 0)
      ∨ (∀ ref, q.ref = some ref → s.current? ref = none) ∧ s.expireEntry l q = s.setMap l q.station .free := by
  cases named : q.ref with
  | none => exact .inr ⟨nofun, by rw [State.expireEntry, named]⟩
  | some ref =>
    cases found : s.current? ref with
    | none => exact .inr ⟨fun _ same => by cases same; exact found, by simp [State.expireEntry, named, found]⟩
    | some r => exact .inl ⟨ref, r, rfl, found, State.expireEntry_of_current l named found⟩

theorem State.slot_expireEntry (s : State) (l : Line) (q : QuarEntry) (h : Handle) :
    (s.expireEntry l q).slot h = if q.ref = some (s.refOf h) then (s.slot h).expired else s.slot h := by
  obtain ⟨ref, r, named, found, expired⟩ | ⟨stale, expired⟩ := s.expireEntry_cases l q
  · obtain ⟨gen, content⟩ := State.current?_eq_some.mp found
    have names : q.ref = some (s.refOf h) ↔ h = ref.handle := by
      rw [named, ← State.refOf_of_current? found, Option.some_inj]
      exact ⟨fun same => (congrArg Ref.handle same).symm, fun same => by rw [same]; rfl⟩
    rw [expired]
    by_cases own : h = ref.handle
    · subst own
      rw [if_pos (names.mpr rfl)]
      exact State.slot_freeMarked_self (s := s.setMap l q.station .free) content
    · rw [if_neg (own ∘ names.mp), State.slot_freeMarked_of_ne _ _ own]; rfl
  · rw [expired, State.slot_setMap]
    split
    · next named =>
      have free : s.record? h = none := by simpa [State.current?, State.refOf] using stale _ named
      rw [Slot.expired_of_free free]
    · rfl

theorem State.mapAt_expireEntry (s : State) (l k : Line) (q : QuarEntry) (st : Station) :
    (s.expireEntry l q).mapAt k st = if k = l ∧ st = q.station then .free else s.mapAt k st := by
  rw [← State.mapAt_setMap]
  obtain ⟨ref, r, -, -, expired⟩ | ⟨-, expired⟩ := s.expireEntry_cases l q
  · rw [expired]
    simp [State.mapAt]
  · rw [expired]

@[simp] theorem State.quarOf_expireEntry (s : State) (l k : Line) (q : QuarEntry) :
    (s.expireEntry l q).quarOf k = s.quarOf k := by
  obtain ⟨ref, r, -, -, expired⟩ | ⟨-, expired⟩ := s.expireEntry_cases l q
  · rw [expired]
    simp [State.quarOf]
  · rw [expired]
    simp

/-- FREED makes an empty mask not empty, so a freeing by a marked change leaves a notice (R43, R185). -/
theorem State.changeSet_freeMarked {s : State} {h : Handle} {r : Record} (found : s.record? h = some r) :
    (s.freeMarked h 0).dir.changeSet =
      if (s.slot h).mask = 0 then s.dir.changeSet ++ [h] else s.dir.changeSet := by
  obtain ⟨e, -, freed, -⟩ := s.freeMarked_eq h 0 r found
  have marks : ChangeMask.freed ||| 0 ≠ 0 := by decide
  rw [freed, State.markFreed]
  obtain ⟨empty, -, changes, -⟩ | ⟨pending, changes, -⟩ := State.mark_cases
    (((s.setLine r.line e).emptySlot h r).setSlot h
      { ((s.setLine r.line e).emptySlot h r).slot h with keptOutcome := some r.outcome }) h (ChangeMask.freed ||| 0)
  · rw [changes, if_pos (by simpa [State.slot_emptySlot] using empty)]; rfl
  · rw [changes, if_neg fun empty => pending ⟨by simpa [State.slot_emptySlot] using empty, marks⟩]; rfl

/-! ### LAPSE and QUARANTINE_EXPIRY as commands (log 14) -/

theorem exec_lapse {s : State} {h : Handle} {r : Record} (found : s.record? h = some r) (runs : r.state.leaseRuns = true)
    (spent : r.leaseRemaining = 0) : exec (.lapse h) s = .next (s.lapseRecord h) := by
  show execLapse h s = _
  simp [execLapse, found, runs, spent]

theorem exec_quarantineExpiry {s : State} {l : Line} {q : QuarEntry} {rest : List QuarEntry}
    (list : s.quarOf l = q :: rest) (spent : q.hold = 0) :
    exec (.quarantineExpiry l q.station) s = .next ((s.setQuar l rest).expireEntry l q) := by
  show execQuarantineExpiry l q.station s = _
  simp [execQuarantineExpiry, list, spent]

/-- What the lapse of the record of a slot does to the slot, to the record's station and to its line, where its abandoned
move leaves the list of the line as given. -/
def State.LapsesTo (s : State) (h : Handle) (r : Record) (t : State) (list : List QuarEntry) : Prop :=
  (t.slot h).mask = (s.slot h).mask ||| (ChangeMask.state ||| ChangeMask.outcome)
    ∧ (t.slot h).gen = (s.slot h).gen ∧ (∀ h' : Handle, h' ≠ h → t.slot h' = s.slot h')
    ∧ (r.pinned = false → t.record? h = some r.lapsed ∧ t.mapAt r.line r.station = .quarantined
      ∧ t.quarOf r.line = list ++ [⟨r.station, s.arb.grantCfg.quarHold, some (s.refOf h)⟩])
    ∧ (r.pinned = true → t.record? h = some (r.returned .lapsed)
      ∧ t.mapAt r.line r.station = s.mapAt r.line r.station ∧ t.quarOf r.line = list)
    ∧ t.quarOf (otherLine r.line) = s.quarOf (otherLine r.line)
    ∧ t.line r.line = (s.line r.line).without (s.refOf h) r
    ∧ t.line (otherLine r.line) = s.line (otherLine r.line) ∧ t.cfg = s.cfg ∧ t.arb = s.arb

theorem State.lapsesTo_lapseRecord {s : State} {h : Handle} {r : Record} (found : s.record? h = some r)
    (runs : r.state.leaseRuns = true) (apart : r.state ≠ .moving r.station) :
    s.LapsesTo h r (s.lapseRecord h) (s.quarOf r.line ++ s.moveEntries h r) := by
  have slot := fun k => s.slot_lapseRecord h k r found
  have quar := fun k => State.quarOf_lapseRecord found k
  have line := fun k => s.line_lapseRecord found runs k
  refine ⟨by simp [slot], by simp [slot], fun k ne => by simp [slot, ne], fun unpinned => ?_, fun pinned => ?_,
    by simp [quar], by simp [line], by simp [line], s.cfg_lapseRecord h, s.arb_lapseRecord h⟩
  · refine ⟨by simp [State.record?, slot, Record.afterLapse_eq, unpinned], ?_, ?_⟩
    · simp [State.mapAt_lapseRecord found, State.mapAfterLapse, unpinned]
    · simp [quar, State.stationEntries, unpinned]
  · refine ⟨by simp [State.record?, slot, Record.afterLapse_eq, pinned], ?_, ?_⟩
    · simp [State.mapAt_lapseRecord found, State.mapAfterLapse, pinned, apart]
    · simp [quar, State.stationEntries, pinned]

/-- Settles O30, from what a lapse and an expiry do to each slot, map entry, list and line engine. -/
theorem lapseAndExpiry : Obligations.LapseAndExpiry := by
  refine ⟨fun s h r found spent => ⟨fun still => ?_, fun x moving apart => ?_⟩, fun s l q rest list spent => ?_⟩
  · have runs : r.state.leaseRuns = true := by obtain bound | quiet := still <;> simp [*, RecState.leaseRuns]
    have stays : ∀ x, r.state ≠ .moving x := by obtain bound | quiet := still <;> simp [*]
    have entries : s.moveEntries h r = [] := by obtain bound | quiet := still <;> simp [*, State.moveEntries]
    have lapses := State.lapsesTo_lapseRecord found runs (stays _)
    rw [entries, List.append_nil] at lapses
    refine ⟨_, exec_lapse found runs spent, lapses, fun k st elsewhere => ?_⟩
    rw [State.mapAt_lapseRecord found, State.mapAfterLapse_of_ne _ _ ?_ fun _ => stays _]
    rintro rfl rfl
    exact elsewhere rfl
  · have runs : r.state.leaseRuns = true := by simp [moving, RecState.leaseRuns]
    have entries : s.quarOf r.line ++ s.moveEntries h r = if s.moveSent h
        then s.quarOf r.line ++ [⟨x, s.arb.grantCfg.quarHold, none⟩] else s.quarOf r.line := by
      simp only [State.moveEntries, moving]
      split <;> simp
    have lapses := State.lapsesTo_lapseRecord found runs (by simpa [moving] using apart)
    rw [entries] at lapses
    refine ⟨_, exec_lapse found runs spent, lapses, ?_, ?_, fun k st noStation noTarget => ?_⟩
    · simp [State.mapAt_lapseRecord found, State.mapAfterLapse, moving, apart]
    · rw [State.line_lapseRecord s found runs, if_pos rfl]
      exact LineEngine.noReassign_without _ _ moving
    · rw [State.mapAt_lapseRecord found, State.mapAfterLapse_of_ne]
      · rintro rfl rfl; exact noStation rfl
      · rw [moving]; rintro rfl same; cases same; exact noTarget rfl
  · refine ⟨_, exec_quarantineExpiry list spent, by simp, by simp, by simp [State.mapAt_expireEntry], ?_, ?_, ?_⟩
    · intro k st elsewhere
      rw [State.mapAt_expireEntry, if_neg (by rintro ⟨rfl, rfl⟩; exact elsewhere rfl), State.mapAt_setQuar]
    · intro unnamed
      have expired : (s.setQuar l rest).expireEntry l q = (s.setQuar l rest).setMap l q.station .free := by
        rw [State.expireEntry, unnamed]
      rw [expired]
      exact ⟨rfl, rfl, rfl, rfl⟩
    · intro ref r named found lapsed
      have content : s.record? ref.handle = some r := State.record?_of_current? found
      have expired : (s.setQuar l rest).expireEntry l q
          = ((s.setQuar l rest).setMap l q.station .free).freeMarked ref.handle 0 :=
        State.expireEntry_of_current l named found
      rw [expired]
      refine ⟨?_, fun h other => State.slot_freeMarked_of_ne _ _ other, State.changeSet_freeMarked content⟩
      have freed := State.slot_freeMarked_self (s := (s.setQuar l rest).setMap l q.station .free) content
      rw [freed]
      exact Slot.freedFrom_expired content

/-! ### The quarantine stage (R61, R62) -/

@[simp] theorem Slot.expired_expired (x : Slot) : x.expired.expired = x.expired :=
  Slot.expired_of_free x.content_expired

theorem State.refOf_congr {s t : State} {h : Handle} (same : t.slot h = s.slot h) : t.refOf h = s.refOf h := by
  rw [State.refOf, same, State.refOf]

/-- The entries of a line's list that the quarantine stage brings to 0, with their holds at 0. -/
def State.expiring (s : State) (l : Line) : List QuarEntry := ((s.quarOf l).map QuarEntry.age).filter fun q => q.hold == 0

theorem State.quarStageOf_eq (s : State) (l : Line) : s.quarStageOf l =
    (s.expiring l).foldl (fun s q => s.expireEntry l q)
      (s.setQuar l (((s.quarOf l).map QuarEntry.age).filter fun q => q.hold != 0)) := rfl

theorem State.exists_expiring (s : State) (l : Line) (P : Station → Option Ref → Prop) :
    (∃ q ∈ s.expiring l, P q.station q.ref) ↔ ∃ q ∈ s.quarOf l, P q.station q.ref ∧ q.hold ≤ 1 := by
  simp only [State.expiring, List.mem_filter, List.mem_map, beq_iff_eq]
  constructor
  · rintro ⟨_, ⟨⟨q, listed, rfl⟩, spent⟩, holds⟩
    exact ⟨q, listed, holds, Nat.sub_eq_zero_iff_le.mp spent⟩
  · rintro ⟨q, listed, holds, last⟩
    exact ⟨q.age, ⟨⟨q, listed, rfl⟩, Nat.sub_eq_zero_iff_le.mpr last⟩, holds⟩

/-- A record that several entries reference is freed by the first; the others find its slot FREE. -/
theorem State.slot_expireEntries (l : Line) (h : Handle) : ∀ (qs : List QuarEntry) (s : State),
    (qs.foldl (fun s q => s.expireEntry l q) s).slot h =
      if ∃ q ∈ qs, q.ref = some (s.refOf h) then (s.slot h).expired else s.slot h
  | [], s => by simp
  | q :: qs, s => by
    rw [List.foldl_cons, State.slot_expireEntries l h qs]
    have slot := s.slot_expireEntry l q h
    by_cases named : q.ref = some (s.refOf h)
    · rw [if_pos named] at slot
      rw [slot, Slot.expired_expired, ite_self, if_pos ⟨q, by simp, named⟩]
    · rw [if_neg named] at slot
      rw [State.refOf_congr slot, slot]
      simp [named]

theorem State.mapAt_expireEntries (l k : Line) (st : Station) : ∀ (qs : List QuarEntry) (s : State),
    (qs.foldl (fun s q => s.expireEntry l q) s).mapAt k st =
      if k = l ∧ ∃ q ∈ qs, q.station = st then .free else s.mapAt k st
  | [], s => by simp
  | q :: qs, s => by
    rw [List.foldl_cons, State.mapAt_expireEntries l k st qs, State.mapAt_expireEntry]
    by_cases line : k = l <;> by_cases station : st = q.station <;> simp [line, station, eq_comm]

theorem State.quarOf_expireEntries (l k : Line) (qs : List QuarEntry) (s : State) :
    (qs.foldl (fun s q => s.expireEntry l q) s).quarOf k = s.quarOf k :=
  List.foldlRecOn qs _ (motive := fun t : State => t.quarOf k = s.quarOf k) rfl fun t same q _ => by
    rw [State.quarOf_expireEntry, same]

theorem State.slot_quarStageOf (s : State) (l : Line) (h : Handle) : (s.quarStageOf l).slot h =
    if ∃ q ∈ s.quarOf l, q.ref = some (s.refOf h) ∧ q.hold ≤ 1 then (s.slot h).expired else s.slot h := by
  rw [State.quarStageOf_eq, State.slot_expireEntries]
  simp only [State.refOf_setQuar, State.slot_setQuar, s.exists_expiring l fun _ ref => ref = some (s.refOf h)]

theorem State.mapAt_quarStageOf (s : State) (l k : Line) (st : Station) : (s.quarStageOf l).mapAt k st =
    if k = l ∧ ∃ q ∈ s.quarOf l, q.station = st ∧ q.hold ≤ 1 then .free else s.mapAt k st := by
  rw [State.quarStageOf_eq, State.mapAt_expireEntries]
  simp only [State.mapAt_setQuar, s.exists_expiring l fun station _ => station = st]

theorem State.quarOf_quarStageOf (s : State) (l k : Line) : (s.quarStageOf l).quarOf k =
    if k = l then ((s.quarOf l).filter fun q => decide (2 ≤ q.hold)).map QuarEntry.age else s.quarOf k := by
  have stays : ((fun q : QuarEntry => q.hold != 0) ∘ QuarEntry.age) = fun q => decide (2 ≤ q.hold) := by
    funext q
    rw [Bool.eq_iff_iff]
    simp only [Function.comp_apply, QuarEntry.age, bne_iff_ne, decide_eq_true_eq]
    omega
  rw [State.quarStageOf_eq, State.quarOf_expireEntries, State.quarOf_setQuar, List.filter_map, stays]

/-- A slot whose record no entry at its last tick references stays. -/
theorem State.slot_quarStage_of_unnamed {s : State} {h : Handle}
    (unnamed : ∀ (l : Line), ∀ q ∈ s.quarOf l, q.hold ≤ 1 → q.ref ≠ some (s.refOf h)) : s.quarStage.slot h = s.slot h := by
  have first : (s.quarStageOf .A).slot h = s.slot h := by
    rw [State.slot_quarStageOf, if_neg]
    rintro ⟨q, listed, named, last⟩
    exact unnamed _ q listed last named
  rw [State.quarStage, State.slot_quarStageOf, State.quarOf_quarStageOf, State.refOf_congr first, first, if_neg]
  rintro ⟨q, listed, named, last⟩
  exact unnamed .B q listed last named

/-- A record that an entry at its last tick references, on either line, is freed once. -/
theorem State.slot_quarStage_of_named {s : State} {h : Handle} {l : Line} {q : QuarEntry} (listed : q ∈ s.quarOf l)
    (last : q.hold ≤ 1) (named : q.ref = some (s.refOf h)) : s.quarStage.slot h = (s.slot h).expired := by
  have first := s.slot_quarStageOf .A h
  rw [State.quarStage, State.slot_quarStageOf, State.quarOf_quarStageOf]
  split at first
  · rw [first, Slot.expired_expired, ite_self]
  · next unnamed =>
    rw [State.refOf_congr first, first, if_pos]
    cases l with
    | A => exact absurd ⟨q, listed, named, last⟩ unnamed
    | B => exact ⟨q, listed, named, last⟩

theorem State.mapAt_quarStage (s : State) (l : Line) (st : Station) : s.quarStage.mapAt l st =
    if ∃ q ∈ s.quarOf l, q.station = st ∧ q.hold ≤ 1 then .free else s.mapAt l st := by
  rw [State.quarStage, State.mapAt_quarStageOf, State.mapAt_quarStageOf, State.quarOf_quarStageOf]
  cases l <;> simp

theorem State.quarOf_quarStage (s : State) (l : Line) : s.quarStage.quarOf l =
    ((s.quarOf l).filter fun q => decide (2 ≤ q.hold)).map QuarEntry.age := by
  rw [State.quarStage, State.quarOf_quarStageOf, State.quarOf_quarStageOf, State.quarOf_quarStageOf]
  cases l <;> simp

/-- What the end of records keeps of a line engine, the quarantine stage keeps. -/
theorem State.line_quarStage_keeps {P : LineEngine → Prop} (kept : ∀ e ref r, P e → P (e.without ref r)) {s : State}
    {l : Line} (holds : P (s.line l)) : P (s.quarStage.line l) := by
  have entry (t : State) (k : Line) (q : QuarEntry) (holds : P (t.line l)) : P ((t.expireEntry k q).line l) := by
    obtain ⟨ref, r, -, found, expired⟩ | ⟨-, expired⟩ := t.expireEntry_cases k q
    · have content : (t.setMap k q.station .free).record? ref.handle = some r := State.record?_of_current? found
      rw [expired, State.freeMarked_is _ content, State.line_markFreed, State.line_emptySlot, State.line_setLine]
      split
      · next own => subst own; exact kept _ _ _ holds
      · exact holds
    · rw [expired]; exact holds
  have entries (qs : List QuarEntry) (t : State) (k : Line) (holds : P (t.line l)) :
      P ((qs.foldl (fun s q => s.expireEntry k q) t).line l) :=
    List.foldlRecOn qs _ (motive := fun t => P (t.line l)) holds fun t holds q _ => entry t k q holds
  have stage (t : State) (k : Line) (holds : P (t.line l)) : P ((t.quarStageOf k).line l) := by
    rw [State.quarStageOf_eq]
    exact entries _ _ k holds
  exact stage _ _ (stage _ _ holds)

/-! ### One visit of the lease stage (R52) -/

theorem State.ages_iff (s : State) (r : Record) : s.ages r = true ↔ s.Ages r := by
  have runs : r.state.leaseRuns = true ↔ r.state = .bound ∨ r.state = .quiet ∨ ∃ x, r.state = .moving x := by
    cases r.state <;> simp [RecState.leaseRuns]
  have up : (s.line r.line).state.isUp = true ↔ (s.line r.line).state = .running ∨ (s.line r.line).state = .paused := by
    cases (s.line r.line).state <;> simp [LineState.isUp]
  rw [State.ages, Bool.and_eq_true, runs, up, State.Ages]

/-- The record of a slot, where the visit of the lease stage to the slot brings its lease to 0 (R52). -/
def State.lapsing? (s : State) (h : Handle) : Option Record :=
  (s.record? h).filter fun r => s.ages r && decide (r.leaseRemaining ≤ 1)

/-- A slot as a visit of the lease stage leaves it (R52 to R54). -/
def State.agedSlot (s : State) (h : Handle) : Slot :=
  match s.record? h with
  | none => s.slot h
  | some r =>
    if s.ages r then
      if r.leaseRemaining ≤ 1 then
        { s.slot h with
          content := some r.afterLapse
          mask := (s.slot h).mask ||| (ChangeMask.state ||| ChangeMask.outcome) }
      else { s.slot h with content := some { r with leaseRemaining := r.leaseRemaining - 1 } }
    else s.slot h

/-- The entries that a visit of the lease stage makes in a line's list (R53, R55). -/
def State.entriesMade (s : State) (l : Line) (h : Handle) : List QuarEntry :=
  match s.lapsing? h with
  | some r => if l = r.line then s.moveEntries h r ++ s.stationEntries h r else []
  | none => []

/-- A map entry, found as `m`, after a visit of the lease stage. -/
def State.agedEntry (s : State) (l : Line) (st : Station) (h : Handle) (m : MapEntry) : MapEntry :=
  match s.lapsing? h with
  | some r => s.mapAfterLapse h r l st m
  | none => m

/-- A line engine, found as `e`, after a visit of the lease stage. -/
def State.agedLine (s : State) (l : Line) (h : Handle) (e : LineEngine) : LineEngine :=
  match s.lapsing? h with
  | some r => if l = r.line then e.without (s.refOf h) r else e
  | none => e

/-- What the end of a record keeps of a line engine, a visit to its slot keeps. -/
theorem State.agedLine_keeps {P : LineEngine → Prop} {s : State} {h : Handle}
    (kept : ∀ e r, P e → P (LineEngine.without e (s.refOf h) r)) {e : LineEngine} (holds : P e) (l : Line) :
    P (s.agedLine l h e) := by
  unfold State.agedLine
  split
  · split
    · exact kept _ _ holds
    · exact holds
  · exact holds

theorem State.lapsing?_eq_some {s : State} {h : Handle} {r : Record} :
    s.lapsing? h = some r ↔ s.record? h = some r ∧ s.Ages r ∧ r.leaseRemaining ≤ 1 := by
  simp [State.lapsing?, Option.filter_eq_some_iff, State.ages_iff]

theorem State.agedSlot_of_free {s : State} {h : Handle} (free : s.record? h = none) : s.agedSlot h = s.slot h := by
  rw [State.agedSlot, free]

theorem State.agedSlot_of_ageless {s : State} {h : Handle} {r : Record} (found : s.record? h = some r)
    (ageless : ¬ s.Ages r) : s.agedSlot h = s.slot h := by
  simp [State.agedSlot, found, State.ages_iff, ageless]

theorem State.agedSlot_of_aging {s : State} {h : Handle} {r : Record} (found : s.record? h = some r) (ages : s.Ages r)
    (left : 2 ≤ r.leaseRemaining) :
    s.agedSlot h = { s.slot h with content := some { r with leaseRemaining := r.leaseRemaining - 1 } } := by
  simp [State.agedSlot, found, (s.ages_iff r).mpr ages, Nat.not_le.mpr left]

theorem State.agedSlot_of_lapsing {s : State} {h : Handle} {r : Record} (lapses : s.lapsing? h = some r) :
    s.agedSlot h = { s.slot h with
      content := some r.afterLapse
      mask := (s.slot h).mask ||| (ChangeMask.state ||| ChangeMask.outcome) } := by
  obtain ⟨found, ages, last⟩ := State.lapsing?_eq_some.mp lapses
  simp [State.agedSlot, found, (s.ages_iff r).mpr ages, last]

/-- A visit to a slot whose record does not lapse changes the slot alone. -/
theorem State.ageSlot_of_not_lapsing {s : State} {h : Handle} (lapses : s.lapsing? h = none) :
    s.ageSlot h = s.setSlot h (s.agedSlot h) := by
  unfold State.ageSlot
  split
  · next free => rw [State.agedSlot_of_free free, State.setSlot_slot]
  · next r found =>
    split
    · next ages =>
      rw [State.ages_iff] at ages
      have left : 2 ≤ r.leaseRemaining := Nat.lt_of_not_le fun last => by
        have lapsing := State.lapsing?_eq_some.mpr ⟨found, ages, last⟩
        rw [lapses] at lapsing
        cases lapsing
      rw [State.agedSlot_of_aging found ages left]
      exact if_neg (by omega)
    · next ageless =>
      rw [State.ages_iff] at ageless
      rw [State.agedSlot_of_ageless found ageless, State.setSlot_slot]

/-- A visit to a slot whose record lapses takes the last tick, and lapses the record. -/
theorem State.ageSlot_of_lapsing {s : State} {h : Handle} {r : Record} (lapses : s.lapsing? h = some r) :
    s.ageSlot h = (s.setRecord h { r with leaseRemaining := r.leaseRemaining - 1 }).lapseRecord h := by
  obtain ⟨found, ages, last⟩ := State.lapsing?_eq_some.mp lapses
  have spent : r.leaseRemaining - 1 = 0 := by omega
  simp [State.ageSlot, found, (s.ages_iff r).mpr ages, spent]

theorem State.slot_ageSlot (s : State) (h k : Handle) :
    (s.ageSlot h).slot k = if h = k then s.agedSlot h else s.slot k := by
  simp only [eq_comm (a := h)]
  cases lapses : s.lapsing? h with
  | none => rw [State.ageSlot_of_not_lapsing lapses, State.slot_setSlot]
  | some r =>
    rw [State.ageSlot_of_lapsing lapses, State.slot_lapseRecord _ _ _ _ (State.record?_setRecord_self ..),
      State.agedSlot_of_lapsing lapses, State.slot_setRecord, State.slot_setRecord]
    split <;> simp [Record.afterLapse]

/-- The move of a record is sent, or not, whatever its lease. -/
theorem State.moveSent_setRecord {s : State} {h : Handle} {r q : Record} (found : s.record? h = some r)
    (line : q.line = r.line) : (s.setRecord h q).moveSent h = s.moveSent h := by
  simp [State.moveSent, found, line]

theorem State.quarOf_ageSlot (s : State) (l : Line) (h : Handle) :
    (s.ageSlot h).quarOf l = s.quarOf l ++ s.entriesMade l h := by
  cases lapses : s.lapsing? h with
  | none => simp [State.ageSlot_of_not_lapsing lapses, State.entriesMade, lapses]
  | some r =>
    obtain ⟨found, -, -⟩ := State.lapsing?_eq_some.mp lapses
    rw [State.ageSlot_of_lapsing lapses, State.quarOf_lapseRecord (State.record?_setRecord_self ..)]
    simp [State.entriesMade, lapses, State.moveEntries, State.stationEntries, State.moveSent_setRecord found]

theorem State.mapAt_ageSlot (s : State) (l : Line) (st : Station) (h : Handle) :
    (s.ageSlot h).mapAt l st = s.agedEntry l st h (s.mapAt l st) := by
  cases lapses : s.lapsing? h with
  | none => simp [State.ageSlot_of_not_lapsing lapses, State.agedEntry, lapses]
  | some r =>
    obtain ⟨found, -, -⟩ := State.lapsing?_eq_some.mp lapses
    rw [State.ageSlot_of_lapsing lapses, State.mapAt_lapseRecord (State.record?_setRecord_self ..)]
    simp [State.agedEntry, lapses, State.mapAfterLapse, State.moveSent_setRecord found]

theorem State.line_ageSlot (s : State) (l : Line) (h : Handle) :
    (s.ageSlot h).line l = s.agedLine l h (s.line l) := by
  cases lapses : s.lapsing? h with
  | none => simp [State.ageSlot_of_not_lapsing lapses, State.agedLine, lapses]
  | some r =>
    obtain ⟨-, ages, -⟩ := State.lapsing?_eq_some.mp lapses
    have runs : r.state.leaseRuns = true := (Bool.and_eq_true _ _ ▸ (s.ages_iff r).mpr ages : _ ∧ _).1
    rw [State.ageSlot_of_lapsing lapses, State.line_lapseRecord (r := { r with leaseRemaining := r.leaseRemaining - 1 }) _
      (State.record?_setRecord_self ..) runs]
    simp only [State.agedLine, lapses, State.line_setRecord, State.refOf_setRecord]
    split
    · exact LineEngine.without_congr _ _ rfl rfl
    · rfl

/-! ### What a visit reads is left by the visits to other slots -/

/-- An order of another record stays as it is in a withdrawal. -/
theorem LineEngine.liveOrder?_withdraw_of_ne (e : LineEngine) (k j : OrderKind) {ref other : Ref} (ne : other ≠ ref) :
    (e.withdraw j other).liveOrder? k ref = e.liveOrder? k ref := by
  have apart (o : Order) (live : o.isLive j other = true) : o.isLive k ref = false := by
    simp only [Order.isLive, Bool.and_eq_true, beq_iff_eq] at live
    obtain ⟨⟨-, names⟩, -⟩ := live
    simp [Order.isLive, names, ne]
  unfold LineEngine.liveOrder? LineEngine.withdraw
  induction e.orders with
  | nil => rfl
  | cons o os ih =>
    dsimp only at ih ⊢
    by_cases live : o.isLive j other = true
    · rw [List.find?_cons_of_neg (l := os) (a := o) (by simp [apart o live]), ← ih]
      by_cases sending : o.progress = .sending
      · rw [List.filterMap_cons_some (b := { o with withdrawn := true }) (by rw [if_pos live, if_pos sending]),
          List.find?_cons_of_neg (by simp [Order.isLive])]
      · rw [List.filterMap_cons_none (by rw [if_pos live, if_neg sending])]
    · rw [List.filterMap_cons_some (b := o) (by rw [if_neg live]), List.find?_cons, List.find?_cons, ih]

theorem LineEngine.liveOrder?_without_of_ne (e : LineEngine) (k : OrderKind) {ref other : Ref} (ne : other ≠ ref)
    (r : Record) : (e.without other r).liveOrder? k ref = e.liveOrder? k ref := by
  have withdraw (e : LineEngine) (j : OrderKind) := LineEngine.liveOrder?_withdraw_of_ne e k j ne
  have release (e : LineEngine) : (e.releasePolls other).liveOrder? k ref = e.liveOrder? k ref := rfl
  unfold LineEngine.without
  rw [LineEngine.unrequested_eq, release]
  split <;> split <;> simp only [withdraw]

/-- The end of a record leaves the state of its line engine and its transaction. -/
theorem LineEngine.state_without (e : LineEngine) (ref : Ref) (r : Record) : (e.without ref r).state = e.state :=
  LineEngine.without_keeps (P := fun d => d.state = e.state) (fun _ _ _ same => same) (fun _ _ same => same) rfl ref r

theorem LineEngine.tx_without (e : LineEngine) (ref : Ref) (r : Record) : (e.without ref r).tx = e.tx :=
  LineEngine.without_keeps (P := fun d => d.tx = e.tx) (fun _ _ _ same => same) (fun _ _ same => same) rfl ref r

/-- What a visit of the lease stage to a slot reads is the same in both states: the slot, the arbiter, whether the lines
run, and the orders of the slot's record. What the visit does rests on nothing else. -/
structure State.ReadsAlike (s v : State) (h : Handle) : Prop where
  slot : v.slot h = s.slot h
  arb : v.arb = s.arb
  lines : ∀ l : Line, (v.line l).state = (s.line l).state
  orders : ∀ (l : Line) (k : OrderKind), (v.line l).liveOrder? k (s.refOf h) = (s.line l).liveOrder? k (s.refOf h)

theorem State.ReadsAlike.refl (s : State) (h : Handle) : s.ReadsAlike s h := ⟨rfl, rfl, fun _ => rfl, fun _ _ => rfl⟩

/-- A visit to another slot leaves what a visit reads. -/
theorem State.ReadsAlike.ageSlot {s v : State} {h k : Handle} (alike : s.ReadsAlike v h) (ne : k ≠ h) :
    s.ReadsAlike (v.ageSlot k) h := by
  have names : v.refOf k ≠ s.refOf h := fun same => ne (congrArg Ref.handle same)
  refine ⟨?_, (v.keeps_ageSlot k).arb.trans alike.arb, fun l => ?_, fun l j => ?_⟩
  · rw [State.slot_ageSlot, if_neg ne, alike.slot]
  · rw [State.line_ageSlot]
    exact State.agedLine_keeps (P := fun e => e.state = (s.line l).state)
      (fun e r same => (e.state_without _ r).trans same) (alike.lines l) l
  · rw [State.line_ageSlot]
    exact State.agedLine_keeps (P := fun e => e.liveOrder? j (s.refOf h) = (s.line l).liveOrder? j (s.refOf h))
      (fun e r same => (e.liveOrder?_without_of_ne j names r).trans same) (alike.orders l j) l

section
variable {s v : State} {h : Handle} (alike : s.ReadsAlike v h)
include alike

theorem State.ReadsAlike.refOf : v.refOf h = s.refOf h := State.refOf_congr alike.slot

theorem State.ReadsAlike.record? : v.record? h = s.record? h := congrArg Slot.content alike.slot

theorem State.ReadsAlike.ages (r : Record) : v.ages r = s.ages r := by
  rw [State.ages, alike.lines, State.ages]

theorem State.ReadsAlike.lapsing? : v.lapsing? h = s.lapsing? h := by
  simp only [State.lapsing?, alike.record?, alike.ages]

theorem State.ReadsAlike.moveSent : v.moveSent h = s.moveSent h := by
  simp only [State.moveSent, alike.record?, alike.refOf, alike.orders]

theorem State.ReadsAlike.agedSlot : v.agedSlot h = s.agedSlot h := by
  simp only [State.agedSlot, alike.record?, alike.ages, alike.slot]

theorem State.ReadsAlike.entriesMade (l : Line) : v.entriesMade l h = s.entriesMade l h := by
  simp only [State.entriesMade, State.moveEntries, State.stationEntries, alike.lapsing?, alike.moveSent, alike.arb,
    alike.refOf]

theorem State.ReadsAlike.agedEntry (l : Line) (st : Station) : v.agedEntry l st h = s.agedEntry l st h := by
  funext m
  simp only [State.agedEntry, State.mapAfterLapse, alike.lapsing?, alike.moveSent]

theorem State.ReadsAlike.agedLine (l : Line) : v.agedLine l h = s.agedLine l h := by
  funext e
  simp only [State.agedLine, alike.lapsing?, alike.refOf]

end

/-! ### The lease stage (R52) -/

/-- What is observed after the lease stage is what was observed before it with the effect of each visit applied, each effect
as it is from the state before the stage. -/
theorem State.leaseStage_observed {α : Type} (observe : State → α) (effect : State → Handle → α → α)
    (visit : ∀ v h, observe (v.ageSlot h) = effect v h (observe v))
    (alike : ∀ {s v : State} {h : Handle}, s.ReadsAlike v h → effect v h = effect s h) (s : State) :
    observe s.leaseStage = allHandles.foldl (fun x h => effect s h x) (observe s) := by
  have visits (hs : List Handle) (distinct : hs.Nodup) : ∀ v : State, (∀ h ∈ hs, s.ReadsAlike v h) →
      observe (hs.foldl State.ageSlot v) = hs.foldl (fun x h => effect s h x) (observe v) := by
    induction hs with
    | nil => exact fun _ _ => rfl
    | cons h hs ih =>
      intro v reads
      obtain ⟨fresh, distinct⟩ := List.nodup_cons.mp distinct
      rw [List.foldl_cons, List.foldl_cons, ih distinct, visit, alike (reads h (List.mem_cons_self ..))]
      intro k later
      exact (reads k (List.mem_cons_of_mem _ later)).ageSlot fun same => fresh (same ▸ later)
  exact visits allHandles nodup_allHandles s fun h _ => .refl s h

/-- A fold over steps none of which changes the value. -/
theorem foldl_of_fixed {α β : Type} {f : β → α → β} {b : β} {xs : List α} (fixed : ∀ x ∈ xs, f b x = b) :
    xs.foldl f b = b :=
  List.foldlRecOn xs f (motive := fun c => c = b) rfl fun c same x listed => by rw [same, fixed x listed]

/-- A fold over the slots in which only one slot's step changes the value. -/
theorem foldl_allHandles_of_only {β : Type} {f : β → Handle → β} (h : Handle) (b : β)
    (others : ∀ k, k ≠ h → ∀ c, f c k = c) : allHandles.foldl f b = f b h := by
  have distinct := nodup_allHandles
  obtain ⟨before, after, split⟩ := List.append_of_mem (mem_allHandles h)
  rw [split] at distinct ⊢
  have ne : h ∉ before ∧ h ∉ after := by
    rw [List.nodup_append, List.nodup_cons] at distinct
    exact ⟨fun listed => distinct.2.2 h listed h (List.mem_cons_self ..) rfl, distinct.2.1.1⟩
  rw [List.foldl_append, List.foldl_cons,
    foldl_of_fixed (xs := before) fun k listed => others k (fun same => ne.1 (same ▸ listed)) _,
    foldl_of_fixed fun k listed => others k (fun same => ne.2 (same ▸ listed)) _]

/-- A property that one slot's step brings about and every step keeps holds after a fold over the slots. -/
theorem foldl_allHandles_reaches {β : Type} {f : β → Handle → β} {P : β → Prop} (h : Handle) (b : β)
    (reached : ∀ c, P (f c h)) (kept : ∀ c k, P c → P (f c k)) : P (allHandles.foldl f b) := by
  obtain ⟨before, after, split⟩ := List.append_of_mem (mem_allHandles h)
  rw [split, List.foldl_append, List.foldl_cons]
  exact List.foldlRecOn after f (reached _) fun c holds k _ => kept c k holds

theorem State.slot_leaseStage (s : State) (h : Handle) : s.leaseStage.slot h = s.agedSlot h := by
  rw [State.leaseStage_observed (fun v => v.slot h) (fun v k x => if k = h then v.agedSlot k else x)
    (fun v k => v.slot_ageSlot k h) (fun alike => by rw [alike.agedSlot]) s,
    foldl_allHandles_of_only h _ fun k ne c => if_neg ne]
  exact if_pos rfl

theorem State.quarOf_leaseStage (s : State) (l : Line) :
    s.leaseStage.quarOf l = s.quarOf l ++ (allHandles.map (s.entriesMade l)).flatten := by
  rw [State.leaseStage_observed (fun v => v.quarOf l) (fun v h q => q ++ v.entriesMade l h)
    (fun v h => v.quarOf_ageSlot l h) (fun alike => by rw [alike.entriesMade]) s]
  exact List.foldl_append_eq_append

theorem State.mapAt_leaseStage (s : State) (l : Line) (st : Station) :
    s.leaseStage.mapAt l st = allHandles.foldl (fun m h => s.agedEntry l st h m) (s.mapAt l st) :=
  State.leaseStage_observed (fun v => v.mapAt l st) (fun v => v.agedEntry l st) (fun v h => v.mapAt_ageSlot l st h)
    (fun alike => alike.agedEntry l st) s

theorem State.line_leaseStage (s : State) (l : Line) :
    s.leaseStage.line l = allHandles.foldl (fun e h => s.agedLine l h e) (s.line l) :=
  State.leaseStage_observed (fun v => v.line l) (fun v => v.agedLine l) (fun v h => v.line_ageSlot l h)
    (fun alike => alike.agedLine l) s

/-- What the end of records keeps of a line engine, the lease stage keeps. -/
theorem State.line_leaseStage_keeps {P : LineEngine → Prop} (kept : ∀ e ref r, P e → P (e.without ref r)) {s : State}
    {l : Line} (holds : P (s.line l)) : P (s.leaseStage.line l) := by
  rw [State.line_leaseStage]
  exact List.foldlRecOn _ _ holds fun e holds h _ => State.agedLine_keeps (fun e r => kept e _ r) holds l

/-- What the end of a record brings about in its line engine, and the end of others keeps, holds after both stages of the
sweep in which it lapses. -/
theorem State.line_sweep_of_lapsing {P : LineEngine → Prop} (kept : ∀ e ref r, P e → P (e.without ref r)) {s : State}
    {h : Handle} {r : Record} (lapses : s.lapsing? h = some r) (reached : ∀ e : LineEngine, P (e.without (s.refOf h) r)) :
    P (s.leaseStage.quarStage.line r.line) := by
  refine State.line_quarStage_keeps kept ?_
  rw [State.line_leaseStage]
  refine foldl_allHandles_reaches h _ (fun e => ?_) fun e k holds => State.agedLine_keeps (fun e r => kept e _ r) holds _
  simpa [State.agedLine, lapses] using reached e

theorem LineEngine.noPoll_without (e : LineEngine) (ref : Ref) (r : Record) :
    .poll ref ∉ (e.without ref r).reservations := by
  simp [LineEngine.without, LineEngine.unrequested]

theorem LineEngine.noPoll_without_of_none {e : LineEngine} {ref : Ref} (absent : .poll ref ∉ e.reservations)
    (other : Ref) (r : Record) : .poll ref ∉ (e.without other r).reservations :=
  LineEngine.without_keeps (P := fun e => .poll ref ∉ e.reservations) (fun _ _ _ absent => absent)
    (fun _ _ absent listed => absent ((List.mem_filter.mp listed).1)) absent other r

theorem LineEngine.noAnswer_without (e : LineEngine) (ref : Ref) {r : Record} (pending : r.requestPending = true) :
    (e.without ref r).liveOrder? .answer ref = none := by
  rw [LineEngine.without, LineEngine.unrequested_eq, if_pos pending]
  exact LineEngine.liveOrder?_withdraw ..

theorem State.mem_entriesMade {s : State} {l : Line} {h : Handle} {q : QuarEntry} :
    q ∈ s.entriesMade l h ↔ ∃ r, s.lapsing? h = some r ∧ r.line = l
      ∧ ((∃ x, r.state = .moving x ∧ s.moveSent h = true ∧ q = ⟨x, s.arb.grantCfg.quarHold, none⟩)
        ∨ r.pinned = false ∧ q = ⟨r.station, s.arb.grantCfg.quarHold, some (s.refOf h)⟩) := by
  cases lapses : s.lapsing? h with
  | none => simp [State.entriesMade, lapses]
  | some r =>
    have move : q ∈ s.moveEntries h r ↔
        ∃ x, r.state = .moving x ∧ s.moveSent h = true ∧ q = ⟨x, s.arb.grantCfg.quarHold, none⟩ := by
      unfold State.moveEntries
      split
      · next x moving => cases s.moveSent h <;> simp [moving]
      · next still => simpa using fun x moving => (still x moving).elim
    have station : q ∈ s.stationEntries h r ↔
        r.pinned = false ∧ q = ⟨r.station, s.arb.grantCfg.quarHold, some (s.refOf h)⟩ := by
      unfold State.stationEntries
      cases r.pinned <;> simp
    by_cases line : l = r.line
    · simp [State.entriesMade, lapses, line, move, station]
    · simp [State.entriesMade, lapses, line, eq_comm (a := r.line)]

theorem State.mem_quarOf_leaseStage {s : State} {l : Line} {h : Handle} {q : QuarEntry} (made : q ∈ s.entriesMade l h) :
    q ∈ s.leaseStage.quarOf l := by
  rw [State.quarOf_leaseStage, List.mem_append, List.mem_flatten]
  exact .inr ⟨_, List.mem_map_of_mem (mem_allHandles h), made⟩

/-- A visit leaves a map entry that is neither the station nor the target of a record that lapses in it. -/
theorem State.agedEntry_of_untouched {s : State} {l : Line} {st : Station} {h : Handle} (m : MapEntry)
    (untouched : ∀ r, s.lapsing? h = some r → r.line = l → st ≠ r.station ∧ r.state ≠ .moving st) :
    s.agedEntry l st h m = m := by
  unfold State.agedEntry
  split
  · next r lapses =>
    exact State.mapAfterLapse_of_ne _ _ (fun line => (untouched r lapses line.symm).1)
      fun line => (untouched r lapses line.symm).2
  · rfl

/-- A map entry that is HELD by a record, or a TARGET of it, is no other lapsing record's station or target (R12). -/
theorem State.MapLaw.untouched {s : State} (law : s.MapLaw) {l : Line} {st : Station} {h k : Handle} {r : Record}
    (own : s.mapAt l st = .held h ∨ s.mapAt l st = .target h) (ne : k ≠ h) (lapses : s.lapsing? k = some r)
    (line : r.line = l) : st ≠ r.station ∧ r.state ≠ .moving st := by
  obtain ⟨found, ⟨state, -⟩, -⟩ := State.lapsing?_eq_some.mp lapses
  have held : st = r.station → s.mapAt l st = .held k := fun same =>
    (law l st k).1.mpr ⟨r, found, line, fun lapsed => by simp [lapsed] at state, same.symm⟩
  have target : r.state = .moving st → s.mapAt l st = .target k := fun moving =>
    (law l st k).2.mpr ⟨r, found, line, moving⟩
  constructor
  · intro same
    rw [held same] at own
    simp [ne] at own
  · intro moving
    rw [target moving] at own
    simp [ne] at own

/-- Where the maps agree with the records, what the lease stage makes of the station and of the target of a record that
lapses is what its own lapse makes of them. -/
theorem State.mapAt_leaseStage_of_own {s : State} (law : s.MapLaw) {l : Line} {st : Station} {h : Handle} {r : Record}
    (lapses : s.lapsing? h = some r) (own : s.mapAt l st = .held h ∨ s.mapAt l st = .target h) :
    s.leaseStage.mapAt l st = s.mapAfterLapse h r l st (s.mapAt l st) := by
  rw [State.mapAt_leaseStage, foldl_allHandles_of_only h]
  · rw [State.agedEntry, lapses]
  · exact fun k ne m => State.agedEntry_of_untouched m fun r => law.untouched own ne

theorem LeaseClock.complete_eq (c : LeaseClock) :
    c.complete = { c with ticksDue := c.ticksDue - 1, claim := decide (0 < c.ticksDue) } := by
  unfold LeaseClock.complete
  split
  · next due => simp [due]
  · next clear => simp [Nat.eq_zero_of_not_pos clear]

theorem exec_leaseTick {s : State} (granted : s.arb.engine = some .clock) :
    exec .leaseTick s = .next s.leaseStage.quarStage.completeClock :=
  congrArg Host.Outcome.next (if_pos granted)

/-- The lease stage and the quarantine stage are directory work. -/
theorem State.keeps_sweep (s : State) : s.Keeps s.leaseStage.quarStage :=
  s.keeps_leaseStage.trans (State.keeps_quarStage _)

/-- What the two stages do of a record that lapses to its line's map, where the maps agree with the records (R53 to
R55). -/
theorem State.mapAt_leaseStage_of_lapsing {s : State} (law : s.MapLaw) {h : Handle} {r : Record}
    (lapses : s.lapsing? h = some r) :
    s.leaseStage.mapAt r.line r.station = (if r.pinned then .held h else .quarantined)
      ∧ ∀ x : Station, r.state = .moving x →
        s.leaseStage.mapAt r.line x = (if s.moveSent h then .quarantined else .free) := by
  obtain ⟨found, ⟨state, -⟩, -⟩ := State.lapsing?_eq_some.mp lapses
  have held : s.mapAt r.line r.station = .held h :=
    (law _ _ h).1.mpr ⟨r, found, rfl, fun lapsed => by simp [lapsed] at state, rfl⟩
  have target (x : Station) (moving : r.state = .moving x) : s.mapAt r.line x = .target h :=
    (law _ _ h).2.mpr ⟨r, found, rfl, moving⟩
  have apart (x : Station) (moving : r.state = .moving x) : x ≠ r.station := fun same => by
    have both := target x moving
    rw [same, held] at both
    cases both
  constructor
  · rw [State.mapAt_leaseStage_of_own law lapses (.inl held), State.mapAfterLapse, held]
    have still : r.state ≠ .moving r.station := fun moving => apart _ moving rfl
    cases pinned : r.pinned <;> simp [still]
  · intro x moving
    rw [State.mapAt_leaseStage_of_own law lapses (.inr (target x moving)), State.mapAfterLapse]
    simp [apart x moving, moving]

/-- Settles O29: each stage is a fold of visits, and what a visit does rests on what no other visit changes. -/
theorem leaseTickAgesRunningLeases : Obligations.LeaseTickAgesRunningLeases := by
  intro s granted
  refine ⟨exec_leaseTick granted, fun h r found => ⟨fun ageless => ?_, fun ages left => ?_, fun ages last => ?_⟩,
    fun h free => ?_, fun l st untouched => ?_, fun l => ⟨_, s.quarOf_leaseStage l, fun q made => ?_⟩,
    fun l => State.quarOf_quarStage _ l, fun l st => State.mapAt_quarStage _ l st,
    fun l q ref r listed last named found => ?_, fun h unnamed => ?_, ?_, ?_, ?_, s.keeps_sweep.cfg, fun l => ?_⟩
  · rw [State.slot_leaseStage, State.agedSlot_of_ageless found ageless]
  · rw [State.slot_leaseStage, State.agedSlot_of_aging found ages left]
  · have lapses : s.lapsing? h = some r := State.lapsing?_eq_some.mpr ⟨found, ages, last⟩
    have slot := s.slot_leaseStage h
    rw [State.agedSlot_of_lapsing lapses] at slot
    refine ⟨?_, by rw [slot], by rw [slot], fun unpinned => ?_, ?_, fun pending => ?_, fun x moving => ⟨?_, fun sent => ?_⟩,
      fun law => State.mapAt_leaseStage_of_lapsing law.1 lapses⟩
    · rw [State.record?, slot, Record.afterLapse_eq]
    · exact State.mem_quarOf_leaseStage (State.mem_entriesMade.mpr ⟨r, lapses, rfl, .inr ⟨unpinned, rfl⟩⟩)
    · exact State.line_sweep_of_lapsing (P := fun e => .poll (s.refOf h) ∉ e.reservations)
        (fun _ _ _ absent => LineEngine.noPoll_without_of_none absent _ _) lapses fun e => e.noPoll_without _ _
    · exact State.line_sweep_of_lapsing (P := fun e => e.liveOrder? .answer (s.refOf h) = none)
        (fun _ _ _ absent => LineEngine.liveOrder?_without_of_none absent _ _) lapses fun e => e.noAnswer_without _ pending
    · exact State.line_sweep_of_lapsing (P := fun e => e.liveOrder? .reassign (s.refOf h) = none)
        (fun _ _ _ absent => LineEngine.liveOrder?_without_of_none absent _ _) lapses fun e => e.noReassign_without _ moving
    · exact State.mem_quarOf_leaseStage (State.mem_entriesMade.mpr ⟨r, lapses, rfl, .inl ⟨x, moving, sent, rfl⟩⟩)
  · rw [State.slot_leaseStage, State.agedSlot_of_free free]
  · rw [State.mapAt_leaseStage]
    exact foldl_of_fixed fun h _ => State.agedEntry_of_untouched _ fun r lapses =>
      untouched h r (State.lapsing?_eq_some.mp lapses)
  · obtain ⟨entries, visited, made⟩ := List.mem_flatten.mp made
    obtain ⟨h, -, rfl⟩ := List.mem_map.mp visited
    obtain ⟨r, lapses, line, ⟨x, moving, -, rfl⟩ | ⟨unpinned, rfl⟩⟩ := State.mem_entriesMade.mp made
    · exact ⟨rfl, h, r, State.lapsing?_eq_some.mp lapses, line, .inr ⟨moving, rfl⟩⟩
    · exact ⟨rfl, h, r, State.lapsing?_eq_some.mp lapses, line, .inl ⟨rfl, rfl, unpinned⟩⟩
  · rw [State.slot_quarStage_of_named listed last (by rw [named, State.refOf_of_current? found])]
    exact Slot.freedFrom_expired (State.record?_of_current? found)
  · exact State.slot_quarStage_of_unnamed fun l q listed last => unnamed l q listed last
  · simp [State.completeClock, LeaseClock.complete_eq, s.keeps_sweep.clock]
  · simp [State.completeClock]
  · simp [State.completeClock]
  · have kept (e : LineEngine) (ref : Ref) (r : Record)
        (same : e.state = (s.line l).state ∧ e.tx = (s.line l).tx) :
        (e.without ref r).state = (s.line l).state ∧ (e.without ref r).tx = (s.line l).tx :=
      ⟨(e.state_without ref r).trans same.1, (e.tx_without ref r).trans same.2⟩
    exact State.line_quarStage_keeps (P := fun e => e.state = (s.line l).state ∧ e.tx = (s.line l).tx) kept
      (State.line_leaseStage_keeps kept ⟨rfl, rfl⟩)

end Sys2Proof.Machine
end

section
/-! Joining: a join of an identity without a record and of one with a record, and the outcomes of an ASSIGN. -/

namespace Sys2Proof.Machine

/-! ### The order that fills a call's reservation (R90, R106, R118) -/

/-- A line engine that holds the reservation of its open call, in a queue within its bound (R89, R102). -/
def LineEngine.HoldsCall (e : LineEngine) : Prop :=
  .call ∈ e.reservations ∧ e.orders.length + e.reservations.length ≤ 8

/-- A line engine whose call's reservation an order has filled, with the counters given (R90). -/
def LineEngine.callFilled (e : LineEngine) (o : Order) (counters : Vector Nat 32) : LineEngine :=
  { e with
    reservations := e.reservations.erase .call
    orders := e.orders ++ [o]
    counters := counters }

theorem LineEngine.HoldsCall.fill {e : LineEngine} (holds : e.HoldsCall) (o : Order) :
    e.fill .call o = e.callFilled o e.counters :=
  LineEngine.fill_eq o holds.1 holds.2

theorem LineEngine.HoldsCall.of_shrunk {e d : LineEngine} (holds : e.HoldsCall) (shrunk : e.Shrunk d)
    (kept : .call ∈ d.reservations) : d.HoldsCall := by
  obtain ⟨os, rs, rfl, orders, reservations, -⟩ := shrunk
  exact ⟨kept, Nat.le_trans (Nat.add_le_add orders reservations) holds.2⟩

theorem LineEngine.HoldsCall.withdraw {e : LineEngine} (holds : e.HoldsCall) (k : OrderKind) (ref : Ref) :
    (e.withdraw k ref).HoldsCall :=
  holds.of_shrunk (LineEngine.shrunk_withdraw k ref e) holds.1

/-- Only reservations of polls go with a record's request (R30). -/
theorem LineEngine.HoldsCall.unrequested {e : LineEngine} (holds : e.HoldsCall) (ref : Ref) (pending : Bool) :
    (e.unrequested ref pending).HoldsCall := by
  rw [LineEngine.unrequested_eq]
  have withdrawn : (if pending then e.withdraw .answer ref else e).HoldsCall := by
    split
    · exact holds.withdraw _ _
    · exact holds
  refine withdrawn.of_shrunk (LineEngine.shrunk_releasePolls ref _) ?_
  exact List.mem_filter.mpr ⟨withdrawn.1, rfl⟩

/-! ### The counters of an intake (R117) -/

/-- A line engine whose counters have taken in what an intake dropped. -/
def LineEngine.counted (e : LineEngine) (i : Intake) : LineEngine :=
  (e.bumpBy .invalidCaps i.invalid).bumpBy .duplicateCaps i.duplicate

/-- Counting reads and changes the counters alone. -/
theorem LineEngine.bumpBy_of_counters {d e : LineEngine} (same : d.counters = e.counters) (c : Ctr) (n : Nat) :
    d.bumpBy c n = { d with counters := (e.bumpBy c n).counters } := by
  induction n generalizing d e with
  | zero => simp only [LineEngine.bumpBy, ← same]
  | succ n ih =>
    have bumped : (d.bump c).counters = (e.bump c).counters := by simp only [LineEngine.bump, LineEngine.counter, same]
    exact ih bumped

theorem LineEngine.counted_of_counters {d e : LineEngine} (same : d.counters = e.counters) (i : Intake) :
    d.counted i = { d with counters := (e.counted i).counters } := by
  have invalid : (d.bumpBy .invalidCaps i.invalid).counters = (e.bumpBy .invalidCaps i.invalid).counters := by
    rw [LineEngine.bumpBy_of_counters same]
  rw [LineEngine.counted, LineEngine.bumpBy_of_counters invalid, LineEngine.bumpBy_of_counters same]
  rfl

theorem LineEngine.counters_counted {d e : LineEngine} (same : d.counters = e.counters) (i : Intake) :
    (d.counted i).counters = (e.counted i).counters := by
  rw [LineEngine.counted_of_counters same]

theorem LineEngine.HoldsCall.counted {e : LineEngine} (holds : e.HoldsCall) (i : Intake) : (e.counted i).HoldsCall := by
  rw [LineEngine.counted_of_counters rfl]
  exact holds

theorem LineEngine.callFilled_counted (e : LineEngine) (i : Intake) (o : Order) (counters : Vector Nat 32) :
    (e.counted i).callFilled o counters = e.callFilled o counters := by
  rw [LineEngine.counted_of_counters rfl]
  rfl

/-! ### The operations of a join -/

/-- The REFUSE order of a refused join (R106). -/
def State.refuseOrder (s : State) (id : Identity) (reason : RefusalReason) : Order :=
  Order.fresh none (.identity id) (.refuse reason s.arb.grantCfg.backoff) s.arb.grantCfg.retryLimit false

/-- A refusal fills the call's reservation and counts the reason; it changes no record (R106, R116). -/
theorem State.refuseJoin_eq {s : State} {l : Line} (holds : (s.line l).HoldsCall) (id : Identity)
    (reason : RefusalReason) : s.refuseJoin l id reason =
      (s.setLine l ((s.line l).callFilled (s.refuseOrder id reason)
        ((s.line l).bump reason.ctr).counters)).refusalAlso l reason := by
  unfold State.refuseJoin State.bump State.modLine
  dsimp only
  rw [holds.fill, State.line_setLine_self, State.setLine_setLine]
  rfl

/-- The ASSIGN order of a record (R118). -/
def State.assignOrder (s : State) (h : Handle) (r : Record) (kind : JoinKind) : Order :=
  Order.fresh (some (s.refOf h)) (.identity r.identity) (.assign r.station r.leaseLength kind) s.arb.grantCfg.retryLimit
    false

theorem State.placeAssign_eq {s : State} {l : Line} {h : Handle} {r : Record} (found : s.record? h = some r)
    (holds : (s.line l).HoldsCall) (kind : JoinKind) : s.placeAssign l h kind =
      s.setLine l ((s.line l).callFilled (s.assignOrder h r kind) (s.line l).counters) := by
  rw [State.placeAssign, found]
  exact congrArg (s.setLine l) (holds.fill _)

/-- CAPS is marked where the list taken in differs from the record's (R117). -/
def State.capsMarked (s : State) (h : Handle) (old list : List CapEntry) : State :=
  if list = old then s else s.mark h ChangeMask.caps

theorem State.slot_capsMarked_of_ne (s : State) {h k : Handle} (old list : List CapEntry) (ne : k ≠ h) :
    (s.capsMarked h old list).slot k = s.slot k := by
  unfold State.capsMarked
  split
  · rfl
  · exact s.slot_mark_of_ne _ ne

theorem State.mask_capsMarked_self (s : State) (h : Handle) (old list : List CapEntry) :
    ((s.capsMarked h old list).slot h).mask
      = if list = old then (s.slot h).mask else (s.slot h).mask ||| ChangeMask.caps := by
  unfold State.capsMarked
  split <;> simp

@[simp] theorem State.refOf_mark (s : State) (h k : Handle) (a : ChangeMask) : (s.mark h a).refOf k = s.refOf k := by
  simp only [State.refOf, State.slot_mark]
  split <;> simp_all

@[simp] theorem State.refOf_capsMarked (s : State) (h k : Handle) (old list : List CapEntry) :
    (s.capsMarked h old list).refOf k = s.refOf k := by
  unfold State.capsMarked
  split <;> simp

@[simp] theorem State.record?_capsMarked (s : State) (h k : Handle) (old list : List CapEntry) :
    (s.capsMarked h old list).record? k = s.record? k := by
  unfold State.capsMarked
  split <;> simp

@[simp] theorem State.arb_capsMarked (s : State) (h : Handle) (old list : List CapEntry) :
    (s.capsMarked h old list).arb = s.arb := by
  unfold State.capsMarked
  split <;> simp

@[simp] theorem State.line_capsMarked (s : State) (h : Handle) (old list : List CapEntry) (l : Line) :
    (s.capsMarked h old list).line l = s.line l := by
  unfold State.capsMarked
  split <;> simp

@[simp] theorem State.mapAt_capsMarked (s : State) (h : Handle) (old list : List CapEntry) (l : Line) (st : Station) :
    (s.capsMarked h old list).mapAt l st = s.mapAt l st := by
  unfold State.capsMarked
  split <;> simp

@[simp] theorem State.quarOf_capsMarked (s : State) (h : Handle) (old list : List CapEntry) (l : Line) :
    (s.capsMarked h old list).quarOf l = s.quarOf l := by
  unfold State.capsMarked
  split <;> simp

/-- A mark can be made before a change of a line engine or after it. -/
theorem State.mark_setLine (s : State) (l : Line) (e : LineEngine) (h : Handle) (a : ChangeMask) :
    (s.setLine l e).mark h a = (s.mark h a).setLine l e := by
  unfold State.mark
  dsimp only [State.slot_setLine]
  split <;> rfl

theorem State.capsMarked_setLine (s : State) (l : Line) (e : LineEngine) (h : Handle) (old list : List CapEntry) :
    (s.setLine l e).capsMarked h old list = (s.capsMarked h old list).setLine l e := by
  unfold State.capsMarked
  split
  · rfl
  · exact s.mark_setLine l e h _

theorem State.setRecord_setLine (s : State) (l : Line) (e : LineEngine) (h : Handle) (r : Record) :
    (s.setLine l e).setRecord h r = (s.setRecord h r).setLine l e := rfl

/-- A record that takes a list in (R117). -/
theorem State.takeCaps_eq {s : State} {h : Handle} {r : Record} (found : s.record? h = some r) (l : Line)
    (caps : List CapEntry) : s.takeCaps l h caps =
      ((s.setRecord h { r with caps := (intake caps).kept }).capsMarked h r.caps (intake caps).kept).setLine l
        ((s.line l).counted (intake caps)) := by
  rw [State.takeCaps, found]
  exact State.capsMarked_setLine (s.setRecord h { r with caps := (intake caps).kept }) ..

/-- A record takes a list in, and its ASSIGN fills the call's reservation (R117, R118). -/
theorem State.takeCaps_placeAssign {s : State} {l : Line} {h : Handle} {r : Record} (found : s.record? h = some r)
    (holds : (s.line l).HoldsCall) (caps : List CapEntry) (kind : JoinKind) :
    (s.takeCaps l h caps).placeAssign l h kind =
      ((s.setRecord h { r with caps := (intake caps).kept }).capsMarked h r.caps (intake caps).kept).setLine l
        ((s.line l).callFilled (s.assignOrder h r kind) ((s.line l).counted (intake caps)).counters) := by
  rw [State.takeCaps_eq found, State.placeAssign_eq (r := { r with caps := (intake caps).kept }) (by simp)]
  · simp [State.assignOrder, LineEngine.callFilled_counted]
  · simpa using holds.counted _

/-! ### The joins that are accepted (R111 to R115) -/

theorem State.joinNew_eq {s : State} {l : Line} {id : Identity} {h : Handle} {st : Station}
    (way : s.freeWay? id = some h) (station : s.freeStation? l = some st) (holds : (s.line l).HoldsCall)
    (caps : List CapEntry) :
    let r := Record.joining id l st s.arb.grantCfg.leaseLength (intake caps).kept
    s.joinNew l id caps = ((s.placeRecord h r).setMap l st (.held h)).setLine l
      ((s.line l).callFilled (s.assignOrder h r .new) ((s.line l).counted (intake caps)).counters) := by
  intro r
  have placed : (((s.countIntake l (intake caps)).placeRecord h r).setMap l st (.held h))
      = ((s.placeRecord h r).setMap l st (.held h)).setLine l ((s.line l).counted (intake caps)) := rfl
  rw [State.joinNew, way, station]
  dsimp only
  rw [placed, State.placeAssign_eq (r := r) (by simp)]
  · simp [State.assignOrder, LineEngine.callFilled_counted]
  · simpa using holds.counted _

/-- A record that rejoins on its line is JOINING, its request withdrawn and its list replaced, and its ASSIGN fills the
call's reservation (R112, R113). -/
theorem State.rejoin_eq {s : State} {h : Handle} {r : Record} (found : s.record? h = some r)
    (holds : (s.line r.line).HoldsCall) (caps : List CapEntry) (kind : JoinKind) : s.rejoin r.line h caps kind =
      ((s.setRecord h { r with state := .joining, caps := (intake caps).kept, requestPending := false }).capsMarked h
        r.caps (intake caps).kept).setLine r.line
          (((s.line r.line).unrequested (s.refOf h) r.requestPending).callFilled (s.assignOrder h r kind)
            ((s.line r.line).counted (intake caps)).counters) := by
  have same : ((s.line r.line).unrequested (s.refOf h) r.requestPending).counters = (s.line r.line).counters := rfl
  rw [State.rejoin, State.withdrawRequest_is s found,
    State.modRecord_eq _ _ _ _ (State.record?_setRecord_self ..),
    State.takeCaps_placeAssign (State.record?_setRecord_self ..)]
  · simp [State.assignOrder, LineEngine.counters_counted same, State.setRecord_setLine, State.capsMarked_setLine]
  · simpa using holds.unrequested _ _

/-- A MOVING record rejoins with its move abandoned: nothing of its REASSIGN and of its request is left (R31, R113). -/
theorem State.rejoin_of_moving {s : State} {h : Handle} {r : Record} {x : Station} (found : s.record? h = some r)
    (moving : r.state = .moving x) (holds : (s.line r.line).HoldsCall) (caps : List CapEntry) :
    (s.abandonMove h r.line x).rejoin r.line h caps .restart =
      (((s.abandonMove h r.line x).setRecord h
          { r with state := .joining, caps := (intake caps).kept, requestPending := false }).capsMarked h r.caps
            (intake caps).kept).setLine r.line
        (((s.line r.line).without (s.refOf h) r).callFilled (s.assignOrder h r .restart)
          ((s.line r.line).counted (intake caps)).counters) := by
  have abandoned : (s.abandonMove h r.line x).record? h = some r := by simpa using found
  have line : (s.abandonMove h r.line x).line r.line = (s.line r.line).withdraw .reassign (s.refOf h) := by
    rw [State.line_abandonMove, if_pos rfl]
  have left : (s.line r.line).without (s.refOf h) r
      = ((s.line r.line).withdraw .reassign (s.refOf h)).unrequested (s.refOf h) r.requestPending := by
    simp only [LineEngine.without, moving]
  have order : (s.abandonMove h r.line x).assignOrder h r .restart = s.assignOrder h r .restart := by
    simp [State.assignOrder]
  have same : ((s.line r.line).withdraw .reassign (s.refOf h)).counters = (s.line r.line).counters := rfl
  rw [State.rejoin_eq abandoned (by rw [line]; exact holds.withdraw _ _), line, left, order, State.refOf_abandonMove,
    LineEngine.counters_counted same]

/-- A QUIET record leaves its old line with its request withdrawn and its old station quarantined (R114). -/
theorem State.leaveOldLine_of_quiet {s : State} {h : Handle} {r : Record} (found : s.record? h = some r)
    (quiet : r.state = .quiet) : s.leaveOldLine h r =
      ((s.setLine r.line ((s.line r.line).unrequested (s.refOf h) r.requestPending)).quarantine r.line r.station
        none).setRecord h { r with requestPending := false } := by
  have left : s.leaveOldLine h r = (s.withdrawRequest h).quarantine r.line r.station none := by
    rw [State.leaveOldLine, quiet]
  rw [left, State.withdrawRequest_is s found]
  rfl

/-- What a migration leaves to do once the old station is left: the record is JOINING at its new station, its list is
replaced, and its ASSIGN fills the call's reservation (R114). -/
theorem State.migrate_eq {s : State} {l : Line} {h : Handle} {r q : Record} {st : Station}
    (station : s.freeStation? l = some st) (left : (s.leaveOldLine h r).record? h = some q)
    (holds : ((s.leaveOldLine h r).line l).HoldsCall) (caps : List CapEntry) : s.migrate l h r caps =
      ((((s.leaveOldLine h r).setRecord h
          { q with line := l, station := st, state := .joining, caps := (intake caps).kept }).setMap l st
            (.held h)).capsMarked h q.caps (intake caps).kept).setLine l
        (((s.leaveOldLine h r).line l).callFilled
          ((s.leaveOldLine h r).assignOrder h { q with station := st } .migrated)
          (((s.leaveOldLine h r).line l).counted (intake caps)).counters) := by
  have joined (u : State) (a : Record) : ((u.setRecord h a).setMap l st (.held h)).record? h = some a :=
    u.record?_setRecord_self h a
  have retaken (u : State) (a b : Record) :
      ((u.setRecord h a).setMap l st (.held h)).setRecord h b = (u.setRecord h b).setMap l st (.held h) :=
    congrArg (fun v => v.setMap l st (.held h)) (u.setRecord_setRecord h a b)
  rw [State.migrate, station]
  dsimp only
  rw [State.modRecord_eq _ _ _ _ left,
    State.takeCaps_placeAssign (joined ..) holds, retaken]
  simp [State.assignOrder]

/-- The migration of a QUIET record: its request is withdrawn and its old station quarantined (R114). -/
theorem State.migrate_of_quiet {s : State} {l : Line} {h : Handle} {r : Record} {st : Station}
    (found : s.record? h = some r) (quiet : r.state = .quiet) (away : r.line ≠ l) (station : s.freeStation? l = some st)
    (holds : (s.line l).HoldsCall) (caps : List CapEntry) : s.migrate l h r caps =
      (((((s.setLine r.line ((s.line r.line).unrequested (s.refOf h) r.requestPending)).quarantine r.line r.station
          none).setRecord h
            { r with
              state := .joining, caps := (intake caps).kept, requestPending := false, line := l
              station := st }).setMap l st (.held h)).capsMarked h r.caps (intake caps).kept).setLine l
        ((s.line l).callFilled (s.assignOrder h { r with station := st } .migrated)
          ((s.line l).counted (intake caps)).counters) := by
  have old := State.leaveOldLine_of_quiet found quiet
  have line : (s.leaveOldLine h r).line l = s.line l := by simp [old, State.line_setLine, Ne.symm away]
  have record : (s.leaveOldLine h r).record? h = some { r with requestPending := false } := by simp [old]
  have order : (s.leaveOldLine h r).assignOrder h { r with requestPending := false, station := st } .migrated
      = s.assignOrder h { r with station := st } .migrated := by simp [old, State.assignOrder]
  rw [State.migrate_eq station record (by rw [line]; exact holds), order, line, old, State.setRecord_setRecord]

/-- The migration of a LAPSED record: its quarantine entry loses its reference (R63, R114). -/
theorem State.migrate_of_lapsed {s : State} {l : Line} {h : Handle} {r : Record} {st : Station}
    (found : s.record? h = some r) (lapsed : r.state = .lapsed) (station : s.freeStation? l = some st)
    (holds : (s.line l).HoldsCall) (caps : List CapEntry) : s.migrate l h r caps =
      ((((s.dropQuarRef r.line (s.refOf h)).setRecord h
          { r with state := .joining, caps := (intake caps).kept, line := l, station := st }).setMap l st
            (.held h)).capsMarked h r.caps (intake caps).kept).setLine l
        ((s.line l).callFilled (s.assignOrder h { r with station := st } .migrated)
          ((s.line l).counted (intake caps)).counters) := by
  have old : s.leaveOldLine h r = s.dropQuarRef r.line (s.refOf h) := by rw [State.leaveOldLine, lapsed]
  have record : (s.leaveOldLine h r).record? h = some r := by rw [old]; exact found
  have line : (s.leaveOldLine h r).line l = s.line l := by rw [old]; rfl
  rw [State.migrate_eq station record (by rw [line]; exact holds), line, old]
  rfl

/-- A line engine whose ASSIGN of a record is refreshed (R115). -/
def LineEngine.assignRefreshed (e : LineEngine) (ref : Ref) (r : Record) : LineEngine :=
  { e with orders := e.orders.map fun o => if o.isLive .assign ref then o.refreshed r else o }

/-- The refreshing of an ASSIGN sends it anew with its join kind, unless it is CONCLUDING (R115, R118). -/
theorem Order.refreshed_of_assign {o : Order} (assign : o.kind = .assign) (r : Record) : o.refreshed r =
    if o.progress = .concluding then o
    else { o with attempts := 0, payload := .assign r.station r.leaseLength o.joinKind } := by
  unfold Order.kind at assign
  unfold Order.refreshed Order.joinKind
  cases payload : o.payload with
  | assign st lease kind => rfl
  | _ => rw [payload] at assign; cases assign

theorem LineEngine.orders_assignRefreshed (e : LineEngine) (ref : Ref) (r : Record) :
    (e.assignRefreshed ref r).orders = e.orders.map fun o =>
      if o.isLive .assign ref = true ∧ o.progress ≠ .concluding
      then { o with attempts := 0, payload := .assign r.station r.leaseLength o.joinKind } else o := by
  refine List.map_congr_left fun o _ => ?_
  by_cases live : o.isLive .assign ref = true
  · rw [if_pos live, Order.refreshed_of_assign (Order.isLive_kind live)]
    by_cases concluding : o.progress = .concluding <;> simp [live, concluding]
  · simp [live]

/-- A record that is JOINING on the line bids again: its list is replaced, its ASSIGN is refreshed, and the call's
reservation is released (R115). -/
theorem State.joinAgain_eq {s : State} {h : Handle} {r : Record} (found : s.record? h = some r) (l : Line)
    (caps : List CapEntry) : s.joinAgain l h r caps =
      ((s.setRecord h { r with caps := (intake caps).kept }).capsMarked h r.caps (intake caps).kept).setLine l
        { (s.line l).assignRefreshed (s.refOf h) r with
          reservations := (s.line l).reservations.erase .call
          counters := ((s.line l).counted (intake caps)).counters } := by
  have again : s.joinAgain l h r caps
      = ((s.setLine l ((s.line l).assignRefreshed (s.refOf h) r)).takeCaps l h caps).modLine l (.release .call) := rfl
  rw [again, State.takeCaps_eq (r := r) (by simpa using found), State.modLine]
  simp only [State.line_setLine_self, State.setRecord_setLine, State.capsMarked_setLine, State.setLine_setLine]
  have same : ((s.line l).assignRefreshed (s.refOf h) r).counters = (s.line l).counters := rfl
  rw [LineEngine.counted_of_counters same]
  rfl

/-! ### The work of a join claim (R108 to R110) -/

theorem exec_joinClaim {s : State} {l : Line} {id : Identity} {caps : List CapEntry} {p : CallPolicy}
    (runs : s.LineRuns l (.join id caps p)) :
    exec .joinClaim s = .next ((s.joinClaim l id caps p).completeLine l) := by
  show execJoinClaim s = _
  rw [execJoinClaim, runs.claim]

theorem State.joinClaim_of_unknown {s : State} {id : Identity} (unknown : s.lookup? id = none) (l : Line)
    (caps : List CapEntry) (p : CallPolicy) : s.joinClaim l id caps p =
      if p = .reservedOnly then s.refuseJoin l id .notReserved else s.joinNew l id caps := by
  simp [State.joinClaim, State.found?, unknown, Machine.reservedHere]

theorem State.joinClaim_of_known {s : State} {id : Identity} {h : Handle} {r : Record} (known : s.lookup? id = some h)
    (found : s.record? h = some r) (l : Line) (caps : List CapEntry) (p : CallPolicy) : s.joinClaim l id caps p =
      if p = .reservedOnly ∧ ¬ (r.state = .reserved ∧ r.line = l) then s.refuseJoin l id .notReserved
      else s.joinFound l h r caps := by
  simp [State.joinClaim, State.found?, known, found, Machine.reservedHere]

/-- A record without a directed order has its request alone withdrawn (R41, R90). -/
theorem LineEngine.without_of_undirected (e : LineEngine) (ref : Ref) {r : Record}
    (undirected : r.state.directed = none) : e.without ref r = e.unrequested ref r.requestPending := by
  unfold LineEngine.without
  cases state : r.state with
  | reserved | bound | quiet | lapsed => rfl
  | moving x | joining | retiring => rw [state] at undirected; cases undirected

theorem State.joinFound_of_rejoining (s : State) (h : Handle) {r : Record}
    (states : r.state = .reserved ∨ r.state = .bound ∨ r.state = .quiet) (caps : List CapEntry) :
    s.joinFound r.line h r caps
      = s.rejoin r.line h caps (if r.state = .reserved then .reserved else .restart) := by
  rw [State.joinFound, if_pos rfl]
  obtain state | state | state := states <;> rw [state] <;> rfl

/-! ### The outcomes of an ASSIGN (R100, R119 to R121) -/

/-- An outcome claim whose order is there, of a record that is current, concludes on that record with the order gone
(R100). -/
theorem State.outcomeClaim_of_concluding {s : State} {l : Line} {kind : OrderKind} {ref : Ref} {o : Order} {r : Record}
    (order : s.concluding? l kind ref = some o) (found : s.current? ref = some r)
    (conclude : State → Order → Record → State) : s.outcomeClaim l kind ref conclude =
      conclude (s.setLine l ((s.line l).removeConcluded kind ref)) o r := by
  have still : (s.modLine l (.removeConcluded kind ref)).current? ref = some r := found
  rw [State.outcomeClaim, order]
  dsimp only
  rw [still]
  rfl

theorem exec_assignConfirmed {s : State} {l : Line} {ref : Ref} {o : Order} {r : Record}
    (runs : s.LineRuns l (.outcome .assign ref .confirm)) (order : s.concluding? l .assign ref = some o)
    (found : s.current? ref = some r) (joining : r.state = .joining) : exec .assignConfirmed s =
      .next (((s.setLine l ((s.line l).removeConcluded .assign ref)).joinConfirmed ref.handle o.joinKind r).completeLine
        l) := by
  show execAssignConfirmed s = _
  rw [execAssignConfirmed, runs.claim]
  dsimp only
  rw [State.outcomeClaim_of_concluding order found, if_pos joining]

/-- The end of a join that is not confirmed: a pinned record returns to RESERVED (R41); any other gives its station up,
FREE after a DECLINE and QUARANTINED otherwise, and is freed (R120, R121). -/
def State.abandonJoin (s : State) (h : Handle) (r : Record) (result : OrderResult) : State :=
  if r.pinned then s.returnToReserved h .joinAbandoned
  else
    let abandoned := s.setRecord h { r with outcome := .joinAbandoned }
    (if result = .decline then abandoned.setMap r.line r.station .free
      else abandoned.quarantine r.line r.station none).freeMarked h ChangeMask.outcome

theorem State.joinDeclined_eq {s : State} {h : Handle} {r : Record} (found : s.record? h = some r) :
    s.joinDeclined h r = s.abandonJoin h r .decline := by
  rw [State.joinDeclined, State.setOutcome, State.modRecord_eq _ _ _ _ found]
  rfl

theorem State.endRecord_joinAbandoned_eq {s : State} {h : Handle} {r : Record} (found : s.record? h = some r) :
    s.endRecord h .joinAbandoned = s.abandonJoin h r .exhausted :=
  State.endRecord_eq s h .joinAbandoned r found

theorem exec_assignAbandoned {s : State} {l : Line} {ref : Ref} {o : Order} {r : Record} {c : Instr}
    {result : OrderResult} (row : c = .assignDeclined ∧ result = .decline ∨ c = .assignExhausted ∧ result = .exhausted)
    (runs : s.LineRuns l (.outcome .assign ref result)) (order : s.concluding? l .assign ref = some o)
    (found : s.current? ref = some r) (joining : r.state = .joining) : exec c s = .next
      (((s.setLine l ((s.line l).removeConcluded .assign ref)).abandonJoin ref.handle r result).completeLine l) := by
  have still : (s.setLine l ((s.line l).removeConcluded .assign ref)).record? ref.handle = some r :=
    State.record?_of_current? found
  obtain ⟨rfl, rfl⟩ | ⟨rfl, rfl⟩ := row
  · show execAssignDeclined s = _
    rw [execAssignDeclined, runs.claim]
    dsimp only
    rw [State.outcomeClaim_of_concluding order found, if_pos joining, State.joinDeclined_eq still]
  · show execAssignExhausted s = _
    rw [execAssignExhausted, runs.claim]
    dsimp only
    rw [State.outcomeClaim_of_concluding order found, if_pos joining, State.endRecord_joinAbandoned_eq still]

@[simp] theorem State.mapAt_freeMarked (s : State) (h : Handle) (more : ChangeMask) (l : Line) (st : Station) :
    (s.freeMarked h more).mapAt l st = s.mapAt l st := by
  simp [State.mapAt]

@[simp] theorem State.quarOf_freeMarked (s : State) (h : Handle) (more : ChangeMask) (l : Line) :
    (s.freeMarked h more).quarOf l = s.quarOf l := by
  simp [State.quarOf]

section
variable {s : State} {h : Handle} {r : Record}

theorem State.abandonJoin_of_pinned (found : s.record? h = some r) (pinned : r.pinned = true) (result : OrderResult) :
    s.abandonJoin h r result = ((s.setLine r.line ((s.line r.line).without (s.refOf h) r)).setRecord h
      (r.returned .joinAbandoned)).mark h (ChangeMask.state ||| ChangeMask.outcome) := by
  rw [State.abandonJoin, if_pos pinned, State.returnToReserved_is s found]

theorem State.slot_abandonJoin_self (s : State) (h : Handle) (unpinned : r.pinned = false) (result : OrderResult) :
    ((s.abandonJoin h r result).slot h).FreedFrom (s.slot h) r .joinAbandoned ChangeMask.outcome := by
  rw [State.abandonJoin, if_neg (by simp [unpinned])]
  dsimp only
  rw [State.slot_freeMarked (r := { r with outcome := .joinAbandoned }) _ _ _ _ (by split <;> simp), if_pos rfl]
  split <;> simp [Slot.FreedFrom]

theorem State.slot_abandonJoin_of_ne (found : s.record? h = some r) {k : Handle} (ne : k ≠ h) (result : OrderResult) :
    (s.abandonJoin h r result).slot k = s.slot k := by
  rw [State.abandonJoin]
  split
  · exact s.slot_returnToReserved_of_ne _ ne r found
  · dsimp only
    rw [State.slot_freeMarked_of_ne _ _ ne]
    split <;> simp [State.slot_setRecord_of_ne _ _ ne]

theorem State.mapAt_abandonJoin (found : s.record? h = some r) (result : OrderResult) (l : Line) (st : Station) :
    (s.abandonJoin h r result).mapAt l st = if l = r.line ∧ st = r.station ∧ r.pinned = false
      then (if result = .decline then .free else .quarantined) else s.mapAt l st := by
  cases pinned : r.pinned with
  | true => simp [State.abandonJoin_of_pinned found pinned]
  | false =>
    rw [State.abandonJoin, if_neg (by simp [pinned])]
    dsimp only
    rw [State.mapAt_freeMarked]
    split <;> simp [State.mapAt_setMap, State.mapAt_quarantine]

theorem State.quarOf_abandonJoin (found : s.record? h = some r) (result : OrderResult) (l : Line) :
    (s.abandonJoin h r result).quarOf l = if l = r.line ∧ result ≠ .decline ∧ r.pinned = false
      then s.quarOf r.line ++ [⟨r.station, s.arb.grantCfg.quarHold, none⟩] else s.quarOf l := by
  cases pinned : r.pinned with
  | true => simp [State.abandonJoin_of_pinned found pinned]
  | false =>
    rw [State.abandonJoin, if_neg (by simp [pinned])]
    dsimp only
    rw [State.quarOf_freeMarked]
    split
    · next declined => simp [declined]
    · next silent => simp [State.quarOf_quarantine, silent]

theorem State.line_abandonJoin (found : s.record? h = some r) (result : OrderResult) (l : Line) :
    (s.abandonJoin h r result).line l = if l = r.line then (s.line r.line).without (s.refOf h) r else s.line l := by
  cases pinned : r.pinned with
  | true =>
    rw [State.abandonJoin_of_pinned found pinned, State.line_mark, State.line_setRecord, State.line_setLine]
  | false =>
    rw [State.abandonJoin, if_neg (by simp [pinned])]
    dsimp only
    have outcome (e : LineEngine) (ref : Ref) : e.without ref { r with outcome := .joinAbandoned } = e.without ref r :=
      LineEngine.without_congr _ _ rfl rfl
    rw [State.freeMarked_is (r := { r with outcome := .joinAbandoned }) _ (by split <;> simp), State.line_markFreed,
      State.line_emptySlot, State.line_setLine, outcome]
    by_cases declined : result = .decline <;> simp [declined]

end

/-! ### The obligations of joining -/

/-- Settles O44, by the policy, the free way and the free station. -/
theorem joinOfANewIdentity : Obligations.JoinOfANewIdentity := by
  intro s l id caps unknown call room filled refusal
  have holds : (s.line l).HoldsCall := ⟨call, room⟩
  refine ⟨fun runs => ?_, fun runs => ?_⟩
  · rw [exec_joinClaim runs, State.joinClaim_of_unknown unknown, if_neg nofun]
    refine ⟨fun h st way station => ?_, fun full => ?_, fun way crowded => ?_⟩
    · rw [State.joinNew_eq way station holds]
      rfl
    · rw [State.joinNew, full]
      dsimp only
      rw [State.refuseJoin_eq holds, State.refusalAlso, satInc16_eq]
      rfl
    · obtain ⟨h, way⟩ := Option.isSome_iff_exists.mp way
      rw [State.joinNew, way, crowded]
      dsimp only
      rw [State.refuseJoin_eq holds]
      rfl
  · rw [exec_joinClaim runs, State.joinClaim_of_unknown unknown, if_pos rfl, State.refuseJoin_eq holds]
    rfl

/-- Settles O45, by the policy, then the record's line and state. -/
theorem joinOfAKnownIdentity : Obligations.JoinOfAKnownIdentity := by
  intro s l id caps p h r known found same call room runs ref list taken filled refusal assign marked joins joining
    joined own reservedHere
  subst same
  have holds : (s.line l).HoldsCall := ⟨call, room⟩
  have claim : exec .joinClaim s = .next ((if p = .reservedOnly ∧ ¬ reservedHere
      then s.refuseJoin l r.identity .notReserved else s.joinFound l h r caps).completeLine l) := by
    rw [exec_joinClaim runs, State.joinClaim_of_known known found]
  have refused (reason : RefusalReason) : s.refuseJoin l r.identity reason = (refusal reason).refusalAlso l reason :=
    State.refuseJoin_eq holds ..
  refine ⟨fun only elsewhere => ?_, fun passes => ?_⟩
  · rw [claim, if_pos ⟨only, elsewhere⟩, refused]
    rfl
  have claim : exec .joinClaim s = .next ((s.joinFound l h r caps).completeLine l) := by
    rw [claim, if_neg]
    rintro ⟨rfl, elsewhere⟩
    obtain other | ⟨-, here⟩ := passes
    · cases other
    · exact elsewhere here
  have completes {u v : State} (work : s.joinFound l h r caps = u) (same : u = v) :
      exec .joinClaim s = .next (v.completeLine l) := by rw [claim, work, same]
  refine ⟨fun here states => ?_, fun here lapsed => ?_, fun x here moving => ?_, fun st away station =>
    ⟨fun quiet => ?_, fun lapsed => ?_⟩, fun here again => ?_, fun away states crowded => ?_, fun retiring => ?_,
    fun away reserved => ?_, fun away states => ?_⟩
  · subst here
    refine completes (State.joinFound_of_rejoining s h states caps) ((State.rejoin_eq found holds caps _).trans ?_)
    have undirected : r.state.directed = none := by obtain state | state | state := states <;> rw [state] <;> rfl
    have left : own = (s.line r.line).unrequested ref r.requestPending :=
      LineEngine.without_of_undirected _ _ undirected
    rw [left]
    rfl
  · subst here
    have left : own = (s.line r.line).unrequested ref r.requestPending :=
      LineEngine.without_of_undirected _ _ (by rw [lapsed]; rfl)
    have back : (s.takeBack r.line h r).record? h = some r := found
    refine completes (by rw [State.joinFound, if_pos rfl, lapsed]) ((State.rejoin_eq back holds caps .rebound).trans ?_)
    rw [left]
    rfl
  · subst here
    have rejoins := State.rejoin_of_moving found moving holds caps
    refine ⟨_, completes (by rw [State.joinFound, if_pos rfl, moving]) rejoins, ?_, ?_, fun k ne => ?_, ?_, ?_, ?_,
      ?_, ?_⟩
    · simp [joined, joining, list]
    · simp [State.mask_capsMarked_self, list]
    · simp [State.slot_capsMarked_of_ne, State.slot_setRecord_of_ne, ne]
    · simp [State.mapAt_abandonMove]
    · cases sent : s.moveSent h <;> simp [State.quarOf_abandonMove, sent]
    · rw [State.orders_completeLine, State.line_setLine_self]
      rfl
    · rw [State.reservations_completeLine, State.line_setLine_self]
      rfl
    · simp [State.line_abandonMove]
  · exact completes (by rw [State.joinFound, if_neg away, quiet])
      (State.migrate_of_quiet found quiet away station holds caps)
  · exact completes (by rw [State.joinFound, if_neg away, lapsed])
      (State.migrate_of_lapsed found lapsed station holds caps)
  · refine completes (by rw [State.joinFound, if_pos here, again]) ((State.joinAgain_eq found l caps).trans ?_)
    rw [← LineEngine.orders_assignRefreshed]
    rfl
  · have migrates : s.joinFound l h r caps = s.migrate l h r caps := by
      rw [State.joinFound, if_neg away]
      obtain state | state := states <;> rw [state]
    refine completes migrates (Eq.trans ?_ (refused .noStation))
    rw [State.migrate, crowded]
  · refine completes ?_ (refused .retiring)
    rw [State.joinFound, retiring]
    exact ite_self _
  · exact completes (by rw [State.joinFound, if_neg away, reserved]) (refused .wrongLine)
  · refine completes ?_ (refused .duplicate)
    rw [State.joinFound, if_neg away]
    obtain state | state | ⟨x, state⟩ := states <;> rw [state]

/-- Settles O49, from the conclusion of a confirmed join and of an abandoned one. -/
theorem assignOutcomesConcludeTheJoin : Obligations.AssignOutcomesConcludeTheJoin := by
  intro s l ref o r order found joining
  refine ⟨fun st len k runs payload => ?_, fun c result row runs here => ?_⟩
  · have kind : o.joinKind = k := by rw [Order.joinKind, payload]
    rw [exec_assignConfirmed runs order found joining, kind, State.joinConfirmed, satInc_eq]
    cases k <;> rfl
  · subst here
    have record : (s.setLine r.line ((s.line r.line).removeConcluded .assign ref)).record? ref.handle = some r :=
      State.record?_of_current? found
    have line := State.line_abandonJoin record result
    have quar := State.quarOf_abandonJoin record result
    have map := State.mapAt_abandonJoin record result
    have name : s.refOf ref.handle = ref := State.refOf_of_current? found
    intro left
    have own : ((s.setLine r.line ((s.line r.line).removeConcluded .assign ref)).abandonJoin ref.handle r result).line
        r.line = left := by
      rw [line, if_pos rfl, State.line_setLine_self, State.refOf_setLine, name]
      rfl
    refine ⟨_, exec_assignAbandoned row runs order found joining, fun unpinned => ⟨?_, ?_, ?_⟩,
      fun pinned => ⟨?_, ?_, ?_, ?_⟩, fun k ne => ?_, fun k st elsewhere => ?_, ?_, ?_, ?_, ?_⟩
    · rw [State.slot_completeLine]
      exact State.slot_abandonJoin_self _ _ unpinned result
    · simp [map, unpinned]
    · rw [State.quarOf_completeLine, quar]
      by_cases declined : result = .decline <;> simp [unpinned, declined]
    · simp [State.abandonJoin_of_pinned record pinned]
    · simp [State.abandonJoin_of_pinned record pinned]
    · simp [map, pinned]
    · simp [quar, pinned]
    · simp [State.slot_abandonJoin_of_ne record ne]
    · rw [State.mapAt_completeLine, map, if_neg, State.mapAt_setLine]
      rintro ⟨rfl, rfl, -⟩
      exact elsewhere rfl
    · simp [quar]
    · rw [State.orders_completeLine, own]
    · rw [State.reservations_completeLine, own]
    · simp [line]

end Sys2Proof.Machine
end

section
/-! The requests of nodes that keep the record: RENEW, RESOLVE, NODE_FIND, MEMBERS and CAPS_REQUEST (Chapter 7). -/

namespace Sys2Proof.Machine

/-! ### The presence part of a request (R98, R123) -/

/-- A record whose request is taken: a presence has been applied to it, unless it is RETIRING (R98, R123). -/
def Record.served (r : Record) : Record :=
  if r.state = .retiring then r
  else { r with missCount := 0, state := if r.state = .quiet then .bound else r.state }

/-- A state in which the record of a request is served; STATE is marked where the record was QUIET (R98). -/
def State.presenceServed (s : State) (h : Handle) (r : Record) : State :=
  if r.state = .quiet then (s.setRecord h r.served).mark h ChangeMask.state else s.setRecord h r.served

theorem RecState.takesRequests_iff {st : RecState} : st.takesRequests = true ↔
    st = .bound ∨ st = .quiet ∨ (∃ x, st = .moving x) ∨ st = .retiring := by
  cases st <;> simp [RecState.takesRequests, RecState.inService]

theorem State.requestPresence_eq {s : State} {h : Handle} {r : Record} (found : s.record? h = some r)
    (takes : r.state.takesRequests = true) : s.requestPresence h r = s.presenceServed h r := by
  unfold State.requestPresence State.applyPresence State.presenceServed Record.served
  obtain bound | quiet | ⟨x, moving⟩ | retiring := RecState.takesRequests_iff.mp takes
  · simp [RecState.inService, bound]
  · simp [RecState.inService, quiet]
  · simp [RecState.inService, moving]
  · simp [RecState.inService, retiring, State.setRecord_record s h r found]

@[simp] theorem State.record?_presenceServed (s : State) (h : Handle) (r : Record) :
    (s.presenceServed h r).record? h = some r.served := by
  unfold State.presenceServed
  split <;> simp

@[simp] theorem State.arb_presenceServed (s : State) (h : Handle) (r : Record) :
    (s.presenceServed h r).arb = s.arb := by
  unfold State.presenceServed
  split <;> simp

theorem State.presenceServed_setLine (s : State) (l : Line) (e : LineEngine) (h : Handle) (r : Record) :
    (s.setLine l e).presenceServed h r = (s.presenceServed h r).setLine l e := by
  unfold State.presenceServed
  split
  · exact State.mark_setLine (s.setRecord h r.served) l e h ChangeMask.state
  · rfl

@[simp] theorem Record.caps_served (r : Record) : r.served.caps = r.caps := by
  unfold Record.served
  split <;> rfl

/-! ### The row that carries out a request claim (log 3) -/

/-- The row of a request claim that the engine carries out does the directory work of the claim and completes it. -/
theorem State.LineRuns.exec_request {s u : State} {l : Line} {st : Station} {ref : Ref} {q : NodeRequest} {c : Instr}
    (runs : s.LineRuns l (.request st ref q)) (row : s.lineRow? l (.request st ref q) = some (c, u)) :
    exec c s = .next (u.completeLine l) := by
  have claim := runs.claim
  cases q <;> cases row
  all_goals show Host.Outcome.next _ = _; rw [claim]

/-! ### The ANSWER that fills a poll's reservation (R90, R124, R131) -/

/-- The state that a request leaves before its claim completes: the record as handled has its request pending, and the
ANSWER fills the poll's reservation in a line engine with the counters given. -/
def State.requestAnswered (s : State) (l : Line) (st : Station) (ref : Ref) (u : State) (record : Record)
    (counters : Vector Nat 32) (code : Byte) (content : List Byte) : State :=
  (u.setRecord ref.handle { record with requestPending := true }).setLine l
    { s.line l with
      reservations := (s.line l).reservations.erase (.poll ref)
      orders := (s.line l).orders ++ [Order.fresh (some ref) (.station st) (.answer code content)
        s.arb.grantCfg.retryLimit false]
      counters := counters }

theorem State.requestAnswered_setRecord (s u : State) (l : Line) (st : Station) (ref : Ref) (r q : Record)
    (counters : Vector Nat 32) (code : Byte) (content : List Byte) :
    s.requestAnswered l st ref (u.setRecord ref.handle r) q counters code content
      = s.requestAnswered l st ref u q counters code content := by
  rw [State.requestAnswered, State.setRecord_setRecord, State.requestAnswered]

/-- The ANSWER takes the entry of the poll's reservation (R90, R131). -/
theorem State.answer_eq {s u : State} {l : Line} {ref : Ref} {q : Record}
    (reserved : .poll ref ∈ (s.line l).reservations)
    (room : (s.line l).orders.length + (s.line l).reservations.length ≤ 8) (found : u.record? ref.handle = some q)
    (arb : u.arb = s.arb) (st : Station) (counters : Vector Nat 32) (code : Byte) (content : List Byte) :
    (u.setLine l { s.line l with counters := counters }).answer l st ref code content
      = s.requestAnswered l st ref u q counters code content := by
  have pending := State.modRecord_eq (u.setLine l { s.line l with counters := counters }) ref.handle
    (fun r => { r with requestPending := true }) q found
  have filled (o : Order) := LineEngine.fill_eq (e := { s.line l with counters := counters }) o reserved room
  rw [State.answer, pending, State.setRecord_setLine, State.modLine, State.line_setLine_self, filled,
    State.setLine_setLine, State.arb_setLine, arb]
  rfl

section
variable {s : State} {l : Line} {st : Station} {ref : Ref} {r : Record}

/-- A request that passes its tests, with the work of its kind given on a state in which the record is served, ends with
its ANSWER in the queue (R123, R124). -/
theorem State.requestClaim_eq {u : State} {q : Record} {counters : Vector Nat 32} {code : Byte} {content : List Byte}
    {handle : State → Record → State × List Byte} (passes : s.requester? l st ref = some r)
    (room : (s.line l).orders.length + (s.line l).reservations.length ≤ 8)
    (handled : handle ((s.presenceServed ref.handle r).setLine l ((s.line l).bump .requestsTaken)) r
      = (u.setLine l { s.line l with counters := counters }, content))
    (found : u.record? ref.handle = some q) (arb : u.arb = s.arb) :
    s.requestClaim l st ref code handle = s.requestAnswered l st ref u q counters code content := by
  obtain ⟨⟨current, -⟩, takes, reserved⟩ := State.requester?_eq_some.mp passes
  have record : (s.setLine l ((s.line l).bump .requestsTaken)).record? ref.handle = some r :=
    State.record?_of_current? current
  have presence : (s.bump l .requestsTaken).requestPresence ref.handle r
      = (s.presenceServed ref.handle r).setLine l ((s.line l).bump .requestsTaken) :=
    (State.requestPresence_eq record takes).trans (State.presenceServed_setLine ..)
  rw [State.requestClaim, passes]
  dsimp only
  rw [presence, handled]
  exact State.answer_eq reserved room found arb st counters code content

/-- A request whose kind changes nothing but reads the directory (R128, R129). -/
theorem State.requestClaim_of_reading {code : Byte} (passes : s.requester? l st ref = some r)
    (room : (s.line l).orders.length + (s.line l).reservations.length ≤ 8) (content : State → List Byte) :
    s.requestClaim l st ref code (fun u _ => (u, content u)) =
      s.requestAnswered l st ref (s.presenceServed ref.handle r) r.served ((s.line l).bump .requestsTaken).counters code
        (content ((s.presenceServed ref.handle r).setLine l ((s.line l).bump .requestsTaken))) :=
  State.requestClaim_eq passes room rfl (by simp) (by simp)

/-- RENEW sets the lease remaining to what it grants, except for a RETIRING record (R57, R125). -/
theorem State.requestClaim_renew (passes : s.requester? l st ref = some r)
    (room : (s.line l).orders.length + (s.line l).reservations.length ≤ 8) (ticks : Nat) :
    s.requestClaim l st ref 0x01 (State.renewRequest ref ticks) =
      s.requestAnswered l st ref (s.presenceServed ref.handle r)
        { r.served with leaseRemaining := if r.state = .retiring then r.leaseRemaining else r.granted ticks }
        ((s.line l).bump .requestsTaken).counters 0x01 (be16 (r.granted ticks) ++ be16 r.leaseLength) := by
  by_cases retiring : r.state = .retiring
  · have lease : { r.served with leaseRemaining := r.leaseRemaining } = r.served := by
      rw [Record.served, if_pos retiring]
    rw [if_pos retiring, lease]
    exact State.requestClaim_eq passes room (by simp only [State.renewRequest, if_pos retiring]; rfl) (by simp)
      (by simp)
  · have renewed := State.modRecord_eq ((s.presenceServed ref.handle r).setLine l ((s.line l).bump .requestsTaken))
      ref.handle (fun r' => { r' with leaseRemaining := r.granted ticks }) r.served (by simp)
    rw [State.setRecord_setLine] at renewed
    rw [if_neg retiring]
    exact (State.requestClaim_eq passes room (by simp only [State.renewRequest, if_neg retiring, renewed]; rfl)
      (State.record?_setRecord_self ..) (by simp)).trans (State.requestAnswered_setRecord ..)

/-- A mark adds to a mask, whatever the record of the slot is. -/
theorem State.mark_setRecord (s : State) (h : Handle) (q : Record) (a : ChangeMask) :
    (s.setRecord h q).mark h a = (s.mark h a).setRecord h q := by
  have slot : (s.setRecord h q).setSlot h { (s.setRecord h q).slot h with mask := (s.slot h).mask ||| a }
      = (s.setSlot h { s.slot h with mask := (s.slot h).mask ||| a }).setRecord h q := by simp [State.setRecord]
  unfold State.mark
  dsimp only
  rw [State.mask_setRecord, slot]
  split <;> rfl

theorem State.capsMarked_setRecord (s : State) (h : Handle) (q : Record) (old list : List CapEntry) :
    (s.setRecord h q).capsMarked h old list = (s.capsMarked h old list).setRecord h q := by
  unfold State.capsMarked
  split
  · rfl
  · exact s.mark_setRecord h q _

/-- CAPS_REQUEST takes its list in and answers the number of entries kept (R117, R130). -/
theorem State.requestClaim_caps (passes : s.requester? l st ref = some r)
    (room : (s.line l).orders.length + (s.line l).reservations.length ≤ 8) (es : List CapEntry) :
    s.requestClaim l st ref 0x06 (State.capsRequest l ref es) =
      s.requestAnswered l st ref ((s.presenceServed ref.handle r).capsMarked ref.handle r.caps (intake es).kept)
        { r.served with caps := (intake es).kept }
        (((s.line l).bump .requestsTaken).counted (intake es)).counters 0x06 [byteOf (intake es).kept.length] := by
  have taken := State.takeCaps_eq (s := (s.presenceServed ref.handle r).setLine l ((s.line l).bump .requestsTaken))
    (h := ref.handle) (r := r.served) (by simp) l es
  rw [State.line_setLine_self, State.setRecord_setLine, State.capsMarked_setLine, State.setLine_setLine,
    State.capsMarked_setRecord, Record.caps_served, LineEngine.counted_of_counters rfl] at taken
  rw [State.requestClaim_eq passes room (by rw [State.capsRequest, taken]; rfl) (State.record?_setRecord_self ..)
    (by simp), State.requestAnswered_setRecord]

end

/-! ### The obligation of these requests -/

/-- Settles O46: each request passes its tests, and its ANSWER carries what the work of its kind gives. -/
theorem requestsAreAnswered : Obligations.RequestsAreAnswered := by
  intro s l st ref r current line station held states reserved room served after taken answered
  have passes : s.requester? l st ref = some r := State.requester?_eq_some.mpr
    ⟨⟨current, line, station, held⟩, RecState.takesRequests_iff.mpr states, reserved⟩
  have answers {c : Instr} {q : NodeRequest} {u v : State} (runs : s.LineRuns l (.request st ref q))
      (row : s.lineRow? l (.request st ref q) = some (c, u)) (work : u = v) : exec c s = .next (v.completeLine l) :=
    work ▸ runs.exec_request row
  exact ⟨fun n runs => answers runs rfl (State.requestClaim_renew passes room n),
    fun id runs => answers runs rfl (State.requestClaim_of_reading passes room _),
    fun cls start runs => answers runs rfl (State.requestClaim_of_reading passes room _),
    fun g start runs => answers runs rfl (State.requestClaim_of_reading passes room _),
    fun es runs => answers runs rfl (State.requestClaim_caps passes room es)⟩

end Sys2Proof.Machine
end

section
/-! LEAVE, and what the end of a record does to the maps, the lists and the line engines (Chapter 7). -/

namespace Sys2Proof.Machine

/-! ### The end of a record (R41, R42) -/

section
variable {s : State} {h : Handle} {r : Record}

theorem State.endRecord_of_pinned (found : s.record? h = some r) (pinned : r.pinned = true) (o : RecOutcome) :
    s.endRecord h o = ((s.setLine r.line ((s.line r.line).without (s.refOf h) r)).setRecord h (r.returned o)).mark h
      (ChangeMask.state ||| ChangeMask.outcome) := by
  rw [State.endRecord_eq s h o r found, if_pos pinned, State.returnToReserved_is s found]

theorem State.endRecord_of_unpinned (found : s.record? h = some r) (unpinned : r.pinned = false) (o : RecOutcome) :
    s.endRecord h o = ((s.setRecord h { r with outcome := o }).quarantine r.line r.station none).freeMarked h
      ChangeMask.outcome := by
  rw [State.endRecord_eq s h o r found, if_neg (by simp [unpinned])]

theorem State.freedFrom_endRecord (found : s.record? h = some r) (unpinned : r.pinned = false) (o : RecOutcome) :
    ((s.endRecord h o).slot h).FreedFrom (s.slot h) r o ChangeMask.outcome := by
  rw [State.endRecord_of_unpinned found unpinned,
    State.slot_freeMarked (r := { r with outcome := o }) _ _ _ _ (by simp), if_pos rfl]
  simp [Slot.FreedFrom]

theorem State.mapAt_endRecord (found : s.record? h = some r) (o : RecOutcome) (l : Line) (st : Station) :
    (s.endRecord h o).mapAt l st =
      if l = r.line ∧ st = r.station ∧ r.pinned = false then .quarantined else s.mapAt l st := by
  cases pinned : r.pinned with
  | true => simp [State.endRecord_of_pinned found pinned]
  | false => simp [State.endRecord_of_unpinned found pinned, State.mapAt_quarantine]

theorem State.quarOf_endRecord (found : s.record? h = some r) (o : RecOutcome) (l : Line) :
    (s.endRecord h o).quarOf l = s.quarOf l ++
      if l = r.line ∧ r.pinned = false then [⟨r.station, s.arb.grantCfg.quarHold, none⟩] else [] := by
  cases pinned : r.pinned with
  | true => simp [State.endRecord_of_pinned found pinned]
  | false =>
    rw [State.endRecord_of_unpinned found pinned, State.quarOf_freeMarked, State.quarOf_quarantine]
    split
    · next own => simp [own]
    · next other => simp [other]

/-! ### The record without its move (R31, R126) -/

/-- A state in which the move of a record, if it is MOVING, has been abandoned. -/
def State.withoutMove (s : State) (h : Handle) (r : Record) : State :=
  match r.state with
  | .moving x => s.abandonMove h r.line x
  | _ => s

theorem State.withoutMove_cases (s : State) (h : Handle) (r : Record) :
    (∃ x, r.state = .moving x ∧ s.withoutMove h r = s.abandonMove h r.line x)
      ∨ (∀ x, r.state ≠ .moving x) ∧ s.withoutMove h r = s := by
  unfold State.withoutMove
  split
  · next x moving => exact .inl ⟨x, moving, rfl⟩
  · next still => exact .inr ⟨still, rfl⟩

@[simp] theorem State.slot_withoutMove (s : State) (h k : Handle) (r : Record) :
    (s.withoutMove h r).slot k = s.slot k := by
  obtain ⟨x, -, moved⟩ | ⟨-, moved⟩ := s.withoutMove_cases h r <;> simp [moved]

@[simp] theorem State.record?_withoutMove (s : State) (h k : Handle) (r : Record) :
    (s.withoutMove h r).record? k = s.record? k := by
  simp [State.record?]

@[simp] theorem State.refOf_withoutMove (s : State) (h k : Handle) (r : Record) :
    (s.withoutMove h r).refOf k = s.refOf k := by
  simp [State.refOf]

@[simp] theorem State.arb_withoutMove (s : State) (h : Handle) (r : Record) : (s.withoutMove h r).arb = s.arb := by
  obtain ⟨x, -, moved⟩ | ⟨-, moved⟩ := s.withoutMove_cases h r <;> simp [moved]

@[simp] theorem State.cfg_withoutMove (s : State) (h : Handle) (r : Record) : (s.withoutMove h r).cfg = s.cfg := by
  obtain ⟨x, -, moved⟩ | ⟨-, moved⟩ := s.withoutMove_cases h r <;> simp [moved]

theorem State.mapAt_withoutMove (s : State) (h : Handle) (r : Record) (l : Line) (st : Station) :
    (s.withoutMove h r).mapAt l st = if l = r.line ∧ r.state = .moving st
      then (if s.moveSent h then .quarantined else .free) else s.mapAt l st := by
  obtain ⟨x, moving, moved⟩ | ⟨still, moved⟩ := s.withoutMove_cases h r
  · simp only [moved, State.mapAt_abandonMove, moving, RecState.moving.injEq, eq_comm]
  · rw [moved, if_neg fun ⟨_, moving⟩ => still st moving]

theorem State.moveEntries_of_still (s : State) (h : Handle) {r : Record} (still : ∀ x, r.state ≠ .moving x) :
    s.moveEntries h r = [] := by
  unfold State.moveEntries
  split
  · next x moving => exact absurd moving (still x)
  · rfl

theorem State.moveEntries_of_moving (s : State) (h : Handle) {r : Record} {x : Station} (moving : r.state = .moving x) :
    s.moveEntries h r = if s.moveSent h then [⟨x, s.arb.grantCfg.quarHold, none⟩] else [] := by
  rw [State.moveEntries, moving]

theorem State.quarOf_withoutMove (s : State) (h : Handle) (r : Record) (l : Line) :
    (s.withoutMove h r).quarOf l = s.quarOf l ++ if l = r.line then s.moveEntries h r else [] := by
  obtain ⟨x, moving, moved⟩ | ⟨still, moved⟩ := s.withoutMove_cases h r
  · rw [moved, State.quarOf_abandonMove, s.moveEntries_of_moving h moving]
    by_cases own : l = r.line <;> simp [own]
  · simp [moved, s.moveEntries_of_still h still]

/-- The end of a record leaves nothing of its orders, whether or not its REASSIGN was withdrawn before (R31, R41). -/
theorem State.line_withoutMove_without (s : State) (h : Handle) (r : Record) :
    ((s.withoutMove h r).line r.line).without (s.refOf h) r = (s.line r.line).without (s.refOf h) r := by
  obtain ⟨x, moving, moved⟩ | ⟨-, moved⟩ := s.withoutMove_cases h r
  · rw [moved, State.line_abandonMove, if_pos rfl, LineEngine.without_abandoned _ _ moving]
  · rw [moved]

theorem State.line_withoutMove_of_ne (s : State) (h : Handle) {r : Record} {l : Line} (ne : l ≠ r.line) :
    (s.withoutMove h r).line l = s.line l := by
  obtain ⟨x, -, moved⟩ | ⟨-, moved⟩ := s.withoutMove_cases h r
  · rw [moved, State.line_abandonMove, if_neg ne]
  · rw [moved]

end

/-! ### What a LEAVE does to the record (R126, R127) -/

@[simp] theorem State.record?_bump (s : State) (l : Line) (c : Ctr) (h : Handle) :
    (s.bump l c).record? h = s.record? h := rfl

/-- Whether a move was sent does not rest on the counters. -/
@[simp] theorem State.moveSent_bump (s : State) (l : Line) (c : Ctr) (h : Handle) :
    (s.bump l c).moveSent h = s.moveSent h := by
  have order (k : Line) (ref : Ref) : ((s.bump l c).line k).liveOrder? .reassign ref
      = (s.line k).liveOrder? .reassign ref := by
    simp only [State.bump, State.modLine, State.line_setLine]
    split
    · next own => rw [own]; rfl
    · rfl
  unfold State.moveSent
  simp only [order]
  rfl

@[simp] theorem State.moveEntries_bump (s : State) (l : Line) (c : Ctr) (h : Handle) (r : Record) :
    (s.bump l c).moveEntries h r = s.moveEntries h r := by
  unfold State.moveEntries
  rw [State.moveSent_bump]
  rfl

/-- The outcome of a record that leaves (R126, R127). -/
def Record.leftOutcome (r : Record) : RecOutcome := if r.state = .retiring then .retired else .left

/-- The state of a LEAVE before its ANSWER: the request is counted, and the record has left. -/
def State.left (s : State) (h : Handle) (r : Record) : State :=
  (s.bump r.line .requestsTaken).leaveRecord r.line h r

/-- The record of a LEAVE ends, its move abandoned first (R126, R127). -/
theorem State.left_eq (s : State) (h : Handle) (r : Record) :
    s.left h r = ((s.bump r.line .requestsTaken).withoutMove h r).endRecord h r.leftOutcome := by
  unfold State.left State.leaveRecord State.withoutMove Record.leftOutcome
  cases state : r.state <;> rfl

section
variable {s : State} {h : Handle} {r : Record}

theorem State.freedFrom_left (found : s.record? h = some r) (unpinned : r.pinned = false) :
    ((s.left h r).slot h).FreedFrom (s.slot h) r r.leftOutcome ChangeMask.outcome := by
  have freed := State.freedFrom_endRecord (s := (s.bump r.line .requestsTaken).withoutMove h r) (h := h)
    (by simpa using found) unpinned r.leftOutcome
  rwa [← State.left_eq, State.slot_withoutMove] at freed

theorem State.slot_left_of_pinned (found : s.record? h = some r) (pinned : r.pinned = true) :
    (s.left h r).slot h = { s.slot h with
      content := some (r.returned r.leftOutcome)
      mask := (s.slot h).mask ||| (ChangeMask.state ||| ChangeMask.outcome) } := by
  rw [State.left_eq, State.endRecord_of_pinned (by simpa using found) pinned, State.slot_mark_self,
    State.slot_setRecord_self, State.slot_setLine, State.slot_withoutMove]
  rfl

theorem State.slot_left_of_ne (s : State) (r : Record) {h k : Handle} (ne : k ≠ h) :
    (s.left h r).slot k = s.slot k := by
  rw [State.left_eq, State.slot_endRecord_of_ne _ _ ne, State.slot_withoutMove]
  rfl

theorem State.mapAt_left (found : s.record? h = some r) (l : Line) (st : Station) :
    (s.left h r).mapAt l st =
      if l = r.line ∧ st = r.station ∧ r.pinned = false then .quarantined
      else if l = r.line ∧ r.state = .moving st then (if s.moveSent h then .quarantined else .free)
      else s.mapAt l st := by
  rw [State.left_eq, State.mapAt_endRecord (by simpa using found), State.mapAt_withoutMove, State.moveSent_bump]
  rfl

theorem State.quarOf_left (found : s.record? h = some r) (l : Line) :
    (s.left h r).quarOf l = s.quarOf l ++ if l = r.line
      then s.moveEntries h r ++ (if r.pinned then [] else [⟨r.station, s.arb.grantCfg.quarHold, none⟩]) else [] := by
  have quar : (s.bump r.line .requestsTaken).quarOf l = s.quarOf l := rfl
  have arb : (s.bump r.line .requestsTaken).arb = s.arb := rfl
  rw [State.left_eq, State.quarOf_endRecord (by simpa using found), State.quarOf_withoutMove, State.arb_withoutMove,
    State.moveEntries_bump, quar, arb]
  by_cases own : l = r.line <;> cases r.pinned <;> simp [own]

theorem State.line_left (found : s.record? h = some r) (l : Line) :
    (s.left h r).line l =
      if l = r.line then ((s.line r.line).bump .requestsTaken).without (s.refOf h) r else s.line l := by
  have name : (s.bump r.line .requestsTaken).refOf h = s.refOf h := rfl
  rw [State.left_eq, State.line_endRecord _ (by simpa using found), State.refOf_withoutMove]
  split
  · next own =>
    rw [own, State.line_withoutMove_without, name, State.bump, State.modLine, State.line_setLine_self]
  · next other =>
    rw [State.line_withoutMove_of_ne _ h other, State.bump, State.modLine, State.line_setLine, if_neg other]

theorem State.arb_left (s : State) (h : Handle) (r : Record) : (s.left h r).arb = s.arb := by
  rw [State.left_eq, State.arb_endRecord, State.arb_withoutMove]
  rfl

theorem State.cfg_left (s : State) (h : Handle) (r : Record) : (s.left h r).cfg = s.cfg := by
  rw [State.left_eq, State.cfg_endRecord, State.cfg_withoutMove]
  rfl

end

/-! ### The terminal ANSWER (R124, R131) -/

/-- The end of a record takes orders and reservations from its line engine, or marks orders withdrawn. -/
theorem LineEngine.shrunk_without (e : LineEngine) (ref : Ref) (r : Record) : e.Shrunk (e.without ref r) :=
  LineEngine.without_keeps (P := e.Shrunk) (fun d k ref shrunk => shrunk.trans (LineEngine.shrunk_withdraw k ref d))
    (fun d ref shrunk => shrunk.trans (LineEngine.shrunk_releasePolls ref d)) (.refl e) ref r

theorem LineEngine.reservations_without (e : LineEngine) (ref : Ref) (r : Record) :
    (e.without ref r).reservations = e.reservations.filter fun x => x != .poll ref := by
  unfold LineEngine.without
  split <;> rfl

theorem LineEngine.counters_without (e : LineEngine) (ref : Ref) (r : Record) :
    (e.without ref r).counters = e.counters :=
  LineEngine.without_keeps (P := fun d => d.counters = e.counters) (fun _ _ _ same => same) (fun _ _ same => same) rfl
    ref r

/-- The end of a record that held a poll's reservation makes room for an order in a queue within its bound (R89). -/
theorem LineEngine.room_without {e : LineEngine} {ref : Ref} (reserved : .poll ref ∈ e.reservations)
    (room : e.orders.length + e.reservations.length ≤ 8) (r : Record) :
    (e.without ref r).orders.length + (e.without ref r).reservations.length < 8 := by
  have orders : (e.without ref r).orders.length ≤ e.orders.length := by
    obtain ⟨os, rs, same, orders, -⟩ := e.shrunk_without ref r
    rw [same]
    exact orders
  have reservations : (e.without ref r).reservations.length < e.reservations.length := by
    rw [LineEngine.reservations_without]
    exact List.length_filter_lt_length_iff_exists.mpr ⟨_, reserved, by simp⟩
  omega

/-- An order that fills a reservation already released takes an entry that is free (R90). -/
theorem LineEngine.fill_of_released {e : LineEngine} {x : Reservation} (o : Order) (released : x ∉ e.reservations)
    (room : e.orders.length + e.reservations.length < 8) : e.fill x o = { e with orders := e.orders ++ [o] } := by
  have same : e.release x = e := by rw [LineEngine.release, List.erase_of_not_mem released]
  rw [LineEngine.fill, same, LineEngine.place_eq o room]

theorem LineEngine.orders_without_bump (e : LineEngine) (c : Ctr) (ref : Ref) (r : Record) :
    ((e.bump c).without ref r).orders = (e.without ref r).orders := by
  unfold LineEngine.without
  split <;> rfl

/-- The terminal ANSWER to a LEAVE (R124, R131). -/
def State.leaveAnswer (s : State) (st : Station) : Order :=
  Order.fresh none (.station st) (.answer 0x02 []) s.arb.grantCfg.retryLimit true

/-- The poll's reservation has gone with the record's request, and the terminal ANSWER takes an entry that is free (R30,
R126). -/
theorem State.leaveClaim_eq {s : State} {ref : Ref} {r : Record} {st : Station}
    (passes : s.requester? r.line st ref = some r)
    (room : (s.line r.line).orders.length + (s.line r.line).reservations.length ≤ 8) :
    s.leaveClaim r.line st ref = (s.left ref.handle r).setLine r.line
      { (s.left ref.handle r).line r.line with
        orders := ((s.left ref.handle r).line r.line).orders ++ [s.leaveAnswer st] } := by
  obtain ⟨⟨current, -⟩, -, reserved⟩ := State.requester?_eq_some.mp passes
  have line := State.line_left (State.record?_of_current? current) r.line
  rw [if_pos rfl, State.refOf_of_current? current] at line
  have filled := LineEngine.fill_of_released (e := (s.left ref.handle r).line r.line) (x := .poll ref)
    (s.leaveAnswer st) (by rw [line]; exact LineEngine.noPoll_without _ _ _)
    (by rw [line]; exact LineEngine.room_without (e := (s.line r.line).bump .requestsTaken) reserved room r)
  have arb : ((s.bump r.line .requestsTaken).leaveRecord r.line ref.handle r).arb = s.arb := s.arb_left ref.handle r
  rw [State.leaveClaim, passes]
  dsimp only
  rw [State.answerLeave, arb]
  exact congrArg ((s.left ref.handle r).setLine r.line) filled

/-! ### The obligation of LEAVE -/

/-- Settles O47: the record leaves, and the terminal ANSWER takes the entry of the poll's reservation. -/
theorem leaveFreesTheRecord : Obligations.LeaveFreesTheRecord := by
  intro s l st ref r runs current line station held states reserved room outcome target
  subst line station
  have found : s.record? ref.handle = some r := State.record?_of_current? current
  have apart : r.state ≠ .moving r.station := by
    obtain bound | quiet | ⟨x, moving, ne⟩ | retiring := states
    · simp [bound]
    · simp [quiet]
    · simpa [moving] using ne
    · simp [retiring]
  have takes : r.state.takesRequests = true := RecState.takesRequests_iff.mpr
    (states.imp_right (.imp_right (.imp_left fun ⟨x, moving, _⟩ => ⟨x, moving⟩)))
  have passes : s.requester? r.line r.station ref = some r :=
    State.requester?_eq_some.mpr ⟨⟨current, rfl, rfl, held⟩, takes, reserved⟩
  have answered : exec .leave s = _ := (runs.exec_request rfl).trans
    (congrArg (fun t => Host.Outcome.next (State.completeLine t r.line)) (State.leaveClaim_eq passes room))
  have map := State.mapAt_left found
  have quar := State.quarOf_left found
  have line := State.line_left found
  rw [State.refOf_of_current? current] at line
  refine ⟨_, s.quarOf r.line ++ s.moveEntries ref.handle r, answered, fun x moving => ⟨?_, ?_⟩, fun still => ?_,
    fun unpinned => ⟨?_, ?_, ?_⟩, fun pinned => ⟨?_, ?_, ?_, ?_⟩, fun k ne => ?_, fun k x noStation noTarget => ?_,
    ?_, ?_, ?_, ?_, ?_, ?_⟩
  · have moving : r.state = .moving x := moving
    have other : x ≠ r.station := fun same => apart (same ▸ moving)
    simp [map, moving, other]
  · rw [s.moveEntries_of_moving ref.handle moving]
    split <;> simp
  · rw [s.moveEntries_of_still ref.handle still, List.append_nil]
  · rw [State.slot_completeLine]
    exact State.freedFrom_left found unpinned
  · simp [map, unpinned]
  · simp [quar, unpinned]
  · rw [State.record?_completeLine, State.record?_setLine, State.record?, State.slot_left_of_pinned found pinned]
    rfl
  · rw [State.slot_completeLine, State.slot_setLine, State.slot_left_of_pinned found pinned]
  · simp [map, pinned, apart, held]
  · simp [quar, pinned]
  · rw [State.slot_completeLine]
    exact State.slot_left_of_ne s r ne
  · rw [State.mapAt_completeLine, State.mapAt_setLine, map, if_neg, if_neg]
    · exact noTarget
    · rintro ⟨rfl, rfl, -⟩
      exact noStation rfl
  · simp [quar]
  · rw [State.orders_completeLine, State.line_setLine_self, line, if_pos rfl, LineEngine.orders_without_bump]
    rfl
  · rw [State.reservations_completeLine, State.line_setLine_self, line, if_pos rfl, LineEngine.reservations_without]
    rfl
  · rw [State.counters_completeLine, State.line_setLine_self, line, if_pos rfl, LineEngine.counters_without]
  · simp [line]
  · simp [State.cfg_left]

end Sys2Proof.Machine
end

section
/-! Reassignment and retirement: the commands REASSIGN and RETIRE, the conclusions of a move, and the outcomes of a RELEASE
and of an ANSWER (Chapters 7 and 8). -/

namespace Sys2Proof.Machine

/-! ### The room of an order queue (R89, R91) -/

theorem LineEngine.place_of_free {e : LineEngine} (o : Order) (free : 0 < e.freeCount) :
    e.place o = { e with orders := e.orders ++ [o] } :=
  if_pos free

/-- The withdrawal of an order that is not being sent frees its entry at once (R91). -/
theorem LineEngine.length_withdraw_lt {e : LineEngine} {k : OrderKind} {ref : Ref} {o : Order}
    (live : e.liveOrder? k ref = some o) (unsent : o.progress ≠ .sending) :
    (e.withdraw k ref).orders.length < e.orders.length := by
  have queued : o ∈ e.orders := List.mem_of_find?_eq_some live
  have named : o.isLive k ref = true := List.find?_some live
  exact List.length_filterMap_lt_length_iff_exists.mpr ⟨o, queued, by rw [if_pos named, if_neg unsent]⟩

/-- A withdrawal takes no entry. -/
theorem LineEngine.freeCount_le_withdraw (e : LineEngine) (k : OrderKind) (ref : Ref) :
    e.freeCount ≤ (e.withdraw k ref).freeCount := by
  have fewer : (e.withdraw k ref).orders.length ≤ e.orders.length := List.length_filterMap_le ..
  have same : (e.withdraw k ref).reservations = e.reservations := rfl
  unfold LineEngine.freeCount
  rw [same]
  omega

/-- In a queue within its bound, the withdrawal of an order that is not being sent leaves an entry free (R89, R91). -/
theorem LineEngine.freeCount_withdraw_pos {e : LineEngine} {k : OrderKind} {ref : Ref} {o : Order}
    (room : e.orders.length + e.reservations.length ≤ 8) (live : e.liveOrder? k ref = some o)
    (unsent : o.progress ≠ .sending) : 0 < (e.withdraw k ref).freeCount := by
  have fewer := LineEngine.length_withdraw_lt live unsent
  have same : (e.withdraw k ref).reservations = e.reservations := rfl
  unfold LineEngine.freeCount
  rw [same]
  omega

theorem LineState.isUp_iff {st : LineState} : st.isUp = true ↔ st = .running ∨ st = .paused := by
  cases st <;> simp [LineState.isUp]

/-! ### REASSIGN (R137, R138) -/

theorem State.reassignTaken_eq {s : State} {r : Record} (h : Handle) (target : Station)
    (free : 0 < (s.line r.line).freeCount) : s.reassignTaken h r target =
      ((s.setRecord h { r with state := .moving target }).setMap r.line target (.target h)).setLine r.line
        { s.line r.line with
          orders := (s.line r.line).orders ++
            [Order.fresh (some (s.refOf h)) (.station r.station) (.reassign target) s.arb.grantCfg.retryLimit
              false] } :=
  congrArg (State.setLine _ r.line) (LineEngine.place_of_free _ free)

/-- The checks of REASSIGN for a record that its reference names, in their order (R137). -/
theorem State.reassignCommand_of_names {s : State} {ref : RefOperand} {b : Byte} {target : Station} {h : Handle}
    {r : Record} (station : stationOf? b = some target) (named : s.Names ref h r) : s.reassignCommand ref b =
      if r.state ≠ .bound then (s, .bare .state)
      else if target = r.station then (s, .bare .badArgument)
      else if (s.line r.line).state ≠ .running ∧ (s.line r.line).state ≠ .paused then (s, .bare .lineDown)
      else if s.mapAt r.line target ≠ .free then (s, .bare .stationBusy)
      else if (s.line r.line).freeCount = 0 then (s, .bare .lineBusy)
      else (s.reassignTaken h r target, .bare .accepted) := by
  have down : (!(s.line r.line).state.isUp) = true
      ↔ (s.line r.line).state ≠ .running ∧ (s.line r.line).state ≠ .paused := by
    rw [Bool.not_eq_true', ← Bool.not_eq_true, LineState.isUp_iff, not_or]
  rw [State.reassignCommand, station]
  dsimp only
  rw [State.withReference_of_names named]
  simp only [down]

/-- A refused command changes nothing but its slot and the arbiter (R164, R174). -/
theorem State.HostRuns.completes_refused {s : State} {i : Fin 4} {f : CmdFrame} {c : HostCmd} (runs : s.HostRuns i f c)
    (st : Status) : State.completeHost (s, .bare st) = s.answered i f st [] :=
  runs.completes rfl

/-- Settles O20, by the checks in their order and the work of a REASSIGN that passes them. -/
theorem reassignStartsAMove : Obligations.ReassignStartsAMove := by
  intro s i f ref b target h r runs station named
  rw [runs.exec_eq rfl, State.reassignCommand_of_names station named]
  refine congrArg Host.Outcome.next ?_
  by_cases bound : r.state ≠ .bound
  · rw [if_pos bound, if_pos bound]
    exact runs.completes_refused .state
  rw [if_neg bound, if_neg bound]
  by_cases own : target = r.station
  · rw [if_pos own, if_pos own]
    exact runs.completes_refused .badArgument
  rw [if_neg own, if_neg own]
  by_cases down : (s.line r.line).state ≠ .running ∧ (s.line r.line).state ≠ .paused
  · rw [if_pos down, if_pos down]
    exact runs.completes_refused .lineDown
  rw [if_neg down, if_neg down]
  by_cases taken : s.mapAt r.line target ≠ .free
  · rw [if_pos taken, if_pos taken]
    exact runs.completes_refused .stationBusy
  rw [if_neg taken, if_neg taken]
  by_cases full : (s.line r.line).freeCount = 0
  · rw [if_pos full, if_pos full]
    exact runs.completes_refused .lineBusy
  · rw [if_neg full, if_neg full, State.reassignTaken_eq h target (Nat.pos_of_ne_zero full)]
    exact runs.completes rfl

/-! ### RETIRE (R144 to R146) -/

/-- FORGET clears the pin of the record that is retired (R145). -/
def Record.forgotten (r : Record) (option : Byte) : Record :=
  { r with pinned := if option = 1 then false else r.pinned }

/-- A record that is still pinned after FORGET was not forgotten. -/
theorem Record.forgotten_of_pinned {r : Record} {o : Byte} (pinned : (r.forgotten o).pinned = true) :
    r.forgotten o = r := by
  unfold Record.forgotten at pinned ⊢
  split at pinned
  · cases pinned
  · next keep => rw [if_neg keep]

@[simp] theorem Record.state_forgotten (r : Record) (o : Byte) : (r.forgotten o).state = r.state := rfl
@[simp] theorem Record.line_forgotten (r : Record) (o : Byte) : (r.forgotten o).line = r.line := rfl

/-- The checks of RETIRE for a record that its reference names, in their order (R144). -/
theorem State.retireCommand_of_names {s : State} {ref : RefOperand} {o : Byte} {h : Handle} {r : Record}
    (option : o = 0 ∨ o = 1) (named : s.Names ref h r) : s.retireCommand ref o =
      if r.state = .reserved ∨ r.state = .retiring ∨ r.state = .lapsed then (s, .bare .state)
      else if ¬ ((s.line r.line).state = .running ∨ (s.line r.line).state = .paused) then (s, .bare .lineDown)
      else if r.state ≠ .joining ∧ s.canTakeRelease h r = false then (s, .bare .lineBusy)
      else (s.setRecord h (r.forgotten o)).retireTaken h (r.forgotten o) := by
  have inRange : ¬ (o ≠ 0 ∧ o ≠ 1) := fun ⟨not0, not1⟩ => option.elim not0 not1
  have forgets : (if o = 1 then { r with pinned := false } else r) = r.forgotten o := by
    unfold Record.forgotten
    split <;> rfl
  rw [State.retireCommand, if_neg inRange, State.withReference_of_names named, forgets]
  simp only [← LineState.isUp_iff]
  cases r.state <;> simp

/-- A RETIRE whose work is done completes with its reply (R22, R164). -/
theorem State.HostRuns.exec_retire {s t : State} {i : Fin 4} {f : CmdFrame} {ref : RefOperand} {o : Byte} {st : Status}
    (runs : s.HostRuns i f (.retire ref o)) (work : s.retireCommand ref o = (t, .bare st)) :
    exec .retire s = .next (t.answered i f st []) :=
  runs.exec_bare (congrArg (fun x => some (_, x)) work) (by simpa only [work] using s.keeps_retireCommand ref o)

/-- A record that has become RETIRING, with its RELEASE order at the tail of its line's queue (R146). -/
def State.retiring (s : State) (h : Handle) (r : Record) (d : Dest) : State :=
  (s.setRecord h { r with state := .retiring }).setLine r.line
    { s.line r.line with
      orders := (s.line r.line).orders ++
        [Order.fresh (some (s.refOf h)) d .release s.arb.grantCfg.retryLimit false] }

theorem State.placeRelease_eq {s : State} {h : Handle} {r : Record} (found : s.record? h = some r) (d : Dest)
    (free : 0 < (s.line r.line).freeCount) : s.placeRelease h r.line d = s.retiring h r d := by
  rw [State.placeRelease, State.modRecord_eq _ _ _ _ found, State.modLine, State.line_setRecord,
    LineEngine.place_of_free _ free]
  rfl

@[simp] theorem State.retiring_setRecord (s : State) (h : Handle) (r q : Record) (d : Dest) :
    (s.setRecord h q).retiring h r d = s.retiring h r d := by
  simp [State.retiring]

/-- The line engine can take the RELEASE of a MOVING record where an entry is free or the withdrawal of its REASSIGN frees
one (R144). -/
theorem State.canTakeRelease_iff_of_moving {s : State} {h : Handle} {r : Record} {x : Station}
    (moving : r.state = .moving x) : s.canTakeRelease h r = true ↔ 0 < (s.line r.line).freeCount
      ∨ ∃ o, (s.line r.line).liveOrder? .reassign (s.refOf h) = some o ∧ o.progress ≠ .sending := by
  rw [State.canTakeRelease, moving]
  dsimp only
  rw [Bool.or_eq_true, decide_eq_true_iff, State.reassignFreesEntry]
  cases (s.line r.line).liveOrder? .reassign (s.refOf h) <;> simp

theorem State.canTakeRelease_of_still {s : State} {h : Handle} {r : Record} (still : ∀ x, r.state ≠ .moving x) :
    s.canTakeRelease h r = decide (0 < (s.line r.line).freeCount) := by
  unfold State.canTakeRelease
  split
  · next x moving => exact absurd moving (still x)
  · rfl

/-- The queue that the RELEASE of a MOVING record is placed in has an entry free (R89, R144). -/
theorem State.freeCount_abandoned_pos {s : State} {h : Handle} {r : Record} {x : Station} (moving : r.state = .moving x)
    (takes : s.canTakeRelease h r = true)
    (room : (s.line r.line).orders.length + (s.line r.line).reservations.length ≤ 8) :
    0 < ((s.line r.line).withdraw .reassign (s.refOf h)).freeCount := by
  obtain free | ⟨o, live, unsent⟩ := (State.canTakeRelease_iff_of_moving moving).mp takes
  · exact Nat.lt_of_lt_of_le free (LineEngine.freeCount_le_withdraw ..)
  · exact LineEngine.freeCount_withdraw_pos room live unsent

/-- The retirement of a BOUND or QUIET record (R146). -/
theorem State.retireTaken_of_polled {s : State} {h : Handle} {r : Record} (found : s.record? h = some r)
    (polled : r.state = .bound ∨ r.state = .quiet) (free : 0 < (s.line r.line).freeCount) :
    s.retireTaken h r = (s.retiring h r (.station r.station), .bare .accepted) := by
  rw [← State.placeRelease_eq found _ free]
  obtain state | state := polled <;> rw [State.retireTaken, state]

/-- The station, or the pair of stations, to which the RELEASE of a MOVING record goes (R146). -/
def State.releaseDest (s : State) (h : Handle) (r : Record) (target : Station) : Dest :=
  if s.moveSent h then .pair r.station target else .station r.station

/-- The retirement of a MOVING record: its move is abandoned, and its RELEASE takes an entry that is free then (R146). -/
theorem State.retireTaken_of_moving {s : State} {h : Handle} {r : Record} {x : Station} (found : s.record? h = some r)
    (moving : r.state = .moving x) (takes : s.canTakeRelease h r = true)
    (room : (s.line r.line).orders.length + (s.line r.line).reservations.length ≤ 8) : s.retireTaken h r =
      ((s.abandonMove h r.line x).retiring h r (s.releaseDest h r x), .bare .accepted) := by
  have free : 0 < ((s.abandonMove h r.line x).line r.line).freeCount := by
    rw [State.line_abandonMove, if_pos rfl]
    exact State.freeCount_abandoned_pos moving takes room
  rw [← State.placeRelease_eq (by simpa using found) _ free, State.retireTaken, moving]
  rfl

section
variable {s : State} {i : Fin 4} {f : CmdFrame} {ref : RefOperand} {o : Byte} {h : Handle} {r : Record}

/-- FORGET leaves what the check of the queue reads (R144). -/
theorem State.canTakeRelease_forgotten (s : State) (h : Handle) (r : Record) (o : Byte) :
    (s.setRecord h (r.forgotten o)).canTakeRelease h (r.forgotten o) = s.canTakeRelease h r := by
  simp only [State.canTakeRelease, State.reassignFreesEntry, State.refOf_setRecord]
  rfl

/-- FORGET leaves where the RELEASE goes (R146). -/
theorem State.releaseDest_forgotten (found : s.record? h = some r) (o : Byte) (x : Station) :
    (s.setRecord h (r.forgotten o)).releaseDest h (r.forgotten o) x = s.releaseDest h r x := by
  rw [State.releaseDest, State.moveSent_setRecord found (by rfl)]
  rfl

/-- A RETIRE that passes its checks (R144). -/
theorem State.retireCommand_of_taken (option : o = 0 ∨ o = 1) (named : s.Names ref h r)
    (states : ¬ (r.state = .reserved ∨ r.state = .retiring ∨ r.state = .lapsed))
    (up : (s.line r.line).state = .running ∨ (s.line r.line).state = .paused)
    (takes : r.state = .joining ∨ s.canTakeRelease h r = true) :
    s.retireCommand ref o = (s.setRecord h (r.forgotten o)).retireTaken h (r.forgotten o) := by
  rw [State.retireCommand_of_names option named, if_neg states, if_neg (not_not_intro up), if_neg]
  rintro ⟨notJoining, cannot⟩
  obtain joining | can := takes
  · exact notJoining joining
  · rw [cannot] at can
    cases can

/-- A RETIRE of a JOINING record ends it, whatever the queue holds (R144, R145). -/
theorem State.HostRuns.exec_retire_joining (runs : s.HostRuns i f (.retire ref o)) (option : o = 0 ∨ o = 1)
    (named : s.Names ref h r) (joining : r.state = .joining)
    (up : (s.line r.line).state = .running ∨ (s.line r.line).state = .paused) : exec .retire s =
      .next (((s.setRecord h (r.forgotten o)).endRecord h .joinAbandoned).answered i f .ok []) := by
  refine runs.exec_retire ?_
  rw [State.retireCommand_of_taken option named (by simp [joining]) up (.inl joining), State.retireTaken,
    Record.state_forgotten, joining]

/-- A RETIRE of a MOVING record whose RELEASE can be taken (R144, R146). -/
theorem State.HostRuns.exec_retire_moving (runs : s.HostRuns i f (.retire ref o)) (option : o = 0 ∨ o = 1)
    (named : s.Names ref h r) {x : Station} (moving : r.state = .moving x)
    (up : (s.line r.line).state = .running ∨ (s.line r.line).state = .paused) (takes : s.canTakeRelease h r = true)
    (room : (s.line r.line).orders.length + (s.line r.line).reservations.length ≤ 8) : exec .retire s =
      .next ((((s.setRecord h (r.forgotten o)).abandonMove h r.line x).retiring h (r.forgotten o)
        (s.releaseDest h r x)).answered i f .accepted []) := by
  have taken := State.retireTaken_of_moving (s := s.setRecord h (r.forgotten o)) (State.record?_setRecord_self ..)
    moving (by rwa [State.canTakeRelease_forgotten]) room
  rw [State.releaseDest_forgotten (State.record?_of_names named)] at taken
  refine runs.exec_retire (Eq.trans ?_ taken)
  exact State.retireCommand_of_taken option named (by simp [moving]) up (.inr takes)

/-- A RETIRE of a BOUND or QUIET record with an entry free in its queue (R144, R146). -/
theorem State.HostRuns.exec_retire_polled (runs : s.HostRuns i f (.retire ref o)) (option : o = 0 ∨ o = 1)
    (named : s.Names ref h r) (polled : r.state = .bound ∨ r.state = .quiet)
    (up : (s.line r.line).state = .running ∨ (s.line r.line).state = .paused) (free : 0 < (s.line r.line).freeCount) :
    exec .retire s = .next ((s.retiring h (r.forgotten o) (.station r.station)).answered i f .accepted []) := by
  have taken := State.retireTaken_of_polled (s := s.setRecord h (r.forgotten o)) (State.record?_setRecord_self ..)
    polled free
  rw [State.retiring_setRecord] at taken
  have still : ∀ x, r.state ≠ .moving x := by obtain state | state := polled <;> simp [state]
  refine runs.exec_retire (Eq.trans ?_ taken)
  refine State.retireCommand_of_taken option named ?_ up (.inr ?_)
  · obtain state | state := polled <;> simp [state]
  · rw [State.canTakeRelease_of_still still, decide_eq_true free]

/-- A RETIRE of a record that is not RESERVED, RETIRING or LAPSED, on a line that is not RUNNING or PAUSED (R144). -/
theorem State.HostRuns.exec_retire_lineDown (runs : s.HostRuns i f (.retire ref o)) (option : o = 0 ∨ o = 1)
    (named : s.Names ref h r) (states : ¬ (r.state = .reserved ∨ r.state = .retiring ∨ r.state = .lapsed))
    (down : ¬ ((s.line r.line).state = .running ∨ (s.line r.line).state = .paused)) :
    exec .retire s = .next (s.answered i f .lineDown []) :=
  runs.exec_retire (by rw [State.retireCommand_of_names option named, if_neg states, if_pos down])

/-- A RETIRE of a record that is not JOINING, whose RELEASE its line engine cannot take (R144). -/
theorem State.HostRuns.exec_retire_lineBusy (runs : s.HostRuns i f (.retire ref o)) (option : o = 0 ∨ o = 1)
    (named : s.Names ref h r) (states : ¬ (r.state = .reserved ∨ r.state = .retiring ∨ r.state = .lapsed))
    (up : (s.line r.line).state = .running ∨ (s.line r.line).state = .paused) (standing : r.state ≠ .joining)
    (cannot : s.canTakeRelease h r = false) : exec .retire s = .next (s.answered i f .lineBusy []) :=
  runs.exec_retire (by
    rw [State.retireCommand_of_names option named, if_neg states, if_neg (not_not_intro up), if_pos ⟨standing, cannot⟩])

end

/-- Settles O19, by the record's state: its refusals, the end of a join, and the RELEASE that is placed. -/
theorem retireByState : Obligations.RetireByState := by
  intro s i f ref o h r runs named option up pin release
  have found : s.record? h = some r := State.record?_of_names named
  refine ⟨fun refused => ?_, fun polled => ?_, fun leaving down => ?_, fun x moving up full sent => ?_,
    fun joining up => ?_, fun x moving up takes room => ?_⟩
  · exact runs.exec_retire (by rw [State.retireCommand_of_names option named, if_pos refused])
  · have states : ¬ (r.state = .reserved ∨ r.state = .retiring ∨ r.state = .lapsed) := by
      obtain state | state := polled <;> simp [state]
    have standing : r.state ≠ .joining := by obtain state | state := polled <;> simp [state]
    have still : ∀ x, r.state ≠ .moving x := by obtain state | state := polled <;> simp [state]
    by_cases running : up
    · rw [if_neg (not_not_intro running)]
      by_cases full : (s.line r.line).freeCount = 0
      · rw [if_pos full]
        exact runs.exec_retire_lineBusy option named states running standing
          (by rw [State.canTakeRelease_of_still still, full]; rfl)
      · rw [if_neg full]
        exact runs.exec_retire_polled option named polled running (Nat.pos_of_ne_zero full)
    · rw [if_pos running]
      exact runs.exec_retire_lineDown option named states running
  · refine runs.exec_retire_lineDown option named ?_ down
    obtain joining | ⟨x, moving⟩ := leaving
    · simp [joining]
    · simp [moving]
  · refine runs.exec_retire_lineBusy option named (by simp [moving]) up (by simp [moving]) ?_
    rw [← Bool.not_eq_true, State.canTakeRelease_iff_of_moving moving]
    rintro (free | ⟨y, live, unsent⟩)
    · omega
    · exact unsent (sent y live)
  · have forgotten : (s.setRecord h (r.forgotten o)).record? h = some (r.forgotten o) := State.record?_setRecord_self ..
    have line := State.line_endRecord _ forgotten .joinAbandoned
    refine ⟨_, runs.exec_retire_joining option named joining up, State.hostSlot_answered_self .., fun k ne => ?_, ?_, ?_,
      fun unpinned => ?_, fun pinned => ?_⟩
    · rw [State.slot_answered, State.slot_endRecord_of_ne _ _ ne, State.slot_setRecord_of_ne _ _ ne]
    · rw [State.line_answered, line, Record.line_forgotten, if_neg (otherLine_ne r.line), State.line_setRecord]
    · rw [State.line_answered, line, Record.line_forgotten, if_pos rfl, State.line_setRecord, State.refOf_setRecord]
      exact LineEngine.without_congr _ _ rfl rfl
    · have map := State.mapAt_endRecord forgotten .joinAbandoned r.line r.station
      have quar := State.quarOf_endRecord forgotten .joinAbandoned r.line
      obtain ⟨content, gen, -, kept, mask⟩ := State.freedFrom_endRecord forgotten unpinned .joinAbandoned
      refine ⟨?_, ?_, ?_, ?_, ?_, ?_⟩
      · rw [State.record?_answered, State.record?, content]
      · rw [State.slot_answered, gen, State.gen_setRecord]
      · rw [State.slot_answered, kept]
      · rw [State.slot_answered, mask, State.mask_setRecord]
      · rw [State.mapAt_answered, map, if_pos ⟨rfl, rfl, unpinned⟩]
      · rw [State.quarOf_answered, quar, if_pos ⟨rfl, unpinned⟩]
        rfl
    · rw [State.endRecord_of_pinned forgotten pinned, Record.forgotten_of_pinned pinned]
      refine ⟨?_, ?_, ?_, ?_⟩
      · rw [State.record?_answered, State.record?_mark, State.record?_setRecord_self]
        rfl
      · simp
      · simp
      · simp
  · have sent : (s.setRecord h (r.forgotten o)).moveSent h = s.moveSent h := State.moveSent_setRecord found rfl
    have map := State.mapAt_abandonMove (s.setRecord h (r.forgotten o)) h r.line r.line x x
    have quar := State.quarOf_abandonMove (s.setRecord h (r.forgotten o)) h r.line r.line x
    have line := fun k => State.line_abandonMove (s.setRecord h (r.forgotten o)) h r.line k x
    rw [sent] at map quar
    refine ⟨_, runs.exec_retire_moving option named moving up takes room, State.hostSlot_answered_self .., ?_, ?_,
      fun k ne => ?_, ?_, ?_, ?_, ?_⟩
    · rw [State.record?_answered, State.retiring, State.record?_setLine, State.record?_setRecord_self]
      rfl
    · simp [State.retiring]
    · simp [State.retiring, State.slot_setRecord_of_ne _ _ ne]
    · rw [State.mapAt_answered, State.retiring, State.mapAt_setLine, State.mapAt_setRecord, map, if_pos ⟨rfl, rfl⟩]
    · rw [State.quarOf_answered, State.retiring, State.quarOf_setLine, State.quarOf_setRecord, quar]
      cases s.moveSent h <;> simp
    · simp [State.retiring, line, State.releaseDest, release]
    · simp [State.retiring, line]

/-! ### The row that carries out a claim of a line engine (log 3) -/

/-- The row of a claim that the engine carries out does the directory work of the claim and completes it. -/
theorem State.LineRuns.exec_eq {s u : State} {l : Line} {claim : LineClaim} {c : Instr} (runs : s.LineRuns l claim)
    (row : s.lineRow? l claim = some (c, u)) : exec c s = .next (u.completeLine l) := by
  have carried := runs.claim
  cases claim with
  | request st ref q => exact runs.exec_request row
  | outcome kind ref result =>
    cases kind <;> cases result <;> cases row
    all_goals show Host.Outcome.next _ = _; rw [carried]
  | presence | miss | join | line | flush =>
    cases row
    show Host.Outcome.next _ = _
    rw [carried]

/-! ### The conclusions of a move (R140 to R142) -/

/-- The outcome claim of a REASSIGN whose order is there concludes the move of the MOVING record (R100). -/
theorem State.moveClaim_of_concluding {s : State} {l : Line} {ref : Ref} {o : Order} {r : Record} {target : Station}
    (order : s.concluding? l .reassign ref = some o) (found : s.current? ref = some r) (moving : r.state = .moving target)
    (conclude : State → Record → Station → State) : s.moveClaim l ref conclude =
      conclude (s.setLine l ((s.line l).removeConcluded .reassign ref)) r target := by
  rw [State.moveClaim, State.outcomeClaim_of_concluding order found, moving]

/-- The row of a REASSIGN's outcome concludes the move with the order removed (R100). -/
theorem State.LineRuns.exec_move {s : State} {l : Line} {ref : Ref} {o : Order} {r : Record} {target : Station}
    {c : Instr} {x : OrderResult} {conclude : State → Record → Station → State}
    (runs : s.LineRuns l (.outcome .reassign ref x)) (order : s.concluding? l .reassign ref = some o)
    (found : s.current? ref = some r) (moving : r.state = .moving target)
    (row : s.lineRow? l (.outcome .reassign ref x) = some (c, s.moveClaim l ref conclude)) : exec c s =
      .next ((conclude (s.setLine l ((s.line l).removeConcluded .reassign ref)) r target).completeLine l) := by
  rw [runs.exec_eq row, State.moveClaim_of_concluding order found moving]

/-- Settles O50: the row of each result, and the conclusion that it carries out with the order removed. -/
theorem movesConclude : Obligations.MovesConclude := by
  intro s l ref o r target order found moving base moved back
  exact ⟨fun runs => (runs.exec_move order found moving rfl).trans rfl,
    fun runs => (runs.exec_move order found moving rfl).trans rfl,
    fun _ runs => (runs.exec_move order found moving rfl).trans rfl,
    fun runs => (runs.exec_move order found moving rfl).trans rfl,
    fun runs => (runs.exec_move order found moving rfl).trans rfl⟩

/-! ### The outcomes of a RELEASE and of an ANSWER (R133, R149) -/

theorem OrderResult.retirement_eq (x : OrderResult) :
    x.retirement = if x = .confirm ∨ x = .decline then .retired else .releaseUnconfirmed := by
  cases x <;> simp [OrderResult.retirement]

/-- The outcome claim of a RELEASE whose order is there ends the RETIRING record (R100, R149). -/
theorem State.LineRuns.exec_releaseOutcome {s : State} {l : Line} {ref : Ref} {o : Order} {r : Record} {x : OrderResult}
    (runs : s.LineRuns l (.outcome .release ref x)) (order : s.concluding? l .release ref = some o)
    (found : s.current? ref = some r) (retiring : r.state = .retiring) : exec .releaseOutcome s = .next
      (((s.setLine l ((s.line l).removeConcluded .release ref)).endRecord ref.handle x.retirement).completeLine l) := by
  rw [runs.exec_eq rfl, State.outcomeClaim_of_concluding order found, if_pos retiring]

/-- The outcome claim of an ANSWER whose order is there makes request pending no, and counts a DECLINE (R133). -/
theorem State.answerClaim_of_concluding {s : State} {l : Line} {ref : Ref} {o : Order} {r : Record}
    (order : s.concluding? l .answer ref = some o) (found : s.current? ref = some r) (x : OrderResult) :
    s.answerClaim l ref x = (s.setLine l
      { s.line l with
        orders := (s.line l).orders.eraseP (Order.isConcluding .answer ref)
        counters := if x = .decline then ((s.line l).bump .answersDeclined).counters else (s.line l).counters
      }).setRecord ref.handle { r with requestPending := false } := by
  have still : (s.modLine l (.removeConcluded .answer ref)).current? ref = some r := found
  rw [State.answerClaim, order]
  dsimp only
  rw [still]
  dsimp only
  split
  · rw [State.bump, State.modLine, State.modLine, State.line_setRecord, State.line_setLine_self, State.setRecord_setLine,
      State.setLine_setLine]
    rfl
  · rfl

/-- Settles O51: the end of the RETIRING record with its order removed, and the work of the outcome claim of an ANSWER. -/
theorem releasesAndAnswersConclude : Obligations.ReleasesAndAnswersConclude := by
  intro s l ref o r x found here outcome
  subst here
  have result : x.retirement = outcome := x.retirement_eq
  refine ⟨fun runs order retiring => ?_, fun runs order => ?_⟩
  · intro left
    have record : (s.setLine r.line ((s.line r.line).removeConcluded .release ref)).record? ref.handle = some r :=
      State.record?_of_current? found
    have ended := runs.exec_releaseOutcome order found retiring
    have line := State.line_endRecord _ record outcome
    have map := State.mapAt_endRecord record outcome
    have quar := State.quarOf_endRecord record outcome
    rw [result] at ended
    have own := line r.line
    rw [if_pos rfl, State.line_setLine_self, State.refOf_setLine, State.refOf_of_current? found] at own
    refine ⟨_, ended, fun k ne => ?_, ?_, ?_, ?_, fun pinned => ⟨?_, ?_, ?_, ?_⟩,
      fun unpinned => ⟨?_, ?_, fun k st elsewhere => ?_, ?_, ?_⟩⟩
    · rw [State.slot_completeLine, State.slot_endRecord_of_ne _ _ ne, State.slot_setLine]
    · simp [line]
    · rw [State.orders_completeLine, own]
      rfl
    · rw [State.reservations_completeLine, own]
      rfl
    · simp [State.endRecord_of_pinned record pinned]
    · simp [State.endRecord_of_pinned record pinned]
    · simp [State.endRecord_of_pinned record pinned]
    · simp [State.endRecord_of_pinned record pinned]
    · rw [State.slot_completeLine]
      exact State.freedFrom_endRecord record unpinned outcome
    · simp [map, unpinned]
    · rw [State.mapAt_completeLine, map, if_neg, State.mapAt_setLine]
      rintro ⟨rfl, rfl, -⟩
      exact elsewhere rfl
    · simp [quar, unpinned]
    · simp [quar]
  · rw [runs.exec_eq rfl, State.answerClaim_of_concluding order found]

end Sys2Proof.Machine
end

section
/-! The group table, the records, the station maps and the quarantine lists agree after every command and every passing of
time. -/

namespace Sys2Proof.Machine

/-! ### What leaves the directory alone, and what is done on a condition -/

/-- What leaves the directory alone keeps its laws. -/
theorem State.Aside.ok {s t : State} (aside : s.Aside t) (o : s.view.Ok) : t.view.Ok := by
  rw [State.view_of_dir aside.dir]
  exact o

theorem State.ok_ite {s t : State} {p : Prop} [Decidable p] (o : s.view.Ok) (kept : p → t.view.Ok) :
    (if p then t else s).view.Ok := by
  split
  · exact kept ‹p›
  · exact o

/-! ### The resets (R172, R173) -/

theorem State.ok_powerOn (s : State) (rst : Bool) : (s.powerOn rst).view.Ok :=
  ok_fresh (s := s.powerOn rst) rfl (s.record?_powerOn rst)

theorem State.ok_softReset (s : State) (i : Fin 4) : (s.softReset i).view.Ok :=
  ok_fresh (s := s.softReset i) rfl (s.record?_softReset i)

/-! ### The host commands -/

theorem State.findCommand_state (s : State) (cls line st : Byte) : (s.findCommand cls line st).1 = s := by
  unfold State.findCommand
  repeat' split
  all_goals rfl

theorem State.nextChangeCommand_state (s : State) : s.nextChangeCommand.1 = s := by
  unfold State.nextChangeCommand
  split <;> rfl

theorem State.ok_lookupCommand {s : State} (o : s.view.Ok) (x : LookupOperand) : (s.lookupCommand x).1.view.Ok := by
  unfold State.lookupCommand
  split
  · exact State.ok_withReference o _ _ fun _ _ _ => o
  · repeat' split
    all_goals exact o

/-- SET CALL POLICY writes the store alone (R181). -/
theorem State.view_setCallPolicyCommand (s : State) (line policy : Byte) :
    (s.setCallPolicyCommand line policy).1.view = s.view := by
  unfold State.setCallPolicyCommand State.withLine
  split
  · split <;> rfl
  · rfl

/-- CONFIGURE writes the store alone, before its clamp of the miss counts (R170). -/
theorem State.view_configureStore (s : State) (items : List (Byte × Nat)) :
    (s.configureStore items).1.view = s.view := by
  obtain ⟨same, -⟩ | ⟨c, -, stored⟩ := s.configureStore_cases items
  · rw [same]
  · rw [stored]
    rfl

/-- The laws of the directory do not read the miss counts that CONFIGURE clamps (R26). -/
theorem State.ok_configureClaim {s : State} (o : s.view.Ok) (items : List (Byte × Nat)) :
    (s.configureClaim items).1.view.Ok := by
  have stored : (s.configureStore items).1.view.Ok := by
    rw [State.view_configureStore]
    exact o
  unfold State.configureClaim
  dsimp only
  split
  · exact State.ok_clampMisses stored _
  · exact stored

theorem State.ok_runLocal {s : State} (o : s.view.Ok) (c : HostCmd) : (s.runLocal c).1.view.Ok := by
  cases c with
  | ackAlarms flags => exact (s.aside_ackAlarms flags).ok o
  | configure items =>
    show (s.configureStore items).1.view.Ok
    rw [State.view_configureStore]
    exact o
  | _ => exact o

/-- The work of every host command that the engine carries out keeps the laws of the directory. -/
theorem State.ok_hostRow {s : State} {cmd : HostCmd} {c : Instr} {x : State × Reply}
    (row : s.hostRow? cmd = some (c, x)) (o : s.view.Ok) : x.1.view.Ok := by
  cases cmd with
  | reserve id line st lease => cases row; exact State.ok_reserve o id line st lease
  | pin r => cases row; exact State.ok_pinCommand o r
  | unpin r => cases row; exact State.ok_unpinCommand o r
  | retire r option => cases row; exact State.ok_retireCommand o r option
  | reassign r target => cases row; exact State.ok_reassignCommand o r target
  | purge r => cases row; exact State.ok_purgeCommand o r
  | lookup x => cases row; exact State.ok_lookupCommand o x
  | find cls line st => cases row; rw [State.findCommand_state]; exact o
  | setLease r lease option => cases row; exact State.ok_setLeaseCommand o r lease option
  | setGroups r groups => cases row; exact State.ok_setGroupsCommand o r groups
  | setGroupLimit group limit => cases row; exact State.ok_setGroupLimitCommand o group limit
  | setTag r bytes => cases row; exact State.ok_setTagCommand o r bytes
  | nextChange => cases row; rw [State.nextChangeCommand_state]; exact o
  | ackChange h g => cases row; exact State.ok_ackChangeCommand o h g
  | lineStart _ _ => cases row; exact (s.aside_lineStartCommand _ _).ok o
  | lineStop _ => cases row; exact (s.aside_lineStopCommand _).ok o
  | linePause _ => cases row; exact (s.aside_linePauseCommand _).ok o
  | lineResume _ => cases row; exact (s.aside_lineResumeCommand _).ok o
  | setCallPolicy _ _ => cases row; rw [State.view_setCallPolicyCommand]; exact o
  | clearExclusion _ _ _ => cases row; exact (s.aside_clearExclusionCommand _ _ _).ok o
  | lineStatus _ => cases row; exact (s.aside_withLine _ _ fun _ => .refl s).ok o
  | clearCounters _ => cases row; exact (s.aside_clearCountersCommand _).ok o
  | configure items => cases row; exact State.ok_configureClaim o items
  | status => cases row; exact o
  | readAlarms => cases row
  | ackAlarms _ => cases row
  | resetDevice => cases row

/-! ### The claims of the line engines -/

theorem State.view_capsRequest (l : Line) (ref : Ref) (entries : List CapEntry) (s : State) (r : Record) :
    (State.capsRequest l ref entries s r).1.view = s.view :=
  s.view_takeCaps l ref.handle entries

/-- The work of every claim of a line keeps the laws of the directory. The conclusion of an order acts on its record in the
state of the record that the order serves, and in no other (R100). -/
theorem State.ok_lineRow {s : State} {l : Line} {claim : LineClaim} {c : Instr} {u : State}
    (row : s.lineRow? l claim = some (c, u)) (o : s.view.Ok) : u.view.Ok := by
  cases claim with
  | presence st ref => cases row; exact State.ok_presence o l st ref
  | miss st ref => cases row; exact State.ok_miss o l st ref
  | join id caps policy => cases row; exact State.ok_joinClaim o l id caps policy
  | request st ref req =>
    cases req with
    | renew ticks => cases row; exact State.ok_requestClaim o l st ref _ _ (State.view_renewRequest ref ticks)
    | leave => cases row; exact State.ok_leaveClaim o l st ref
    | resolve id => cases row; exact State.ok_requestClaim o l st ref _ _ fun _ _ => rfl
    | find cls start => cases row; exact State.ok_requestClaim o l st ref _ _ fun _ _ => rfl
    | members group start => cases row; exact State.ok_requestClaim o l st ref _ _ fun _ _ => rfl
    | caps entries => cases row; exact State.ok_requestClaim o l st ref _ _ (State.view_capsRequest l ref entries)
  | outcome kind ref result =>
    cases kind with
    | assign =>
      cases result with
      | confirm =>
        cases row
        exact State.ok_outcomeClaim o l _ ref _ fun _ order _ agrees found =>
          State.ok_ite agrees fun joining => State.ok_joinConfirmed agrees found joining order.joinKind
      | decline =>
        cases row
        exact State.ok_outcomeClaim o l _ ref _ fun _ _ _ agrees found =>
          State.ok_ite agrees fun joining => State.ok_joinDeclined agrees found joining
      | exhausted =>
        cases row
        exact State.ok_outcomeClaim o l _ ref _ fun _ _ _ agrees found =>
          State.ok_ite agrees fun joining =>
            State.ok_endRecord _ found (State.settled agrees found (by simp [joining]) (by simp [joining]))
      | dropped | probed _ _ => cases row
    | reassign =>
      cases result with
      | confirm =>
        cases row
        exact State.ok_moveClaim o l ref _ fun _ _ _ agrees found moving => State.ok_moveDone agrees found moving
      | decline =>
        cases row
        exact State.ok_moveClaim o l ref _ fun _ _ _ agrees found moving => State.ok_moveBack agrees found moving _
      | probed atTarget atOld =>
        cases row
        exact State.ok_moveClaim o l ref _ fun _ _ _ agrees found moving =>
          State.ok_probeConclusion agrees found moving atTarget atOld
      | exhausted | dropped => cases row
    | release =>
      cases row
      exact State.ok_outcomeClaim o l _ ref _ fun _ _ _ agrees found =>
        State.ok_ite agrees fun retiring =>
          State.ok_endRecord _ found (State.settled agrees found (by simp [retiring]) (by simp [retiring]))
    | answer => cases row; exact State.ok_answerClaim o l ref result
    | refuse => cases row
  | line => cases row; rw [State.view_modLine]; exact State.ok_lineWork l o
  | flush => cases row; rw [State.view_modLine]; exact State.ok_flushWork l o

/-! ### Every command -/

/-- An outcome that is a next state whose records, station maps and quarantine lists agree if they agreed before. -/
def State.OkOutcome (s : State) (out : Host.Outcome State Fault Refusal) : Prop :=
  s.OutcomeKeeps (fun t => t.view.Ok) out

theorem State.OkOutcome.next {s t : State} (kept : s.view.Ok → t.view.Ok) : s.OkOutcome (.next t) := ⟨t, rfl, kept⟩

theorem exec_hostRow_ok (s : State) {c : Instr} (host : Instr.isHostRow c = true) : s.OkOutcome (exec c s) := by
  obtain ⟨t, runs, rfl | ⟨cmd, x, -, row, rfl⟩⟩ := exec_hostRow_cases s host
  · exact ⟨t, runs, id⟩
  · exact ⟨_, runs, fun o => (State.aside_completeHost x).ok (State.ok_hostRow row o)⟩

theorem exec_lineRow_ok (s : State) {c : Instr} (line : Instr.isLineRow c = true) : s.OkOutcome (exec c s) := by
  obtain ⟨t, runs, rfl | ⟨l, claim, row, u, -, works, rfl⟩⟩ := exec_lineRow_cases s line
  · exact ⟨t, runs, id⟩
  · exact ⟨_, runs, fun o => (u.aside_completeLine l).ok (State.ok_lineRow works o)⟩

theorem exec_event_ok (s : State) {c : Instr} (event : Instr.isEvent c = true) : s.OkOutcome (exec c s) := by
  obtain ⟨t, runs, aside⟩ := exec_event_aside s event
  exact ⟨t, runs, aside.ok⟩

theorem exec_commandBegin_ok (s : State) : s.OkOutcome (exec .commandBegin s) := by
  refine .next fun o => ?_
  split
  · exact o
  · next i f _ =>
    split
    · exact (s.aside_modHost _).ok o
    · next c _ =>
      split
      · exact (State.aside_completeLocal (s.runLocal c) i f.tag).ok (State.ok_runLocal o c)
      · exact (s.aside_beginClaim i f).ok o

theorem exec_configure_ok (s : State) : s.OkOutcome (exec .configure s) := by
  refine .next fun o => ?_
  split
  · next items _ => exact (State.aside_completeHost _).ok (State.ok_configureClaim o items)
  · split
    · exact o
    · next i f _ =>
      split
      · next items _ =>
        refine State.ok_ite o fun _ => (State.aside_completeLocal (s.configureStore items) i f.tag).ok ?_
        exact State.ok_runLocal o (.configure items)
      · exact o

theorem exec_resetDevice_ok (s : State) : s.OkOutcome (exec .resetDevice s) := by
  refine .next fun o => ?_
  split
  · next i _ _ _ => exact (State.aside_completeHost (s.softReset i, Reply.bare .ok)).ok (s.ok_softReset i)
  · exact o

/-- A record whose lease runs is not LAPSED, so that it has a station to lose (R52, R53). -/
theorem RecState.not_lapsed_of_leaseRuns {state : RecState} (runs : state.leaseRuns = true) : state ≠ .lapsed := by
  rintro rfl
  cases runs

theorem exec_lapse_ok (s : State) (h : Handle) : s.OkOutcome (exec (.lapse h) s) := by
  refine .next fun o => ?_
  split
  · next r found =>
    exact State.ok_ite o fun lapses =>
      State.ok_lapseRecord o found (RecState.not_lapsed_of_leaseRuns lapses.1)
  · exact o

/-- Every command keeps the laws of the directory: a claim by the work of its row, the lease clock by the sweep, a reset by
the fresh directory it leaves, and an event by leaving the directory alone. -/
theorem exec_ok (c : Instr) (s : State) : s.OkOutcome (exec c s) := by
  cases c with
  | reserve | pin | unpin | retire | reassign | purge | lookup | find | setLease | setGroups | setGroupLimit
  | setTag | nextChange | ackChange | lineStart | lineStop | linePause | lineResume | setCallPolicy
  | clearExclusion | lineStatus | clearCounters | status => exact exec_hostRow_ok s rfl
  | presenceClaim | missClaim | missLimit | joinClaim | renew | leave | resolve | nodeFind | members | capsRequest
  | assignConfirmed | assignDeclined | assignExhausted | moved | moveDeclined | probeOutcome | releaseOutcome
  | answerOutcome | lineClaim | flushClaim => exact exec_lineRow_ok s rfl
  | rstAsserted => exact .next fun _ => s.ok_powerOn true
  | rstReleased scsLow =>
    exact .next fun o => State.ok_ite o fun _ => (State.aside_modHost _ _).ok (s.ok_powerOn false)
  | commandBegin => exact exec_commandBegin_ok s
  | configure => exact exec_configure_ok s
  | resetDevice => exact exec_resetDevice_ok s
  | leaseTick =>
    exact .next fun o => State.ok_ite o fun _ =>
      (State.aside_completeClock _).ok (State.ok_quarStage (State.ok_leaseStage o))
  | lapse h => exact exec_lapse_ok s h
  | quarantineExpiry l st =>
    refine .next fun o => ?_
    split
    · next entry => exact State.ok_quarantineExpiry o entry
    · exact o
  | _ => exact exec_event_ok s rfl

/-! ### The obligation of the groups and the records -/

theorem State.directoryLaw_eq : State.DirectoryLaw = fun s => s.view.Ok :=
  funext fun s => propext s.directoryLaw_iff

/-- Settles O55: the member counts as a law of `State.Safe`, since each change of a group set changes the table with it;
the records, maps and lists over what their laws read of the state, by the directory work of each command. -/
theorem groupCountsMatchTheRecords : Obligations.GroupCountsMatchTheRecords := by
  refine ⟨keptByStep_of_safe (fun _ _ law => law) fun _ _ kept => kept.groups, ?_⟩
  rw [State.directoryLaw_eq]
  exact keptByStep_of_exec (fun _ _ o => o) (fun s => s.aside_passTime.ok) exec_ok

end Sys2Proof.Machine
end

section
/-! The host port: the resets, the SPI exchanges, the attention line, and the commands that the host port begins or
completes itself (Chapter 10). -/

namespace Sys2Proof.Machine

/-! ### The command slots (R163) -/

/-- Settles O59: the slots and the acceptance order as a law of `State.Safe`, which every command and every passing of
time keeps. -/
theorem commandSlotsStayInOrder : Obligations.CommandSlotsStayInOrder :=
  keptByStep_of_safe (fun _ _ law => law) fun _ _ kept => kept.slots

theorem HostPort.activeSlot?_eq_none {p : HostPort} (inactive : ∀ j : Fin 4, (p.slots.get j).isActive = false) :
    p.activeSlot? = none := by
  rw [← Option.not_isSome_iff_eq_none, HostPort.active_isSome]
  rintro ⟨j, active⟩
  rw [inactive j] at active
  cases active

/-- The ACTIVE slot is the one that is found, where no other slot is ACTIVE. -/
theorem HostPort.activeSlot?_of_only {p : HostPort} {i : Fin 4} {f : CmdFrame} {d : PerLine Bool}
    (active : p.slots.get i = .active f d) (only : ∀ j : Fin 4, j ≠ i → (p.slots.get j).isActive = false) :
    p.activeSlot? = some (i, f) := by
  have isSome : p.activeSlot?.isSome = true := (HostPort.active_isSome p).mpr ⟨i, by rw [active]; rfl⟩
  obtain ⟨⟨j, g⟩, found⟩ := Option.isSome_iff_exists.mp isSome
  obtain ⟨e, holds⟩ := HostPort.active_some found
  obtain rfl : j = i := Decidable.byContradiction fun ne => by
    have inactive := only j ne
    rw [holds] at inactive
    cases inactive
  cases active.symm.trans holds
  exact found

/-- Without an ACTIVE slot the host port has no claim (R164). -/
theorem State.outstanding_host {s : State} (inactive : ∀ j : Fin 4, (s.host.slots.get j).isActive = false) :
    s.outstanding .host = false := by
  show s.host.activeSlot?.isSome = false
  rw [HostPort.activeSlot?_eq_none inactive]
  rfl

/-- The writing of a response changes the slot of its command and no other (R164). -/
theorem State.hostSlot_answerSlot (s : State) (i j : Fin 4) (tag : Byte) (r : Reply) :
    (s.answerSlot i tag r).host.slots.get j
      = if j = i then .answered ⟨tag, r.status, r.payload⟩ else s.host.slots.get j := get_vectorSet ..

/-! ### Power-on reset (R172) -/

theorem State.mapAt_reset (l : Line) (st : Station) : State.reset.mapAt l st = .free := by
  cases l <;> exact Vector.getElem_replicate _

theorem State.quarOf_reset (l : Line) : State.reset.quarOf l = [] := by cases l <;> rfl

theorem State.group_reset (g : Fin 16) : State.reset.dir.groups.get g = { count := 0, limit := 0 } :=
  Vector.getElem_replicate _

/-- Settles O3, part by part. -/
theorem resetState : Obligations.ResetState := by
  refine ⟨State.slot_reset, State.mapAt_reset, State.quarOf_reset, State.group_reset, rfl, rfl, rfl, fun l => ?_, rfl,
    State.outstanding_reset, rfl, rfl, rfl⟩
  rw [State.line_reset]
  exact ⟨rfl, rfl, rfl, rfl, rfl, rfl, rfl, rfl, rfl, rfl, LineEngine.counter_reset false⟩

theorem State.line_powerOn (s : State) (rst : Bool) (l : Line) :
    (s.powerOn rst).line l = .reset (s.line l).leadDominant := by cases l <;> rfl

/-- The part at its power-on values, with RST released, and the exchange in progress to be ignored where SCS was LOW
(R172). -/
def State.released (s : State) (scsLow : Bool) : State :=
  (s.powerOn false).modHost fun p => { p with ignoreExchange := scsLow }

theorem State.outstanding_released (s : State) (scsLow : Bool) (r : Requester) :
    (s.released scsLow).outstanding r = false := by
  cases r with
  | host =>
    refine State.outstanding_host fun j => ?_
    show (HostPort.reset.slots.get j).isActive = false
    rw [HostPort.get_slots_reset]
    rfl
  | line l => cases l <;> rfl
  | clock => rfl

theorem State.atnDriven_released (s : State) (scsLow : Bool) : (s.released scsLow).atnDriven = false := by
  show (!false && ((0 &&& ConfigStore.default.enables) != 0 || (false && ConfigStore.default.changeAttention))) = false
  decide

theorem exec_rstReleased {s : State} (scsLow : Bool) (asserted : s.rst = true) :
    exec (.rstReleased scsLow) s = .next (s.released scsLow) :=
  congrArg Host.Outcome.next (if_pos asserted)

/-- Settles O4: the assertion loads the power-on values, and the release keeps them. -/
theorem powerOnReset : Obligations.PowerOnReset := by
  intro s
  refine ⟨⟨s.powerOn true, rfl, rfl, rfl, rfl, rfl, rfl, rfl, rfl, rfl, s.line_powerOn true⟩, fun scsLow asserted => ?_⟩
  exact ⟨s.released scsLow, exec_rstReleased scsLow asserted, rfl, s.atnDriven_released scsLow,
    HostPort.get_slots_reset, rfl, rfl, rfl, rfl, rfl, rfl, s.outstanding_released scsLow, rfl, rfl, rfl, rfl,
    s.line_powerOn false⟩

/-! ### RESET DEVICE (R173) -/

theorem State.slot_softReset (s : State) (own : Fin 4) (h : Handle) :
    (s.softReset own).slot h = Slot.fresh ((s.slot h).gen + 1) :=
  Vector.getElem_map ..

theorem HostPort.slot_softReset (p : HostPort) (own j : Fin 4) :
    (p.softReset own).slots.get j = if j = own then p.slots.get own else .empty := by
  show ((Vector.replicate 4 CmdSlot.empty).set own.val (p.slots.get own) own.isLt).get j = _
  rw [get_vectorSet]
  congr 1
  exact Vector.getElem_replicate _

/-- The command of a soft reset stays in the ACTIVE slot (R173). -/
theorem HostPort.activeSlot?_softReset {p : HostPort} {i : Fin 4} {f : CmdFrame}
    (active : p.activeSlot? = some (i, f)) : (p.softReset i).activeSlot? = some (i, f) := by
  obtain ⟨d, holds⟩ := HostPort.active_some active
  refine HostPort.activeSlot?_of_only (d := d) ?_ fun j ne => ?_
  · rw [HostPort.slot_softReset, if_pos rfl, holds]
  · rw [HostPort.slot_softReset, if_neg ne]
    rfl

/-- A soft reset with its response written, and the engine idle (R173). -/
def State.softResetAnswered (s : State) (i : Fin 4) (tag : Byte) : State :=
  ((s.softReset i).answerSlot i tag (.bare .ok)).engineIdle

theorem State.hostSlot_softResetAnswered (s : State) (i j : Fin 4) (tag : Byte) :
    (s.softResetAnswered i tag).host.slots.get j = if j = i then .answered ⟨tag, .ok, []⟩ else .empty := by
  show ((s.softReset i).answerSlot i tag (.bare .ok)).host.slots.get j = _
  rw [State.hostSlot_answerSlot]
  split
  · rfl
  · next ne => exact (HostPort.slot_softReset s.host i j).trans (if_neg ne)

/-- A soft reset discards every other requester's claim (R173). -/
theorem State.outstanding_softResetAnswered (s : State) (i : Fin 4) (tag : Byte) (r : Requester) :
    (s.softResetAnswered i tag).outstanding r = false := by
  cases r with
  | host =>
    refine State.outstanding_host fun j => ?_
    rw [State.hostSlot_softResetAnswered]
    split <;> rfl
  | line l => cases l <;> rfl
  | clock => rfl

/-- RESET DEVICE completes, and no claim is left to be granted (R22, R173). -/
theorem State.HostRuns.exec_resetDevice {s : State} {i : Fin 4} {f : CmdFrame} (runs : s.HostRuns i f .resetDevice) :
    exec .resetDevice s = .next (s.softResetAnswered i f.tag) := by
  obtain ⟨engine, active, parsed⟩ := runs
  have claim : s.hostClaim? = some .resetDevice := State.HostRuns.claim ⟨engine, active, parsed⟩
  have own : (s.softReset i).host.activeSlot? = some (i, f) := HostPort.activeSlot?_softReset active
  have completes : State.completeHost (s.softReset i, .bare .ok) = (s.softResetAnswered i f.tag).grant := by
    unfold State.completeHost
    rw [own]
    rfl
  show execResetDevice s = _
  unfold execResetDevice
  rw [claim, active]
  exact congrArg Host.Outcome.next
    (completes.trans (State.grant_of_unclaimed _ (s.outstanding_softResetAnswered i f.tag)))

/-- A soft reset leaves an exchange in progress as it was, unless it reads a response (R173). -/
theorem Exchange.softReset_of_not_reading {x : Exchange} (other : ∀ c, x.phase ≠ .reading c) : x.softReset = x := by
  unfold Exchange.softReset
  split
  · next c reading => exact absurd reading (other c)
  · rfl

/-- Settles O5: the state that RESET DEVICE leaves is the soft reset with its response, since no claim is left to be
granted. -/
theorem softReset : Obligations.SoftReset := by
  intro s i f runs
  have exchange : (s.softResetAnswered i f.tag).host.exchange = s.host.exchange.map Exchange.softReset := rfl
  refine ⟨s.softResetAnswered i f.tag, runs.exec_resetDevice, s.slot_softReset i, State.mapAt_reset, State.quarOf_reset,
    State.group_reset, rfl, rfl, rfl, fun l => ?_, rfl, rfl, rfl, rfl, ?_, fun j ne => ?_, rfl, rfl, rfl, rfl,
    fun idle => ?_, fun x found other => ?_, fun b found => ?_, fun b j r found => ?_, rfl, rfl⟩
  · cases l <;> rfl
  · rw [State.hostSlot_softResetAnswered, if_pos rfl]
  · rw [State.hostSlot_softResetAnswered, if_neg ne]
  · rw [exchange, idle]
    rfl
  · rw [exchange, found]
    exact congrArg some (Exchange.softReset_of_not_reading other)
  · rw [exchange, found]
    rfl
  · rw [exchange, found]
    rfl

/-! ### The parts of an exchange (R160, R161, R172; log 5) -/

theorem State.modHost_congr {s : State} {f g : HostPort → HostPort} (same : f s.host = g s.host) :
    s.modHost f = s.modHost g := by
  unfold State.modHost
  rw [same]

/-- A command that changes the host port alone, and what it changes it to. -/
theorem exec_eq_of_modHost {c : Instr} {s : State} {f : HostPort → HostPort} {p : HostPort}
    (runs : exec c s = .next (s.modHost f)) (becomes : f s.host = p) : exec c s = .next { s with host := p } := by
  rw [runs, ← becomes]
  rfl

/-- A host port as SCS goes LOW, with the status byte sampled (R160, R161). -/
def HostPort.opened (b : Byte) (p : HostPort) : HostPort := { p with exchange := some ⟨b, .kindByte⟩, sdo := [] }

section Parts

variable {Sent : Type} {s : State} {kind : HostPort → HostPort} {close : Sent → HostPort → HostPort}

/-- The exchange in progress at the release of RST is ignored to its end (R172; log 34). -/
theorem State.exchange_ignored_end {part : ExchangePart Sent} (released : s.rst = false)
    (ignored : s.host.ignoreExchange = true) (ends : part.sent?.isSome = true) :
    s.exchange kind close part = s.modHost fun p => { p with ignoreExchange := false, sdo := [] } := by
  simp [State.exchange, released, ignored, ends]

theorem State.exchange_ignored_before_end {part : ExchangePart Sent} (released : s.rst = false)
    (ignored : s.host.ignoreExchange = true) (before : part.sent?.isSome = false) : s.exchange kind close part = s := by
  simp [State.exchange, released, ignored, before]

variable (released : s.rst = false) (heeded : s.host.ignoreExchange = false)
include released heeded

/-- SCS going LOW samples the status byte (R161). -/
theorem State.exchange_opens (idle : s.host.exchange = none) :
    s.exchange kind close .opens = s.modHost (HostPort.opened s.statusByte) := by
  have opens : s.openExchange = s.modHost (HostPort.opened s.statusByte) := rfl
  simp [State.exchange, released, heeded, idle, opens]

/-- The complete kind byte takes effect (R160). -/
theorem State.exchange_kindByte : s.exchange kind close .kindByte = s.modHost kind := by
  simp [State.exchange, released, heeded]

/-- SCS going HIGH decides the result of the exchange (R162, R165). -/
theorem State.exchange_closes (sent : Sent) : s.exchange kind close (.closes sent) = s.modHost (close sent) := by
  simp [State.exchange, released, heeded]

/-- A whole exchange is its beginning, its kind byte and its end. -/
theorem State.exchange_whole (idle : s.host.exchange = none) (sent : Sent) :
    s.exchange kind close (.whole sent) = s.modHost fun p => close sent (kind (p.opened s.statusByte)) := by
  have opens : s.openExchange = s.modHost (HostPort.opened s.statusByte) := rfl
  simp [State.exchange, released, heeded, idle, opens, State.modHost]

end Parts

theorem HostPort.closed_of_idle {p : HostPort} (idle : p.exchange = none) : { p with exchange := none } = p := by
  rw [← idle]

/-- A complete kind byte of one of the three kinds picks the phase (R160). -/
theorem HostPort.takeKind_known {p : HostPort} {b : Byte} (k : ExchangeKind)
    (coming : p.exchange = some ⟨b, .kindByte⟩) :
    p.takeKind (some k) = { p with exchange := some ⟨b, p.phaseOf (some k)⟩, sdo := [b] } := by
  unfold HostPort.takeKind
  rw [coming]
  rfl

/-- A complete kind byte that is none of the three raises FRAME_ERROR (R160). -/
theorem HostPort.takeKind_unknown {p : HostPort} {b : Byte} (coming : p.exchange = some ⟨b, .kindByte⟩) :
    p.takeKind none = { p with flags := p.flags ||| 0x080, exchange := some ⟨b, .ignored⟩, sdo := [b] } := by
  unfold HostPort.takeKind
  rw [coming]
  rfl

/-! ### WRITE COMMAND (R162) -/

/-- The lowest-numbered EMPTY slot is the one taken (R162). -/
theorem HostPort.emptySlot?_of_lowest {p : HostPort} {i : Fin 4} (empty : p.slots.get i = .empty)
    (lowest : ∀ j : Fin 4, j < i → p.slots.get j ≠ .empty) : p.emptySlot? = some i := by
  unfold HostPort.emptySlot?
  rw [List.find?_eq_some_iff_getElem]
  refine ⟨by simp [empty], i.val, by simp, by simp, fun j lt => ?_⟩
  simpa using lowest ⟨j, Nat.lt_trans lt i.isLt⟩ lt

theorem HostPort.emptySlot?_of_full {p : HostPort} (full : ∀ i : Fin 4, p.slots.get i ≠ .empty) :
    p.emptySlot? = none :=
  List.find?_eq_none.mpr fun i _ => by simpa using full i

/-- A host port at the end of a WRITE COMMAND: its tests are made, and SDO carried filler (R162). -/
def HostPort.afterWrite (b : Byte) (bytes : List Byte) (extra : Nat) (p : HostPort) : HostPort :=
  (p.writeCommand bytes extra).endExchange b (List.replicate bytes.length 0)

/-- The end of a WRITE COMMAND sends the status byte sampled at its beginning. -/
theorem HostPort.closeWrite_eq {p : HostPort} {b : Byte} (writing : p.exchange = some ⟨b, .writing⟩) (bytes : List Byte)
    (extra : Nat) : p.closeWrite extra bytes = p.afterWrite b bytes extra := by
  unfold HostPort.closeWrite
  rw [writing]
  rfl

/-- The tests of a WRITE COMMAND do not read the exchange in progress, which its end closes (R162). -/
theorem HostPort.afterWrite_setExchange (p : HostPort) (x : Option Exchange) (sdo : List Byte) (b : Byte)
    (bytes : List Byte) (extra : Nat) :
    HostPort.afterWrite b bytes extra { p with exchange := x, sdo := sdo } = p.afterWrite b bytes extra := by
  have sameSlots : HostPort.emptySlot? { p with exchange := x, sdo := sdo } = p.emptySlot? := rfl
  unfold HostPort.afterWrite HostPort.writeCommand
  rw [sameSlots]
  cases readCommandFrame? bytes extra with
  | none => rfl
  | some f => cases p.emptySlot? <;> rfl

section WriteCommand

variable {s : State} (released : s.rst = false) (heeded : s.host.ignoreExchange = false)
include released heeded

theorem exec_writeCommand_closes {b : Byte} (writing : s.host.exchange = some ⟨b, .writing⟩) (bytes : List Byte)
    (extra : Nat) :
    exec (.writeCommand (.closes bytes) extra) s = .next (s.modHost (HostPort.afterWrite b bytes extra)) :=
  congrArg Host.Outcome.next ((State.exchange_closes released heeded bytes).trans
    (State.modHost_congr (HostPort.closeWrite_eq writing bytes extra)))

theorem exec_writeCommand_whole (idle : s.host.exchange = none) (bytes : List Byte) (extra : Nat) :
    exec (.writeCommand (.whole bytes) extra) s
      = .next (s.modHost (HostPort.afterWrite s.statusByte bytes extra)) := by
  refine congrArg Host.Outcome.next ((State.exchange_whole released heeded idle bytes).trans (State.modHost_congr ?_))
  rw [HostPort.takeKind_known .writeCommand rfl, HostPort.closeWrite_eq rfl]
  exact s.host.afterWrite_setExchange _ _ _ _ _

end WriteCommand

/-- Settles O6: a whole exchange and the end of one make the same tests, each of which leads to its own outcome. -/
theorem writeCommandTests : Obligations.WriteCommandTests := by
  intro s bytes extra released heeded tested
  have ends : ∀ (c : Instr) (b : Byte),
      exec c s = .next (s.modHost (HostPort.afterWrite b bytes extra)) → tested c b := by
    intro c b runs
    unfold State.modHost HostPort.afterWrite HostPort.writeCommand at runs
    refine ⟨fun f i read empty lowest => ?_, fun f read full => ?_, fun read => ?_⟩
    · rw [runs, read, HostPort.emptySlot?_of_lowest empty lowest]
      rfl
    · rw [runs, read, HostPort.emptySlot?_of_full full]
      rfl
    · rw [runs, read]
      rfl
  refine ⟨fun idle => ends _ _ (exec_writeCommand_whole released heeded idle bytes extra),
    fun b => ⟨fun coming => ?_, fun writing => ends _ _ (exec_writeCommand_closes released heeded writing bytes extra)⟩⟩
  exact exec_eq_of_modHost (congrArg Host.Outcome.next (State.exchange_kindByte released heeded))
    (HostPort.takeKind_known .writeCommand coming)

/-! ### READ RESPONSE (R165) -/

/-- The slot that still holds the response chosen becomes EMPTY exactly when the whole frame was clocked out (R165). -/
theorem HostPort.slot_emptyRead {p : HostPort} {i : Fin 4} {r : Response} (held : p.slots.get i = .answered r)
    (n : Nat) (j : Fin 4) :
    (p.emptyRead n (some (some i, r))).slots.get j
      = if j = i ∧ r.frame.length ≤ n then .empty else p.slots.get j := by
  unfold HostPort.emptyRead HostPort.readWhole?
  by_cases whole : r.frame.length ≤ n
  · simp [whole, held, HostPort.emptySlot, get_vectorSet]
  · simp [whole]

theorem HostPort.flags_emptyRead (p : HostPort) (n : Nat) (chosen : Option (Option (Fin 4) × Response)) :
    (p.emptyRead n chosen).flags = p.flags := by
  unfold HostPort.emptyRead
  cases p.readWhole? n chosen <;> rfl

/-- A host port at the end of a READ RESPONSE: what was chosen is sent, and the slot of a response that was read whole is
EMPTY (R165). -/
def HostPort.afterRead (b : Byte) (n : Nat) (chosen : Option (Option (Fin 4) × Response)) (p : HostPort) : HostPort :=
  { p.emptyRead n chosen with exchange := none, lastError := .none, sdo := b :: responseBytes n chosen }

theorem HostPort.closeRead_eq {p : HostPort} {b : Byte} {chosen : Option (Option (Fin 4) × Response)}
    (reading : p.exchange = some ⟨b, .reading chosen⟩) (n : Nat) : p.closeRead n = p.afterRead b n chosen := by
  unfold HostPort.closeRead
  rw [reading]
  rfl

/-- The end of a READ RESPONSE reads the slots alone, and closes the exchange in progress (R165). -/
theorem HostPort.afterRead_setExchange (p : HostPort) (x : Option Exchange) (sdo : List Byte) (b : Byte) (n : Nat)
    (chosen : Option (Option (Fin 4) × Response)) :
    HostPort.afterRead b n chosen { p with exchange := x, sdo := sdo } = p.afterRead b n chosen := by
  have sameSlot : HostPort.readWhole? n chosen { p with exchange := x, sdo := sdo } = p.readWhole? n chosen := rfl
  unfold HostPort.afterRead HostPort.emptyRead
  rw [sameSlot]
  cases p.readWhole? n chosen <;> rfl

/-- The oldest response, as a READ RESPONSE chooses it, with the slot that holds it (R165). -/
def HostPort.choice (p : HostPort) : Option (Option (Fin 4) × Response) := p.oldestAnswer?.map fun x => (some x.1, x.2)

section ReadResponse

variable {s : State} (released : s.rst = false) (heeded : s.host.ignoreExchange = false)
include released heeded

theorem exec_readResponse_closes {b : Byte} {chosen : Option (Option (Fin 4) × Response)}
    (reading : s.host.exchange = some ⟨b, .reading chosen⟩) (n : Nat) :
    exec (.readResponse (.closes n)) s = .next (s.modHost (HostPort.afterRead b n chosen)) :=
  congrArg Host.Outcome.next ((State.exchange_closes released heeded n).trans
    (State.modHost_congr (HostPort.closeRead_eq reading n)))

/-- A whole READ RESPONSE chooses the oldest response, and reads it from slots that nothing has touched since. -/
theorem exec_readResponse_whole (idle : s.host.exchange = none) (n : Nat) :
    exec (.readResponse (.whole n)) s
      = .next (s.modHost (HostPort.afterRead s.statusByte n s.host.choice)) := by
  refine congrArg Host.Outcome.next ((State.exchange_whole released heeded idle n).trans (State.modHost_congr ?_))
  rw [HostPort.takeKind_known .readResponse rfl, HostPort.closeRead_eq rfl]
  exact s.host.afterRead_setExchange _ _ _ _ _

end ReadResponse

/-- Settles O7: a whole exchange and the end of one read the response chosen in the same way, from the slot that holds
it; the kind byte chooses it. -/
theorem readResponseSendsTheOldest : Obligations.ReadResponseSendsTheOldest := by
  intro s n released heeded framed sends
  have held : ∀ (c : Instr) (b : Byte) (i : Fin 4) (r : Response), s.host.slots.get i = .answered r →
      exec c s = .next (s.modHost (HostPort.afterRead b n (some (some i, r)))) →
        ∃ t, exec c s = .next t ∧ sends t b i r := by
    intro c b i r answered runs
    refine ⟨_, runs, rfl, (HostPort.slot_emptyRead answered n i).trans ?_, fun j ne => ?_, rfl,
      HostPort.flags_emptyRead .., rfl, rfl, rfl, rfl, rfl, rfl⟩
    · simp only [true_and, answered]
    · exact (HostPort.slot_emptyRead answered n j).trans (if_neg fun same => ne same.1)
  refine ⟨fun idle => ⟨fun i r oldest => ?_, fun unanswered => ?_⟩,
    fun b => ⟨fun coming => ?_, fun i r reading answered => ?_, fun r reading => ?_, fun reading => ?_⟩⟩
  · have runs := exec_readResponse_whole released heeded idle n
    rw [HostPort.choice, oldest] at runs
    exact held _ _ i r (HostPort.oldestAnswer_some oldest) runs
  · rw [exec_readResponse_whole released heeded idle n, HostPort.choice, unanswered]
    exact congrArg (fun p : HostPort => Host.Outcome.next { s with host :=
      { p with lastError := .none, sdo := s.statusByte :: List.replicate n 0 } }) (HostPort.closed_of_idle idle)
  · exact exec_eq_of_modHost (congrArg Host.Outcome.next (State.exchange_kindByte released heeded))
      (HostPort.takeKind_known .readResponse coming)
  · exact held _ _ i r answered (exec_readResponse_closes released heeded reading n)
  · exact exec_readResponse_closes released heeded reading n
  · exact exec_readResponse_closes released heeded reading n

/-! ### READ STATUS and unknown kind bytes (R160, R161) -/

theorem exchangeKind?_unknown {k : Byte} (write : k ≠ 0x5A) (read : k ≠ 0xA5) (status : k ≠ 0x3C) :
    exchangeKind? k = none := by
  unfold exchangeKind?
  rw [if_neg write, if_neg read, if_neg status]

/-- An exchange whose kind byte is none of the three (R160). -/
theorem exec_unknownKindByte {k : Byte} (unknown : exchangeKind? k = none) (part : ExchangePart Nat) (s : State) :
    exec (.unknownKindByte (some k) part) s
      = .next (s.exchange (HostPort.takeKind none) HostPort.closeUnknown part) := by
  show execUnknownKindByte (some k) part s = _
  unfold execUnknownKindByte
  dsimp only
  rw [unknown]

/-- A command that stands for the given part of an exchange: a WRITE COMMAND, a READ RESPONSE, a READ STATUS, an exchange
without a complete kind byte, or one of the given kind byte. -/
def IsExchangePart (k : Byte) (bytes : ExchangePart (List Byte)) (count : ExchangePart Nat) (c : Instr) : Prop :=
  (∃ extra : Nat, c = .writeCommand bytes extra) ∨ c = .readResponse count ∨ c = .readStatus count
    ∨ c = .unknownKindByte none count ∨ c = .unknownKindByte (some k) count

/-- Where a part of an exchange leads to one state whatever its kind does, so do the commands of that part. -/
theorem IsExchangePart.exec_eq {k : Byte} {bytes : ExchangePart (List Byte)} {count : ExchangePart Nat} {c : Instr}
    {s t : State} (isPart : IsExchangePart k bytes count c) (unknown : exchangeKind? k = none)
    (ofBytes : ∀ kind close, s.exchange kind close bytes = t) (ofCount : ∀ kind close, s.exchange kind close count = t) :
    exec c s = .next t := by
  obtain ⟨extra, rfl⟩ | rfl | rfl | rfl | rfl := isPart
  · exact congrArg Host.Outcome.next (ofBytes _ _)
  · exact congrArg Host.Outcome.next (ofCount _ _)
  · exact congrArg Host.Outcome.next (ofCount _ _)
  · exact congrArg Host.Outcome.next (ofCount _ _)
  · rw [exec_unknownKindByte unknown, ofCount]

/-- In the exchange in progress at the release of RST no command changes anything before the end (R172). -/
theorem IsExchangePart.exec_ignored_before_end {k : Byte} {bytes : ExchangePart (List Byte)} {count : ExchangePart Nat}
    {c : Instr} {s : State} (isPart : IsExchangePart k bytes count c) (unknown : exchangeKind? k = none)
    (released : s.rst = false) (ignored : s.host.ignoreExchange = true) (ofBytes : bytes.sent?.isSome = false)
    (ofCount : count.sent?.isSome = false) : exec c s = .next s :=
  isPart.exec_eq unknown (fun _ _ => State.exchange_ignored_before_end released ignored ofBytes)
    fun _ _ => State.exchange_ignored_before_end released ignored ofCount

/-- The end of the exchange in progress at the release of RST ends the ignoring, and SDO carried no byte (R172;
log 34). -/
theorem IsExchangePart.exec_ignored_end {k : Byte} {bytes : ExchangePart (List Byte)} {count : ExchangePart Nat}
    {c : Instr} {s : State} (isPart : IsExchangePart k bytes count c) (unknown : exchangeKind? k = none)
    (released : s.rst = false) (ignored : s.host.ignoreExchange = true) (ofBytes : bytes.sent?.isSome = true)
    (ofCount : count.sent?.isSome = true) :
    exec c s = .next (s.modHost fun p => { p with ignoreExchange := false, sdo := [] }) :=
  isPart.exec_eq unknown (fun _ _ => State.exchange_ignored_end released ignored ofBytes)
    fun _ _ => State.exchange_ignored_end released ignored ofCount

theorem exchangeCommand_unknown {k : Byte} (unknown : exchangeKind? k = none) (bytes : List Byte) (extra : Nat) :
    exchangeCommand (k :: bytes) extra = .unknownKindByte (some k) (.whole bytes.length) := by
  unfold exchangeCommand
  dsimp only
  rw [unknown]

theorem HostPort.closeStatus_eq {p : HostPort} {b : Byte} (status : p.exchange = some ⟨b, .status⟩) (n : Nat) :
    p.closeStatus n = { p with exchange := none, sdo := List.replicate (n + 1) b } := by
  unfold HostPort.closeStatus
  rw [status]
  rfl

theorem HostPort.closeUnknown_eq {p : HostPort} {b : Byte} (ignored : p.exchange = some ⟨b, .ignored⟩) (n : Nat) :
    p.closeUnknown n = { p with exchange := none, lastError := .frame, sdo := b :: List.replicate n 0 } := by
  unfold HostPort.closeUnknown
  rw [ignored]
  rfl

theorem HostPort.closeEarly_eq {p : HostPort} {b : Byte} (coming : p.exchange = some ⟨b, .kindByte⟩) :
    p.closeEarly = { p with exchange := none } := by
  unfold HostPort.closeEarly
  rw [coming]

/-- Settles O8: an ignored exchange and the beginning of one alike for every kind, the rest kind by kind. -/
theorem statusReadsAndUnknownKinds : Obligations.StatusReadsAndUnknownKinds := by
  refine ⟨fun bytes extra => ⟨rfl, rfl, rfl, fun k write read status =>
    exchangeCommand_unknown (exchangeKind?_unknown write read status) bytes extra⟩, ?_, ?_⟩
  · intro s k released ignored write read status exchanges bytes n c
    have unknown := exchangeKind?_unknown write read status
    refine ⟨?_, ?_⟩
    · rintro (opens | kindByte)
      · exact IsExchangePart.exec_ignored_before_end opens unknown released ignored rfl rfl
      · exact IsExchangePart.exec_ignored_before_end kindByte unknown released ignored rfl rfl
    · rintro (closes | whole)
      · exact IsExchangePart.exec_ignored_end closes unknown released ignored rfl rfl
      · exact IsExchangePart.exec_ignored_end whole unknown released ignored rfl rfl
  · intro s n k released heeded write read status answers
    have unknown := exchangeKind?_unknown write read status
    refine ⟨fun idle => ⟨fun c opens => ?_, ?_, ?_, ?_⟩, fun b => ⟨fun coming => ⟨?_, ?_, ?_⟩, fun repeats => ?_,
      fun ignored => ?_⟩⟩
    · exact IsExchangePart.exec_eq opens unknown (fun _ _ => State.exchange_opens released heeded idle)
        fun _ _ => State.exchange_opens released heeded idle
    · refine exec_eq_of_modHost (congrArg Host.Outcome.next (State.exchange_whole released heeded idle n)) ?_
      rw [HostPort.takeKind_known .readStatus rfl, HostPort.closeStatus_eq rfl]
      exact congrArg (fun p : HostPort => { p with sdo := List.replicate (n + 1) s.statusByte })
        (HostPort.closed_of_idle idle)
    · refine exec_eq_of_modHost ((exec_unknownKindByte unknown _ s).trans
        (congrArg Host.Outcome.next (State.exchange_whole released heeded idle n))) ?_
      rw [HostPort.takeKind_unknown rfl, HostPort.closeUnknown_eq rfl]
      exact congrArg (fun p : HostPort => { p with
        flags := p.flags ||| 0x080, lastError := .frame, sdo := s.statusByte :: List.replicate n 0 })
        (HostPort.closed_of_idle idle)
    · refine exec_eq_of_modHost (congrArg Host.Outcome.next (State.exchange_whole released heeded idle n)) ?_
      exact congrArg (fun p : HostPort => { p with sdo := [] }) (HostPort.closed_of_idle idle)
    · exact exec_eq_of_modHost (congrArg Host.Outcome.next (State.exchange_kindByte released heeded))
        (HostPort.takeKind_known .readStatus coming)
    · exact exec_eq_of_modHost ((exec_unknownKindByte unknown _ s).trans
        (congrArg Host.Outcome.next (State.exchange_kindByte released heeded))) (HostPort.takeKind_unknown coming)
    · exact exec_eq_of_modHost (congrArg Host.Outcome.next (State.exchange_closes released heeded n))
        (HostPort.closeEarly_eq coming)
    · exact exec_eq_of_modHost (congrArg Host.Outcome.next (State.exchange_closes released heeded n))
        (HostPort.closeStatus_eq repeats n)
    · exact exec_eq_of_modHost ((exec_unknownKindByte unknown _ s).trans
        (congrArg Host.Outcome.next (State.exchange_closes released heeded n))) (HostPort.closeUnknown_eq ignored n)

/-! ### The attention line (R168) -/

/-- Two sets of alarms meet exactly where one alarm is in both. -/
theorem AlarmSet.and_ne_zero_iff (a b : AlarmSet) :
    a &&& b ≠ 0 ↔ ∃ i : Fin 9, a.getLsbD i = true ∧ b.getLsbD i = true := by
  constructor
  · intro meets
    refine Decidable.byContradiction fun apart => meets (BitVec.eq_of_getLsbD_eq fun i lt => ?_)
    rw [BitVec.getLsbD_and, show BitVec.getLsbD (0 : AlarmSet) i = false from BitVec.getLsbD_zero]
    refine Bool.eq_false_iff.mpr fun both => apart ⟨⟨i, lt⟩, ?_⟩
    exact (Bool.and_eq_true_iff.mp both)
  · rintro ⟨i, inA, inB⟩ apart
    have bit : (a &&& b).getLsbD i = true := by rw [BitVec.getLsbD_and, inA, inB]; rfl
    rw [apart] at bit
    simp at bit

/-- Settles O9: the changes-waiting indication stands for a change set that is not empty. -/
theorem atnIsDrivenExactlyWhen : Obligations.AtnIsDrivenExactlyWhen := by
  intro s waiting
  have indicated : s.host.changesWaiting = true ↔ s.dir.changeSet ≠ [] := by
    rw [waiting]
    simp
  rw [← AlarmSet.and_ne_zero_iff, ← indicated]
  simp [State.atnDriven]

/-! ### The beginning of a command (R164) -/

/-- A CONFIGURE without a miss limit item is a local command (R164). -/
theorem HostCmd.isLocal_configure {items : List (Byte × Nat)} (unlimited : ∀ x ∈ items, x.1 ≠ 0x04) :
    (HostCmd.configure items).isLocal = true := by
  simpa [HostCmd.isLocal] using unlimited

section Begun

variable {s : State} {i : Fin 4} {f : CmdFrame} (oldest : s.host.nextQueued? = some (i, f))
include oldest

theorem exec_commandBegin_claim {c : HostCmd} (parsed : parseCommand? f = some c) (claims : c.isLocal = false) :
    exec .commandBegin s = .next (s.beginClaim i f) := by
  show execCommandBegin s = _
  simp [execCommandBegin, oldest, parsed, claims]

theorem exec_commandBegin_local {c : HostCmd} (parsed : parseCommand? f = some c) (isLocal : c.isLocal = true) :
    exec .commandBegin s = .next (State.completeLocal (s.runLocal c) i f.tag) := by
  show execCommandBegin s = _
  simp [execCommandBegin, oldest, parsed, isLocal]

theorem exec_commandBegin_badFrame (unparsed : parseCommand? f = none) :
    exec .commandBegin s = .next (s.answerSlot i f.tag (s.badFrameReply f)) := by
  show execCommandBegin s = _
  simp [execCommandBegin, oldest, unparsed]

theorem exec_readAlarms_begun (parsed : parseCommand? f = some .readAlarms) :
    exec .readAlarms s = .next (State.completeLocal (s, s.readAlarms) i f.tag) := by
  show execReadAlarms s = _
  simp [execReadAlarms, oldest, parsed]

theorem exec_ackAlarms_begun {n : Nat} (parsed : parseCommand? f = some (.ackAlarms n)) :
    exec .ackAlarms s = .next (State.completeLocal (s.ackAlarms n) i f.tag) := by
  show execAckAlarms s = _
  simp [execAckAlarms, oldest, parsed]

/-- While a command waits to be begun, none is carried out (R164). -/
theorem State.hostClaim?_of_nextQueued : s.hostClaim? = none := by
  have inactive : s.host.activeSlot? = none := by simpa using (HostPort.nextQueued_some oldest).2
  unfold State.hostClaim?
  rw [inactive]
  split <;> rfl

theorem exec_configure_begun {items : List (Byte × Nat)} (parsed : parseCommand? f = some (.configure items))
    (unlimited : ∀ x ∈ items, x.1 ≠ 0x04) :
    exec .configure s = .next (State.completeLocal (s.configureStore items) i f.tag) := by
  show execConfigure s = _
  simp [execConfigure, State.hostClaim?_of_nextQueued oldest, oldest, parsed, HostCmd.isLocal_configure unlimited]

end Begun

/-- Settles O10, by what the oldest frame is: a directory command, one of the local commands, or none. -/
theorem commandBeginTakesTheOldest : Obligations.CommandBeginTakesTheOldest := by
  intro s i f oldest
  refine ⟨fun c parsed claims => exec_commandBegin_claim oldest parsed claims, fun parsed => ?_, fun n parsed => ?_,
    fun items parsed unlimited => ?_, fun unparsed => ?_⟩
  · exact (exec_commandBegin_local oldest parsed rfl).trans (exec_readAlarms_begun oldest parsed).symm
  · exact (exec_commandBegin_local oldest parsed rfl).trans (exec_ackAlarms_begun oldest parsed).symm
  · exact (exec_commandBegin_local oldest parsed (HostCmd.isLocal_configure unlimited)).trans
      (exec_configure_begun oldest parsed unlimited).symm
  · rw [exec_commandBegin_badFrame oldest unparsed, State.badFrameReply]
    split
    · rfl
    · split <;> rfl

/-- Settles O11: a field of nine bits names the flags that ACK ALARMS clears. -/
theorem alarmCommandsAreLocal : Obligations.AlarmCommandsAreLocal := by
  intro s i f oldest
  refine ⟨fun parsed => exec_readAlarms_begun oldest parsed, fun n parsed small => ?_⟩
  have named : alarmSetOf? n = some (BitVec.ofNat 9 n) := if_pos small
  rw [exec_ackAlarms_begun oldest parsed, State.ackAlarms, named]
  rfl

/-! ### CONFIGURE (R26, R170) -/

theorem State.rateBlocked_iff (s : State) (items : List (Byte × Nat)) :
    s.rateBlocked items = true ↔ ∃ x ∈ items,
      x.1 = 0x08 ∧ (s.line .A).state ≠ .off ∨ x.1 = 0x09 ∧ (s.line .B).state ≠ .off := by
  simp [State.rateBlocked]

/-- An item that cannot be written, or an item code that stands twice, refuses a CONFIGURE (R170). -/
theorem State.configureStore_of_broken {s : State} {items : List (Byte × Nat)}
    (broken : s.cfg.writeAll? items = none ∨ hasRepeat (items.map Prod.fst) = true) :
    s.configureStore items = (s, ⟨.badArgument, s.cfg.bytes⟩) := by
  unfold State.configureStore
  split
  · rfl
  · next c written =>
    obtain unwritten | twice := broken
    · cases written.symm.trans unwritten
    · rw [if_pos twice]

/-- The rate of a line that is not OFF refuses a CONFIGURE that is otherwise in order (R170). -/
theorem State.configureStore_of_blocked {s : State} {items : List (Byte × Nat)}
    (sound : ¬ (s.cfg.writeAll? items = none ∨ hasRepeat (items.map Prod.fst) = true))
    (blocked : s.rateBlocked items = true) : s.configureStore items = (s, ⟨.state, s.cfg.bytes⟩) := by
  obtain ⟨writable, once⟩ := not_or.mp sound
  obtain ⟨c, written⟩ := Option.ne_none_iff_exists'.mp writable
  unfold State.configureStore
  rw [written]
  dsimp only
  rw [if_neg once, if_pos blocked]

/-- A CONFIGURE that passes writes every item (R170). -/
theorem State.configureStore_of_passed {s : State} {items : List (Byte × Nat)} {c : ConfigStore}
    (written : s.cfg.writeAll? items = some c)
    (sound : ¬ (s.cfg.writeAll? items = none ∨ hasRepeat (items.map Prod.fst) = true))
    (free : ¬ s.rateBlocked items = true) : s.configureStore items = ({ s with cfg := c }, ⟨.ok, c.bytes⟩) := by
  unfold State.configureStore
  rw [written]
  dsimp only
  rw [if_neg (not_or.mp sound).2, if_neg free]

theorem Slot.clampMiss_eq (limit : Nat) (x : Slot) : x.clampMiss limit = { x with
    content := x.content.map fun r => { r with missCount := min r.missCount limit } } := by
  obtain ⟨content, gen, lastIdentity, keptOutcome, mask⟩ := x
  cases content <;> rfl

theorem State.slot_clampMisses (s : State) (limit : Nat) (h : Handle) :
    (s.clampMisses limit).slot h = (s.slot h).clampMiss limit := Vector.getElem_map ..

/-- A refused CONFIGURE changes nothing but its own slot (R170). -/
theorem State.configureClaim_of_refused {s : State} {items : List (Byte × Nat)} {r : Reply}
    (refused : s.configureStore items = (s, r)) (notOk : r.status ≠ .ok) : s.configureClaim items = (s, r) := by
  unfold State.configureClaim
  rw [refused]
  exact if_neg notOk

/-- A CONFIGURE that passes as a claim clamps every miss count to the limit in the store it writes (R26). -/
theorem State.configureClaim_of_passed {s : State} {items : List (Byte × Nat)} {c : ConfigStore}
    (passed : s.configureStore items = ({ s with cfg := c }, ⟨.ok, c.bytes⟩)) :
    s.configureClaim items = (State.clampMisses { s with cfg := c } c.missLimit, ⟨.ok, c.bytes⟩) := by
  unfold State.configureClaim
  rw [passed]
  rfl

/-- A CONFIGURE that the engine carries out completes with what its work answers (R164, R170). -/
theorem State.HostRuns.exec_configure {s t : State} {i : Fin 4} {f : CmdFrame} {items : List (Byte × Nat)}
    {st : Status} {payload : List Byte} (runs : s.HostRuns i f (.configure items))
    (work : s.configureClaim items = (t, ⟨st, payload⟩)) (slots : t.host.slots = s.host.slots) :
    exec .configure s = .next (t.answered i f st payload) := by
  rw [runs.exec_eq rfl, work, runs.completes slots]

/-- Settles O12: the claim and the local command make the same checks, and the claim clamps the miss counts where they
pass. -/
theorem configureWritesAllOrNothing : Obligations.ConfigureWritesAllOrNothing := by
  intro s i f items broken blocked
  have rate : s.rateBlocked items = true ↔ blocked := s.rateBlocked_iff items
  refine ⟨fun runs => ⟨fun c written sound free => ?_, fun isBroken => ?_, fun sound isBlocked => ?_⟩,
    fun oldest parsed unlimited => ⟨fun c written sound free => ?_, fun isBroken => ?_, fun sound isBlocked => ?_⟩⟩
  · have work := State.configureClaim_of_passed (State.configureStore_of_passed written sound ((not_congr rate).mpr free))
    refine ⟨_, runs.exec_configure work rfl, ?_, ?_, fun h => ?_, ?_⟩
    · rw [State.cfg_answered]
      rfl
    · rw [State.hostSlot_answered_self]
    · rw [State.slot_answered, State.slot_clampMisses, Slot.clampMiss_eq]
      rfl
    · rw [State.dir_answered, State.lines_answered, State.clock_answered]
      exact ⟨rfl, rfl, rfl, rfl, rfl⟩
  · have work := State.configureClaim_of_refused (State.configureStore_of_broken isBroken) nofun
    exact runs.exec_configure work rfl
  · have work := State.configureClaim_of_refused (State.configureStore_of_blocked sound (rate.mpr isBlocked)) nofun
    exact runs.exec_configure work rfl
  · rw [exec_configure_begun oldest parsed unlimited,
      State.configureStore_of_passed written sound ((not_congr rate).mpr free)]
    rfl
  · rw [exec_configure_begun oldest parsed unlimited, State.configureStore_of_broken isBroken]
    rfl
  · rw [exec_configure_begun oldest parsed unlimited, State.configureStore_of_blocked sound (rate.mpr isBlocked)]
    rfl

end Sys2Proof.Machine
end

section
/-! The host commands of records, searches and lines: RESERVE, PURGE, LOOKUP, FIND, SET LEASE, SET GROUPS, SET GROUP
LIMIT, SET TAG, STATUS, and the commands of a line that leave its state alone. -/

namespace Sys2Proof.Machine

/-! ### The completion of a host command (R22, R164) -/

/-- A host command that leaves the command slots alone completes with the reply of its work (R22, R164). -/
theorem State.HostRuns.exec_work {s t : State} {i : Fin 4} {f : CmdFrame} {cmd : HostCmd} {c : Instr}
    {x : State × Reply} {st : Status} {payload : List Byte} (runs : s.HostRuns i f cmd)
    (row : s.hostRow? cmd = some (c, x)) (work : x = (t, ⟨st, payload⟩)) (slots : t.host.slots = s.host.slots) :
    exec c s = .next (t.answered i f st payload) := by
  subst work
  exact (runs.exec_eq row).trans (congrArg Host.Outcome.next (runs.completes slots))

/-- A host command whose work is a reply alone changes nothing but its slot and the arbiter (R164). -/
theorem State.HostRuns.exec_reply {s : State} {i : Fin 4} {f : CmdFrame} {cmd : HostCmd} {c : Instr}
    {x : State × Reply} {st : Status} {payload : List Byte} (runs : s.HostRuns i f cmd)
    (row : s.hostRow? cmd = some (c, x)) (work : x = (s, ⟨st, payload⟩)) :
    exec c s = .next (s.answered i f st payload) :=
  runs.exec_work row work rfl

/-! ### The line operand (R174, R180) -/

theorem State.withLine_of_line {s : State} {lb : Byte} {l : Line} (line : lineOf? lb = some l)
    (act : Line → State × Reply) : s.withLine lb act = act l := by
  rw [State.withLine, line]

theorem State.withLine_of_none {s : State} {lb : Byte} (line : lineOf? lb = none) (act : Line → State × Reply) :
    s.withLine lb act = (s, .bare .badArgument) := by
  rw [State.withLine, line]

/-! ### CLEAR COUNTERS (R69, R184) -/

/-- A line engine whose counters are all 0 (R69). -/
def LineEngine.uncounted (e : LineEngine) : LineEngine := { e with counters := Vector.replicate 32 0 }

theorem LineEngine.counter_uncounted (e : LineEngine) (c : Ctr) : e.uncounted.counter c = 0 := by
  simp [LineEngine.counter, LineEngine.uncounted, Vector.get]

theorem State.clearCountersCommand_of_line {s : State} {lb : Byte} {l : Line} (line : lineOf? lb = some l) :
    s.clearCountersCommand lb = (s.setLine l (s.line l).uncounted, .bare .ok) :=
  State.withLine_of_line line _

/-- Settles O26, by the line operand; the counters of the line are all that CLEAR COUNTERS writes. -/
theorem clearCountersClearsOneLine : Obligations.ClearCountersClearsOneLine := by
  intro s i f lb runs
  refine ⟨fun noLine => runs.exec_reply rfl (State.withLine_of_none noLine _), fun l line => ?_⟩
  refine ⟨_, runs.exec_work rfl (State.clearCountersCommand_of_line line) rfl, State.hostSlot_answered_self .., ?_⟩
  simp only [State.line_answered, State.dir_answered, State.cfg_answered, State.clock_answered, State.line_setLine_self]
  exact ⟨LineEngine.counter_uncounted _, rfl, State.line_setLine_other .., rfl, rfl, rfl⟩

/-! ### SET CALL POLICY and CLEAR EXCLUSION (R105, R181, R182) -/

theorem State.setCallPolicyCommand_of_policy {s : State} {lb b : Byte} {l : Line} {p : CallPolicy}
    (line : lineOf? lb = some l) (policy : CallPolicy.ofCode? b.toNat = some p) : s.setCallPolicyCommand lb b =
      ({ s with cfg := { s.cfg with policies := s.cfg.policies.set l p } }, .bare .ok) := by
  rw [State.setCallPolicyCommand, State.withLine_of_line line, policy]

theorem State.clearExclusionCommand_all {s : State} {lb : Byte} {l : Line} (line : lineOf? lb = some l) (id : Identity) :
    s.clearExclusionCommand lb 0 id = (s.setLine l { s.line l with exclusions := [] }, .bare .ok) :=
  State.withLine_of_line line _

theorem State.clearExclusionCommand_one {s : State} {lb : Byte} {l : Line} {id : Identity} (line : lineOf? lb = some l)
    (valid : identityInvalid id = false) : s.clearExclusionCommand lb 1 id = if id ∈ (s.line l).exclusions
      then (s.setLine l { s.line l with exclusions := (s.line l).exclusions.erase id }, .bare .ok)
      else (s, .bare .notFound) := by
  have one : (1 : Byte) ≠ 0 := by decide
  rw [State.clearExclusionCommand, State.withLine_of_line line, if_neg one, if_pos rfl, valid]
  rfl

/-- Settles O25, by the form of the operand and by whether the identity is listed. -/
theorem callPolicyAndExclusions : Obligations.CallPolicyAndExclusions := by
  intro s i f lb l line
  refine ⟨fun b p runs policy => ?_, fun id runs => ?_, fun id runs valid => ?_⟩
  · exact runs.exec_work rfl (State.setCallPolicyCommand_of_policy line policy) rfl
  · exact runs.exec_work rfl (State.clearExclusionCommand_all line id) rfl
  · have work := State.clearExclusionCommand_one (s := s) line valid
    by_cases listed : id ∈ (s.line l).exclusions
    · rw [if_pos listed] at work ⊢
      exact runs.exec_work rfl work rfl
    · rw [if_neg listed] at work ⊢
      exact runs.exec_reply rfl work

/-! ### PURGE (R177) -/

theorem State.purgeCommand_of_lapsed {s : State} {ref : RefOperand} {h : Handle} {r : Record} (named : s.Names ref h r)
    (lapsed : r.state = .lapsed) :
    s.purgeCommand ref = ((s.dropQuarRef r.line (s.refOf h)).freeByHost h, .bare .ok) := by
  rw [State.purgeCommand, State.withReference_of_names named, lapsed]

theorem State.purgeCommand_of_other {s : State} {ref : RefOperand} {h : Handle} {r : Record} (named : s.Names ref h r)
    (other : r.state ≠ .lapsed) : s.purgeCommand ref = (s, .bare .state) := by
  rw [State.purgeCommand, State.withReference_of_names named]
  cases state : r.state with
  | lapsed => exact absurd state other
  | _ => rfl

/-- The freeing by a host command adds FREED to a mask that is not empty (R43). -/
theorem State.mask_freeByHost {s : State} {h : Handle} {r : Record} (found : s.record? h = some r) :
    ((s.freeByHost h).slot h).mask
      = if (s.slot h).mask = 0 then 0 else (s.slot h).mask ||| ChangeMask.freed := by
  obtain ⟨e, -, freed⟩ := s.freeByHost_eq h r found
  rw [freed]
  split
  · next empty => simpa [State.slot_emptySlot] using empty
  · simp [State.slot_emptySlot, State.slot_markFreed]

theorem State.maps_freeByHost {s : State} {h : Handle} {r : Record} (found : s.record? h = some r) :
    (s.freeByHost h).dir.maps = s.dir.maps := by
  obtain ⟨e, -, freed⟩ := s.freeByHost_eq h r found
  rw [freed]
  split <;> simp

/-- Settles O21: the entry of a LAPSED record loses its reference, and the record is freed; the freeing leaves the
entry and the station (R42, R63). -/
theorem purgeFreesLapsed : Obligations.PurgeFreesLapsed := by
  intro s i f ref h r runs named
  refine ⟨fun other => runs.exec_reply rfl (State.purgeCommand_of_other named other), fun lapsed => ?_⟩
  have work := State.purgeCommand_of_lapsed named lapsed
  have kept : s.Keeps ((s.dropQuarRef r.line (s.refOf h)).freeByHost h) :=
    (s.keeps_dropQuarRef _ _).trans (State.keeps_freeByHost _ _)
  refine ⟨_, runs.exec_work rfl work kept.slots, State.hostSlot_answered_self .., ?_⟩
  have found : (s.dropQuarRef r.line (s.refOf h)).record? h = some r := State.record?_of_names named
  obtain ⟨content, gen, last⟩ := State.slot_freeByHost_self found
  simp only [State.record?_answered, State.slot_answered, State.dir_answered, State.quarOf_answered]
  exact ⟨content, gen, last, State.mask_freeByHost found, fun k ne => State.slot_freeByHost_of_ne found ne,
    State.maps_freeByHost found, (State.quarOf_freeByHost found _).trans (State.quarOf_setQuar_self ..),
    (State.quarOf_freeByHost found _).trans (State.quarOf_setQuar_other ..), State.changeSet_freeByHost found⟩

/-! ### RESERVE (R5 to R7, R175, R176) -/

theorem stationOf?_zero : stationOf? 0 = none := by decide

/-- With its operands in range RESERVE acts on the line and on the station that is named, where one is: no byte but a
station's names one, and 00H is ANY (R175, R195). -/
theorem State.reserve_eq_reserveOn {s : State} {id : Identity} {lb sb : Byte} {l : Line} {lease : Nat}
    (valid : identityInvalid id = false) (line : lineOf? lb = some l) (station : sb = 0 ∨ (stationOf? sb).isSome = true) :
    s.reserve id lb sb lease = s.reserveOn id l (stationOf? sb) lease := by
  rw [State.reserve, valid, line]
  by_cases zero : sb = 0
  · rw [zero, stationOf?_zero]
    rfl
  · obtain ⟨st, named⟩ := Option.isSome_iff_exists.mp (station.resolve_left zero)
    rw [named]
    exact if_neg zero

section
variable {s : State} {id : Identity} {l : Line} {lease : Nat}

theorem State.reserveOn_of_duplicate {h : Handle} (holds : s.lookup? id = some h) (station : Option Station) :
    s.reserveOn id l station lease = (s, .bare .duplicate) := by
  rw [State.reserveOn, holds]

theorem State.reserveOn_of_full (new : s.lookup? id = none) (full : s.freeWay? id = none) (station : Option Station) :
    s.reserveOn id l station lease =
      ({ s with dir := { s.dir with setFull := min 65535 (s.dir.setFull + 1) } }, .bare .full) := by
  rw [State.reserveOn, new, full, satInc16_eq]

theorem State.reserveOn_of_taken {h : Handle} {st : Station} (new : s.lookup? id = none) (way : s.freeWay? id = some h)
    (taken : s.mapAt l st ≠ .free) : s.reserveOn id l (some st) lease = (s, .bare .stationBusy) := by
  rw [State.reserveOn, new, way]
  exact if_neg taken

theorem State.reserveOn_of_noStation {h : Handle} (new : s.lookup? id = none) (way : s.freeWay? id = some h)
    (crowded : s.freeStation? l = none) : s.reserveOn id l none lease = (s, .bare .noStation) := by
  rw [State.reserveOn, new, way, crowded]

theorem State.reserveOn_of_named {h : Handle} {st : Station} (new : s.lookup? id = none) (way : s.freeWay? id = some h)
    (free : s.mapAt l st = .free) : s.reserveOn id l (some st) lease = s.reserveAt id l h st lease := by
  rw [State.reserveOn, new, way]
  exact if_pos free

theorem State.reserveOn_of_lowest {h : Handle} {st : Station} (new : s.lookup? id = none) (way : s.freeWay? id = some h)
    (lowest : s.freeStation? l = some st) : s.reserveOn id l none lease = s.reserveAt id l h st lease := by
  rw [State.reserveOn, new, way, lowest]

end

/-- Settles O18, by the checks in their order; a RESERVE that passes them places its record at the station named, or at
the lowest FREE one. -/
theorem reservePlacesARecord : Obligations.ReservePlacesARecord := by
  intro s i f id lb sb lease l runs valid line
  have acts : sb = 0 ∨ (stationOf? sb).isSome = true →
      s.reserve id lb sb lease = s.reserveOn id l (stationOf? sb) lease := State.reserve_eq_reserveOn valid line
  refine ⟨fun h holds station => ?_, fun new => ⟨fun full station => ?_, fun h st way named taken => ?_,
    fun h way zero crowded => ?_, fun h st way chosen => ?_⟩⟩
  · exact runs.exec_reply rfl ((acts station).trans (State.reserveOn_of_duplicate holds _))
  · exact runs.exec_work rfl ((acts station).trans (State.reserveOn_of_full new full _)) rfl
  · have work := acts (.inr (Option.isSome_of_eq_some named))
    rw [named, State.reserveOn_of_taken new way taken] at work
    exact runs.exec_reply rfl work
  · have work := acts (.inl zero)
    rw [zero, stationOf?_zero, State.reserveOn_of_noStation new way crowded] at work
    exact runs.exec_reply (by rw [zero]; rfl) work
  · have work : s.reserve id lb sb lease = s.reserveAt id l h st lease := by
      obtain ⟨named, free⟩ | ⟨zero, lowest⟩ := chosen
      · rw [acts (.inr (Option.isSome_of_eq_some named)), named, State.reserveOn_of_named new way free]
      · rw [acts (.inl zero), zero, stationOf?_zero, State.reserveOn_of_lowest new way lowest]
    exact runs.exec_work rfl work rfl

/-! ### The commands that only read (R155, R178) -/

theorem State.lookupCommand_ref {s : State} {ref : RefOperand} {h : Handle} {r : Record} (named : s.Names ref h r) :
    s.lookupCommand (.ref ref) = (s, ⟨.ok, s.snapshot h r .none⟩) :=
  State.withReference_of_names named _

section
variable {s : State} {lb sb : Byte} {l : Line} {st : Station}

theorem State.lookupCommand_of_unheld (line : lineOf? lb = some l) (station : stationOf? sb = some st)
    (unheld : s.mapAt l st = .free ∨ s.mapAt l st = .quarantined) :
    s.lookupCommand (.station lb sb) = (s, .bare .notFound) := by
  have unresolved : s.resolveStation? l st = none := by
    obtain entry | entry := unheld <;> rw [State.resolveStation?, entry]
  rw [State.lookupCommand, line, station]
  dsimp only
  rw [unresolved]

/-- LOOKUP by a line and a station gives the record that the station resolves to, with its role (R16, R178). -/
theorem State.lookupCommand_of_resolved {h : Handle} {r : Record} {target : Bool} (line : lineOf? lb = some l)
    (station : stationOf? sb = some st) (resolved : s.resolveStation? l st = some (h, target))
    (found : s.record? h = some r) : s.lookupCommand (.station lb sb) =
      (s, ⟨.ok, s.snapshot h r (if target then .target else .held)⟩) := by
  rw [State.lookupCommand, line, station]
  dsimp only
  rw [resolved]
  dsimp only
  rw [found]

theorem State.resolveStation?_of_held {h : Handle} (held : s.mapAt l st = .held h) :
    s.resolveStation? l st = some (h, false) := by
  rw [State.resolveStation?, held]

theorem State.resolveStation?_of_target {h : Handle} (target : s.mapAt l st = .target h) :
    s.resolveStation? l st = some (h, true) := by
  rw [State.resolveStation?, target]

theorem State.findCommand_of_start {cls : Byte} (notNone : cls ≠ 0) (notAll : cls ≠ 0xFF) (line : lineOf? lb = some l)
    (station : stationOf? sb = some st) : s.findCommand cls lb sb =
      if s.hostMatches cls l st = [] then (s, .bare .endOfList)
      else (s, ⟨.ok, s.findPayload (s.hostMatches cls l st)⟩) := by
  rw [State.findCommand, if_neg (not_or_intro notNone notAll), line, station]
  dsimp only
  cases s.hostMatches cls l st <;> rfl

end

/-- Settles O13: the work of each of these commands is a reply alone. -/
theorem readingCommandsChangeNothing : Obligations.ReadingCommandsChangeNothing := by
  intro s i f
  refine ⟨fun ref h r runs named => ?_, fun lb sb l st runs line station unheld => ?_,
    fun lb sb l st h r runs line station found => ⟨fun held => ?_, fun target => ?_⟩,
    fun cls lb sb l st runs notNone notAll line station => ?_, fun lb l runs line => ?_, fun runs => ?_⟩
  · have work := State.lookupCommand_ref named
    exact runs.exec_reply rfl work
  · have work := State.lookupCommand_of_unheld line station unheld
    exact runs.exec_reply rfl work
  · have work := State.lookupCommand_of_resolved line station (State.resolveStation?_of_held held) found
    exact runs.exec_reply rfl work
  · have work := State.lookupCommand_of_resolved line station (State.resolveStation?_of_target target) found
    exact runs.exec_reply rfl work
  · have work := State.findCommand_of_start (s := s) notNone notAll line station
    by_cases empty : s.hostMatches cls l st = []
    · rw [if_pos empty] at work ⊢
      exact runs.exec_reply rfl work
    · rw [if_neg empty] at work ⊢
      exact runs.exec_reply rfl work
  · exact runs.exec_reply rfl (State.withLine_of_line line _)
  · exact runs.exec_reply rfl rfl

/-! ### SET LEASE (R58, R179) -/

/-- What SET LEASE leaves of a lease, by the record's state and RENEW NOW (R58). -/
theorem Record.leaseRemaining_setLease (r : Record) (n : Nat) (o : Byte) :
    (r.setLease n (o == 1)).leaseRemaining = if r.state = .reserved then n else if r.state = .lapsed then 0
      else if o = 1 then n else min r.leaseRemaining n := by
  unfold Record.setLease
  cases r.state <;> simp

theorem Record.setLease_eq (r : Record) (n : Nat) (b : Bool) :
    r.setLease n b = { r with leaseLength := n, leaseRemaining := (r.setLease n b).leaseRemaining } := rfl

theorem State.setLeaseCommand_of_names {s : State} {ref : RefOperand} {n : Nat} {o : Byte} {h : Handle} {r : Record}
    (low : 1 ≤ n) (high : n ≤ 65535) (option : o = 0 ∨ o = 1) (named : s.Names ref h r) :
    s.setLeaseCommand ref n o = (s.setRecord h (r.setLease n (o == 1)),
      ⟨.ok, be16 n ++ be16 (r.setLease n (o == 1)).leaseRemaining⟩) := by
  have inRange : ¬ (n = 0 ∨ 65535 < n ∨ o ≠ 0 ∧ o ≠ 1) := by
    rintro (zero | large | ⟨not0, not1⟩)
    · omega
    · omega
    · exact option.elim not0 not1
  rw [State.setLeaseCommand, if_neg inRange, State.withReference_of_names named]
  rfl

/-! ### SET GROUPS and SET GROUP LIMIT (R156 to R158) -/

theorem groupsRefuse_iff {v : Vector GroupEntry 16} {old new : BitVec 16} : groupsRefuse v old new = true ↔
    ∃ g : Fin 16, new.getLsbD g = true ∧ old.getLsbD g = false ∧ (v.get g).limit ≠ 0
      ∧ (v.get g).limit < (v.get g).count + 1 := by
  simp [groupsRefuse, GroupEntry.refusesAddition, and_assoc]

theorem get_changeMembers (v : Vector GroupEntry 16) (old new : BitVec 16) (g : Fin 16) :
    (changeMembers v old new).get g = { v.get g with
      count := if new.getLsbD g && !old.getLsbD g then (v.get g).count + 1
        else if old.getLsbD g && !new.getLsbD g then (v.get g).count - 1
        else (v.get g).count } := by
  have entry : (changeMembers v old new).get g =
      if new.getLsbD g && !old.getLsbD g then { v.get g with count := (v.get g).count + 1 }
      else if old.getLsbD g && !new.getLsbD g then { v.get g with count := (v.get g).count - 1 }
      else v.get g := Vector.getElem_ofFn ..
  rw [entry]
  split
  · rfl
  · split <;> rfl

theorem State.setGroupsCommand_of_refused {s : State} {ref : RefOperand} {v : BitVec 16} {h : Handle} {r : Record}
    (named : s.Names ref h r) (refused : groupsRefuse s.dir.groups r.groups v = true) :
    s.setGroupsCommand ref v = (s, .bare .groupFull) := by
  rw [State.setGroupsCommand, State.withReference_of_names named]
  exact if_pos refused

/-- A state whose record in a slot has a new group set, with the member counts that follow from it (R156, R157). -/
def State.regrouped (s : State) (h : Handle) (r : Record) (v : BitVec 16) : State :=
  { s.setRecord h { r with groups := v } with
    dir := { (s.setRecord h { r with groups := v }).dir with groups := changeMembers s.dir.groups r.groups v } }

theorem State.setGroupsCommand_of_passed {s : State} {ref : RefOperand} {v : BitVec 16} {h : Handle} {r : Record}
    (named : s.Names ref h r) (passed : ¬ groupsRefuse s.dir.groups r.groups v = true) :
    s.setGroupsCommand ref v = (s.regrouped h r v, .bare .ok) := by
  rw [State.setGroupsCommand, State.withReference_of_names named]
  exact if_neg passed

theorem State.slots_regrouped (s : State) (h : Handle) (r : Record) (v : BitVec 16) :
    (s.regrouped h r v).dir.slots = (s.setRecord h { r with groups := v }).dir.slots := rfl

theorem State.slot_regrouped (s : State) (h k : Handle) (r : Record) (v : BitVec 16) :
    (s.regrouped h r v).slot k = (s.setRecord h { r with groups := v }).slot k := by
  rw [State.slot, State.slots_regrouped, State.slot]

theorem State.groups_regrouped (s : State) (h : Handle) (r : Record) (v : BitVec 16) :
    (s.regrouped h r v).dir.groups = changeMembers s.dir.groups r.groups v := rfl

theorem State.setGroupLimitCommand_of_group {s : State} {gb n : Byte} {g : Fin 16} (group : gb.toNat = g.val) :
    s.setGroupLimitCommand gb n = if n ≠ 0 ∧ n.toNat < (s.dir.groups.get g).count then (s, .bare .badArgument)
      else ({ s with dir := { s.dir with
        groups := s.dir.groups.set g.val { s.dir.groups.get g with limit := n.toNat } g.isLt } }, .bare .ok) := by
  have inRange : gb.toNat < 16 := by rw [group]; exact g.isLt
  obtain rfl : g = ⟨gb.toNat, inRange⟩ := Fin.ext group.symm
  rw [State.setGroupLimitCommand, dif_pos inRange]

/-! ### SET TAG (R159, R174; log 31) -/

theorem State.setTagCommand_of_long {s : State} {bs : List Byte} (long : 12 < bs.length) (ref : RefOperand) :
    s.setTagCommand ref bs = (s, .bare .badArgument) :=
  if_pos long

theorem State.setTagCommand_of_names {s : State} {ref : RefOperand} {bs : List Byte} {h : Handle} {r : Record}
    (short : bs.length ≤ 12) (named : s.Names ref h r) : s.setTagCommand ref bs =
      (s.setRecord h { r with tag := if bs = [] then none else some bs }, .bare .ok) := by
  rw [State.setTagCommand, if_neg (Nat.not_lt.mpr short), State.withReference_of_names named]

/-! ### The obligation of leases, groups and tags -/

/-- Settles O22, command by command: SET GROUPS by whether a group added refuses the addition, SET GROUP LIMIT by the
member count, SET TAG by the tag length. -/
theorem leaseGroupsAndTagsAreSet : Obligations.LeaseGroupsAndTagsAreSet := by
  intro s i f
  refine ⟨fun ref v h r runs named => ⟨fun refused => ?_, fun allowed => ?_⟩, fun gb n g runs group => ?_,
    fun ref bs runs long => ?_, fun ref bs h r runs short named => ?_,
    fun ref n o h r runs low high option named => ?_⟩
  · exact runs.exec_reply rfl (State.setGroupsCommand_of_refused named (groupsRefuse_iff.mpr refused))
  · have passed : ¬ groupsRefuse s.dir.groups r.groups v = true := by
      rw [groupsRefuse_iff]
      rintro ⟨g, added, absent, limited, exceeded⟩
      exact (allowed g added absent).elim limited (Nat.not_le.mpr exceeded)
    refine ⟨_, runs.exec_work rfl (State.setGroupsCommand_of_passed named passed) rfl,
      State.hostSlot_answered_self .., ?_⟩
    simp only [State.record?_answered, State.slot_answered, State.dir_answered, State.lines_answered]
    refine ⟨?_, fun k ne => ?_, fun g => ?_, rfl, rfl, rfl⟩
    · rw [State.record?, State.slot_regrouped, State.slot_setRecord_self]
    · rw [State.slot_regrouped, State.slot_setRecord_of_ne _ _ ne]
    · rw [State.groups_regrouped, get_changeMembers]
  · have work := State.setGroupLimitCommand_of_group (s := s) (n := n) group
    by_cases below : n ≠ 0 ∧ n.toNat < (s.dir.groups.get g).count
    · rw [if_pos below] at work ⊢
      exact runs.exec_reply rfl work
    · rw [if_neg below] at work ⊢
      exact runs.exec_work rfl work rfl
  · exact runs.exec_reply rfl (State.setTagCommand_of_long long ref)
  · exact runs.exec_work rfl (State.setTagCommand_of_names short named) rfl
  · intro left
    have remaining : (r.setLease n (o == 1)).leaseRemaining = left := Record.leaseRemaining_setLease r n o
    have work := State.setLeaseCommand_of_names low high option named
    rw [Record.setLease_eq, remaining] at work
    exact runs.exec_work rfl work rfl

end Sys2Proof.Machine
end

section
/-! The step of the part and the change set: which command a step carries out, that every command completes, NEXT CHANGE
and ACK CHANGE, and the law that every step keeps. -/

namespace Sys2Proof.Machine

/-! ### The step (0.2, log 1, log 2) -/

/-- Settles O1, by the queue: with a command at its front, a step is that command on the queue's rest. -/
theorem stepRunsFrontCommand : Obligations.StepRunsFrontCommand := by
  intro c rest s queue
  rw [step, queue]

/-- Settles O2: the next state with which every command answers keeps the laws, the queue among them. -/
theorem everyCommandCompletesAndKeepsTheQueue : Obligations.EveryCommandCompletesAndKeepsTheQueue := by
  intro c s
  obtain ⟨t, answer, kept⟩ := exec_safe c s
  exact ⟨t, answer, kept.pending⟩

/-! ### The change set and the masks (R168, R185) -/

/-- Settles O54: every change that a command or the passing of time makes keeps the change set, the masks and the
indication together, and none of the three is read from the queue of commands. -/
theorem changeSetMatchesMasks : Obligations.ChangeSetMatchesMasks :=
  keptByStep_of_safe (fun _ _ laws => laws) fun _ _ kept => kept.changes

/-! ### NEXT CHANGE (R187) -/

theorem State.nextChangeCommand_of_head {s : State} {h : Handle} {rest : List Handle}
    (head : s.dir.changeSet = h :: rest) : s.nextChangeCommand = (s, ⟨.ok, (s.slot h).notice h⟩) := by
  rw [State.nextChangeCommand, head]

theorem State.nextChangeCommand_of_empty {s : State} (empty : s.dir.changeSet = []) :
    s.nextChangeCommand = (s, .bare .endOfList) := by
  rw [State.nextChangeCommand, empty]

/-- Settles O14, by whether the change set holds a handle; the work of NEXT CHANGE is a reply alone. -/
theorem nextChangeReadsTheHead : Obligations.NextChangeReadsTheHead := by
  intro s i f runs
  refine ⟨fun h rest head => ?_, fun empty => ?_⟩
  · exact runs.exec_reply rfl (State.nextChangeCommand_of_head head)
  · exact runs.exec_reply rfl (State.nextChangeCommand_of_empty empty)

/-! ### ACK CHANGE (R188) -/

theorem State.ackChangeCommand_of_listed {s : State} {h : Handle} {g : Gen} (listed : h ∈ s.dir.changeSet)
    (named : (s.slot h).noticeGen = g) : s.ackChangeCommand h g = (s.acknowledge h, .bare .ok) :=
  if_pos ⟨listed, named⟩

/-- The refusal of a stale reference counts it, up to 65535 (R11, R18). -/
theorem State.staleReply_eq (s : State) :
    s.staleReply = ({ s with dir := { s.dir with staleRef := min 65535 (s.dir.staleRef + 1) } }, .bare .stale) := by
  rw [State.staleReply, satInc16_eq]

theorem State.ackChangeCommand_of_stale {s : State} {h : Handle} {g : Gen}
    (stale : h ∉ s.dir.changeSet ∨ (s.slot h).noticeGen ≠ g) : s.ackChangeCommand h g = s.staleReply :=
  if_neg (not_and_or.mpr stale)

/-- Settles O15, by whether the handle is in the change set and named with the generation of its notice; neither outcome
touches the command slots. -/
theorem ackChangeRemovesTheNotice : Obligations.AckChangeRemovesTheNotice := by
  intro s i f h g runs
  refine ⟨fun listed named => ?_, fun stale => ?_⟩
  · exact runs.exec_work rfl (State.ackChangeCommand_of_listed listed named) rfl
  · have work : s.ackChangeCommand h g = _ := (State.ackChangeCommand_of_stale stale).trans s.staleReply_eq
    exact runs.exec_work rfl work rfl

end Sys2Proof.Machine
end

section
/-! The laws of the orders, and of lines in OFF and in FAULT, as laws that every step keeps. -/

namespace Sys2Proof.Machine

/-! ### Lines in OFF and in FAULT (R78, R82, R83) -/

/-- Settles O57, as a law of `State.Safe`: what keeps the laws of a line engine keeps it without a transaction in OFF and
in FAULT. -/
theorem offAndFaultAreQuiet : Obligations.OffAndFaultAreQuiet :=
  keptByStep_of_safe (fun _ _ law => law) fun _ _ kept law l => (kept.lines l).quiet (law l)

/-! ### The line commands and the laws of the orders -/

theorem State.OrdersOk.modLine {s : State} (o : s.OrdersOk) (l : Line) {f : LineEngine → LineEngine}
    (live : (s.line l).SameLive (f (s.line l))) (chosen : (f (s.line l)).ChosenOk) : (s.modLine l f).OrdersOk :=
  o.works (State.works_modLine live chosen)

theorem State.OrdersOk.raiseOwed {s : State} (o : s.OrdersOk) (l : Line) : (s.raiseOwed l).OrdersOk :=
  (s.still_raiseOwed l).ok o

theorem State.ordersOk_lineStartCommand {s : State} (o : s.OrdersOk) (line option : Byte) :
    (State.completeHost (s.lineStartCommand line option)).OrdersOk := by
  refine State.ordersOk_withLine o line _ fun l => ?_
  split
  · exact o
  · split
    · exact o
    · split
      · exact o
      · exact (o.modLine l (LineEngine.start_works (o.2 l) _ _).1 (LineEngine.start_works (o.2 l) _ _).2).raiseOwed l

theorem State.ordersOk_lineStopCommand {s : State} (o : s.OrdersOk) (line : Byte) :
    (State.completeHost (s.lineStopCommand line)).OrdersOk := by
  refine State.ordersOk_withLine o line _ fun l => ?_
  split
  · exact o
  · split
    · exact o
    · exact (o.modLine l (s.line l).stop_works.1 (s.line l).stop_works.2).raiseOwed l

theorem State.ordersOk_linePauseCommand {s : State} (o : s.OrdersOk) (line : Byte) :
    (State.completeHost (s.linePauseCommand line)).OrdersOk := by
  refine State.ordersOk_withLine o line _ fun l => ?_
  split
  · exact o
  · split
    · exact o
    · exact (State.still_modLine rfl rfl rfl).ok o

theorem State.ordersOk_lineResumeCommand {s : State} (o : s.OrdersOk) (line : Byte) :
    (State.completeHost (s.lineResumeCommand line)).OrdersOk := by
  refine State.ordersOk_withLine o line _ fun l => ?_
  split
  · exact o
  · split
    · exact o
    · exact o.modLine l (LineEngine.resume_works (o.2 l) _).1 (LineEngine.resume_works (o.2 l) _).2

theorem State.ordersOk_setCallPolicyCommand {s : State} (o : s.OrdersOk) (line policy : Byte) :
    (State.completeHost (s.setCallPolicyCommand line policy)).OrdersOk := by
  refine State.ordersOk_withLine o line _ fun l => ?_
  split
  · exact o
  · exact (s.still_config _).ok o

theorem State.ordersOk_clearExclusionCommand {s : State} (o : s.OrdersOk) (line form : Byte) (id : Identity) :
    (State.completeHost (s.clearExclusionCommand line form id)).OrdersOk := by
  have cleared : ∀ (l : Line) (f : LineEngine → List Identity),
      (s.modLine l fun e => { e with exclusions := f e }).OrdersOk := fun l f => (State.still_modLine rfl rfl rfl).ok o
  refine State.ordersOk_withLine o line _ fun l => ?_
  split
  · exact cleared l fun _ => []
  · split
    · split
      · exact o
      · split
        · exact cleared l fun e => e.exclusions.erase id
        · exact o
    · exact o

theorem State.ordersOk_clearCountersCommand {s : State} (o : s.OrdersOk) (line : Byte) :
    (State.completeHost (s.clearCountersCommand line)).OrdersOk :=
  State.ordersOk_withLine o line _ fun _ => (State.still_modLine rfl rfl rfl).ok o

/-! ### The claims and the laws of the orders -/

/-- A change of the directory that leaves the lines alone brings no order into a transaction. -/
theorem State.OrdersOk.hostLines {s : State} (o : s.OrdersOk) {x : State × Reply} (ok : x.1.ordView.Ok)
    (lines : ∀ l, x.1.line l = s.line l) : (State.completeHost x).OrdersOk := o.host ok (.of_lines lines)

theorem State.line_setGroupLimitCommand (s : State) (group limit : Byte) (l : Line) :
    (s.setGroupLimitCommand group limit).1.line l = s.line l := by
  unfold State.setGroupLimitCommand
  split
  · dsimp only
    split <;> rfl
  · rfl

theorem State.line_ackChangeCommand (s : State) (h : Handle) (g : Gen) (l : Line) :
    (s.ackChangeCommand h g).1.line l = s.line l := by
  unfold State.ackChangeCommand
  split <;> rfl

/-- LOOKUP changes no record and no line: it answers, or it counts a stale reference (R11, R175). -/
theorem State.ordersOk_lookupCommand {s : State} (o : s.OrdersOk) (x : LookupOperand) :
    (State.completeHost (s.lookupCommand x)).OrdersOk := by
  unfold State.lookupCommand
  split
  · exact o.host (State.ord_withReference o.1 _ _ fun _ _ _ => o.1) (s.thin_withReference _ _ fun _ _ => .refl s)
  · repeat' split
    all_goals exact o.hostStill (.refl s)

/-- The work of every host command that the engine carries out, and its completion, keep the laws of the orders. -/
theorem State.ordersOk_hostRow {s : State} {cmd : HostCmd} {c : Instr} {x : State × Reply}
    (row : s.hostRow? cmd = some (c, x)) (o : s.OrdersOk) : (State.completeHost x).OrdersOk := by
  cases cmd with
  | reserve id line st lease => cases row; exact o.host (State.ord_reserve o.1 id line st lease) (s.thin_reserve id line st lease)
  | pin r => cases row; exact o.host (State.ord_pinCommand o.1 r) (s.thin_pinCommand r)
  | unpin r => cases row; exact o.host (State.ord_unpinCommand o.1 r) (s.thin_unpinCommand r)
  | retire r option => cases row; exact o.host (State.ord_retireCommand o.1 r option) (s.thin_retireCommand r option)
  | reassign r target => cases row; exact o.host (State.ord_reassignCommand o.1 r target) (s.thin_reassignCommand r target)
  | purge r => cases row; exact o.host (State.ord_purgeCommand o.1 r) (s.thin_purgeCommand r)
  | lookup x => cases row; exact State.ordersOk_lookupCommand o x
  | find cls line st => cases row; exact o.hostStill (by rw [State.findCommand_state]; exact .refl s)
  | setLease r lease option =>
    cases row; exact o.host (State.ord_setLeaseCommand o.1 r lease option) (s.thin_setLeaseCommand r lease option)
  | setGroups r groups => cases row; exact o.host (State.ord_setGroupsCommand o.1 r groups) (s.thin_setGroupsCommand r groups)
  | setGroupLimit group limit =>
    cases row; exact o.hostLines (State.ord_setGroupLimitCommand o.1 group limit) (s.line_setGroupLimitCommand group limit)
  | setTag r bytes => cases row; exact o.host (State.ord_setTagCommand o.1 r bytes) (s.thin_setTagCommand r bytes)
  | nextChange => cases row; exact o.hostStill (by rw [State.nextChangeCommand_state]; exact .refl s)
  | ackChange h g => cases row; exact o.hostLines (State.ord_ackChangeCommand o.1 h g) (s.line_ackChangeCommand h g)
  | lineStart line option => cases row; exact State.ordersOk_lineStartCommand o line option
  | lineStop line => cases row; exact State.ordersOk_lineStopCommand o line
  | linePause line => cases row; exact State.ordersOk_linePauseCommand o line
  | lineResume line => cases row; exact State.ordersOk_lineResumeCommand o line
  | setCallPolicy line policy => cases row; exact State.ordersOk_setCallPolicyCommand o line policy
  | clearExclusion line form id => cases row; exact State.ordersOk_clearExclusionCommand o line form id
  | lineStatus line => cases row; exact State.ordersOk_withLine o line _ fun _ => o
  | clearCounters line => cases row; exact State.ordersOk_clearCountersCommand o line
  | configure items => cases row; exact (State.still_completeHost _ _).ok (State.ordersOk_configure o items).1
  | status => cases row; exact o.hostStill (.refl s)
  | readAlarms => cases row
  | ackAlarms _ => cases row
  | resetDevice => cases row

/-- The conclusion of an order acts on a record that has no directed order left, or on none (R100). -/
theorem State.OrdersOk.outcome {s : State} (o : s.OrdersOk) (l : Line) {k : OrderKind} (directed : k.isDirected = true)
    (ref : Ref) (conclude : State → Order → Record → State)
    (ok : ∀ (t : State) (x : Order) (r : Record), t.ordView.Ok → t.record? ref.handle = some r →
      t.ordView.Bare ref.handle → (conclude t x r).ordView.Ok)
    (thin : ∀ (t : State) (x : Order) (r : Record), t.Thin (conclude t x r)) :
    ((s.outcomeClaim l k ref conclude).completeLine l).OrdersOk :=
  o.line l (State.ord_outcomeClaim o.1 l directed ref conclude fun t x r agrees found bare _ => ok t x r agrees found bare)
    (s.thin_outcomeClaim l k ref conclude thin)

/-- A request claim takes the reservation of its poll for its ANSWER, which the bound of the queue leaves room for (R89,
R124). -/
theorem State.OrdersOk.request {s : State} (o : s.OrdersOk) (bound : s.QueueLaw) (l : Line) (st : Station) (ref : Ref)
    (code : Byte) (handle : State → Record → State × List Byte) (handled : ∀ (t : State) (r : Record), t.Handled (handle t r).1)
    (thin : ∀ (t : State) (r : Record), t.Thin (handle t r).1) : ((s.requestClaim l st ref code handle).completeLine l).OrdersOk :=
  o.line l (State.ord_requestClaim o.1 bound l st ref code handle handled) (s.thin_requestClaim l st ref code handle thin)

theorem State.ord_ite {s t : State} {p : Prop} [Decidable p] (agrees : s.ordView.Ok) (ok : t.ordView.Ok) :
    (if p then t else s).ordView.Ok := by
  split
  · exact ok
  · exact agrees

theorem State.thin_ite {s t : State} {p : Prop} [Decidable p] (thin : s.Thin t) : s.Thin (if p then t else s) := by
  split
  · exact thin
  · exact .refl s

/-- The work of every claim of a line, and its completion, keep the laws of the orders. -/
theorem State.ordersOk_lineRow {s : State} {l : Line} {claim : LineClaim} {c : Instr} {u : State}
    (row : s.lineRow? l claim = some (c, u)) (bound : s.QueueLaw) (o : s.OrdersOk) : (u.completeLine l).OrdersOk := by
  cases claim with
  | presence st ref => cases row; exact o.line l (State.ord_presence o.1 l st ref) (s.thin_presence l st ref).1
  | miss st ref => cases row; exact o.line l (State.ord_miss o.1 l st ref) (s.thin_presence l st ref).2
  | join id caps policy => cases row; exact o.line l (State.ord_joinClaim o.1 l id caps policy) (s.thin_joinClaim l id caps policy)
  | request st ref req =>
    cases req with
    | renew ticks =>
      cases row
      exact o.request bound l st ref _ _ (fun t r => t.handled_renewRequest ref ticks r) (fun t r => State.thin_renewRequest ref ticks t r)
    | leave => cases row; exact o.line l (State.ord_leaveClaim o.1 l st ref) (s.thin_leaveClaim l st ref)
    | resolve id => cases row; exact o.request bound l st ref _ _ (fun t _ => t.handled_refl) fun t _ => .refl t
    | find cls start => cases row; exact o.request bound l st ref _ _ (fun t _ => t.handled_refl) fun t _ => .refl t
    | members group start => cases row; exact o.request bound l st ref _ _ (fun t _ => t.handled_refl) fun t _ => .refl t
    | caps entries =>
      cases row
      exact o.request bound l st ref _ _ (State.handled_capsRequest l ref entries) fun t _ => t.thin_takeCaps l ref.handle entries
  | outcome kind ref result =>
    cases kind with
    | assign =>
      cases result with
      | confirm =>
        cases row
        exact o.outcome l rfl ref _ (fun _ x _ agrees found bare =>
          State.ord_ite agrees (State.ord_joinConfirmed agrees found bare x.joinKind))
          fun t x r => State.thin_ite (t.thin_joinConfirmed ref.handle x.joinKind r)
      | decline =>
        cases row
        exact o.outcome l rfl ref _ (fun _ _ r agrees _ _ => State.ord_ite agrees (State.ord_joinDeclined agrees ref.handle r))
          fun t _ r => State.thin_ite (t.thin_joinDeclined ref.handle r)
      | exhausted =>
        cases row
        exact o.outcome l rfl ref _ (fun _ _ _ agrees _ _ => State.ord_ite agrees (State.ord_endRecord agrees ref.handle _))
          fun t _ r => State.thin_ite (t.linesShrunk_endRecord ref.handle _ |>.thin)
      | dropped | probed _ _ => cases row
    | reassign =>
      cases result with
      | confirm =>
        cases row
        exact o.moves l ref _ (fun _ _ t agrees found bare => (State.ord_probeConclusion agrees found bare t true true).2.1)
          fun u r t => (u.thin_move ref.handle r t true true .none).2.1
      | decline =>
        cases row
        exact o.moves l ref _ (fun _ _ t agrees found bare => (State.ord_probeConclusion agrees found bare t true true).2.2 _)
          fun u r t => (u.thin_move ref.handle r t true true _).2.2
      | probed atTarget atOld =>
        cases row
        exact o.moves l ref _ (fun _ _ t agrees found bare => (State.ord_probeConclusion agrees found bare t atTarget atOld).1)
          fun u r t => (u.thin_move ref.handle r t atTarget atOld .none).1
      | exhausted | dropped => cases row
    | release =>
      cases row
      exact o.outcome l rfl ref _ (fun _ _ _ agrees _ _ => State.ord_ite agrees (State.ord_endRecord agrees ref.handle _))
        fun t _ r => State.thin_ite (t.linesShrunk_endRecord ref.handle _ |>.thin)
    | answer => cases row; exact o.line l (State.ord_answerClaim o.1 l ref result) (s.thin_answerClaim l ref result)
    | refuse => cases row
  | line =>
    cases row
    have worked : (s.lineWork l).OrdersOk := o.thin (State.ord_lineWork l o.1) (s.thin_lineWork l)
    exact State.ordersOk_completeLine (worked.modLine l (LineEngine.tryRunning_works _).1
      ((LineEngine.tryRunning_works _).2 (worked.2 l))) l
  | flush =>
    cases row
    have worked : (s.flushWork l).OrdersOk := o.thin (State.ord_flushWork l o.1) (s.thin_flushWork l)
    exact State.ordersOk_completeLine (worked.modLine l (LineEngine.tryRunning_works _).1
      ((LineEngine.tryRunning_works _).2 (worked.2 l))) l

/-! ### The events and the laws of the orders -/

/-- An outcome that is a next state in which the laws of the orders hold, if they and the bound of the queue held before. -/
def State.OrdersOutcome (s : State) (out : Host.Outcome State Fault Refusal) : Prop :=
  ∃ t, out = .next t ∧ (s.QueueLaw → s.OrdersOk → t.OrdersOk)

theorem State.OrdersOutcome.next {s t : State} (kept : s.OrdersOk → t.OrdersOk) : s.OrdersOutcome (.next t) :=
  ⟨t, rfl, fun _ => kept⟩

theorem State.ordersOk_ite {s t : State} {p : Prop} [Decidable p] (o : s.OrdersOk) (kept : p → t.OrdersOk) :
    (if p then t else s).OrdersOk := by
  split
  · next holds => exact kept holds
  · exact o

/-- An event that the line engine takes in one phase of its transaction. -/
theorem State.ordersOk_frameEvent {s : State} (o : s.OrdersOk) (l : Line) (phase : TxPhase) (f : Tx → State)
    (kept : ∀ t, (f t).OrdersOk) :
    (match (s.line l).tx with
      | some t => if t.phase = phase then f t else s
      | none => s).OrdersOk := by
  split
  · exact State.ordersOk_ite o fun _ => kept _
  · exact o

theorem State.OrdersOk.receive {s : State} (o : s.OrdersOk) (l : Line) (reply : Option NodeReply) :
    (s.receive l reply).OrdersOk := o.works (State.works_receive o.2 l reply)

/-- Silence is counted, and the transaction ends without a reply (R73, R74). -/
theorem State.OrdersOk.silence {s : State} (o : s.OrdersOk) (l : Line) (t : Tx) :
    ((s.bump l .silences).noReplyEnd l t).OrdersOk :=
  o.works (.before (s.turn_bump l _) (State.ends_noReplyEnd (State.sole_bump (o.2 l).1 _) t).works)

theorem State.OrdersOk.garbled {s : State} (o : s.OrdersOk) (l : Line) (id : Identity) : (s.garbled l id).OrdersOk :=
  o.works (s.works_garbled l id)

theorem State.OrdersOk.enterFault {s : State} (o : s.OrdersOk) (l : Line) : (s.enterFault l).OrdersOk :=
  o.works (s.works_enterFault l)

theorem LineEngine.leadRecessive_works {e : LineEngine} (chosen : e.ChosenOk) (holdOff : Nat) :
    e.SameLive (e.leadRecessive holdOff) ∧ (e.leadRecessive holdOff).ChosenOk := by
  unfold LineEngine.leadRecessive
  dsimp only
  split
  · have same : e.SameLive { e with leadDominant := false } := .of_eq rfl rfl
    exact (LineEngine.beginFrame_works (e := { e with leadDominant := false }) chosen.1 chosen.2 holdOff).imp_left
      (same.trans ·)
  · exact ⟨.of_eq rfl rfl, chosen⟩

theorem exec_orderExhausted_orders (s : State) (l : Line) : s.OrdersOutcome (exec (.orderExhausted l) s) := by
  refine .next fun o => ?_
  split
  · refine State.ordersOk_ite o fun _ => ?_
    split
    · exact o.silence l _
    · exact State.ordersOk_ite o fun _ => o.silence l _
  · exact o

theorem exec_joinBody_orders (s : State) (l : Line) (body : List Byte) : s.OrdersOutcome (exec (.joinBody l body) s) := by
  refine .next fun o => ?_
  split
  · split
    · split
      · exact o.garbled l _
      · exact o.works (s.works_joinWon l _ _ _)
    · exact o.garbled l _
  · exact o

theorem exec_idleCheckPass_orders (s : State) (l : Line) : s.OrdersOutcome (exec (.idleCheckPass l) s) := by
  refine .next fun o => State.ordersOk_ite o fun _ => ?_
  split
  · have staged : (s.modLine l fun e => { e with stage := .flushing 0 }).OrdersOk := (State.still_modLine rfl rfl rfl).ok o
    exact staged.works (State.works_nextFlush (staged.2 l))
  · have same : (s.line l).SameLive { s.line l with stage := .ready } := .of_eq rfl rfl
    exact o.modLine l (same.trans (LineEngine.tryRunning_works _).1) ((LineEngine.tryRunning_works _).2 (o.2 l))

theorem exec_nextTransaction_orders (s : State) (l : Line) : s.OrdersOutcome (exec (.nextTransaction l) s) := by
  refine .next fun o => State.ordersOk_ite o fun may => ?_
  simp only [LineEngine.mayChoose, Bool.and_eq_true, Option.isNone_iff_eq_none] at may
  obtain ⟨⟨⟨-, idle⟩, -⟩, -⟩ := may
  exact State.rest_chooseTx l 2 s ⟨o.1, o.2, idle⟩

theorem exec_readAlarms_orders (s : State) : s.OrdersOutcome (exec .readAlarms s) := by
  refine .next fun o => ?_
  split
  · exact o
  · split
    · exact (s.still_modHost _).ok o
    · exact o

theorem State.still_ackAlarms (s : State) (flags : Nat) : s.Still (s.ackAlarms flags).1 := by
  unfold State.ackAlarms
  split
  · exact .refl s
  · exact State.still_of rfl fun _ => rfl

theorem State.still_completeLocal (x : State × Reply) (i : Fin 4) (tag : Byte) : x.1.Still (State.completeLocal x i tag) :=
  State.still_of rfl fun _ => rfl

theorem exec_ackAlarms_orders (s : State) : s.OrdersOutcome (exec .ackAlarms s) := by
  refine .next fun o => ?_
  split
  · exact o
  · split
    · exact ((s.still_ackAlarms _).trans (State.still_completeLocal _ _ _)).ok o
    · exact o

theorem exec_unknownKindByte_orders (s : State) (kind : Option Byte) (part : ExchangePart Nat) :
    s.OrdersOutcome (exec (.unknownKindByte kind part) s) := by
  refine .next fun o => ?_
  split
  · exact State.ordersOk_exchange o _ _ part
  · split
    · exact o
    · exact State.ordersOk_exchange o _ _ part

theorem State.still_endIfReached (s : State) : s.Still s.endIfReached := by
  unfold State.endIfReached
  split
  · have ended : s.Still { s with clock := s.clock.endPeriod s.cfg } := State.still_of rfl fun _ => rfl
    exact ended.trans (State.still_grant _)
  · exact .refl s

/-- The events keep the laws of the orders: those of a line by what they do to its one transaction, the others by leaving
the records and the queues as they are. -/
theorem exec_event_orders (s : State) {c : Instr} (event : Instr.isEvent c = true) : s.OrdersOutcome (exec c s) := by
  cases c with
  | writeCommand part extra => exact .next fun o => State.ordersOk_exchange o _ _ part
  | readResponse part => exact .next fun o => State.ordersOk_exchange o _ _ part
  | readStatus part => exact .next fun o => State.ordersOk_exchange o _ _ part
  | unknownKindByte kind part => exact exec_unknownKindByte_orders s kind part
  | readAlarms => exact exec_readAlarms_orders s
  | ackAlarms => exact exec_ackAlarms_orders s
  | tickPeriodEnd =>
    refine .next fun o => ?_
    split
    · exact o
    · exact ((State.still_of rfl fun _ => rfl).trans (State.still_endIfReached _)).ok o
  | nextTransaction l => exact exec_nextTransaction_orders s l
  | roundRestEnd l => exact .next fun o => State.ordersOk_ite o fun _ => (State.still_modLine rfl rfl rfl).ok o
  | dataLeadRecessive l =>
    exact .next fun o => o.modLine l (LineEngine.leadRecessive_works (o.2 l) _).1 (LineEngine.leadRecessive_works (o.2 l) _).2
  | dataLeadDominant l => exact .next fun o => (State.still_modLine rfl rfl rfl).ok o
  | stuckLine l => exact .next fun o => State.ordersOk_ite o fun _ => o.enterFault l
  | collision l =>
    exact .next fun o => State.ordersOk_frameEvent o l .sending _ fun t => o.works (State.works_collisionOn o.2 l t)
  | headFrameSent l =>
    exact .next fun o => State.ordersOk_frameEvent o l .sending _ fun t => o.works (State.works_frameSent o.2 l t)
  | idle l body => exact .next fun o => o.receive l _
  | request l body => exact .next fun o => o.receive l _
  | confirm l body => exact .next fun o => o.receive l _
  | decline l body => exact .next fun o => o.receive l _
  | hold l body => exact .next fun o => o.receive l _
  | checkError l => exact .next fun o => o.receive l none
  | replyWindowTimeout l => exact .next fun o => State.ordersOk_frameEvent o l .window _ fun t => o.silence l t
  | holdOffTimeout l => exact .next fun o => State.ordersOk_frameEvent o l .holdOff _ fun t => o.silence l t
  | orderExhausted l => exact exec_orderExhausted_orders s l
  | arbitrationEnd l id =>
    exact .next fun o => State.ordersOk_frameEvent o l .arbitration _ fun t =>
      o.works (State.works_arbitrationOn o.2 l t id)
  | joinBody l body => exact exec_joinBody_orders s l body
  | joinBodyTimeout l =>
    refine .next fun o => ?_
    split
    · exact o.garbled l _
    · exact o
  | clashSettled l =>
    refine .next fun o => ?_
    split
    · exact State.ordersOk_ite o fun _ => o.garbled l _
    · exact o
  | idleCheckPass l => exact exec_idleCheckPass_orders s l
  | idleCheckTimeout l => exact .next fun o => State.ordersOk_ite o fun _ => o.enterFault l
  | _ => cases event

/-! ### Every command -/

theorem exec_hostRow_orders (s : State) {c : Instr} (host : Instr.isHostRow c = true) : s.OrdersOutcome (exec c s) := by
  obtain ⟨t, runs, rfl | ⟨cmd, x, -, row, rfl⟩⟩ := exec_hostRow_cases s host
  · exact ⟨t, runs, fun _ => id⟩
  · exact ⟨_, runs, fun _ => State.ordersOk_hostRow row⟩

theorem exec_lineRow_orders (s : State) {c : Instr} (line : Instr.isLineRow c = true) : s.OrdersOutcome (exec c s) := by
  obtain ⟨t, runs, rfl | ⟨l, claim, row, u, -, works, rfl⟩⟩ := exec_lineRow_cases s line
  · exact ⟨t, runs, fun _ => id⟩
  · exact ⟨_, runs, State.ordersOk_lineRow works⟩

theorem exec_commandBegin_orders (s : State) : s.OrdersOutcome (exec .commandBegin s) := by
  refine .next fun o => ?_
  split
  · exact o
  · next i f _ =>
    split
    · exact (s.still_modHost _).ok o
    · next c _ =>
      split
      · refine (State.still_completeLocal (s.runLocal c) i f.tag).ok ?_
        cases c with
        | ackAlarms flags => exact (s.still_ackAlarms flags).ok o
        | configure items => exact (State.ordersOk_configure o items).2
        | _ => exact o
      · exact ((s.still_modHost _).trans (State.still_grant _)).ok o

theorem exec_configure_orders (s : State) : s.OrdersOutcome (exec .configure s) := by
  refine .next fun o => ?_
  split
  · next items _ => exact (State.still_completeHost _ _).ok (State.ordersOk_configure o items).1
  · split
    · exact o
    · next i f _ =>
      split
      · next items _ =>
        exact State.ordersOk_ite o fun _ =>
          (State.still_completeLocal (s.configureStore items) i f.tag).ok (State.ordersOk_configure o items).2
      · exact o

theorem exec_resetDevice_orders (s : State) : s.OrdersOutcome (exec .resetDevice s) := by
  refine .next fun o => ?_
  split
  · next i _ _ _ => exact (State.still_completeHost _ _).ok (s.ordersOk_softReset i)
  · exact o

theorem exec_lapse_orders (s : State) (h : Handle) : s.OrdersOutcome (exec (.lapse h) s) := by
  refine .next fun o => ?_
  split
  · next r found =>
    exact State.ordersOk_ite o fun lapses =>
      o.thin (State.ord_lapseRecord o.1 found lapses.1) (s.linesShrunk_lapseRecord h).thin
  · exact o

/-- Every command keeps the laws of the orders: a claim by the work of its row, the lease clock by its two stages, a reset by
the empty queues it leaves, and an event by what it does to one transaction. -/
theorem exec_orders (c : Instr) (s : State) : s.OrdersOutcome (exec c s) := by
  cases c with
  | reserve | pin | unpin | retire | reassign | purge | lookup | find | setLease | setGroups | setGroupLimit
  | setTag | nextChange | ackChange | lineStart | lineStop | linePause | lineResume | setCallPolicy
  | clearExclusion | lineStatus | clearCounters | status => exact exec_hostRow_orders s rfl
  | presenceClaim | missClaim | missLimit | joinClaim | renew | leave | resolve | nodeFind | members | capsRequest
  | assignConfirmed | assignDeclined | assignExhausted | moved | moveDeclined | probeOutcome | releaseOutcome
  | answerOutcome | lineClaim | flushClaim => exact exec_lineRow_orders s rfl
  | rstAsserted => exact .next fun _ => s.ordersOk_powerOn true
  | rstReleased scsLow =>
    exact .next fun o => State.ordersOk_ite o fun _ => (State.still_modHost _ _).ok (s.ordersOk_powerOn false)
  | commandBegin => exact exec_commandBegin_orders s
  | configure => exact exec_configure_orders s
  | resetDevice => exact exec_resetDevice_orders s
  | leaseTick =>
    refine .next fun o => State.ordersOk_ite o fun _ => (State.still_completeClock _).ok ?_
    exact o.thin (State.ord_quarStage (State.ord_leaseStage o.1)) (s.thin_leaseStage.trans (State.thin_quarStage _))
  | lapse h => exact exec_lapse_orders s h
  | quarantineExpiry l st =>
    refine .next fun o => ?_
    split
    · exact o.thin (State.ord_expireEntry (s := s.setQuar l _) o.1 l _)
        ((State.Thin.of_lines fun _ => rfl).trans (State.thin_expireEntry _ l _))
    · exact o
  | _ => exact exec_event_orders s rfl

/-! ### The obligation of the queues -/

theorem queueLaw_keptByStep : KeptByStep State.QueueLaw :=
  keptByStep_of_safe (fun _ _ law => law) fun _ _ kept law l => (kept.lines l).queue (law l)

theorem State.orderLaw_eq : State.OrderLaw = fun s => s.QueueLaw ∧ s.OrdersOk := by
  funext s
  have directed := s.orderLaw_iff
  exact propext ⟨fun ⟨bound, chosen, law⟩ => ⟨bound, directed.mp law, chosen⟩,
    fun ⟨bound, agrees, chosen⟩ => ⟨bound, chosen, directed.mpr agrees⟩⟩

/-- Settles O53: the bound of the queues as a law of `State.Safe`; the laws of the orders over what they read of the state,
together with the bound, which leaves room for the ANSWER of a request. -/
theorem queuesNeverExceedEight : Obligations.QueuesNeverExceedEight := by
  refine ⟨queueLaw_keptByStep, ?_⟩
  rw [State.orderLaw_eq]
  refine keptByStep_of_exec (fun _ _ law => law) (fun s law => ?_) fun c s => ?_
  · have bound : s.passTime.QueueLaw := fun l => (s.safe_passTime.lines l).queue (law.1 l)
    refine ⟨bound, ?_⟩
    unfold State.passTime
    split
    · exact law.2
    · exact ((State.still_of rfl fun _ => rfl).trans (State.still_endIfReached _)).ok law.2
  · obtain ⟨t, answer, kept⟩ := exec_orders c s
    obtain ⟨u, answer', safe⟩ := exec_safe c s
    cases answer.symm.trans answer'
    exact ⟨t, answer, fun law => ⟨fun l => (safe.lines l).queue (law.1 l), kept law.1 law.2⟩⟩

end Sys2Proof.Machine
end

section
/-! The claims of polls at a record that stands as it was polled, and the claims that come late. -/

namespace Sys2Proof.Machine

/-! ### The record of a poll (R98) -/

/-- The record of a claim of a poll stands where it was polled. -/
theorem State.polledRecord?_eq_some {s : State} {l : Line} {st : Station} {ref : Ref} {r : Record} :
    s.polledRecord? l st ref = some r ↔
      s.current? ref = some r ∧ r.line = l ∧ r.station = st ∧ s.mapAt l st = .held ref.handle := by
  unfold State.polledRecord?
  cases found : s.current? ref with
  | none => simp
  | some q => by_cases stands : q.line = l ∧ q.station = st ∧ s.mapAt l st = .held ref.handle <;> simp [stands] <;> grind

theorem State.presence_of_polled {s : State} {l : Line} {st : Station} {ref : Ref} {r : Record}
    (polled : s.polledRecord? l st ref = some r) :
    s.presence l st ref = if r.state.inService then s.applyPresence ref.handle r else s := by
  rw [State.presence, polled]

theorem State.miss_of_polled {s : State} {l : Line} {st : Station} {ref : Ref} {r : Record}
    (polled : s.polledRecord? l st ref = some r) :
    s.miss l st ref = if r.state.inService then s.applyMiss ref.handle r else s := by
  rw [State.miss, polled]

/-- A poll counts in the states BOUND, QUIET and MOVING (R98). -/
theorem RecState.inService_iff {state : RecState} :
    state.inService = true ↔ state = .bound ∨ state = .quiet ∨ ∃ x, state = .moving x := by
  cases state <;> simp [RecState.inService]

theorem RecState.not_inService {state : RecState}
    (out : state = .reserved ∨ state = .joining ∨ state = .retiring ∨ state = .lapsed) : state.inService = false := by
  rcases out with rfl | rfl | rfl | rfl <;> rfl

theorem State.missed_eq (s : State) (r : Record) : s.missed r = min s.arb.grantCfg.missLimit (r.missCount + 1) :=
  satInc_eq _ _

/-- A miss makes a BOUND record QUIET exactly where it brings the count to the limit (R98). -/
theorem State.fallsQuiet_iff (s : State) (r : Record) :
    s.fallsQuiet r = true ↔ r.state = .bound ∧ s.arb.grantCfg.missLimit ≤ r.missCount + 1 := by
  simp only [State.fallsQuiet, State.missed_eq, Bool.and_eq_true, beq_iff_eq, decide_eq_true_eq, Nat.le_min, Nat.le_refl,
    true_and]

theorem State.applyMiss_of_limit {s : State} {h : Handle} {r : Record} (bound : r.state = .bound)
    (limit : s.arb.grantCfg.missLimit ≤ r.missCount + 1) : s.applyMiss h r =
      (s.setRecord h { r with missCount := s.arb.grantCfg.missLimit, state := .quiet }).mark h ChangeMask.state := by
  rw [State.applyMiss, if_pos ((s.fallsQuiet_iff r).mpr ⟨bound, limit⟩), State.missed_eq, Nat.min_eq_left limit]

theorem State.applyMiss_of_not_limit {s : State} {h : Handle} {r : Record}
    (short : r.state = .bound → r.missCount + 1 < s.arb.grantCfg.missLimit) : s.applyMiss h r =
      s.setRecord h { r with missCount := min s.arb.grantCfg.missLimit (r.missCount + 1) } := by
  have stays : ¬ s.fallsQuiet r = true := fun falls => by
    obtain ⟨bound, limit⟩ := (s.fallsQuiet_iff r).mp falls
    have := short bound
    omega
  rw [State.applyMiss, if_neg stays, State.missed_eq]

/-- MISS_LIMIT is the miss claim that makes a record QUIET (log 14). -/
theorem State.LineRuns.exec_missLimit {s : State} {l : Line} {st : Station} {ref : Ref} {r : Record}
    (runs : s.LineRuns l (.miss st ref)) (polled : s.polledRecord? l st ref = some r) (falls : s.fallsQuiet r = true) :
    exec .missLimit s = .next ((s.miss l st ref).completeLine l) := by
  show Host.Outcome.next _ = _
  rw [runs.claim]
  dsimp only
  rw [polled]
  dsimp only
  rw [if_pos falls]

/-- Settles O43, by what a presence and a miss do to the record of the poll, in each state of it. -/
theorem presencesAndMisses : Obligations.PresencesAndMisses := by
  intro s l st ref r found line station held
  have polled : s.polledRecord? l st ref = some r := State.polledRecord?_eq_some.mpr ⟨found, line, station, held⟩
  have presence : s.LineRuns l (.presence st ref) → exec .presenceClaim s
      = .next ((if r.state.inService then s.applyPresence ref.handle r else s).completeLine l) :=
    fun runs => by rw [runs.exec_eq rfl, State.presence_of_polled polled]
  have miss : s.LineRuns l (.miss st ref) → exec .missClaim s
      = .next ((if r.state.inService then s.applyMiss ref.handle r else s).completeLine l) :=
    fun runs => by rw [runs.exec_eq rfl, State.miss_of_polled polled]
  refine ⟨fun runs quiet => ?_, fun runs served => ?_, fun runs bound short => ?_, fun c named runs bound limit => ?_,
    fun runs served => ?_, fun out => ⟨fun runs => ?_, fun runs => ?_⟩⟩
  · rw [presence runs, if_pos (RecState.inService_iff.mpr (.inr (.inl quiet))), State.applyPresence, if_pos quiet]
  · have awake : r.state ≠ .quiet := by rcases served with bound | ⟨x, moving⟩ <;> simp [*]
    have inService : r.state.inService = true := RecState.inService_iff.mpr (served.imp_right .inr)
    rw [presence runs, if_pos inService, State.applyPresence, if_neg awake]
  · rw [miss runs, if_pos (RecState.inService_iff.mpr (.inl bound)), State.applyMiss_of_not_limit fun _ => short,
      Nat.min_eq_right (Nat.le_of_lt short)]
  · have same : exec c s = exec .missClaim s := by
      rcases named with rfl | rfl
      · rfl
      · rw [runs.exec_missLimit polled ((s.fallsQuiet_iff r).mpr ⟨bound, limit⟩), runs.exec_eq rfl]
    rw [same, miss runs, if_pos (RecState.inService_iff.mpr (.inl bound)), State.applyMiss_of_limit bound limit]
  · have unbound : r.state ≠ .bound := by rcases served with quiet | ⟨x, moving⟩ <;> simp [*]
    rw [miss runs, if_pos (RecState.inService_iff.mpr (.inr served)), State.applyMiss_of_not_limit (absurd · unbound)]
  · rw [presence runs, RecState.not_inService out, if_neg Bool.false_ne_true]
  · rw [miss runs, RecState.not_inService out, if_neg Bool.false_ne_true]

/-! ### Claims that come late (R98, R100, R123, R135) -/

theorem State.polledRecord?_of_gone {s : State} {l : Line} {st : Station} {ref : Ref}
    (gone : s.current? ref = none ∨ ∃ r, s.current? ref = some r
      ∧ (r.line ≠ l ∨ r.station ≠ st ∨ s.mapAt l st ≠ .held ref.handle)) : s.polledRecord? l st ref = none := by
  refine Option.eq_none_iff_forall_ne_some.mpr fun r polled => ?_
  obtain ⟨found, line, station, held⟩ := State.polledRecord?_eq_some.mp polled
  rcases gone with none | ⟨q, found', moved⟩
  · rw [none] at found; cases found
  · cases found.symm.trans found'
    rcases moved with off | off | off
    · exact off line
    · exact off station
    · exact off held

theorem State.requester?_of_refused {s : State} {l : Line} {st : Station} {ref : Ref}
    (refused : s.polledRecord? l st ref = none ∨ .poll ref ∉ (s.line l).reservations
      ∨ ∃ r, s.current? ref = some r ∧ (r.state = .reserved ∨ r.state = .joining ∨ r.state = .lapsed)) :
    s.requester? l st ref = none := by
  refine Option.eq_none_iff_forall_ne_some.mpr fun r asks => ?_
  obtain ⟨polled, takes, kept⟩ := State.requester?_eq_some.mp asks
  rcases refused with gone | released | ⟨q, found, out⟩
  · rw [State.polledRecord?_eq_some.mpr polled] at gone; cases gone
  · exact released kept
  · cases polled.1.symm.trans found
    rcases out with state | state | state <;> rw [state] at takes <;> cases takes

/-- A request claim that fails its tests releases its reservation, and is counted as discarded (R123, R135). -/
theorem State.discardRequest_eq (s : State) (l : Line) (ref : Ref) : s.discardRequest l ref = s.setLine l
    { s.line l with
      reservations := (s.line l).reservations.erase (.poll ref)
      counters := ((s.line l).bump .requestsDiscarded).counters } := by
  rw [State.discardRequest, State.bump, State.modLine_modLine]
  rfl

theorem State.requestClaim_of_refused {s : State} {l : Line} {st : Station} {ref : Ref}
    (refused : s.requester? l st ref = none) (code : Byte) (handle : State → Record → State × List Byte) :
    s.requestClaim l st ref code handle = s.discardRequest l ref := by
  rw [State.requestClaim, refused]

theorem State.leaveClaim_of_refused {s : State} {l : Line} {st : Station} {ref : Ref}
    (refused : s.requester? l st ref = none) : s.leaveClaim l st ref = s.discardRequest l ref := by
  rw [State.leaveClaim, refused]

theorem State.outcomeClaim_of_gone {s : State} {l : Line} {kind : OrderKind} {ref : Ref}
    (gone : s.concluding? l kind ref = none) (conclude : State → Order → Record → State) :
    s.outcomeClaim l kind ref conclude = s := by
  rw [State.outcomeClaim, gone]

theorem State.answerClaim_of_gone {s : State} {l : Line} {ref : Ref} (gone : s.concluding? l .answer ref = none)
    (result : OrderResult) : s.answerClaim l ref result = s := by
  rw [State.answerClaim, gone]

/-- The row of an outcome claim whose order is gone completes it and does nothing else (R100). -/
theorem State.LineRuns.exec_outcome_of_gone {s : State} {l : Line} {kind : OrderKind} {ref : Ref} {result : OrderResult}
    {c : Instr} {conclude : State → Order → Record → State} (runs : s.LineRuns l (.outcome kind ref result))
    (gone : s.concluding? l kind ref = none)
    (row : s.lineRow? l (.outcome kind ref result) = some (c, s.outcomeClaim l kind ref conclude)) :
    exec c s = .next (s.completeLine l) := by
  rw [runs.exec_eq row, State.outcomeClaim_of_gone gone]

/-- Settles O48: the record of a late poll or request is not found where it stood, and the order of a late outcome is not
in the queue. -/
theorem lateClaimsHaveNoEffect : Obligations.LateClaimsHaveNoEffect := by
  intro s l ref
  refine ⟨fun st => ?_, fun gone => ⟨fun runs => runs.exec_outcome_of_gone gone rfl,
      fun runs => runs.exec_outcome_of_gone gone rfl, fun runs => runs.exec_outcome_of_gone gone rfl⟩,
    fun gone => ⟨fun runs => runs.exec_outcome_of_gone gone rfl, fun runs => runs.exec_outcome_of_gone gone rfl,
      fun _ _ runs => runs.exec_outcome_of_gone gone rfl⟩,
    fun x => ⟨fun gone runs => runs.exec_outcome_of_gone gone rfl,
      fun gone runs => by rw [runs.exec_eq rfl, State.answerClaim_of_gone gone]⟩⟩
  refine ⟨fun gone => ?_, fun refused => ?_⟩
  · have late := State.polledRecord?_of_gone gone
    exact ⟨fun runs => by rw [runs.exec_eq rfl, State.presence, late],
      fun runs => by rw [runs.exec_eq rfl, State.miss, late]⟩
  · have late : s.requester? l st ref = none := State.requester?_of_refused (refused.imp_left State.polledRecord?_of_gone)
    have claim : ∀ (code : Byte) (handle : State → Record → State × List Byte),
        s.requestClaim l st ref code handle = _ := fun code handle =>
      (State.requestClaim_of_refused late code handle).trans (s.discardRequest_eq l ref)
    exact ⟨fun n runs => by rw [runs.exec_eq rfl, claim],
      fun runs => by rw [runs.exec_eq rfl, State.leaveClaim_of_refused late, State.discardRequest_eq],
      fun id runs => by rw [runs.exec_eq rfl, claim], fun cls start runs => by rw [runs.exec_eq rfl, claim],
      fun g start runs => by rw [runs.exec_eq rfl, claim], fun es runs => by rw [runs.exec_eq rfl, claim]⟩

end Sys2Proof.Machine
end

section
/-! The events of a line while a frame is sent, awaited or checked: what each operation of the line engine makes of the
line. -/

namespace Sys2Proof.Machine

/-! ### The operations on one line -/

/-- A counter that rises is a change of its line. -/
theorem State.bump_eq (s : State) (l : Line) (c : Ctr) : s.bump l c = s.setLine l ((s.line l).bump c) := rfl

theorem State.modLine_eq (s : State) (l : Line) (f : LineEngine → LineEngine) :
    s.modLine l f = s.setLine l (f (s.line l)) := rfl

/-- Two changes of one line are one. -/
theorem State.modLine_setLine (s : State) (l : Line) (e : LineEngine) (f : LineEngine → LineEngine) :
    (s.setLine l e).modLine l f = s.setLine l (f e) := by
  simp [State.modLine]

theorem State.bump_setLine (s : State) (l : Line) (e : LineEngine) (c : Ctr) :
    (s.setLine l e).bump l c = s.setLine l (e.bump c) := s.modLine_setLine l e _

/-- Where no order is in transaction, to take the mark of the transaction off every order changes none. -/
theorem unchosen_of_none {orders : List Order} (free : ∀ o ∈ orders, o.chosen = false) :
    (orders.map fun o => { o with chosen := false }) = orders := by
  refine (List.map_congr_left fun o mem => ?_).trans (List.map_id orders)
  rw [← free o mem]
  rfl

theorem LineEngine.endTx_of_none {e : LineEngine} (free : ∀ o ∈ e.orders, o.chosen = false) :
    e.endTx = { e with tx := none } :=
  congrArg (fun orders => { e with tx := none, orders := orders }) (unchosen_of_none free)

/-! ### The stuck-line check (R77) -/

/-- With the lead dominant, a frame waits at its stuck-line check. -/
theorem LineEngine.checkLead_of_dominant {e : LineEngine} (lead : e.leadDominant = true) (holdOff : Nat) (t : Tx) :
    e.checkLead holdOff t = { e with tx := some { t with phase := .check } } := by
  rw [LineEngine.checkLead, if_pos lead]

/-- With the lead recessive, a frame begins at once. -/
theorem LineEngine.checkLead_of_recessive {e : LineEngine} (lead : e.leadDominant = false) (holdOff : Nat) (t : Tx) :
    e.checkLead holdOff t = LineEngine.beginFrame holdOff { e with tx := some { t with phase := .check } } := by
  rw [LineEngine.checkLead, lead, if_neg Bool.false_ne_true]

/-- A repetition carries the frame as it stands, and is counted (R70, R75). -/
theorem LineEngine.beginFrame_of_repeated {e : LineEngine} {t : Tx} (tx : e.tx = some t) (again : t.repeated = true)
    (holdOff : Nat) : e.beginFrame holdOff = LineEngine.bump .repetitions { e with tx := some { t with phase := .sending } } := by
  rw [LineEngine.beginFrame, tx]
  exact if_pos again

/-- The first frame of a FLUSH sets flush due (R79). -/
theorem LineEngine.beginFrame_of_flush {e : LineEngine} {t : Tx} (tx : e.tx = some t) (first : t.repeated = false)
    (work : t.work = .flush) (holdOff : Nat) : e.beginFrame holdOff =
      { e with
        tx := some { t with phase := .sending, frame := withCheck [0x08, 0x7F], holdOffLimit := holdOff }
        txSinceRound := true
        flushDue := true } := by
  rw [LineEngine.beginFrame, tx]
  dsimp only
  rw [if_neg (by simp [first]), work]
  rfl

/-- The FLUSH transaction of a line start before its frame, and while the frame is sent (R79). -/
def Tx.flushWaits : Tx :=
  { work := .flush, phase := .check, frame := [], idCheck := 0, repeated := false, held := false, holdOffLimit := 0 }

def Tx.flushSends (holdOff : Nat) : Tx :=
  { Tx.flushWaits with phase := .sending, frame := withCheck [0x08, 0x7F], holdOffLimit := holdOff }

/-- A FLUSH comes to its stuck-line check: it waits while the lead is dominant, and begins where it is recessive. -/
theorem LineEngine.checkLead_flush (e : LineEngine) (holdOff : Nat) : e.checkLead holdOff (Tx.fresh .flush 0) =
    if e.leadDominant then { e with tx := some Tx.flushWaits }
    else { e with flushDue := true, txSinceRound := true, tx := some (Tx.flushSends holdOff) } := by
  by_cases lead : e.leadDominant = true
  · rw [if_pos lead]
    exact LineEngine.checkLead_of_dominant lead holdOff _
  · rw [if_neg lead, LineEngine.checkLead_of_recessive (Bool.eq_false_iff.mpr lead),
      LineEngine.beginFrame_of_flush rfl rfl rfl]
    rfl

theorem State.startTx_flush (s : State) (l : Line) : s.startTx l .flush 0 = s.setLine l
    (if (s.line l).leadDominant then { s.line l with tx := some Tx.flushWaits }
      else { s.line l with flushDue := true, txSinceRound := true, tx := some (Tx.flushSends s.cfg.holdOff) }) := by
  rw [State.startTx, State.modLine_eq, LineEngine.checkLead_flush]

theorem State.nextFlush_of_waiting {s : State} {l : Line} (waits : (s.line l).waiting ≠ none) : s.nextFlush l = s :=
  if_pos (Option.isSome_iff_ne_none.mpr waits)

theorem State.nextFlush_of_free {s : State} {l : Line} (free : (s.line l).waiting = none) :
    s.nextFlush l = s.startTx l .flush 0 := if_neg (by simp [free])

/-! ### Replies -/

/-- A reply that the head frame admits, in its window or after a HOLD, is taken (R72 to R74). -/
theorem State.receive_of_admitted {s : State} {l : Line} {t : Tx} {r : NodeReply} (tx : (s.line l).tx = some t)
    (awaits : t.phase = .window ∨ t.phase = .holdOff) (admitted : r.admitted ((s.line l).polling t) = true) :
    s.receive l (some r) = s.validReply l t r := by
  have open_ : t.awaitsReply = true := by simpa [Tx.awaitsReply] using awaits
  rw [State.receive, tx]
  dsimp only
  rw [if_pos open_, if_pos admitted]

theorem State.receive_none {s : State} {l : Line} {t : Tx} (tx : (s.line l).tx = some t)
    (awaits : t.phase = .window ∨ t.phase = .holdOff) : s.receive l none = s.checkErrorOn l t := by
  have open_ : t.awaitsReply = true := by simpa [Tx.awaitsReply] using awaits
  rw [State.receive, tx]
  dsimp only
  rw [if_pos open_]

/-- The bodies of CONFIRM, DECLINE and HOLD are their checks (Table 13-2, R193). -/
theorem readBare?_confirm : readBare? 0x13 .confirm (checkBytes [0x13]) = some .confirm := by decide +kernel
theorem readBare?_decline : readBare? 0x14 .decline (checkBytes [0x14]) = some .decline := by decide +kernel
theorem readBare?_hold : readBare? 0x15 .hold (checkBytes [0x15]) = some .hold := by decide +kernel

theorem exec_hold_eq {s : State} {l : Line} {t : Tx} (tx : (s.line l).tx = some t)
    (awaits : t.phase = .window ∨ t.phase = .holdOff) :
    exec (.hold l (checkBytes [0x15])) s = .next (s.holdOn l t) := by
  show Host.Outcome.next (s.receive l (readBare? 0x15 .hold (checkBytes [0x15]))) = _
  rw [readBare?_hold, State.receive_of_admitted tx awaits rfl]
  rfl

theorem exec_checkError_eq {s : State} {l : Line} {t : Tx} (tx : (s.line l).tx = some t)
    (awaits : t.phase = .window ∨ t.phase = .holdOff) :
    exec (.checkError l) s = .next (s.checkErrorOn l t) := by
  show Host.Outcome.next (s.receive l none) = _
  rw [State.receive_none tx awaits]

/-- Settles O38: the first HOLD begins the wait, and the first check error the repetition, which the recessive lead lets
begin at once. -/
theorem holdAndRepetition : Obligations.HoldAndRepetition := by
  intro s l t tx window
  refine ⟨fun first => ?_, fun first lead => ?_⟩
  · rw [exec_hold_eq tx (.inl window), State.holdOn, first, State.bump_eq]
    dsimp only
    rw [if_neg Bool.false_ne_true, State.modLine_setLine]
    rfl
  · have counted : ((s.line l).bump .checkErrors).leadDominant = false := lead
    rw [exec_checkError_eq tx (.inl window), State.checkErrorOn, State.repeatOrEnd, first, if_neg Bool.false_ne_true,
      State.bump_eq, State.modLine_setLine, LineEngine.checkLead_of_recessive counted,
      LineEngine.beginFrame_of_repeated rfl rfl]
    rfl

/-! ### Faults (R77, R79, R83) -/

theorem LineEngine.bump_counter_self (e : LineEngine) (c : Ctr) : (e.bump c).counter c = min 65535 (e.counter c + 1) := by
  rw [LineEngine.counter_bump, if_pos rfl]

theorem LineEngine.bump_counter_of_ne (e : LineEngine) {c x : Ctr} (ne : x ≠ c) : (e.bump c).counter x = e.counter x := by
  rw [LineEngine.counter_bump, if_neg ne]

/-- The line engine in FAULT, with what it raises (R83, R84). -/
theorem State.line_enterFault (s : State) (l : Line) :
    ∃ c w, (s.enterFault l).line l = { (s.line l).fault with claim := c, waiting := w } := by
  obtain ⟨c, w, raised⟩ := (s.line l).fault.raiseOwed_eq
  refine ⟨c, w, ?_⟩
  rw [State.enterFault, State.line_raiseOwed_self, ← raised]
  exact congrArg LineEngine.raiseOwed (s.line_setLine_self l _)

theorem State.host_enterFault (s : State) (l : Line) : (s.enterFault l).host =
    { s.host with flags := s.host.flags ||| (match l with | .A => 0x001 | .B => 0x002) } := by
  rw [State.enterFault, State.host_raiseOwed]
  cases l <;> rfl

/-- What a line engine that faults becomes, and what it keeps (R77, R83). -/
theorem State.enterFault_spec (s : State) (l : Line) :
    let t := s.enterFault l
    (t.line l).state = .fault ∧ (t.line l).tx = none ∧ (t.line l).stage = .none
      ∧ (t.line l).stopDue = true ∧ (t.line l).flushDue = (s.line l).flushDue
      ∧ (t.line l).counter .faults = min 65535 ((s.line l).counter .faults + 1)
      ∧ (∀ x : Ctr, x ≠ .faults → (t.line l).counter x = (s.line l).counter x)
      ∧ t.host = { s.host with flags := s.host.flags ||| (match l with | .A => 0x001 | .B => 0x002) }
      ∧ (t.line l).orders.length = (s.line l).orders.length ∧ (t.line l).reservations = (s.line l).reservations
      ∧ t.line (otherLine l) = s.line (otherLine l) ∧ t.dir = s.dir ∧ t.cfg = s.cfg ∧ t.clock = s.clock := by
  obtain ⟨c, w, line⟩ := s.line_enterFault l
  dsimp only
  rw [line]
  refine ⟨rfl, rfl, rfl, rfl, rfl, (s.line l).abandonTx.bump_counter_self .faults,
    fun x ne => (s.line l).abandonTx.bump_counter_of_ne ne, s.host_enterFault l, List.length_map .., rfl, ?_, ?_, ?_, ?_⟩
  · rw [State.enterFault, State.line_raiseOwed_other]
    exact State.line_setLine_other ..
  · rw [State.enterFault, State.dir_raiseOwed]; rfl
  · rw [State.enterFault, State.cfg_raiseOwed]; rfl
  · rw [State.enterFault, State.clock_raiseOwed]; rfl

theorem exec_stuckLine_of_sticks {s : State} {l : Line} (sticks : (s.line l).sticks = true) :
    exec (.stuckLine l) s = .next (s.enterFault l) := congrArg Host.Outcome.next (if_pos sticks)

theorem exec_stuckLine_of_not_sticks {s : State} {l : Line} (free : (s.line l).sticks = false) :
    exec (.stuckLine l) s = .next s := congrArg Host.Outcome.next (if_neg (by simp [free]))

theorem exec_idleCheckTimeout_eq {s : State} {l : Line} (starting : (s.line l).state = .starting)
    (stage : (s.line l).stage = .idleCheck) : exec (.idleCheckTimeout l) s = .next (s.enterFault l) :=
  congrArg Host.Outcome.next (if_pos ⟨starting, stage⟩)

/-- A check is made of a repetition in every state, and of a first frame except in PAUSED (R77, R81; log 11). -/
theorem LineEngine.checks_of_tx {e : LineEngine} {t : Tx} (tx : e.tx = some t) :
    e.checks = (t.phase == .check && (t.repeated || e.state != .paused)) := by
  rw [LineEngine.checks, tx]

theorem LineEngine.sticks_iff {e : LineEngine} : e.sticks = true ↔
    e.leadDominant = true ∧ (e.stage = .idleCheck ∨ e.checks = true) := by
  simp [LineEngine.sticks]

/-- Settles O33: the lead that is watched leads to the fault, and in PAUSED the first frame that waits is not watched. -/
theorem faultsStopTheLine : Obligations.FaultsStopTheLine := by
  intro s l
  refine ⟨fun c told => ⟨s.enterFault l, ?_, s.enterFault_spec l⟩, fun t paused stage tx first => ?_⟩
  · rcases told with ⟨rfl, lead, watched⟩ | ⟨rfl, starting, stage⟩
    · refine exec_stuckLine_of_sticks (LineEngine.sticks_iff.mpr ⟨lead, watched.imp_right ?_⟩)
      rintro ⟨t, tx, phase, checked⟩
      rw [LineEngine.checks_of_tx tx]
      simpa [phase] using checked
    · exact exec_idleCheckTimeout_eq starting stage
  · refine exec_stuckLine_of_not_sticks (Bool.eq_false_iff.mpr fun sticks => ?_)
    obtain ⟨-, checking | checks⟩ := LineEngine.sticks_iff.mp sticks
    · rw [stage] at checking; cases checking
    · rw [LineEngine.checks_of_tx tx, first, paused] at checks
      simp at checks

/-! ### Collisions (R72, R75, R102) -/

/-- The line engine as a collision finds it: the collision is counted, and the lead is dominant. -/
def LineEngine.collided (e : LineEngine) : LineEngine :=
  { e with leadDominant := true, counters := (e.bump .collisions).counters }

theorem exec_collision_eq {s : State} {l : Line} {t : Tx} (tx : (s.line l).tx = some t) (sending : t.phase = .sending) :
    exec (.collision l) s = .next (s.collisionOn l t) := by
  show Host.Outcome.next _ = _
  rw [tx]
  dsimp only
  rw [if_pos sending]

theorem exec_headFrameSent_eq {s : State} {l : Line} {t : Tx} (tx : (s.line l).tx = some t) (sending : t.phase = .sending) :
    exec (.headFrameSent l) s = .next (s.frameSent l t) := by
  show Host.Outcome.next _ = _
  rw [tx]
  dsimp only
  rw [if_pos sending]

theorem State.collided_eq (s : State) (l : Line) :
    ((s.bump l .collisions).modLine l fun e => { e with leadDominant := true }) = s.setLine l (s.line l).collided := by
  rw [State.bump_eq, State.modLine_setLine]
  rfl

theorem State.collisionOn_of_poll {s : State} {l : Line} {t : Tx} {st : Station} {ref : Ref} {solicited : Bool}
    (work : t.work = .poll st ref solicited) :
    s.collisionOn l t = (s.setLine l (s.line l).collided).repeatOrEnd l t := by
  rw [State.collisionOn, work, s.collided_eq]

theorem State.collisionOn_of_order {s : State} {l : Line} {t : Tx} {o : Order} (work : t.work = .order)
    (chosen : (s.line l).chosen? = some o) : s.collisionOn l t =
      if o.payload.kind = .refuse then (s.setLine l (s.line l).collided).orderEnd l .sent
      else (s.setLine l (s.line l).collided).repeatOrEnd l t := by
  rw [State.collisionOn, work, chosen, s.collided_eq]
  rfl

theorem State.collisionOn_of_flush {s : State} {l : Line} {t : Tx} (work : t.work = .flush) :
    s.collisionOn l t = (s.setLine l (s.line l).collided).flushSent l := by
  rw [State.collisionOn, work, s.collided_eq]

theorem State.collisionOn_of_call {s : State} {l : Line} {t : Tx} {p : CallPolicy} (work : t.work = .call p) :
    s.collisionOn l t = s.setLine l (s.line l).collided.noBid := by
  rw [State.collisionOn, work, s.collided_eq]
  exact s.modLine_setLine l _ _

/-- The end of a frame: a REFUSE and a FLUSH end as SENT (R73, R75, R79). -/
theorem State.frameSent_of_refuse {s : State} {l : Line} {t : Tx} {o : Order} (work : t.work = .order)
    (chosen : (s.line l).chosen? = some o) (kind : o.payload.kind = .refuse) : s.frameSent l t = s.orderEnd l .sent := by
  rw [State.frameSent, work, chosen]
  exact if_pos kind

theorem State.frameSent_of_flush {s : State} {l : Line} {t : Tx} (work : t.work = .flush) :
    s.frameSent l t = s.flushSent l := by
  rw [State.frameSent, work]

/-- With the lead dominant, a frame stopped for its repetition waits (R75, R77). -/
theorem State.repeatOrEnd_collided {s : State} {l : Line} {t : Tx} (first : t.repeated = false) :
    (s.setLine l (s.line l).collided).repeatOrEnd l t = s.setLine l
      { s.line l with
        leadDominant := true
        tx := some { t with phase := .check, repeated := true }
        counters := ((s.line l).bump .collisions).counters } := by
  rw [State.repeatOrEnd, if_neg (by simp [first]), State.modLine_setLine, LineEngine.checkLead_of_dominant rfl]
  rfl

/-- Settles O34, by the work of the transaction that the collision stops. -/
theorem collisionsStopTheFrame : Obligations.CollisionsStopTheFrame := by
  intro s l t tx sending
  have ended : exec (.headFrameSent l) (s.setLine l (s.line l).collided)
      = .next ((s.setLine l (s.line l).collided).frameSent l t) :=
    exec_headFrameSent_eq (by rw [State.line_setLine_self]; exact tx) sending
  refine ⟨fun st ref b work first => ?_, fun o ⟨_, work, chosen⟩ => ⟨fun kind first => ?_, fun kind => ?_⟩, fun work => ?_,
    fun p work => ⟨s.setLine l (s.line l).collided.noBid, ?_, ?_⟩⟩
  · rw [exec_collision_eq tx sending, State.collisionOn_of_poll work, State.repeatOrEnd_collided first]
  · rw [exec_collision_eq tx sending, State.collisionOn_of_order work chosen, if_neg kind, State.repeatOrEnd_collided first]
  · have chosen' : ((s.setLine l (s.line l).collided).line l).chosen? = some o := by rw [State.line_setLine_self]; exact chosen
    refine Eq.trans ?_ ended.symm
    rw [exec_collision_eq tx sending, State.collisionOn_of_order work chosen, if_pos kind,
      State.frameSent_of_refuse work chosen' kind]
  · refine Eq.trans ?_ ended.symm
    rw [exec_collision_eq tx sending, State.collisionOn_of_flush work, State.frameSent_of_flush work]
  · rw [exec_collision_eq tx sending, State.collisionOn_of_call work]
  · rw [State.line_setLine_self]
    refine ⟨rfl, rfl, ?_, rfl, rfl, State.line_setLine_other .., rfl, rfl⟩
    refine (LineEngine.bump_counter_self _ _).trans ?_
    exact congrArg (fun n => min 65535 (n + 1)) ((s.line l).bump_counter_of_ne (by decide : Ctr.noBidCalls ≠ .collisions))

end Sys2Proof.Machine
end

section
/-! The ends of an open call, and the way of a starting line from its idle check. -/

namespace Sys2Proof.Machine

/-! ### Open calls (R101 to R104) -/

theorem exec_arbitrationEnd_eq {s : State} {l : Line} {t : Tx} (tx : (s.line l).tx = some t)
    (field : t.phase = .arbitration) (id : Identity) :
    exec (.arbitrationEnd l id) s = .next (s.arbitrationOn l t id) := by
  show Host.Outcome.next _ = _
  rw [tx]
  exact congrArg Host.Outcome.next (if_pos field)

/-- The call of which a JOIN body is awaited (R103). -/
theorem LineEngine.awaitedJoin?_eq {e : LineEngine} {t : Tx} {p : CallPolicy} {id : Identity} (tx : e.tx = some t)
    (work : t.work = .call p) (awaits : t.phase = .joinWait id) : e.awaitedJoin? = some (id, p) := by
  rw [LineEngine.awaitedJoin?, tx]
  dsimp only
  rw [awaits, work]

/-- A call that ends with no order in transaction leaves the queue as it is. -/
theorem LineEngine.noBid_of_none {e : LineEngine} (free : ∀ o ∈ e.orders, o.chosen = false) : e.noBid =
    LineEngine.bump .noBidCalls { e with tx := none, reservations := e.reservations.erase .call } := by
  rw [LineEngine.noBid, LineEngine.endTx_of_none free]
  rfl

theorem exec_joinBody_eq {s : State} {l : Line} {p : CallPolicy} {id : Identity}
    (awaited : (s.line l).awaitedJoin? = some (id, p)) (body : List Byte) :
    exec (.joinBody l body) s = .next (match readJoinBody? id body with
      | some caps => if id = 0 then s.garbled l id else s.joinWon l id caps p
      | none => s.garbled l id) := by
  show Host.Outcome.next _ = _
  rewrite [awaited]
  rfl

/-- A call that is won hands the join claim over (R103, R104). -/
theorem State.joinWon_of_none {s : State} {l : Line} (free : ∀ o ∈ (s.line l).orders, o.chosen = false) (id : Identity)
    (caps : List CapEntry) (p : CallPolicy) : s.joinWon l id caps p = (s.setLine l (LineEngine.handed
      { s.line l with
        tx := none
        tracker := { identity := none, count := 0 }
        counters := ((s.line l).bump .joinsWon).counters } (.join id caps p))).grant := by
  rw [State.joinWon, LineEngine.handed, State.modLine_eq, LineEngine.endTx_of_none free, State.bump_setLine,
    State.handOver_handed, State.setLine_setLine, State.line_setLine_self]
  rfl

/-- Settles O40: the call ends as NO_BID, awaits its JOIN body, or is won; no order is in transaction, so that the queue
stays. -/
theorem callsEndNoBidOrWin : Obligations.CallsEndNoBidOrWin := by
  intro s l t p tx work free
  refine ⟨fun field id => ?_, fun id body caps awaits named read => ?_⟩
  · rw [exec_arbitrationEnd_eq tx field, State.arbitrationOn]
    split
    · rw [State.modLine_eq, LineEngine.noBid_of_none free]
      rfl
    · dsimp only
      split
      · rw [State.modLine_eq, State.bump_setLine]
        rfl
      · rfl
  · rw [exec_joinBody_eq (LineEngine.awaitedJoin?_eq tx work awaits), read]
    dsimp only
    rw [if_neg named, State.joinWon_of_none free]

/-- The line engine of a GARBLED call before the tracker deals with the identity read (R103). -/
def LineEngine.ungarbled (e : LineEngine) : LineEngine :=
  { e with
    tx := none
    reservations := e.reservations.erase .call
    counters := (e.bump .garbledCalls).counters }

theorem State.garbled_eq {s : State} {l : Line} (free : ∀ o ∈ (s.line l).orders, o.chosen = false) (id : Identity) :
    s.garbled l id = if ((s.line l).ungarbled.trackClash id).2
      then (s.setLine l ((s.line l).ungarbled.trackClash id).1).raiseAlarm (.clash l)
      else s.setLine l ((s.line l).ungarbled.trackClash id).1 := by
  rw [State.garbled, LineEngine.endTx_of_none free]
  rfl

/-- The tracker counts another identity from 1 (R104). -/
theorem LineEngine.trackClash_of_other {e : LineEngine} {id : Identity} (other : e.tracker.identity ≠ some id) :
    e.trackClash id = ({ e with tracker := { identity := some id, count := 1 } }, false) := if_neg other

/-- The tracker counts the identity it holds, up to the third time in a row (R104). -/
theorem LineEngine.trackClash_of_early {e : LineEngine} {id : Identity} {n : Nat}
    (holds : e.tracker = { identity := some id, count := n }) (early : n < 3) :
    e.trackClash id = ({ e with tracker := { identity := some id, count := n + 1 } }, false) := by
  have below : n + 1 < 4 := by omega
  rw [LineEngine.trackClash, holds, if_pos rfl, if_pos below]

theorem LineEngine.trackClash_of_room {e : LineEngine} {id : Identity} {n : Nat}
    (holds : e.tracker = { identity := some id, count := n }) (fourth : 3 ≤ n) (new : id ∉ e.exclusions)
    (room : e.exclusions.length < 4) : e.trackClash id = (LineEngine.bump .clashesExcluded
      { e with exclusions := e.exclusions ++ [id], tracker := { identity := none, count := 0 } }, true) := by
  have reached : ¬ n + 1 < 4 := by omega
  rw [LineEngine.trackClash, holds, if_pos rfl, if_neg reached, if_pos ⟨new, room⟩]
  rfl

theorem LineEngine.trackClash_of_full {e : LineEngine} {id : Identity} {n : Nat}
    (holds : e.tracker = { identity := some id, count := n }) (fourth : 3 ≤ n)
    (full : id ∈ e.exclusions ∨ 4 ≤ e.exclusions.length) : e.trackClash id = (LineEngine.bump .clashesNotExcluded
      { e with tracker := { identity := none, count := 0 } }, false) := by
  have reached : ¬ n + 1 < 4 := by omega
  have refused : ¬ (id ∉ e.exclusions ∧ e.exclusions.length < 4) := fun ⟨new, room⟩ =>
    full.elim new fun long => absurd room (Nat.not_lt.mpr long)
  rw [LineEngine.trackClash, holds, if_pos rfl, if_neg reached, if_neg refused]
  rfl

/-- The events that end a call GARBLED. -/
theorem exec_garbled_eq {s : State} {l : Line} {p : CallPolicy} {id : Identity} {c : Instr}
    (awaited : (s.line l).awaitedJoin? = some (id, p))
    (ends : c = .joinBodyTimeout l ∨ ∃ body : List Byte, c = .joinBody l body ∧ (id = 0 ∨ readJoinBody? id body = none)) :
    exec c s = .next (s.garbled l id) := by
  rcases ends with rfl | ⟨body, rfl, bad⟩
  · show Host.Outcome.next _ = _
    rw [awaited]
  · rw [exec_joinBody_eq awaited]
    split
    · next read =>
      rcases bad with rfl | unread
      · rfl
      · rw [read] at unread; cases unread
    · rfl

/-- CLASH_SETTLED is the fourth GARBLED call in a row (log 14). -/
theorem exec_clashSettled_eq {s : State} {l : Line} {p : CallPolicy} {id : Identity} {n : Nat}
    (awaited : (s.line l).awaitedJoin? = some (id, p)) (holds : (s.line l).tracker = { identity := some id, count := n })
    (fourth : 3 ≤ n) : exec (.clashSettled l) s = .next (s.garbled l id) := by
  have settles : (s.line l).tracker.settles id = true := by
    rw [holds]
    simpa [ClashTracker.settles] using fourth
  show Host.Outcome.next _ = _
  rw [awaited]
  exact congrArg Host.Outcome.next (if_pos settles)

/-- Settles O41, by what the tracker makes of the identity read. -/
theorem garbledCallsAreTracked : Obligations.GarbledCallsAreTracked := by
  intro s l t p id tx work awaits free garbled ended c ends
  have awaited := LineEngine.awaitedJoin?_eq tx work awaits
  have told := exec_garbled_eq awaited ends
  refine ⟨fun other => ?_, fun n holds => ⟨fun early => ?_, fun fourth d named => ?_⟩⟩
  · rw [told, State.garbled_eq free, LineEngine.trackClash_of_other (e := (s.line l).ungarbled) other]
    rfl
  · rw [told, State.garbled_eq free, LineEngine.trackClash_of_early (e := (s.line l).ungarbled) holds early]
    rfl
  · have told' : exec d s = .next (s.garbled l id) := by
      rcases named with rfl | rfl
      · exact told
      · exact exec_clashSettled_eq awaited holds fourth
    refine ⟨fun new room => ?_, fun full => ?_⟩
    · rw [told', State.garbled_eq free, LineEngine.trackClash_of_room (e := (s.line l).ungarbled) holds fourth new room]
      rfl
    · rw [told', State.garbled_eq free, LineEngine.trackClash_of_full (e := (s.line l).ungarbled) holds fourth full]
      rfl

/-! ### A starting line (R79, R80, R93) -/

theorem exec_idleCheckPass_eq {s : State} {l : Line} (starting : (s.line l).state = .starting)
    (stage : (s.line l).stage = .idleCheck) (lead : (s.line l).leadDominant = false) :
    exec (.idleCheckPass l) s = .next (if (s.line l).startFlush
      then (s.modLine l fun e => { e with stage := .flushing 0 }).nextFlush l
      else s.modLine l fun e => LineEngine.tryRunning { e with stage := .ready }) :=
  congrArg Host.Outcome.next (if_pos ⟨starting, stage, lead⟩)

/-- The completion of the outstanding claim raises the result that waits, and begins the FLUSH it held back (R79, R93;
log 26). -/
theorem State.line_completeLine_of_held {s : State} {l : Line} {n : Nat} {c : LineClaim}
    (starting : (s.line l).state = .starting) (stage : (s.line l).stage = .flushing n) (idle : (s.line l).tx = none)
    (waits : (s.line l).waiting = some c) : (s.completeLine l).line l = (if (s.line l).leadDominant
      then { s.line l with claim := some c, waiting := none, tx := some Tx.flushWaits }
      else { s.line l with
        claim := some c, waiting := none, flushDue := true, txSinceRound := true
        tx := some (Tx.flushSends s.cfg.holdOff) }) := by
  have held : (s.line l).flushHeld = true := by
    simp [LineEngine.flushHeld, waits, starting, stage, idle, StartStage.flushRemains]
  have raised : (s.endClaim l).line l = { s.line l with claim := some c, waiting := none } := by
    rw [State.line_endClaim_self, LineEngine.raiseOwed]
    dsimp only
    rw [waits]
  have store : (s.endClaim l).cfg = s.cfg := by
    obtain ⟨_, _, _, ended⟩ := s.endClaim_eq l
    rw [ended]
    rfl
  rw [State.completeLine, if_pos held, State.startTx_flush, State.line_setLine_self, raised, store]

/-- Settles O42: the check that passes ends the steps of a line that keeps its nodes, and begins the FLUSH of another unless
a result waits. -/
theorem idleCheckPassStartsTheLine : Obligations.IdleCheckPassStartsTheLine := by
  intro s l starting waits sending
  refine ⟨fun stage lead => ?_, fun n c stage idle waiting => State.line_completeLine_of_held starting stage idle waiting⟩
  have passed := exec_idleCheckPass_eq starting stage lead
  refine ⟨fun keep stop flush => ?_, fun keep due => ?_, fun flush free => ?_, fun flush waiting => ?_⟩
  · rw [passed, keep, if_neg Bool.false_ne_true, State.modLine_eq, LineEngine.tryRunning,
      if_pos ⟨starting, rfl, stop, flush⟩]
  · have owes : ¬ ((s.line l).state = .starting ∧ StartStage.ready = .ready ∧ (s.line l).stopDue = false
        ∧ (s.line l).flushDue = false) := fun ⟨_, _, stop, flush⟩ => by
      rw [stop, flush] at due
      simp at due
    rw [passed, keep, if_neg Bool.false_ne_true, State.modLine_eq, LineEngine.tryRunning]
    exact congrArg (fun e => Host.Outcome.next (s.setLine l e)) (if_neg owes)
  · have staged : ((s.modLine l fun e => { e with stage := .flushing 0 }).line l).waiting = none := by
      rw [State.line_modLine_self]
      exact free
    have recessive : ¬ (s.line l).leadDominant = true := by simp [lead]
    rw [passed, if_pos flush, State.nextFlush_of_free staged, State.startTx_flush, State.line_modLine_self,
      if_neg recessive, State.modLine_eq, State.setLine_setLine]
    rfl
  · have staged : ((s.modLine l fun e => { e with stage := .flushing 0 }).line l).waiting ≠ none := by
      rw [State.line_modLine_self]
      exact waiting
    rw [passed, if_pos flush, State.nextFlush_of_waiting staged, State.modLine_eq]

end Sys2Proof.Machine
end

section
/-! The ends of the transactions of polls and orders. -/

namespace Sys2Proof.Machine

/-! ### The ends of orders (R91, R97, R99, R148) -/

/-- Orders of which those in transaction are changed and leave it. -/
def concludedOrders (f : Order → Order) (orders : List Order) : List Order :=
  orders.map fun o => if o.chosen then { f o with chosen := false } else o

/-- Two changes of the order in transaction are one. -/
theorem concludedOrders_map {f g : Order → Order} (keeps : ∀ o, (g o).chosen = o.chosen) (orders : List Order) :
    concludedOrders f (orders.map fun o => if o.chosen then g o else o) = concludedOrders (fun o => f (g o)) orders := by
  rw [concludedOrders, List.map_map]
  refine List.map_congr_left fun o _ => ?_
  by_cases mark : o.chosen = true
  · rw [Function.comp_apply, if_pos mark, keeps, if_pos mark, if_pos mark]
  · rw [Function.comp_apply, if_neg mark, if_neg mark, if_neg mark]

/-- The orders that stay in the queue do not depend on a change of the one that leaves it. -/
theorem filter_unchosen_map {g : Order → Order} (keeps : ∀ o, (g o).chosen = o.chosen) (orders : List Order) :
    ((orders.map fun o => if o.chosen then g o else o).filter fun o => !o.chosen) = orders.filter fun o => !o.chosen := by
  induction orders with
  | nil => rfl
  | cons o rest ih =>
    by_cases mark : o.chosen = true
    · simp [mark, keeps, ih]
    · simp [mark, ih]

/-- A change of the order in transaction, and then the end of the transaction. -/
theorem LineEngine.endTx_modChosen (e : LineEngine) (f : Order → Order) :
    (e.modChosen f).endTx = { e with tx := none, orders := concludedOrders f e.orders } := by
  have orders : ((e.orders.map fun o => if o.chosen then f o else o).map fun o => { o with chosen := false })
      = concludedOrders f e.orders := by
    rw [concludedOrders, List.map_map]
    refine List.map_congr_left fun o _ => ?_
    by_cases mark : o.chosen = true
    · simp [mark]
    · have free : o.chosen = false := Bool.eq_false_iff.mpr mark
      rw [if_neg mark, Function.comp_apply, if_neg mark, ← free]
  exact congrArg (fun orders => { e with tx := none, orders := orders }) orders

/-- The order in transaction leaves the queue, and its transaction ends. -/
theorem LineEngine.endTx_removeChosen (e : LineEngine) :
    e.removeChosen.endTx = { e with tx := none, orders := e.orders.filter fun o => !o.chosen } := by
  have free : ∀ o ∈ e.removeChosen.orders, o.chosen = false := fun o mem => by
    simpa using (List.mem_filter.mp mem).2
  rw [LineEngine.endTx_of_none free]
  rfl

/-- The end of a transaction can come before the grant that a result handed over brings. -/
theorem State.modLine_handOver (s : State) (l : Line) (c : LineClaim) (f : LineEngine → LineEngine)
    (claim : ∀ e, (f e).claim = e.claim) :
    (s.handOver l c).modLine l f = (s.setLine l (f ((s.line l).handed c))).grant := by
  rw [State.handOver_handed, State.modLine_eq, State.line_grant, State.line_setLine_self, State.setLine_grant _ _ _
    (by rw [State.line_setLine_self, claim]), State.setLine_setLine]

/-- The outcome of the order in transaction is handed over, and the transaction is over (R93, R97). -/
theorem State.endTx_concludeOrder {s : State} {l : Line} {o : Order} {ref : Ref} (chosen : (s.line l).chosen? = some o)
    (record : o.ref = some ref) (result : OrderResult) :
    (s.concludeOrder l result).modLine l LineEngine.endTx = (s.setLine l (LineEngine.handed
      { s.line l with
        tx := none, orders := concludedOrders (fun x => { x with progress := .concluding }) (s.line l).orders }
      (.outcome o.payload.kind ref result))).grant := by
  rw [State.concludeOrder, chosen]
  dsimp only
  rw [record]
  dsimp only
  rw [State.modLine_handOver _ _ _ LineEngine.endTx fun _ => rfl, State.line_modLine_self, State.modLine_eq,
    State.setLine_setLine]
  have ended := (s.line l).endTx_modChosen fun x => { x with progress := .concluding, chosen := false }
  exact congrArg (fun e => (s.setLine l (LineEngine.handed e (.outcome o.payload.kind ref result))).grant) ended

/-- A terminal ANSWER has no record: it leaves the queue with its transaction (R97, R134). -/
theorem State.endTx_concludeOrder_terminal {s : State} {l : Line} {o : Order} (chosen : (s.line l).chosen? = some o)
    (terminal : o.ref = none) (result : OrderResult) : (s.concludeOrder l result).modLine l LineEngine.endTx
      = s.setLine l { s.line l with tx := none, orders := (s.line l).orders.filter fun x => !x.chosen } := by
  rw [State.concludeOrder, chosen]
  dsimp only
  rw [terminal]
  dsimp only
  rw [State.modLine_modLine, State.modLine_eq, LineEngine.endTx_removeChosen]

/-- The result of a withdrawn order is discarded and counted, and the order leaves the queue (R91). -/
theorem State.orderEnd_of_withdrawn {s : State} {l : Line} {o : Order} (chosen : (s.line l).chosen? = some o)
    (withdrawn : o.withdrawn = true) (how : OrderEnd) : s.orderEnd l how = s.setLine l
      { s.line l with
        tx := none
        orders := (s.line l).orders.filter fun x => !x.chosen
        counters := ((s.line l).bump .discardedResults).counters } := by
  rw [State.orderEnd, chosen]
  dsimp only
  rw [if_pos withdrawn, s.modLine_eq l LineEngine.removeChosen, State.bump_setLine, State.modLine_setLine]
  exact congrArg (fun e => s.setLine l { e with counters := ((s.line l).bump .discardedResults).counters })
    (s.line l).endTx_removeChosen

theorem State.orderEnd_of_send {s : State} {l : Line} {o : Order} (chosen : (s.line l).chosen? = some o)
    (stands : o.withdrawn = false) (phase : o.phase = .send) (how : OrderEnd) :
    s.orderEnd l how = (s.sendEnd l o how).modLine l LineEngine.endTx := by
  rw [State.orderEnd, chosen]
  dsimp only
  rw [if_neg (by simp [stands]), phase]

theorem State.orderEnd_of_probe {s : State} {l : Line} {o : Order} (chosen : (s.line l).chosen? = some o)
    (stands : o.withdrawn = false) (phase : o.phase = .probe) (how : OrderEnd) :
    s.orderEnd l how = (s.probeEnd l o (how == .found)).modLine l LineEngine.endTx := by
  rw [State.orderEnd, chosen]
  dsimp only
  rw [if_neg (by simp [stands]), phase]

/-! ### Replies to an order -/

/-- An order in phase SEND admits the replies of an order, one in its probe those of a poll (R99, Table 4-2). -/
theorem LineEngine.polling_of_order {e : LineEngine} {t : Tx} {o : Order} (serves : e.InTransaction t o) :
    e.polling t = (o.phase == .probe) := by
  obtain ⟨-, work, chosen⟩ := serves
  rw [LineEngine.polling, work, chosen]

theorem exec_orderReply_eq {s : State} {l : Line} {t : Tx} {o : Order} {c : Instr} {result : OrderResult}
    (serves : (s.line l).InTransaction t o) (awaits : t.phase = .window ∨ t.phase = .holdOff) (phase : o.phase = .send)
    (reply : c = .confirm l (checkBytes [0x13]) ∧ result = .confirm ∨ c = .decline l (checkBytes [0x14]) ∧ result = .decline) :
    ∃ how : OrderEnd, exec c s = .next (s.orderEnd l how) ∧ s.sendEnd l o how = s.concludeOrder l result := by
  have order : (s.line l).polling t = false := by rw [LineEngine.polling_of_order serves, phase]; rfl
  rcases reply with ⟨rfl, rfl⟩ | ⟨rfl, rfl⟩
  · refine ⟨.confirm, ?_, rfl⟩
    show Host.Outcome.next (s.receive l (readBare? 0x13 .confirm (checkBytes [0x13]))) = _
    rw [readBare?_confirm, State.receive_of_admitted serves.1 awaits (by rw [order]; rfl)]
    rfl
  · refine ⟨.decline, ?_, rfl⟩
    show Host.Outcome.next (s.receive l (readBare? 0x14 .decline (checkBytes [0x14]))) = _
    rw [readBare?_decline, State.receive_of_admitted serves.1 awaits (by rw [order]; rfl)]
    rfl

/-- Settles O37: the reply concludes the order, whose outcome is handed over where it has a record, and is discarded where it
is withdrawn. -/
theorem orderRepliesRaiseOutcomes : Obligations.OrderRepliesRaiseOutcomes := by
  intro s l t o c result serves awaits phase reply
  obtain ⟨how, told, ends⟩ := exec_orderReply_eq serves awaits phase reply
  obtain ⟨-, -, chosen⟩ := serves
  have concluded : o.withdrawn = false → exec c s = .next ((s.concludeOrder l result).modLine l LineEngine.endTx) :=
    fun stands => by rw [told, State.orderEnd_of_send chosen stands phase, ends]
  refine ⟨fun ref record stands => ?_, fun terminal stands => ?_, fun withdrawn => ?_⟩
  · rw [concluded stands, State.endTx_concludeOrder chosen record]
    rfl
  · rw [concluded stands, State.endTx_concludeOrder_terminal chosen terminal]
  · rw [told, State.orderEnd_of_withdrawn chosen withdrawn]

/-! ### Silence (R73, R74, R97, R148) -/

/-- The line with other counters. -/
def State.counted (s : State) (l : Line) (counters : Vector Nat 32) : State :=
  s.setLine l { s.line l with counters := counters }

theorem State.bump_counted (s : State) (l : Line) (c : Ctr) : s.bump l c = s.counted l ((s.line l).bump c).counters := rfl

theorem State.line_counted (s : State) (l : Line) (counters : Vector Nat 32) :
    (s.counted l counters).line l = { s.line l with counters := counters } := State.line_setLine_self ..

theorem State.setLine_counted (s : State) (l : Line) (counters : Vector Nat 32) (e : LineEngine) :
    (s.counted l counters).setLine l e = s.setLine l e := State.setLine_setLine ..

/-- The line engine after a transaction without a reply is counted: a hold-off failure after a HOLD (R69). -/
def Tx.unanswered (t : Tx) (e : LineEngine) : LineEngine :=
  if t.held = true ∨ t.phase = .holdOff then e.bump .holdOffFailures else e

/-- What ends without a reply is an order or a poll (R73, R96, R97). -/
def State.endUnanswered (s : State) (l : Line) (t : Tx) : State :=
  match t.work with
  | .poll st ref solicited => s.pollEnd l ref (!solicited) (.miss st ref)
  | _ => s.orderEnd l .noReply

theorem State.noReplyEnd_counted (s : State) (l : Line) (t : Tx) (counters : Vector Nat 32) :
    (s.counted l counters).noReplyEnd l t
      = (s.counted l (t.unanswered { s.line l with counters := counters }).counters).endUnanswered l t := by
  have after : t.afterHold = true ↔ t.held = true ∨ t.phase = .holdOff := by simp [Tx.afterHold]
  have failed : (if t.afterHold then (s.counted l counters).bump l .holdOffFailures else s.counted l counters)
      = s.counted l (t.unanswered { s.line l with counters := counters }).counters := by
    rw [Tx.unanswered]
    by_cases held : t.held = true ∨ t.phase = .holdOff
    · rw [if_pos (after.mpr held), if_pos held, State.bump_eq, State.line_counted, State.setLine_counted]
      rfl
    · rw [if_neg (mt after.mp held), if_neg held]
  unfold State.noReplyEnd
  rw [failed]
  rfl

/-- Silence is counted, and the transaction ends without a reply. -/
theorem exec_replyWindowTimeout_eq {s : State} {l : Line} {t : Tx} (tx : (s.line l).tx = some t)
    (window : t.phase = .window) : exec (.replyWindowTimeout l) s
      = .next ((s.counted l ((s.line l).bump .silences).counters).noReplyEnd l t) := by
  show Host.Outcome.next _ = _
  rw [tx]
  exact congrArg Host.Outcome.next (if_pos window)

theorem exec_holdOffTimeout_eq {s : State} {l : Line} {t : Tx} (tx : (s.line l).tx = some t)
    (waits : t.phase = .holdOff) : exec (.holdOffTimeout l) s
      = .next ((s.counted l ((s.line l).bump .silences).counters).noReplyEnd l t) := by
  show Host.Outcome.next _ = _
  rw [tx]
  exact congrArg Host.Outcome.next (if_pos waits)

/-- ORDER_EXHAUSTED is the silence that exhausts the order (log 14). -/
theorem exec_orderExhausted_eq {s : State} {l : Line} {t : Tx} (tx : (s.line l).tx = some t) (work : t.work = .order)
    (exhausts : (s.line l).exhausts = true) (awaits : t.phase = .window ∨ t.phase = .holdOff) :
    exec (.orderExhausted l) s = .next ((s.counted l ((s.line l).bump .silences).counters).noReplyEnd l t) := by
  show Host.Outcome.next _ = _
  rw [tx]
  dsimp only
  rw [if_pos ⟨work, exhausts⟩]
  rcases awaits with window | waits
  · rw [if_pos window]
    rfl
  · rw [if_neg (by simp [waits]), if_pos waits]
    rfl

theorem Order.firstOfPair_iff {o : Order} : o.firstOfPair = true ↔ (∃ a b, o.dest = .pair a b) ∧ o.onSecond = false := by
  unfold Order.firstOfPair
  split
  · next a b pair => simp [pair]
  · next other => simp; exact fun a b pair => absurd pair (other a b)

theorem Order.lastAttempt_iff {o : Order} : o.lastAttempt = true ↔ o.retryLimit ≤ o.attempts + 1 := decide_eq_true_iff

theorem State.sendEnd_noReply (s : State) (l : Line) (o : Order) : s.sendEnd l o .noReply =
    if o.firstOfPair then s.modLine l (LineEngine.modChosen fun o =>
      { o with progress := .waiting, onSecond := true, chosen := false })
    else s.attemptEnd l := rfl

/-- The first of two stations has not answered: the second is due (R148). -/
theorem State.endTx_sendEnd_first {s : State} {l : Line} {o : Order} (first : o.firstOfPair = true) :
    (s.sendEnd l o .noReply).modLine l LineEngine.endTx = s.setLine l
      { s.line l with
        tx := none
        orders := concludedOrders (fun x => { x with progress := .waiting, onSecond := true }) (s.line l).orders } := by
  rw [State.sendEnd_noReply, if_pos first, State.modLine_modLine, State.modLine_eq, LineEngine.endTx_modChosen]
  rfl

theorem State.sendEnd_attempt {s : State} {l : Line} {o : Order} (later : o.firstOfPair = false) :
    s.sendEnd l o .noReply = s.attemptEnd l := (s.sendEnd_noReply l o).trans (if_neg (by simp [later]))

theorem State.endTx_attemptEnd_deferred {s : State} {l : Line} {o : Order} (chosen : (s.line l).chosen? = some o)
    (more : o.lastAttempt = false) : (s.attemptEnd l).modLine l LineEngine.endTx = s.setLine l
      { s.line l with
        tx := none
        orders := concludedOrders (fun x => { x with attempts := x.attempts + 1, deferred := true, progress := .waiting, onSecond := false })
          (s.line l).orders } := by
  rw [State.attemptEnd, chosen]
  dsimp only
  rw [if_neg (by simp [more]), State.modLine_modLine, State.modLine_eq, LineEngine.endTx_modChosen]
  rfl

/-- A REASSIGN that is exhausted goes into its probe (R99). -/
theorem State.endTx_attemptEnd_probe {s : State} {l : Line} {o : Order} (chosen : (s.line l).chosen? = some o)
    (last : o.lastAttempt = true) (kind : o.payload.kind = .reassign) :
    (s.attemptEnd l).modLine l LineEngine.endTx = s.setLine l
      { s.line l with
        tx := none
        counters := ((s.line l).bump .ordersExhausted).counters
        orders := concludedOrders (fun x => { x with attempts := 0, phase := .probe, deferred := false, progress := .waiting })
          (s.line l).orders } := by
  have probes : o.kind = .reassign := kind
  rw [State.attemptEnd, chosen]
  dsimp only
  rw [if_pos last, probes]
  dsimp only
  rw [State.modLine_modLine, State.bump_eq, State.modLine_setLine, LineEngine.endTx_modChosen]
  rfl

/-- Any other order that is exhausted is concluded (R97). -/
theorem State.attemptEnd_of_spent {s : State} {l : Line} {o : Order} (chosen : (s.line l).chosen? = some o)
    (last : o.lastAttempt = true) (kind : o.payload.kind ≠ .reassign) : s.attemptEnd l =
      (s.setLine l (((s.line l).bump .ordersExhausted).modChosen Order.spentOrder)).concludeOrder l .exhausted := by
  rw [State.attemptEnd, chosen]
  dsimp only
  rw [if_pos last]
  split
  · next probes => exact absurd probes kind
  · rw [State.bump_eq, State.modLine_setLine]

/-- The outcome of an order that is exhausted is handed over, with the note of its pair back at the first station (R97,
R148). -/
theorem State.endTx_attemptEnd_spent {s : State} {l : Line} {o : Order} {ref : Ref} (chosen : (s.line l).chosen? = some o)
    (last : o.lastAttempt = true) (kind : o.payload.kind ≠ .reassign) (record : o.ref = some ref) :
    (s.attemptEnd l).modLine l LineEngine.endTx = (s.setLine l (LineEngine.handed
      { s.line l with
        tx := none
        counters := ((s.line l).bump .ordersExhausted).counters
        orders := concludedOrders (fun x => { x with attempts := x.attempts + 1, progress := .concluding, onSecond := false })
          (s.line l).orders } (.outcome o.payload.kind ref .exhausted))).grant := by
  have spent : (((s.line l).bump .ordersExhausted).modChosen Order.spentOrder).chosen? = some o.spentOrder := by
    rw [LineEngine.chosen?_modChosen (f := Order.spentOrder) _ fun _ => rfl]
    exact congrArg (Option.map Order.spentOrder) chosen
  rw [State.attemptEnd_of_spent chosen last kind, State.endTx_concludeOrder (o := o.spentOrder) (ref := ref)
    (by rw [State.line_setLine_self]; exact spent) record, State.setLine_setLine, State.line_setLine_self]
  exact congrArg (fun orders => (s.setLine l (LineEngine.handed
    { s.line l with tx := none, counters := ((s.line l).bump .ordersExhausted).counters, orders := orders }
    (.outcome o.payload.kind ref .exhausted))).grant) (concludedOrders_map (g := Order.spentOrder) (fun _ => rfl) _)

theorem State.endTx_attemptEnd_terminal {s : State} {l : Line} {o : Order} (chosen : (s.line l).chosen? = some o)
    (last : o.lastAttempt = true) (kind : o.payload.kind ≠ .reassign) (terminal : o.ref = none) :
    (s.attemptEnd l).modLine l LineEngine.endTx = s.setLine l
      { s.line l with
        tx := none
        counters := ((s.line l).bump .ordersExhausted).counters
        orders := (s.line l).orders.filter fun x => !x.chosen } := by
  have spent : (((s.line l).bump .ordersExhausted).modChosen Order.spentOrder).chosen? = some o.spentOrder := by
    rw [LineEngine.chosen?_modChosen (f := Order.spentOrder) _ fun _ => rfl]
    exact congrArg (Option.map Order.spentOrder) chosen
  rw [State.attemptEnd_of_spent chosen last kind, State.endTx_concludeOrder_terminal (o := o.spentOrder)
    (by rw [State.line_setLine_self]; exact spent) terminal, State.setLine_setLine, State.line_setLine_self]
  exact congrArg (fun orders => s.setLine l
    { s.line l with tx := none, counters := ((s.line l).bump .ordersExhausted).counters, orders := orders })
    (filter_unchosen_map (g := Order.spentOrder) (fun _ => rfl) _)

theorem State.endUnanswered_of_order {s : State} {l : Line} {t : Tx} (work : t.work = .order) :
    s.endUnanswered l t = s.orderEnd l .noReply := by
  rw [State.endUnanswered, work]

theorem LineEngine.exhausts_of_chosen {e : LineEngine} {o : Order} (chosen : e.chosen? = some o)
    (stands : o.withdrawn = false) (phase : o.phase = .send) (later : o.firstOfPair = false) (last : o.lastAttempt = true) :
    e.exhausts = true := by
  rw [LineEngine.exhausts, chosen]
  simp [phase, stands, later, last]

/-- Settles O39: the silence is counted, and the order that meets it goes to its second station, is deferred, or is
exhausted. -/
theorem silentOrdersAreDeferredOrExhausted : Obligations.SilentOrdersAreDeferredOrExhausted := by
  intro s l t o c ⟨tx, work, chosen⟩ stands phase told silent spent
  have ended : (s.counted l ((s.line l).bump .silences).counters).noReplyEnd l t
      = ((s.counted l silent.counters).sendEnd l o .noReply).modLine l LineEngine.endTx := by
    rw [State.noReplyEnd_counted, State.endUnanswered_of_order work]
    exact State.orderEnd_of_send (by rw [State.line_counted]; exact chosen) stands phase .noReply
  have meets : exec c s = .next (((s.counted l silent.counters).sendEnd l o .noReply).modLine l LineEngine.endTx) := by
    rw [← ended]
    rcases told with ⟨rfl, window⟩ | ⟨rfl, waits⟩
    · exact exec_replyWindowTimeout_eq tx window
    · exact exec_holdOffTimeout_eq tx waits
  have chosen' : ((s.counted l silent.counters).line l).chosen? = some o := by rw [State.line_counted]; exact chosen
  refine ⟨fun pair note => ?_, fun second => ?_⟩
  · rw [meets, State.endTx_sendEnd_first (Order.firstOfPair_iff.mpr ⟨pair, note⟩), State.setLine_counted,
      State.line_counted]
    rfl
  have later : o.firstOfPair = false := Bool.eq_false_iff.mpr fun first => by
    obtain ⟨⟨a, b, pair⟩, note⟩ := Order.firstOfPair_iff.mp first
    rw [second a b pair] at note
    cases note
  rw [State.sendEnd_attempt later] at meets
  refine ⟨fun more => ?_, fun reached d named => ?_⟩
  · have more' : o.lastAttempt = false := Bool.eq_false_iff.mpr fun last => by
      have := Order.lastAttempt_iff.mp last
      omega
    rw [meets, State.endTx_attemptEnd_deferred chosen' more', State.setLine_counted, State.line_counted]
    rfl
  have last : o.lastAttempt = true := Order.lastAttempt_iff.mpr reached
  have exhausted : exec d s = .next (((s.counted l silent.counters).attemptEnd l).modLine l LineEngine.endTx) := by
    rcases named with rfl | rfl
    · exact meets
    · rw [exec_orderExhausted_eq tx work (LineEngine.exhausts_of_chosen chosen stands phase later last)
        (told.imp And.right And.right), ended, State.sendEnd_attempt later]
  refine ⟨fun kind => ?_, fun kind terminal => ?_, fun ref kind record => ?_⟩
  · rw [exhausted, State.endTx_attemptEnd_probe chosen' last kind, State.setLine_counted, State.line_counted]
    rfl
  · rw [exhausted, State.endTx_attemptEnd_terminal chosen' last kind terminal, State.setLine_counted, State.line_counted]
    rfl
  · rw [exhausted, State.endTx_attemptEnd_spent chosen' last kind record, State.setLine_counted, State.line_counted]
    rfl

end Sys2Proof.Machine
end

section
/-! The ends of the polls of a round and of resolution probes. -/

namespace Sys2Proof.Machine

theorem State.counted_self (s : State) (l : Line) : s.counted l (s.line l).counters = s := State.setLine_line ..

/-! ### Transactions that no reply ends (R73 to R75, R96) -/

/-- The events that end a transaction without a reply: a second HOLD, a check error of a repetition, and silence. Each is
counted, and after a HOLD as a hold-off failure too. -/
theorem exec_unanswered_eq {s : State} {l : Line} {t : Tx} (tx : (s.line l).tx = some t) {ends : LineEngine → State}
    (meets : ∀ e : LineEngine, (s.counted l e.counters).endUnanswered l t = ends e) :
    (t.phase = .window ∨ t.phase = .holdOff →
      (t.held = true →
        exec (.hold l (checkBytes [0x15])) s = .next (ends (t.unanswered ((s.line l).bump .holdOffs))))
      ∧ (t.repeated = true → exec (.checkError l) s = .next (ends (t.unanswered ((s.line l).bump .checkErrors)))))
    ∧ (t.phase = .window → exec (.replyWindowTimeout l) s = .next (ends (t.unanswered ((s.line l).bump .silences))))
    ∧ (t.phase = .holdOff → exec (.holdOffTimeout l) s = .next (ends (t.unanswered ((s.line l).bump .silences)))) := by
  have ended : ∀ c : Ctr, (s.counted l ((s.line l).bump c).counters).noReplyEnd l t
      = ends (t.unanswered ((s.line l).bump c)) := fun c => by
    rw [State.noReplyEnd_counted, meets]
    rfl
  refine ⟨fun awaits => ⟨fun again => ?_, fun again => ?_⟩, fun window => ?_, fun waits => ?_⟩
  · rw [exec_hold_eq tx awaits, ← ended, State.holdOn, State.bump_counted, if_pos again]
  · rw [exec_checkError_eq tx awaits, ← ended, State.checkErrorOn, State.repeatOrEnd, State.bump_counted, if_pos again]
  · rw [exec_replyWindowTimeout_eq tx window, ended]
  · rw [exec_holdOffTimeout_eq tx waits, ended]

/-! ### Polls of the round (R76, R96) -/

/-- The line engine after a poll of the round, with the reservations kept and its counters. -/
def LineEngine.polled (e : LineEngine) (kept : List Reservation) (counters : Vector Nat 32) : LineEngine :=
  { e with
    tx := none
    orders := e.orders.map fun o => { o with chosen := false }
    reservations := kept
    counters := counters }

theorem State.pollEnd_counted (s : State) (l : Line) (counters : Vector Nat 32) (ref : Ref) (keep : Bool)
    (claim : LineClaim) : (s.counted l counters).pollEnd l ref keep claim = (s.setLine l (LineEngine.handed
      ((s.line l).polled (if keep then (s.line l).reservations else (s.line l).reservations.erase (.poll ref)) counters)
      claim)).grant := by
  rw [State.pollEnd, State.handOver_handed, State.modLine_modLine, State.modLine_eq, State.setLine_setLine,
    State.line_setLine_self, State.line_counted, State.setLine_counted]
  cases keep <;> rfl

/-- The end of a poll at once, with nothing counted. -/
theorem State.pollEnd_eq (s : State) (l : Line) (ref : Ref) (keep : Bool) (claim : LineClaim) :
    s.pollEnd l ref keep claim = (s.setLine l (LineEngine.handed
      ((s.line l).polled (if keep then (s.line l).reservations else (s.line l).reservations.erase (.poll ref))
        (s.line l).counters) claim)).grant := by
  rw [← State.pollEnd_counted, State.counted_self]

theorem State.endUnanswered_of_poll {s : State} {l : Line} {t : Tx} {st : Station} {ref : Ref} {solicited : Bool}
    (work : t.work = .poll st ref solicited) : s.endUnanswered l t = s.pollEnd l ref (!solicited) (.miss st ref) := by
  rw [State.endUnanswered, work]

theorem LineEngine.polling_of_poll {e : LineEngine} {t : Tx} {st : Station} {ref : Ref} {solicited : Bool}
    (work : t.work = .poll st ref solicited) : e.polling t = true := by
  rw [LineEngine.polling, work]

/-- A reply to a poll of the round: a stranger, a presence, or a request (R76, R96, R123). -/
theorem State.pollReply_of_poll {s : State} {l : Line} {t : Tx} {st : Station} {ref : Ref} {solicited : Bool}
    (work : t.work = .poll st ref solicited) (check : Byte) (req : Option NodeRequest) : s.pollReply l t check req =
      if check ≠ t.idCheck then (s.bump l .strangers).pollEnd l ref (!solicited) (.miss st ref)
      else match req with
        | none => s.pollEnd l ref (!solicited) (.presence st ref)
        | some r =>
          if solicited then s.pollEnd l ref true (.request st ref r)
          else (s.bump l .unsolicitedRequests).pollEnd l ref true (.presence st ref) := by
  rewrite [State.pollReply, work]
  rfl

theorem exec_idle_eq {s : State} {l : Line} {t : Tx} {body : List Byte} {check : Byte} (tx : (s.line l).tx = some t)
    (awaits : t.phase = .window ∨ t.phase = .holdOff) (polls : (s.line l).polling t = true)
    (read : readIdle? body = some (.idle check)) : exec (.idle l body) s = .next (s.pollReply l t check none) := by
  show Host.Outcome.next (s.receive l (readIdle? body)) = _
  rw [read, State.receive_of_admitted (r := .idle check) tx awaits polls]
  rfl

theorem exec_request_eq {s : State} {l : Line} {t : Tx} {body : List Byte} {check : Byte} {req : NodeRequest}
    (tx : (s.line l).tx = some t) (awaits : t.phase = .window ∨ t.phase = .holdOff)
    (polls : (s.line l).polling t = true) (read : readRequest? body = some (.request check req)) :
    exec (.request l body) s = .next (s.pollReply l t check (some req)) := by
  show Host.Outcome.next (s.receive l (readRequest? body)) = _
  rw [read, State.receive_of_admitted (r := .request check req) tx awaits polls]
  rfl

/-! ### Resolution probes (R99, R142) -/

/-- What the end of a probe leaves: the order concluded with the results of the probes, or the probe of the old station
due. -/
def State.probeEnded (s : State) (l : Line) (o : Order) (ref : Ref) (found : Bool) (counters : Vector Nat 32) : State :=
  if o.targetMissed = true ∨ found = true then (s.setLine l
    (LineEngine.handed
      { s.line l with
        tx := none
        orders := concludedOrders (fun x => { x with progress := .concluding }) (s.line l).orders
        counters := counters }
      (.outcome .reassign ref (if o.targetMissed then .probed false found else .probed true false)))).grant
  else s.setLine l
    { s.line l with
      tx := none
      orders := concludedOrders (fun x => { x with progress := .waiting, targetMissed := true }) (s.line l).orders
      counters := counters }

theorem State.endTx_probeEnd {s : State} {l : Line} {o : Order} {ref : Ref} (chosen : (s.line l).chosen? = some o)
    (kind : o.payload.kind = .reassign) (record : o.ref = some ref) (counters : Vector Nat 32) (found : Bool) :
    ((s.counted l counters).probeEnd l o found).modLine l LineEngine.endTx = s.probeEnded l o ref found counters := by
  have chosen' : ((s.counted l counters).line l).chosen? = some o := by rw [State.line_counted]; exact chosen
  rw [State.probeEnd, State.probeEnded]
  by_cases missed : o.targetMissed = true
  · rw [if_pos missed, if_pos (.inl missed), if_pos missed, State.endTx_concludeOrder chosen' record, kind,
      State.setLine_counted, State.line_counted]
  · rw [if_neg missed]
    by_cases hit : found = true
    · rw [if_pos hit, if_pos (.inr hit), if_neg missed, State.endTx_concludeOrder chosen' record, kind,
        State.setLine_counted, State.line_counted]
    · rw [if_neg hit, if_neg (not_or.mpr ⟨missed, hit⟩), State.modLine_modLine, State.modLine_eq,
        LineEngine.endTx_modChosen, State.setLine_counted, State.line_counted]
      rfl

theorem State.orderEnd_probe {s : State} {l : Line} {o : Order} {ref : Ref} (chosen : (s.line l).chosen? = some o)
    (stands : o.withdrawn = false) (phase : o.phase = .probe) (kind : o.payload.kind = .reassign)
    (record : o.ref = some ref) (counters : Vector Nat 32) (how : OrderEnd) :
    (s.counted l counters).orderEnd l how = s.probeEnded l o ref (how == .found) counters := by
  rw [State.orderEnd_of_probe (by rw [State.line_counted]; exact chosen) stands phase,
    State.endTx_probeEnd chosen kind record]

/-- A reply to a probe finds the node where it carries the identity check of the record (R76, R99). -/
theorem State.pollReply_of_order {s : State} {l : Line} {t : Tx} (work : t.work = .order) (check : Byte)
    (req : Option NodeRequest) : s.pollReply l t check req =
      if check ≠ t.idCheck then (s.bump l .strangers).orderEnd l .stranger
      else if req.isSome then (s.bump l .unsolicitedRequests).orderEnd l .found
      else s.orderEnd l .found := by
  rw [State.pollReply, work]

/-- Settles O36: a poll ends as a presence, a request or a miss, a probe with its node found or not; the counters apart, all
ends of one kind are one. -/
theorem pollsEndByReplyOrSilence : Obligations.PollsEndByReplyOrSilence := by
  intro s l t unanswered silences
  refine ⟨fun st ref solicited ⟨tx, work⟩ => ?_, fun o ref serves phase kind record stands => ?_⟩
  · intro released ended
    have kept : (if (!solicited) = true then (s.line l).reservations else (s.line l).reservations.erase (.poll ref))
        = released := by cases solicited <;> rfl
    have polls : (s.line l).polling t = true := LineEngine.polling_of_poll work
    have misses : ∀ e : LineEngine, (s.counted l e.counters).pollEnd l ref (!solicited) (.miss st ref)
        = ended released (.miss st ref) e := fun e => by
      rw [State.pollEnd_counted, kept]
      rfl
    refine ⟨fun awaits => ⟨fun body check read => ?_, fun body check req read => ?_⟩,
      exec_unanswered_eq tx fun e => (State.endUnanswered_of_poll work).trans (misses e)⟩
    · rw [exec_idle_eq tx awaits polls read, State.pollReply_of_poll work]
      by_cases own : check = t.idCheck
      · rw [if_neg (not_not.mpr own), if_pos own, State.pollEnd_eq, kept]
        rfl
      · rw [if_pos own, if_neg own, State.bump_counted, misses]
    · rw [exec_request_eq tx awaits polls read, State.pollReply_of_poll work]
      by_cases own : check = t.idCheck
      · rw [if_neg (not_not.mpr own), if_neg (not_not.mpr own)]
        dsimp only
        cases solicited with
        | true => rw [if_pos rfl, if_pos rfl, State.pollEnd_eq]; rfl
        | false =>
          rw [if_neg Bool.false_ne_true, if_neg Bool.false_ne_true, State.bump_counted, State.pollEnd_counted]
          rfl
      · rw [if_pos own, if_pos own, State.bump_counted, misses]
  · intro ends
    obtain ⟨tx, work, chosen⟩ := serves
    have polls : (s.line l).polling t = true := by rw [LineEngine.polling_of_order ⟨tx, work, chosen⟩, phase]; rfl
    have probed : ∀ (how : OrderEnd) (e : LineEngine),
        (s.counted l e.counters).orderEnd l how = ends (how == .found) e := fun how e =>
      State.orderEnd_probe chosen stands phase kind record e.counters how
    have found : s.orderEnd l .found = ends true (s.line l) := by
      conv_lhs => rw [← s.counted_self l]
      exact probed .found (s.line l)
    refine ⟨fun awaits => ⟨fun body check read => ?_, fun body check req read => ?_⟩,
      exec_unanswered_eq tx fun e => (State.endUnanswered_of_order work).trans (probed .noReply e)⟩
    · rw [exec_idle_eq tx awaits polls read, State.pollReply_of_order work]
      by_cases own : check = t.idCheck
      · rw [if_neg (not_not.mpr own), if_pos own, if_neg (by simp), found]
      · rw [if_pos own, if_neg own, State.bump_counted, probed]
        rfl
    · rw [exec_request_eq tx awaits polls read, State.pollReply_of_order work]
      by_cases own : check = t.idCheck
      · rw [if_neg (not_not.mpr own), if_pos own, if_pos Option.isSome_some, State.bump_counted, probed]
        rfl
      · rw [if_pos own, if_neg own, State.bump_counted, probed]
        rfl

end Sys2Proof.Machine
end

section
/-! The ends of head frames, and the FLUSH transactions of a line start. -/

namespace Sys2Proof.Machine

/-! ### The end of a head frame (R73, R75, R102) -/

theorem State.frameSent_of_poll {s : State} {l : Line} {t : Tx} {st : Station} {ref : Ref} {solicited : Bool}
    (work : t.work = .poll st ref solicited) :
    s.frameSent l t = s.setLine l { s.line l with tx := some { t with phase := .window } } := by
  unfold State.frameSent
  split
  · next call => rw [work] at call; cases call
  · next flush => rw [work] at flush; cases flush
  · rfl
  · next order => rw [work] at order; cases order

theorem State.frameSent_of_call {s : State} {l : Line} {t : Tx} {p : CallPolicy} (work : t.work = .call p) :
    s.frameSent l t = s.setLine l
      { s.line l with
        callNumber := (s.line l).callNumber + 1
        tx := some { t with phase := .arbitration }
        counters := ((s.line l).bump .calls).counters } := by
  unfold State.frameSent
  split
  · exact s.bump_setLine l _ _
  · next flush => rw [work] at flush; cases flush
  · next poll => rw [work] at poll; cases poll
  · next order => rw [work] at order; cases order

/-- The frame of an order that admits a reply opens its window (R73). -/
theorem State.frameSent_of_order {s : State} {l : Line} {t : Tx} {o : Order} (work : t.work = .order)
    (chosen : (s.line l).chosen? = some o) (kind : o.payload.kind ≠ .refuse) :
    s.frameSent l t = s.setLine l { s.line l with tx := some { t with phase := .window } } := by
  unfold State.frameSent
  split
  · next call => rw [work] at call; cases call
  · next flush => rw [work] at flush; cases flush
  · next poll => rw [work] at poll; cases poll
  · rw [chosen]
    exact if_neg kind

/-- A REFUSE ends as SENT, and leaves the queue (R75, R97). -/
theorem State.orderEnd_sent {s : State} {l : Line} {o : Order} (chosen : (s.line l).chosen? = some o)
    (stands : o.withdrawn = false) (phase : o.phase = .send) : s.orderEnd l .sent
      = s.setLine l { s.line l with tx := none, orders := (s.line l).orders.filter fun x => !x.chosen } := by
  have sent : s.sendEnd l o .sent = s.modLine l LineEngine.removeChosen := rfl
  rw [State.orderEnd_of_send chosen stands phase, sent, State.modLine_modLine, State.modLine_eq,
    LineEngine.endTx_removeChosen]

/-! ### What a line engine raises (R84, R85, R93) -/

theorem LineEngine.raiseOwed_of_claim {e : LineEngine} {c : LineClaim} (claim : e.claim = some c) :
    e.raiseOwed = { e with claim := some c, waiting := e.waiting } := by
  have same : e.raiseOwed = e := by rw [LineEngine.raiseOwed, claim]
  rw [same, ← claim]

theorem LineEngine.raiseOwed_of_waiting {e : LineEngine} {c : LineClaim} (idle : e.claim = none)
    (waiting : e.waiting = some c) : e.raiseOwed = { e with claim := some c, waiting := none } := by
  rw [LineEngine.raiseOwed, idle, waiting]

theorem LineEngine.raiseOwed_of_due {e : LineEngine} (idle : e.claim = none) (free : e.waiting = none)
    (due : e.flushDue = true) (done : e.stage.flushRemains = false) :
    e.raiseOwed = { e with claim := some (if e.stopDue then .line else .flush), waiting := none } := by
  have owed : (e.flushDue && !e.stage.flushRemains) = true := by simp [due, done]
  rw [LineEngine.raiseOwed, idle, free]
  dsimp only
  by_cases stop : e.stopDue = true
  · rw [if_pos stop, if_pos stop]
  · rw [if_neg stop, if_neg stop, if_pos owed]

/-! ### The FLUSH transactions (R79, R80, R85, R93) -/

/-- The line engine after a FLUSH transaction, at the stage that follows. -/
def LineEngine.flushed (e : LineEngine) (stage : StartStage) : LineEngine :=
  { e with tx := none, orders := e.orders.map fun o => { o with chosen := false }, stage := stage }

/-- The first and the second FLUSH are followed by the next one. -/
theorem State.flushSent_of_more {s : State} {l : Line} {n : Nat} (stage : (s.line l).stage = .flushing n) (more : n < 2) :
    s.flushSent l = (s.setLine l ((s.line l).flushed (.flushing (n + 1)))).nextFlush l := by
  have below : n + 1 < 3 := by omega
  rw [State.flushSent, stage]
  exact if_pos below

/-- The third FLUSH ends the line's own steps (R80). -/
theorem State.flushSent_of_last {s : State} {l : Line} {n : Nat} (stage : (s.line l).stage = .flushing n) (last : 2 ≤ n) :
    s.flushSent l
      = ((s.setLine l ((s.line l).flushed .ready)).raiseOwed l).modLine l LineEngine.tryRunning := by
  have reached : ¬ n + 1 < 3 := by omega
  rw [State.flushSent, stage]
  exact if_neg reached

/-- A line that owes a flush claim does not become RUNNING (R80). -/
theorem LineEngine.tryRunning_of_flushDue {e : LineEngine} (due : e.flushDue = true) : e.tryRunning = e :=
  if_neg fun ⟨_, _, _, free⟩ => by rw [due] at free; cases free

/-- A change of a line engine that stands changes nothing after the arbiter's grant. -/
theorem State.modLine_of_stable {s : State} {l : Line} {f : LineEngine → LineEngine} (stable : f (s.line l) = s.line l) :
    s.modLine l f = s := by
  rw [State.modLine, stable, State.setLine_line]

/-- The line engine raises what it owes, and keeps its own steps done (R80, R84, R85, R93). -/
theorem State.flushSent_raises {s : State} {l : Line} {n : Nat} {claim waiting : Option LineClaim}
    (stage : (s.line l).stage = .flushing n) (last : 2 ≤ n) (due : (s.line l).flushDue = true)
    (raised : ((s.line l).flushed .ready).raiseOwed
      = { (s.line l).flushed .ready with claim := claim, waiting := waiting }) :
    s.flushSent l
      = (s.setLine l { (s.line l).flushed .ready with claim := claim, waiting := waiting }).grant := by
  rw [State.flushSent_of_last stage last, State.raiseOwed, State.modLine_setLine, raised]
  refine State.modLine_of_stable ?_
  rw [State.line_grant, State.line_setLine_self]
  exact LineEngine.tryRunning_of_flushDue due

theorem LineEngine.flushDue_of_due {e : LineEngine} (due : e.flushDue = true) : { e with flushDue := true } = e := by
  rw [← due]

/-- Settles O35, by the work whose frame ends. -/
theorem headFrameSentByKind : Obligations.HeadFrameSentByKind := by
  intro s l t tx sending
  have told := exec_headFrameSent_eq tx sending
  refine ⟨fun st ref b work => by rw [told, State.frameSent_of_poll work],
    fun p work => by rw [told, State.frameSent_of_call work],
    fun o ⟨_, work, chosen⟩ kind => by rw [told, State.frameSent_of_order work chosen kind],
    fun o ⟨_, work, chosen⟩ kind stands phase => ?_, fun n work stage due => ?_⟩
  · refine ⟨_, by rw [told, State.frameSent_of_refuse work chosen kind, State.orderEnd_sent chosen stands phase], ?_⟩
    rw [State.line_setLine_self]
    exact ⟨rfl, rfl, rfl, rfl, rfl, State.line_setLine_other ..⟩
  · intro ended waits
    rw [told, State.frameSent_of_flush work]
    refine ⟨fun more free => ?_, fun more waiting => ?_, fun last => ?_⟩
    · have free' : ((s.setLine l ((s.line l).flushed (.flushing (n + 1)))).line l).waiting = none := by
        rw [State.line_setLine_self]; exact free
      rw [State.flushSent_of_more stage more, State.nextFlush_of_free free', State.startTx_flush, State.line_setLine_self,
        State.setLine_setLine]
      refine congrArg (fun e => Host.Outcome.next (s.setLine l e)) ?_
      by_cases lead : (s.line l).leadDominant = true
      · exact (if_pos lead).trans (if_pos lead).symm
      · have due' := LineEngine.flushDue_of_due (e := { (s.line l).flushed (.flushing (n + 1)) with
          txSinceRound := true, tx := some (Tx.flushSends s.cfg.holdOff) }) due
        exact (if_neg lead).trans (due'.trans (if_neg lead).symm)
    · have waiting' : ((s.setLine l ((s.line l).flushed (.flushing (n + 1)))).line l).waiting ≠ none := by
        rw [State.line_setLine_self]; exact waiting
      rw [State.flushSent_of_more stage more, State.nextFlush_of_waiting waiting']
      rfl
    · intro raises
      refine ⟨fun c claim => ?_, fun c idle waiting => ?_, fun idle free => ?_⟩
      · exact congrArg Host.Outcome.next (State.flushSent_raises stage last due (LineEngine.raiseOwed_of_claim claim))
      · exact congrArg Host.Outcome.next
          (State.flushSent_raises stage last due (LineEngine.raiseOwed_of_waiting idle waiting))
      · exact congrArg Host.Outcome.next
          (State.flushSent_raises stage last due (LineEngine.raiseOwed_of_due idle free due rfl))

end Sys2Proof.Machine
end

section
/-! The host commands that start, stop, pause and resume a line. -/

namespace Sys2Proof.Machine

/-! ### What the commands refuse (R78, R180) -/

theorem State.lineBusy_iff (s : State) (l : Line) : s.lineBusy l = true ↔
    s.host.begunStopDue l = true ∨ (s.line l).stopDue = true ∨ (s.line l).flushDue = true := by
  simp [State.lineBusy, LineEngine.owes]

theorem State.lineBusy_of_free {s : State} {l : Line} (begun : s.host.begunStopDue l = false)
    (stop : (s.line l).stopDue = false) (flush : (s.line l).flushDue = false) : ¬ s.lineBusy l = true := by
  simp [s.lineBusy_iff, begun, stop, flush]

theorem State.lineStopBusy_iff (s : State) (l : Line) : s.lineStopBusy l = true ↔
    s.host.begunStopDue l = true ∨ (s.line l).stopDue = true
      ∨ (s.line l).flushDue = true ∧ (s.line l).state ≠ .starting := by
  simp [State.lineStopBusy, LineEngine.stopBusy]

/-! ### LINE START (R79, R180) -/

theorem State.lineStartCommand_of_line {s : State} {lb o : Byte} {l : Line} (line : lineOf? lb = some l)
    (option : o = 0 ∨ o = 1) : s.lineStartCommand lb o =
      if s.lineBusy l then (s, .bare .lineBusy)
      else if (s.line l).state = .starting then (s, .bare .state)
      else ((s.modLine l (LineEngine.start (o == 1) (s.arb.grantCfg.rates.get l))).raiseOwed l, .bare .ok) := by
  have valid : ¬ (o ≠ 0 ∧ o ≠ 1) := fun ⟨keep, flush⟩ => option.elim keep flush
  rw [State.lineStartCommand, State.withLine_of_line line, if_neg valid]

/-- A change of a line engine, and the raising of what it then owes. -/
theorem State.line_raisedOwed (s : State) (l : Line) (f : LineEngine → LineEngine) :
    ∃ c w, ((s.modLine l f).raiseOwed l).line l = { f (s.line l) with claim := c, waiting := w } := by
  obtain ⟨c, w, raised⟩ := (f (s.line l)).raiseOwed_eq
  refine ⟨c, w, ?_⟩
  rw [State.line_raiseOwed_self, State.line_modLine_self, raised]

/-- To take the mark of the transaction off twice is to take it off once. -/
theorem unchosen_unchosen (orders : List Order) :
    ((orders.map fun o : Order => { o with chosen := false }).map fun o => { o with chosen := false })
      = orders.map fun o => { o with chosen := false } :=
  unchosen_of_none fun o mem => by
    obtain ⟨x, -, rfl⟩ := List.mem_map.mp mem
    rfl

theorem LineEngine.start_of_up {e : LineEngine} (up : e.state = .running ∨ e.state = .paused) (flush : Bool)
    (rate : Rate) : e.start flush rate =
      { e.stop with state := .starting, rate := rate, stage := .idleCheck, startFlush := flush } := by
  rw [LineEngine.start, if_pos (LineState.isUp_iff.mpr up)]

theorem LineEngine.start_of_down {e : LineEngine} (down : ¬ (e.state = .running ∨ e.state = .paused)) (flush : Bool)
    (rate : Rate) : e.start flush rate =
      { e with state := .starting, rate := rate, stage := .idleCheck, startFlush := flush } := by
  rw [LineEngine.start, if_neg (mt LineState.isUp_iff.mp down)]

/-- What LINE START makes of a line engine without stop due, and what it keeps (R79). -/
theorem LineEngine.start_spec {e : LineEngine} (stop : e.stopDue = false) (flush : Bool) (rate : Rate) :
    let d := e.start flush rate
    d.state = .starting ∧ d.stage = .idleCheck ∧ d.rate = rate ∧ d.startFlush = flush
      ∧ d.stopDue = (e.state == .running || e.state == .paused)
      ∧ (e.state = .running ∨ e.state = .paused → d.tx = none)
      ∧ d.reservations = e.reservations
      ∧ d.orders.map (fun x => { x with chosen := false }) = e.orders.map (fun x => { x with chosen := false })
      ∧ d.counters = e.counters ∧ d.position = e.position := by
  dsimp only
  by_cases up : e.state = .running ∨ e.state = .paused
  · have due : (e.stopDue || e.state != .fault) = (e.state == .running || e.state == .paused) := by
      rcases up with state | state <;> rw [stop, state] <;> rfl
    rw [LineEngine.start_of_up up]
    exact ⟨rfl, rfl, rfl, rfl, due, fun _ => rfl, rfl, unchosen_unchosen e.orders, rfl, rfl⟩
  · have due : e.stopDue = (e.state == .running || e.state == .paused) := by
      rw [stop]
      simpa using up
    rw [LineEngine.start_of_down up]
    exact ⟨rfl, rfl, rfl, rfl, due, fun h => absurd h up, rfl, rfl, rfl, rfl⟩

/-- Settles O23: owed work and a line start in progress refuse the command; otherwise the line engine starts, and raises the
line claim of its stop. -/
theorem lineStartByState : Obligations.LineStartByState := by
  intro s i f lb o l runs line option
  have work := State.lineStartCommand_of_line (s := s) line option
  refine ⟨fun owes => ?_, fun begun stop flush => ?_⟩
  · rw [if_pos ((s.lineBusy_iff l).mpr owes)] at work
    exact runs.exec_reply rfl work
  rw [if_neg (State.lineBusy_of_free begun stop flush)] at work
  refine ⟨fun starting => ?_, fun other => ?_⟩
  · rw [if_pos starting] at work
    exact runs.exec_reply rfl work
  · rw [if_neg other] at work
    refine ⟨_, runs.exec_work rfl work (congrArg HostPort.slots (State.host_raiseOwed ..)), State.hostSlot_answered_self ..,
      ?_⟩
    obtain ⟨c, w, raised⟩ := s.line_raisedOwed l (LineEngine.start (o == 1) (s.arb.grantCfg.rates.get l))
    obtain ⟨state, stage, rate, startFlush, due, idle, reservations, orders, counters, position⟩ :=
      LineEngine.start_spec stop (o == 1) (s.arb.grantCfg.rates.get l)
    simp only [State.line_answered, State.dir_answered, State.cfg_answered, State.clock_answered, State.dir_raiseOwed,
      State.cfg_raiseOwed, State.clock_raiseOwed, State.line_raiseOwed_other]
    rw [raised]
    exact ⟨state, stage, rate, startFlush, due, idle, reservations, orders, counters, position,
      State.line_setLine_other .., rfl, rfl, rfl⟩

/-! ### LINE STOP, LINE PAUSE and LINE RESUME (R81, R82, R180) -/

theorem State.lineStopCommand_of_line {s : State} {lb : Byte} {l : Line} (line : lineOf? lb = some l) :
    s.lineStopCommand lb = if s.lineStopBusy l then (s, .bare .lineBusy)
      else if (s.line l).state = .off then (s, .bare .state)
      else ((s.modLine l LineEngine.stop).raiseOwed l, .bare .ok) := State.withLine_of_line line _

theorem State.linePauseCommand_of_line {s : State} {lb : Byte} {l : Line} (line : lineOf? lb = some l) :
    s.linePauseCommand lb = if s.lineBusy l then (s, .bare .lineBusy)
      else if (s.line l).state ≠ .running then (s, .bare .state)
      else (s.setLine l { s.line l with state := .paused }, .bare .ok) := State.withLine_of_line line _

theorem State.lineResumeCommand_of_line {s : State} {lb : Byte} {l : Line} (line : lineOf? lb = some l) :
    s.lineResumeCommand lb = if s.lineBusy l then (s, .bare .lineBusy)
      else if (s.line l).state ≠ .paused then (s, .bare .state)
      else (s.setLine l ((s.line l).resume s.cfg.holdOff), .bare .ok) := State.withLine_of_line line _

/-- The line engine of a line that resumes, but for its transaction. -/
def LineEngine.resumed (e : LineEngine) : LineEngine := { e with state := .running }

/-- A line that resumes gives its order or its poll back to the choice. -/
def LineEngine.givenBack (e : LineEngine) (reservations : List Reservation) : LineEngine :=
  { e.resumed with
    tx := none
    orders := e.orders.map fun o => { o with chosen := false }
    reservations := reservations }

/-- A transaction whose first frame does not wait goes on (R81). -/
theorem LineEngine.resume_of_begun {e : LineEngine} (begun : ∀ t : Tx, e.tx = some t → t.phase ≠ .check ∨ t.repeated = true)
    (holdOff : Nat) : e.resume holdOff = e.resumed := by
  unfold LineEngine.resume
  split
  · rfl
  · next t tx =>
    refine if_neg fun ⟨check, first⟩ => ?_
    rcases begun t tx with other | again
    · exact other check
    · rw [first] at again; cases again

/-- The first frame that waits: the check of a CALL is made again, a poll or an order goes back to the choice (log 11). -/
theorem LineEngine.resume_of_waiting {e : LineEngine} {t : Tx} (tx : e.tx = some t) (check : t.phase = .check)
    (first : t.repeated = false) (holdOff : Nat) : e.resume holdOff = match t.work with
      | .call _ => e.resumed.checkLead holdOff t
      | .poll _ ref solicited => (if solicited then e.resumed.release (.poll ref) else e.resumed).endTx
      | _ => e.resumed.endTx := by
  have waits : t.phase = .check ∧ t.repeated = false := ⟨check, first⟩
  unfold LineEngine.resume
  split
  · next idle => rw [tx] at idle; cases idle
  · next t' tx' =>
    cases tx.symm.trans tx'
    exact if_pos waits

theorem Tx.check_of_check {t : Tx} (check : t.phase = .check) : { t with phase := .check } = t := by
  rw [← check]

/-- The first frame of a CALL carries the call number and the exclusion list (R102). -/
theorem LineEngine.beginFrame_of_call {e : LineEngine} {t : Tx} {p : CallPolicy} (tx : e.tx = some t)
    (first : t.repeated = false) (work : t.work = .call p) (holdOff : Nat) : e.beginFrame holdOff =
      { e with
        tx := some { t with phase := .sending, frame := callFrame e.callNumber e.exclusions, holdOffLimit := holdOff }
        txSinceRound := true } := by
  have again : ¬ t.repeated = true := by simp [first]
  unfold LineEngine.beginFrame
  split
  · next idle => rw [tx] at idle; cases idle
  · next t' tx' =>
    cases tx.symm.trans tx'
    rw [if_neg again]
    dsimp only
    split
    · next order => rw [work] at order; cases order
    · next poll => rw [work] at poll; cases poll
    · rfl
    · next flush => rw [work] at flush; cases flush

theorem LineEngine.resume_of_call {e : LineEngine} {t : Tx} {p : CallPolicy} (tx : e.tx = some t)
    (check : t.phase = .check) (first : t.repeated = false) (work : t.work = .call p) (holdOff : Nat) :
    e.resume holdOff = if e.leadDominant then e.resumed else
      { e.resumed with
        txSinceRound := true
        tx := some { t with
          phase := .sending, frame := callFrame e.callNumber e.exclusions, holdOffLimit := holdOff } } := by
  have checked : e.resume holdOff = e.resumed.checkLead holdOff t := by
    rw [LineEngine.resume_of_waiting tx check first, work]
  have waits : { e.resumed with tx := some { t with phase := .check } } = e.resumed := by
    rw [Tx.check_of_check check, ← tx]
    rfl
  rw [checked]
  by_cases lead : e.leadDominant = true
  · rw [if_pos lead, LineEngine.checkLead_of_dominant (e := e.resumed) lead, waits]
  · rw [if_neg lead, LineEngine.checkLead_of_recessive (e := e.resumed) (Bool.eq_false_iff.mpr lead),
      LineEngine.beginFrame_of_call (t := { t with phase := .check }) rfl first work]
    rfl

theorem LineEngine.resume_of_poll {e : LineEngine} {t : Tx} {st : Station} {ref : Ref} {solicited : Bool}
    (tx : e.tx = some t) (check : t.phase = .check) (first : t.repeated = false)
    (work : t.work = .poll st ref solicited) (holdOff : Nat) : e.resume holdOff =
      e.givenBack (if solicited then e.reservations.erase (.poll ref) else e.reservations) := by
  rw [LineEngine.resume_of_waiting tx check first, work]
  cases solicited <;> rfl

theorem LineEngine.resume_of_order {e : LineEngine} {t : Tx} (tx : e.tx = some t) (check : t.phase = .check)
    (first : t.repeated = false) (work : t.work = .order) (holdOff : Nat) :
    e.resume holdOff = e.givenBack e.reservations := by
  rewrite [LineEngine.resume_of_waiting tx check first, work]
  rfl

/-- What LINE STOP makes of a line engine without stop due, and what it keeps (R82). -/
theorem LineEngine.stop_spec {e : LineEngine} (stop : e.stopDue = false) :
    e.stop.state = .off ∧ e.stop.stage = .none ∧ e.stop.tx = none ∧ e.stop.stopDue = (e.state != .fault)
      ∧ e.stop.flushDue = e.flushDue ∧ e.stop.orders.length = e.orders.length ∧ e.stop.reservations = e.reservations
      ∧ e.stop.exclusions = e.exclusions ∧ e.stop.position = e.position ∧ e.stop.counters = e.counters := by
  have due : (e.stopDue || e.state != .fault) = (e.state != .fault) := by rw [stop, Bool.false_or]
  exact ⟨rfl, rfl, rfl, due, rfl, List.length_map .., rfl, rfl, rfl, rfl⟩

/-- Settles O24: what each command refuses, and what it makes of the line engine where it is taken. -/
theorem stopPauseAndResumeByState : Obligations.StopPauseAndResumeByState := by
  intro s i f lb l line
  have stops := State.lineStopCommand_of_line (s := s) line
  have pauses := State.linePauseCommand_of_line (s := s) line
  have resumes := State.lineResumeCommand_of_line (s := s) line
  refine ⟨fun owes => ?_, fun begun stop => ?_⟩
  · have busy := (s.lineBusy_iff l).mpr owes
    rw [if_pos busy] at pauses resumes
    refine ⟨fun runs refused => ?_, fun runs => runs.exec_reply rfl pauses, fun runs => runs.exec_reply rfl resumes⟩
    have stopBusy : s.lineStopBusy l = true := (s.lineStopBusy_iff l).mpr (by
      rcases owes with begun | stop | flush
      · exact .inl begun
      · exact .inr (.inl stop)
      · exact refused.imp_right (.imp_right fun other => ⟨flush, other⟩))
    rw [if_pos stopBusy] at stops
    exact runs.exec_reply rfl stops
  · intro resumed released back
    refine ⟨fun runs taken => ?_, fun runs flush => ?_, fun runs flush => ?_⟩
    · have free : ¬ s.lineStopBusy l = true := by
        rw [s.lineStopBusy_iff, begun, stop]
        rintro (wrong | wrong | ⟨flush, other⟩)
        · cases wrong
        · cases wrong
        · rcases taken with clear | starting
          · rw [clear] at flush; cases flush
          · exact other starting
      rw [if_neg free] at stops
      refine ⟨fun off => ?_, fun other => ?_⟩
      · rw [if_pos off] at stops
        exact runs.exec_reply rfl stops
      · rw [if_neg other] at stops
        refine ⟨_, runs.exec_work rfl stops (congrArg HostPort.slots (State.host_raiseOwed ..)),
          State.hostSlot_answered_self .., ?_⟩
        obtain ⟨c, w, raised⟩ := s.line_raisedOwed l LineEngine.stop
        obtain ⟨state, stage, idle, due, flushDue, orders, reservations, exclusions, position, counters⟩ :=
          LineEngine.stop_spec stop
        simp only [State.line_answered, State.dir_answered, State.cfg_answered, State.clock_answered,
          State.dir_raiseOwed, State.cfg_raiseOwed, State.clock_raiseOwed, State.line_raiseOwed_other]
        rw [raised]
        exact ⟨state, stage, idle, due, flushDue, orders, reservations, exclusions, position, counters,
          State.line_setLine_other .., rfl, rfl, rfl⟩
    · rw [if_neg (State.lineBusy_of_free begun stop flush)] at pauses
      by_cases running : (s.line l).state = .running
      · rw [if_neg (not_not.mpr running)] at pauses
        rw [if_pos running]
        exact runs.exec_work rfl pauses rfl
      · rw [if_pos running] at pauses
        rw [if_neg running]
        exact runs.exec_reply rfl pauses
    · rw [if_neg (State.lineBusy_of_free begun stop flush)] at resumes
      refine ⟨fun other => ?_, fun paused => ?_⟩
      · rw [if_pos other] at resumes
        exact runs.exec_reply rfl resumes
      rw [if_neg (not_not.mpr paused)] at resumes
      have done : ∀ e : LineEngine, (s.line l).resume s.cfg.holdOff = e → back e := fun e same =>
        same ▸ runs.exec_work rfl resumes rfl
      refine ⟨fun begun' => done _ (LineEngine.resume_of_begun begun' _), fun t tx check first =>
        ⟨fun p work => done _ (LineEngine.resume_of_call tx check first work _), fun st ref solicited work => ?_,
          fun work => done _ (LineEngine.resume_of_order tx check first work _)⟩⟩
      refine done _ ((LineEngine.resume_of_poll tx check first work _).trans ?_)
      cases solicited <;> rfl

end Sys2Proof.Machine
end

section
/-! The choice of the next transaction: the orders that can be taken, the station of the round, and how the choice goes
on. -/

namespace Sys2Proof.Machine

/-! ### Who chooses (R92, R93) -/

theorem LineEngine.mayChoose_iff {e : LineEngine} : e.mayChoose = true ↔ e.Chooses := by
  simp [LineEngine.mayChoose, LineEngine.Chooses, and_assoc]

theorem exec_nextTransaction_of_chooses {s : State} {l : Line} (chooses : (s.line l).Chooses) :
    exec (.nextTransaction l) s = .next (State.chooseTx l 2 s) :=
  congrArg Host.Outcome.next (if_pos (LineEngine.mayChoose_iff.mpr chooses))

theorem exec_nextTransaction_of_not {s : State} {l : Line} (busy : ¬ (s.line l).Chooses) :
    exec (.nextTransaction l) s = .next s :=
  congrArg Host.Outcome.next (if_neg (mt LineEngine.mayChoose_iff.mp busy))

/-! ### The order that is taken (R92) -/

theorem Order.sendable_iff {o : Order} : o.sendable = true ↔ o.progress = .waiting ∧ o.deferred = false := by
  simp [Order.sendable]

theorem noneSendable_iff {orders : List Order} : NoneSendable orders ↔ ∀ o ∈ orders, ¬ o.sendable = true := by
  refine forall₂_congr fun o _ => ?_
  rw [Order.sendable_iff, not_and_or, ne_eq, Bool.not_eq_false]

theorem find?_of_noneSendable {orders : List Order} (passed : NoneSendable orders) : orders.find? Order.sendable = none :=
  List.find?_eq_none.mpr (noneSendable_iff.mp passed)

/-- The first order of a queue that can be taken, where no order is in transaction. -/
structure LineEngine.First (e : LineEngine) (pre : List Order) (o : Order) (rest : List Order) : Prop where
  orders : e.orders = pre ++ o :: rest
  passed : NoneSendable pre
  waits : o.progress = .waiting
  ready : o.deferred = false
  free : ∀ x ∈ e.orders, x.chosen = false

theorem LineEngine.First.sendable {e : LineEngine} {pre rest : List Order} {o : Order} (first : e.First pre o rest) :
    o.sendable = true := Order.sendable_iff.mpr ⟨first.waits, first.ready⟩

theorem LineEngine.First.find {e : LineEngine} {pre rest : List Order} {o : Order} (first : e.First pre o rest) :
    e.orders.find? Order.sendable = some o := by
  rw [first.orders, List.find?_append, find?_of_noneSendable first.passed, Option.none_or,
    List.find?_cons_of_pos first.sendable]

theorem LineEngine.first_of_find {e : LineEngine} {o : Order} (free : ∀ x ∈ e.orders, x.chosen = false)
    (found : e.orders.find? Order.sendable = some o) : ∃ pre rest, e.First pre o rest := by
  obtain ⟨sendable, pre, rest, orders, passed⟩ := List.find?_eq_some_iff_append.mp found
  obtain ⟨waits, ready⟩ := Order.sendable_iff.mp sendable
  exact ⟨pre, rest, orders, noneSendable_iff.mpr fun x mem => by simpa using passed x mem, waits, ready, free⟩

theorem LineEngine.First.pre_free {e : LineEngine} {pre rest : List Order} {o : Order} (first : e.First pre o rest) :
    ∀ x ∈ pre, x.chosen = false := fun x mem => first.free x (first.orders ▸ List.mem_append_left _ mem)

theorem LineEngine.First.rest_free {e : LineEngine} {pre rest : List Order} {o : Order} (first : e.First pre o rest) :
    ∀ x ∈ rest, x.chosen = false := fun x mem =>
  first.free x (first.orders ▸ List.mem_append_right _ (List.mem_cons_of_mem _ mem))

theorem LineEngine.First.own_free {e : LineEngine} {pre rest : List Order} {o : Order} (first : e.First pre o rest) :
    o.chosen = false := first.free o (first.orders ▸ List.mem_append_right _ List.mem_cons_self)

/-- The order taken, with the mark of the transaction. -/
def Order.taken (o : Order) : Order := { o with chosen := true }

theorem updateFirst_append {p : Order → Bool} {f : Order → Order} {pre : List Order}
    (passed : ∀ x ∈ pre, ¬ p x = true) {o : Order} (holds : p o = true) (rest : List Order) :
    updateFirst p f (pre ++ o :: rest) = pre ++ f o :: rest := by
  induction pre with
  | nil => exact if_pos holds
  | cons x xs ih =>
    have later := ih fun y mem => passed y (List.mem_cons_of_mem _ mem)
    exact (if_neg (passed x List.mem_cons_self)).trans (congrArg (x :: ·) later)

theorem LineEngine.First.choose {e : LineEngine} {pre rest : List Order} {o : Order} (first : e.First pre o rest) :
    e.choose = { e with orders := pre ++ o.taken :: rest } := by
  rw [LineEngine.choose, first.orders, updateFirst_append (noneSendable_iff.mp first.passed) first.sendable]
  rfl

/-- A change of the order in transaction, where it is the only one. -/
theorem map_chosen_append {f : Order → Order} {pre rest : List Order} {o : Order} (pre_free : ∀ x ∈ pre, x.chosen = false)
    (rest_free : ∀ x ∈ rest, x.chosen = false) :
    ((pre ++ o.taken :: rest).map fun x => if x.chosen then f x else x) = pre ++ f o.taken :: rest := by
  have same : ∀ orders : List Order, (∀ x ∈ orders, x.chosen = false) →
      (orders.map fun x => if x.chosen then f x else x) = orders := fun orders free =>
    (List.map_congr_left fun x mem => if_neg (by simp [free x mem])).trans (List.map_id orders)
  rw [List.map_append, List.map_cons, same pre pre_free, same rest rest_free]
  rfl

theorem filter_chosen_append {pre rest : List Order} {o : Order} (pre_free : ∀ x ∈ pre, x.chosen = false)
    (rest_free : ∀ x ∈ rest, x.chosen = false) :
    (pre ++ o.taken :: rest).filter (fun x => !x.chosen) = pre ++ rest := by
  have same : ∀ orders : List Order, (∀ x ∈ orders, x.chosen = false) →
      orders.filter (fun x => !x.chosen) = orders := fun orders free =>
    List.filter_eq_self.mpr fun x mem => by simp [free x mem]
  rw [List.filter_append, List.filter_cons_of_neg (by simp [Order.taken]), same pre pre_free, same rest rest_free]

theorem find?_chosen_append {pre : List Order} {o : Order} (pre_free : ∀ x ∈ pre, x.chosen = false)
    (rest : List Order) : (pre ++ o.taken :: rest).find? (fun x => x.chosen) = some o.taken := by
  have none : pre.find? (fun x => x.chosen) = none := List.find?_eq_none.mpr fun x mem => by simp [pre_free x mem]
  rw [List.find?_append, none, Option.none_or]
  rfl

/-! ### The line engine while the choice is made -/

/-- A line engine with other orders and counters: what the choice makes of it before a transaction begins. -/
def LineEngine.queued (e : LineEngine) (orders : List Order) (counters : Vector Nat 32) : LineEngine :=
  { e with orders := orders, counters := counters }

theorem LineEngine.First.modChosen {e : LineEngine} {pre rest : List Order} {o : Order} (first : e.First pre o rest)
    (counters : Vector Nat 32) (f : Order → Order) : (e.queued (pre ++ o.taken :: rest) counters).modChosen f
      = e.queued (pre ++ f o.taken :: rest) counters :=
  congrArg (e.queued · counters) (map_chosen_append first.pre_free first.rest_free)

theorem LineEngine.First.removeChosen {e : LineEngine} {pre rest : List Order} {o : Order} (first : e.First pre o rest)
    (counters : Vector Nat 32) : (e.queued (pre ++ o.taken :: rest) counters).removeChosen
      = e.queued (pre ++ rest) counters :=
  congrArg (e.queued · counters) (filter_chosen_append first.pre_free first.rest_free)

theorem LineEngine.First.chosen? {e : LineEngine} {pre rest : List Order} {o : Order} (first : e.First pre o rest)
    (counters : Vector Nat 32) : (e.queued (pre ++ o.taken :: rest) counters).chosen? = some o.taken :=
  find?_chosen_append first.pre_free rest

/-- The order taken is concluded, and its outcome handed over (R93, R97). -/
theorem State.concludeOrder_taken {s : State} {l : Line} {pre rest : List Order} {o : Order} {ref : Ref}
    (first : (s.line l).First pre o rest) (record : o.ref = some ref) (counters : Vector Nat 32) (result : OrderResult) :
    (s.setLine l ((s.line l).queued (pre ++ o.taken :: rest) counters)).concludeOrder l result
      = (s.setLine l (LineEngine.handed
          ((s.line l).queued (pre ++ { o with progress := .concluding } :: rest) counters)
          (.outcome o.payload.kind ref result))).grant := by
  have unmarked : ({ o.taken with progress := .concluding, chosen := false } : Order) = { o with progress := .concluding } := by
    rw [← first.own_free]
    rfl
  have record' : o.taken.ref = some ref := record
  rw [State.concludeOrder, State.line_setLine_self, first.chosen?]
  dsimp only
  rw [record']
  dsimp only
  rw [State.modLine_setLine, first.modChosen, unmarked, State.handOver_handed, State.line_setLine_self,
    State.setLine_setLine]
  rfl

theorem State.concludeOrder_taken_terminal {s : State} {l : Line} {pre rest : List Order} {o : Order}
    (first : (s.line l).First pre o rest) (terminal : o.ref = none) (counters : Vector Nat 32) (result : OrderResult) :
    (s.setLine l ((s.line l).queued (pre ++ o.taken :: rest) counters)).concludeOrder l result
      = s.setLine l ((s.line l).queued (pre ++ rest) counters) := by
  have terminal' : o.taken.ref = none := terminal
  rw [State.concludeOrder, State.line_setLine_self, first.chosen?]
  dsimp only
  rw [terminal']
  dsimp only
  rw [State.modLine_setLine, first.removeChosen]

/-! ### The choice of an order (R92, R132, R148) -/

theorem State.chooseOrder_of_waiting {s : State} {l : Line} (waits : (s.line l).waiting.isSome = true) (n : Nat) :
    State.chooseOrder l n s = (s, true) := by
  cases n with
  | zero => rw [State.chooseOrder, waits]
  | succ n => rw [State.chooseOrder, if_pos waits]

theorem State.chooseOrder_of_none {s : State} {l : Line} (free : (s.line l).waiting = none)
    (none : (s.line l).orders.find? Order.sendable = none) (n : Nat) : State.chooseOrder l (n + 1) s = (s, false) := by
  rw [State.chooseOrder, if_neg (by simp [free]), none]

/-- The choice at an order that it takes, by what it does with it. -/
theorem State.chooseOrder_of_first {s : State} {l : Line} {pre rest : List Order} {o : Order}
    (free : (s.line l).waiting = none) (first : (s.line l).First pre o rest) (n : Nat) :
    State.chooseOrder l (n + 1) s =
      (fun u : State => match s.examine l o with
        | .send => (u.startTx l .order (s.orderCheck o), true)
        | .dropGone => State.chooseOrder l n ((u.bump l .staleAnswers).modLine l LineEngine.removeChosen)
        | .dropCurrent => State.chooseOrder l n ((u.bump l .staleAnswers).concludeOrder l .dropped)
        | .skip => State.chooseOrder l n (u.attemptEnd l))
      (s.setLine l ((s.line l).queued (pre ++ o.taken :: rest) (s.line l).counters)) := by
  have taken : s.modLine l LineEngine.choose
      = s.setLine l ((s.line l).queued (pre ++ o.taken :: rest) (s.line l).counters) := by
    rw [State.modLine_eq, first.choose]
    rfl
  rewrite [State.chooseOrder, if_neg (by simp [free]), first.find, ← taken]
  rfl

theorem State.chooseOrder_send {s : State} {l : Line} {pre rest : List Order} {o : Order}
    (free : (s.line l).waiting = none) (first : (s.line l).First pre o rest) (sends : s.examine l o = .send) (n : Nat) :
    State.chooseOrder l (n + 1) s = ((s.setLine l
      ((s.line l).queued (pre ++ o.taken :: rest) (s.line l).counters)).startTx l .order (s.orderCheck o), true) := by
  rw [State.chooseOrder_of_first free first, sends]

/-- An ANSWER whose record is gone leaves the queue, and is counted (R132). -/
theorem State.chooseOrder_dropGone {s : State} {l : Line} {pre rest : List Order} {o : Order}
    (free : (s.line l).waiting = none) (first : (s.line l).First pre o rest) (drops : s.examine l o = .dropGone) (n : Nat) :
    State.chooseOrder l (n + 1) s = State.chooseOrder l n (s.setLine l
      ((s.line l).queued (pre ++ rest) ((s.line l).bump .staleAnswers).counters)) := by
  rw [State.chooseOrder_of_first free first, drops]
  dsimp only
  rw [State.bump_setLine, State.modLine_setLine]
  exact congrArg (fun e => State.chooseOrder l n (s.setLine l e)) (first.removeChosen _)

/-- An ANSWER whose record holds the station no longer is dropped, and its outcome handed over (R132). -/
theorem State.chooseOrder_dropCurrent {s : State} {l : Line} {pre rest : List Order} {o : Order} {ref : Ref}
    (free : (s.line l).waiting = none) (first : (s.line l).First pre o rest) (drops : s.examine l o = .dropCurrent)
    (record : o.ref = some ref) (n : Nat) :
    State.chooseOrder l (n + 1) s = State.chooseOrder l n (s.setLine l (LineEngine.handed
      ((s.line l).queued (pre ++ { o with progress := .concluding } :: rest) ((s.line l).bump .staleAnswers).counters)
      (.outcome o.payload.kind ref .dropped))).grant := by
  rw [State.chooseOrder_of_first free first, drops]
  dsimp only
  rw [State.bump_setLine]
  exact congrArg (State.chooseOrder l n) (State.concludeOrder_taken first record _ _)

/-- The order after an attempt that passes a station over. -/
def Order.passedOver (o : Order) : Order := { o with attempts := o.attempts + 1, deferred := true, onSecond := false }

theorem State.chooseOrder_skip {s : State} {l : Line} {pre rest : List Order} {o : Order}
    (free : (s.line l).waiting = none) (first : (s.line l).First pre o rest) (skips : s.examine l o = .skip) (n : Nat) :
    State.chooseOrder l (n + 1) s = State.chooseOrder l n
      ((s.setLine l ((s.line l).queued (pre ++ o.taken :: rest) (s.line l).counters)).attemptEnd l) := by
  rw [State.chooseOrder_of_first free first, skips]

/-- A second station that is passed over defers the order below its retry limit (R148). -/
theorem State.attemptEnd_deferred {s : State} {l : Line} {pre rest : List Order} {o : Order}
    (first : (s.line l).First pre o rest) (more : o.lastAttempt = false) :
    (s.setLine l ((s.line l).queued (pre ++ o.taken :: rest) (s.line l).counters)).attemptEnd l
      = s.setLine l ((s.line l).queued (pre ++ o.passedOver :: rest) (s.line l).counters) := by
  have deferred : o.taken.deferredOrder = o.passedOver := by
    simp only [Order.deferredOrder, Order.taken, Order.passedOver, first.own_free, first.waits]
  have more' : ¬ o.taken.lastAttempt = true := by
    show ¬ o.lastAttempt = true
    simp [more]
  rw [State.attemptEnd, State.line_setLine_self, first.chosen?]
  dsimp only
  rw [if_neg more', State.modLine_setLine, first.modChosen, deferred]

/-- The order after the attempt that exhausts it. -/
def Order.spentOver (o : Order) : Order := { o with attempts := o.attempts + 1, onSecond := false }

theorem LineEngine.First.spent {e : LineEngine} {pre rest : List Order} {o : Order} (first : e.First pre o rest)
    (counters : Vector Nat 32) : (e.queued (pre ++ o.spentOver :: rest) counters).First pre o.spentOver rest := by
  refine ⟨rfl, first.passed, first.waits, first.ready, fun x mem => ?_⟩
  rcases List.mem_append.mp mem with before | own | after
  · exact first.pre_free x before
  · exact first.own_free
  · next after => exact first.rest_free x after

theorem State.attemptEnd_spent {s : State} {l : Line} {pre rest : List Order} {o : Order}
    (first : (s.line l).First pre o rest) (last : o.lastAttempt = true) (kind : o.payload.kind ≠ .reassign) :
    (s.setLine l ((s.line l).queued (pre ++ o.taken :: rest) (s.line l).counters)).attemptEnd l
      = (s.setLine l ((s.line l).queued (pre ++ o.spentOver.taken :: rest)
          ((s.line l).bump .ordersExhausted).counters)).concludeOrder l .exhausted := by
  rw [State.attemptEnd_of_spent (o := o.taken) (by rw [State.line_setLine_self]; exact first.chosen? _) last kind,
    State.line_setLine_self, State.setLine_setLine]
  exact congrArg (fun e => (s.setLine l e).concludeOrder l .exhausted) (first.modChosen _ Order.spentOrder)

/-- A second station that is passed over exhausts the order at its retry limit (R97, R148). -/
theorem State.attemptEnd_exhausted {s : State} {l : Line} {pre rest : List Order} {o : Order} {ref : Ref}
    (first : (s.line l).First pre o rest) (last : o.lastAttempt = true) (kind : o.payload.kind ≠ .reassign)
    (record : o.ref = some ref) :
    (s.setLine l ((s.line l).queued (pre ++ o.taken :: rest) (s.line l).counters)).attemptEnd l
      = (s.setLine l (LineEngine.handed
          ((s.line l).queued (pre ++ { o.spentOver with progress := .concluding } :: rest)
            ((s.line l).bump .ordersExhausted).counters) (.outcome o.payload.kind ref .exhausted))).grant := by
  have spent := first.spent ((s.line l).bump .ordersExhausted).counters
  rw [← s.line_setLine_self l ((s.line l).queued _ _)] at spent
  have concluded := State.concludeOrder_taken spent record ((s.line l).bump .ordersExhausted).counters .exhausted
  rw [State.setLine_setLine, State.setLine_setLine, State.line_setLine_self] at concluded
  exact (State.attemptEnd_spent first last kind).trans concluded

theorem State.attemptEnd_exhausted_terminal {s : State} {l : Line} {pre rest : List Order} {o : Order}
    (first : (s.line l).First pre o rest) (last : o.lastAttempt = true) (kind : o.payload.kind ≠ .reassign)
    (terminal : o.ref = none) :
    (s.setLine l ((s.line l).queued (pre ++ o.taken :: rest) (s.line l).counters)).attemptEnd l
      = s.setLine l ((s.line l).queued (pre ++ rest) ((s.line l).bump .ordersExhausted).counters) := by
  have spent := first.spent ((s.line l).bump .ordersExhausted).counters
  rw [← s.line_setLine_self l ((s.line l).queued _ _)] at spent
  have concluded := State.concludeOrder_taken_terminal spent terminal ((s.line l).bump .ordersExhausted).counters .exhausted
  rw [State.setLine_setLine, State.setLine_setLine, State.line_setLine_self] at concluded
  exact (State.attemptEnd_spent first last kind).trans concluded

/-! ### What the checks of an order find (R132, R148) -/

theorem State.answerPasses_iff {s : State} {l : Line} {ref : Ref} {st : Station} : s.answerPasses l ref st = true ↔
    ∃ r, s.current? ref = some r ∧ r.line = l ∧ r.station = st ∧ s.mapAt l st = .held ref.handle := by
  unfold State.answerPasses
  cases found : s.current? ref with
  | none => simp
  | some r => simp [and_assoc]

/-- An ANSWER that has a record is sent while the record holds its station (R132). -/
theorem State.examine_of_answer {s : State} {l : Line} {o : Order} {code : Byte} {content : List Byte} {ref : Ref}
    {st : Station} (payload : o.payload = .answer code content) (record : o.ref = some ref) (dest : o.dest = .station st) :
    s.examine l o = if s.answerPasses l ref st then .send
      else if (s.current? ref).isSome then .dropCurrent else .dropGone := by
  rw [State.examine, payload, record, dest]

/-- The second station of a pair is passed over once it is no longer QUARANTINED (R148). -/
theorem State.examine_of_pair {s : State} {l : Line} {o : Order} {first second : Station} (payload : o.payload = .release)
    (dest : o.dest = .pair first second) :
    s.examine l o = if o.onSecond && s.mapAt l second != .quarantined then .skip else .send := by
  rw [State.examine, payload, dest]

theorem State.examine_of_other {s : State} {l : Line} {o : Order}
    (answers : ¬ ∃ code content ref st, o.payload = .answer code content ∧ o.ref = some ref ∧ o.dest = .station st)
    (pairs : ¬ ∃ first second, o.payload = .release ∧ o.dest = .pair first second) : s.examine l o = .send := by
  unfold State.examine
  split
  · next code content ref st payload record dest => exact absurd ⟨code, content, ref, st, payload, record, dest⟩ answers
  · next first second payload dest => exact absurd ⟨first, second, payload, dest⟩ pairs
  · rfl

/-- The checks find a fault with an ANSWER that has a record, or with a RELEASE to a pair, only (R132, R148). -/
theorem State.examine_ne_send {s : State} {l : Line} {o : Order} (faulty : s.examine l o ≠ .send) :
    (∃ ref, o.ref = some ref ∧ (s.examine l o = .dropGone ∨ s.examine l o = .dropCurrent))
      ∨ (o.payload = .release ∧ s.examine l o = .skip) := by
  by_cases answers : ∃ code content ref st, o.payload = .answer code content ∧ o.ref = some ref ∧ o.dest = .station st
  · obtain ⟨code, content, ref, st, payload, record, dest⟩ := answers
    refine .inl ⟨ref, record, ?_⟩
    rw [State.examine_of_answer payload record dest] at faulty ⊢
    by_cases passes : s.answerPasses l ref st = true
    · exact absurd (if_pos passes) faulty
    · rw [if_neg passes]
      by_cases there : (s.current? ref).isSome = true
      · exact .inr (if_pos there)
      · exact .inl (if_neg there)
  · by_cases pairs : ∃ first second, o.payload = .release ∧ o.dest = .pair first second
    · obtain ⟨first, second, payload, dest⟩ := pairs
      refine .inr ⟨payload, ?_⟩
      rw [State.examine_of_pair payload dest] at faulty ⊢
      by_cases skips : (o.onSecond && s.mapAt l second != .quarantined) = true
      · exact if_pos skips
      · exact absurd (if_neg skips) faulty
    · exact absurd (State.examine_of_other answers pairs) faulty

/-! ### How the choice goes on -/

/-- How many orders of a line can be taken. -/
def State.takeable (s : State) (l : Line) : Nat := (s.line l).orders.countP Order.sendable

/-- What a choice that drops or skips an order goes on with. -/
structure State.GoesOn (s u : State) (l : Line) : Prop where
  fewer : u.takeable l < s.takeable l
  free : ∀ x ∈ (u.line l).orders, x.chosen = false
  round : (u.line l).txSinceRound = (s.line l).txSinceRound

theorem State.goesOn_queued {s : State} {l : Line} {pre rest mid : List Order} {o : Order}
    (first : (s.line l).First pre o rest) (settled : ∀ x ∈ mid, x.sendable = false ∧ x.chosen = false)
    (counters : Vector Nat 32) : s.GoesOn (s.setLine l ((s.line l).queued (pre ++ mid ++ rest) counters)) l := by
  have none : mid.countP Order.sendable = 0 := List.countP_eq_zero.mpr fun x mem => by simp [(settled x mem).1]
  refine ⟨?_, ?_, by rw [State.line_setLine_self]; rfl⟩
  · rw [State.takeable, State.takeable, State.line_setLine_self, first.orders]
    show List.countP Order.sendable (pre ++ mid ++ rest) < _
    simp [none, first.sendable]
  · rw [State.line_setLine_self]
    intro x mem
    rcases List.mem_append.mp mem with mem | mem
    · rcases List.mem_append.mp mem with mem | mem
      · exact first.pre_free x mem
      · exact (settled x mem).2
    · exact first.rest_free x mem

/-- A result handed over changes neither the queue nor the round. -/
theorem State.GoesOn.handed {s : State} {l : Line} {e : LineEngine} (goes : s.GoesOn (s.setLine l e) l) (c : LineClaim) :
    s.GoesOn (s.setLine l (e.handed c)).grant l := by
  obtain ⟨fewer, free, round⟩ := goes
  rw [State.takeable, State.line_setLine_self] at fewer
  rw [State.line_setLine_self] at free round
  refine ⟨?_, ?_, ?_⟩
  · rw [State.takeable, State.line_grant, State.line_setLine_self]; exact fewer
  · rw [State.line_grant, State.line_setLine_self]; exact free
  · rw [State.line_grant, State.line_setLine_self]; exact round

/-- An order that is dropped or skipped is not taken again by the same choice. -/
theorem State.chooseOrder_goesOn {s : State} {l : Line} {pre rest : List Order} {o : Order}
    (free : (s.line l).waiting = none) (first : (s.line l).First pre o rest) (faulty : s.examine l o ≠ .send) :
    ∃ u, s.GoesOn u l ∧ ∀ n, State.chooseOrder l (n + 1) s = State.chooseOrder l n u := by
  have removed : ∀ counters : Vector Nat 32,
      s.GoesOn (s.setLine l ((s.line l).queued (pre ++ rest) counters)) l := fun counters => by
    simpa using State.goesOn_queued (mid := []) first (fun _ mem => absurd mem List.not_mem_nil) counters
  have replaced : ∀ (x : Order) (counters : Vector Nat 32), x.sendable = false → x.chosen = false →
      s.GoesOn (s.setLine l ((s.line l).queued (pre ++ x :: rest) counters)) l := fun x counters idle unmarked => by
    simpa using State.goesOn_queued (mid := [x]) first
      (fun y mem => by rw [List.mem_singleton.mp mem]; exact ⟨idle, unmarked⟩) counters
  have concluding : ∀ x : Order, ({ x with progress := .concluding } : Order).sendable = false := fun _ => rfl
  rcases State.examine_ne_send faulty with ⟨ref, record, gone | current⟩ | ⟨payload, skips⟩
  · exact ⟨_, removed ((s.line l).bump .staleAnswers).counters, State.chooseOrder_dropGone free first gone⟩
  · exact ⟨_, (replaced _ ((s.line l).bump .staleAnswers).counters (concluding o) first.own_free).handed _,
      State.chooseOrder_dropCurrent free first current record⟩
  · have kind : o.payload.kind ≠ .reassign := by rw [payload]; decide
    by_cases last : o.lastAttempt = true
    · cases record : o.ref with
      | none =>
        refine ⟨_, removed ((s.line l).bump .ordersExhausted).counters, fun n => ?_⟩
        rw [State.chooseOrder_skip free first skips, State.attemptEnd_exhausted_terminal first last kind record]
      | some ref =>
        refine ⟨_, (replaced _ ((s.line l).bump .ordersExhausted).counters (concluding o.spentOver) first.own_free).handed
          (.outcome o.payload.kind ref .exhausted), fun n => ?_⟩
        rw [State.chooseOrder_skip free first skips, State.attemptEnd_exhausted first last kind record]
    · refine ⟨_, replaced o.passedOver (s.line l).counters ?_ first.own_free, fun n => ?_⟩
      · simp [Order.sendable, Order.passedOver]
      · rw [State.chooseOrder_skip free first skips, State.attemptEnd_deferred first (Bool.eq_false_iff.mpr last)]

/-- The count of a choice bounds nothing: each order it goes over leaves the queue, or cannot be taken again. -/
theorem State.chooseOrder_fuel {l : Line} {n : Nat} : ∀ {s : State} {m : Nat}, (∀ x ∈ (s.line l).orders, x.chosen = false) →
    s.takeable l < n → s.takeable l < m → State.chooseOrder l n s = State.chooseOrder l m s := by
  induction n with
  | zero => intro s m _ below; exact absurd below (Nat.not_lt_zero _)
  | succ n ih =>
    intro s m free below below'
    obtain ⟨m, rfl⟩ := Nat.exists_eq_succ_of_ne_zero (Nat.ne_zero_of_lt below')
    cases waiting : (s.line l).waiting with
    | some c =>
      have waits : (s.line l).waiting.isSome = true := by rw [waiting]; rfl
      rw [State.chooseOrder_of_waiting waits, State.chooseOrder_of_waiting waits]
    | none =>
      cases found : (s.line l).orders.find? Order.sendable with
      | none => rw [State.chooseOrder_of_none waiting found, Nat.succ_eq_add_one, State.chooseOrder_of_none waiting found]
      | some o =>
        obtain ⟨pre, rest, first⟩ := LineEngine.first_of_find free found
        by_cases sends : s.examine l o = .send
        · rw [State.chooseOrder_send waiting first sends, Nat.succ_eq_add_one, State.chooseOrder_send waiting first sends]
        · obtain ⟨u, goes, next⟩ := State.chooseOrder_goesOn waiting first sends
          rw [next, Nat.succ_eq_add_one, next]
          have fewer := goes.fewer
          exact ih goes.free (by omega) (by omega)

/-- A choice of an order that ends without one leaves the mark of the round. -/
theorem State.round_chooseOrder {l : Line} {n : Nat} : ∀ {s : State}, (∀ x ∈ (s.line l).orders, x.chosen = false) →
    (State.chooseOrder l n s).2 = false →
    ((State.chooseOrder l n s).1.line l).txSinceRound = (s.line l).txSinceRound := by
  induction n with
  | zero => intro s _ _; rfl
  | succ n ih =>
    intro s free ended
    cases waiting : (s.line l).waiting with
    | some c => rw [State.chooseOrder_of_waiting (by rw [waiting]; rfl)]
    | none =>
      cases found : (s.line l).orders.find? Order.sendable with
      | none => rw [State.chooseOrder_of_none waiting found]
      | some o =>
        obtain ⟨pre, rest, first⟩ := LineEngine.first_of_find free found
        by_cases sends : s.examine l o = .send
        · rw [State.chooseOrder_send waiting first sends] at ended; cases ended
        · obtain ⟨u, goes, next⟩ := State.chooseOrder_goesOn waiting first sends
          rw [next] at ended ⊢
          exact (ih goes.free ended).trans goes.round

end Sys2Proof.Machine
end

section
/-! The next transaction of a line: its order, its poll, or the end of its round. -/

namespace Sys2Proof.Machine

/-! ### The station of the round (R94) -/

theorem RecState.polled_iff {state : RecState} {round : BitVec 2} : state.polled round = true ↔
    state = .bound ∨ (∃ x, state = .moving x) ∨ state = .quiet ∧ round = 0 := by
  cases state <;> simp [RecState.polled]

theorem State.pollable?_eq_some {s : State} {l : Line} {st : Station} {h : Handle} {r : Record} :
    s.pollable? l st = some (h, r) ↔ s.PollsAt l st h r := by
  unfold State.PollsAt
  rw [← RecState.polled_iff]
  unfold State.pollable?
  split
  · next k held =>
    rw [held]
    split
    · next q found => grind
    · next gone => grind
  · next other => exact ⟨fun none => (by cases none), fun ⟨held, _⟩ => absurd held (other h)⟩

theorem State.pollable?_isSome {s : State} {l : Line} {st : Station} :
    (s.pollable? l st).isSome = true ↔ ∃ h r, s.PollsAt l st h r := by
  rw [Option.isSome_iff_exists]
  exact ⟨fun ⟨⟨h, r⟩, polls⟩ => ⟨h, r, State.pollable?_eq_some.mp polls⟩,
    fun ⟨h, r, polls⟩ => ⟨(h, r), State.pollable?_eq_some.mpr polls⟩⟩

theorem State.nextStation?_of_next {s : State} {l : Line} {st : Station} {h : Handle} {r : Record}
    (next : s.NextPolled l st h r) : s.nextStation? l = some st := by
  obtain ⟨above, polls, lowest⟩ := next
  refine Fin.find?_eq_find?_finRange.symm.trans (Fin.find?_eq_some_iff.mpr ⟨?_, fun x below => ?_⟩)
  · simpa [above] using State.pollable?_isSome.mpr ⟨h, r, polls⟩
  · refine Bool.eq_false_iff.mpr fun found => ?_
    rw [Bool.and_eq_true, decide_eq_true_eq, State.pollable?_isSome] at found
    exact absurd (lowest x found.1 found.2) (not_le.mpr below)

theorem State.nextStation?_of_over {s : State} {l : Line} (roundOver : s.RoundOver l) : s.nextStation? l = none := by
  refine List.find?_eq_none.mpr fun x _ found => ?_
  rw [Bool.and_eq_true, decide_eq_true_eq, State.pollable?_isSome] at found
  obtain ⟨above, h, r, polls⟩ := found
  exact roundOver x h r above polls

/-! ### The choice (R92, R94) -/

theorem State.chooseTx_of_order {s t : State} {l : Line} {n : Nat}
    (chosen : State.chooseOrder l ((s.line l).orders.length + 1) s = (t, true)) : State.chooseTx l (n + 1) s = t := by
  rw [State.chooseTx, chosen]

theorem State.chooseTx_of_station {s t : State} {l : Line} {n : Nat} {st : Station}
    (passed : State.chooseOrder l ((s.line l).orders.length + 1) s = (t, false)) (next : t.nextStation? l = some st) :
    State.chooseTx l (n + 1) s = t.startPoll l st := by
  rw [State.chooseTx, passed]
  dsimp only
  rw [next]

theorem State.chooseTx_of_over {s t : State} {l : Line} {n : Nat}
    (passed : State.chooseOrder l ((s.line l).orders.length + 1) s = (t, false)) (none : t.nextStation? l = none) :
    State.chooseTx l (n + 1) s = if ((t.roundEnd l).line l).tx.isSome || ((t.roundEnd l).line l).resting
      then t.roundEnd l else State.chooseTx l n (t.roundEnd l) := by
  rw [State.chooseTx, passed]
  dsimp only
  rw [none]

/-- States in which the choice of an order ends alike have one next transaction. -/
theorem State.chooseTx_congr {s u : State} {l : Line} (same : State.chooseOrder l ((s.line l).orders.length + 1) s
    = State.chooseOrder l ((u.line l).orders.length + 1) u) (n : Nat) :
    State.chooseTx l (n + 1) s = State.chooseTx l (n + 1) u := by
  rw [State.chooseTx, State.chooseTx, same]

theorem State.chooseOrder_of_noneSendable {s : State} {l : Line} (free : (s.line l).waiting = none)
    (passed : NoneSendable (s.line l).orders) :
    State.chooseOrder l ((s.line l).orders.length + 1) s = (s, false) :=
  State.chooseOrder_of_none free (find?_of_noneSendable passed) _

theorem State.takeable_lt (s : State) (l : Line) : s.takeable l < (s.line l).orders.length + 1 :=
  Nat.lt_succ_of_le List.countP_le_length

/-- The choice that goes over an order goes on as a choice of its own (R92). -/
theorem exec_nextTransaction_goesOn {s u : State} {l : Line} (chooses : (s.line l).Chooses)
    (chooses' : (u.line l).Chooses) (goes : s.GoesOn u l)
    (next : ∀ n, State.chooseOrder l (n + 1) s = State.chooseOrder l n u) :
    exec (.nextTransaction l) s = exec (.nextTransaction l) u := by
  have fewer := goes.fewer
  have bound := s.takeable_lt l
  rw [exec_nextTransaction_of_chooses chooses, exec_nextTransaction_of_chooses chooses',
    State.chooseTx_congr ((next _).trans (State.chooseOrder_fuel goes.free (by omega) (u.takeable_lt l)))]

/-- A result that waits behind the claim outstanding ends the choice (R93). -/
theorem exec_nextTransaction_waits {s u : State} {l : Line} (chooses : (s.line l).Chooses)
    (waits : (u.line l).waiting.isSome = true)
    (next : ∀ n, State.chooseOrder l (n + 1) s = State.chooseOrder l n u) : exec (.nextTransaction l) s = .next u := by
  rw [exec_nextTransaction_of_chooses chooses,
    State.chooseTx_of_order ((next _).trans (State.chooseOrder_of_waiting waits _))]

/-! ### The first frames of orders and polls (R70, R74, R95, R97) -/

/-- A transaction whose first frame is being sent. -/
def Tx.begun (work : TxWork) (frame : List Byte) (check : Byte) (holdOff : Nat) : Tx :=
  { work := work, phase := .sending, frame := frame, idCheck := check, repeated := false, held := false
    holdOffLimit := holdOff }

/-- The first frame of an order makes it SENDING and transmitted (R97). -/
theorem LineEngine.beginFrame_of_order {e : LineEngine} {t : Tx} {o : Order} (tx : e.tx = some t)
    (first : t.repeated = false) (work : t.work = .order) (chosen : e.chosen? = some o) (holdOff : Nat) :
    e.beginFrame holdOff =
      { e.modChosen Order.sent with
        tx := some { t with phase := .sending, frame := o.frame, holdOffLimit := holdOff }
        txSinceRound := true } := by
  have again : ¬ t.repeated = true := by simp [first]
  unfold LineEngine.beginFrame
  split
  · next idle => rw [tx] at idle; cases idle
  · next t' tx' =>
    cases tx.symm.trans tx'
    rw [if_neg again]
    dsimp only
    split
    · rewrite [chosen]
      rfl
    · next poll => rw [work] at poll; cases poll
    · next call => rw [work] at call; cases call
    · next flush => rw [work] at flush; cases flush

/-- An order withdrawn before its first frame leaves the transaction without one (R91; log 10). -/
theorem LineEngine.beginFrame_of_withdrawn {e : LineEngine} {t : Tx} (tx : e.tx = some t) (first : t.repeated = false)
    (work : t.work = .order) (free : ∀ o ∈ e.orders, o.chosen = false) (holdOff : Nat) :
    e.beginFrame holdOff = { e with tx := none } := by
  have again : ¬ t.repeated = true := by simp [first]
  have none : e.chosen? = none := LineEngine.noneChosen_iff.mp free
  unfold LineEngine.beginFrame
  split
  · next idle => rw [tx] at idle; cases idle
  · next t' tx' =>
    cases tx.symm.trans tx'
    rw [if_neg again]
    dsimp only
    split
    · rewrite [none]
      exact LineEngine.endTx_of_none free
    · next poll => rw [work] at poll; cases poll
    · next call => rw [work] at call; cases call
    · next flush => rw [work] at flush; cases flush

theorem LineEngine.checkLead_order {e : LineEngine} {o : Order} (lead : e.leadDominant = false)
    (chosen : e.chosen? = some o) (holdOff : Nat) (check : Byte) : e.checkLead holdOff (Tx.fresh .order check) =
      { e.modChosen Order.sent with tx := some (Tx.begun .order o.frame check holdOff), txSinceRound := true } := by
  rw [LineEngine.checkLead_of_recessive lead]
  exact LineEngine.beginFrame_of_order (e := { e with tx := some { Tx.fresh .order check with phase := .check } })
    (t := { Tx.fresh .order check with phase := .check }) rfl rfl rfl chosen holdOff

theorem LineEngine.checkLead_poll {e : LineEngine} {st : Station} {ref : Ref} {solicited : Bool}
    (lead : e.leadDominant = false) (holdOff : Nat) (check : Byte) :
    e.checkLead holdOff (Tx.fresh (.poll st ref solicited) check) =
      { e with
        tx := some (Tx.begun (.poll st ref solicited) (pollFrame st solicited) check holdOff)
        txSinceRound := true
        position := st.val + 1
        counters := (e.bump .polls).counters } := by
  rw [LineEngine.checkLead_of_recessive lead]
  rfl

theorem LineEngine.checkLead_call {e : LineEngine} {p : CallPolicy} (lead : e.leadDominant = false) (holdOff : Nat) :
    e.checkLead holdOff (Tx.fresh (.call p) 0) =
      { e with
        tx := some (Tx.begun (.call p) (callFrame e.callNumber e.exclusions) 0 holdOff)
        txSinceRound := true } := by
  rw [LineEngine.checkLead_of_recessive lead]
  rfl

/-- A call that is checked has its transaction, whatever the lead is. -/
theorem LineEngine.tx_checkLead_call (e : LineEngine) (p : CallPolicy) (holdOff : Nat) :
    (e.checkLead holdOff (Tx.fresh (.call p) 0)).tx.isSome = true := by
  by_cases lead : e.leadDominant = true
  · rw [LineEngine.checkLead_of_dominant lead]
    rfl
  · rw [LineEngine.checkLead_call (Bool.eq_false_iff.mpr lead)]
    rfl

/-! ### The end of the round (R92, R94, R101) -/

/-- The line engine after steps 1, 2 and 4 of the round end. -/
def LineEngine.roundEnded (e : LineEngine) (counters : Vector Nat 32) : LineEngine :=
  { e with
    roundCounter := e.roundCounter + 1
    position := 0
    orders := e.orders.map fun o => { o with deferred := false }
    txSinceRound := false
    counters := counters }

theorem LineEngine.freeCount_pos {e : LineEngine} :
    0 < e.freeCount ↔ e.orders.length + e.reservations.length < 8 := by
  rw [LineEngine.freeCount]
  omega

theorem LineEngine.freeCount_roundEnd {e : LineEngine} :
    0 < e.roundEnd.freeCount ↔ e.orders.length + e.reservations.length < 8 := by
  rw [LineEngine.freeCount_pos]
  show (List.map _ e.orders).length + e.reservations.length < 8 ↔ _
  rw [List.length_map]

theorem LineEngine.reserve_of_room {e : LineEngine} (room : 0 < e.freeCount) (x : Reservation) :
    e.reserve x = { e with reservations := e.reservations ++ [x] } := if_pos room

/-- The round end without a call: under CLOSED, and where no entry is free. -/
theorem State.roundEnd_closed {s : State} {l : Line} (policy : s.cfg.policies.get l = .callClosed) :
    s.roundEnd l = s.setLine l
      { (s.line l).roundEnded (s.line l).counters with resting := !(s.line l).txSinceRound } := by
  rw [State.roundEnd, policy]
  dsimp only
  rw [State.modLine_modLine, State.modLine_eq]
  rfl

theorem State.roundEnd_skipped {s : State} {l : Line} (policy : s.cfg.policies.get l ≠ .callClosed)
    (full : 8 ≤ (s.line l).orders.length + (s.line l).reservations.length) : s.roundEnd l = s.setLine l
      { (s.line l).roundEnded ((s.line l).bump .callsSkipped).counters with resting := !(s.line l).txSinceRound } := by
  have none : ¬ 0 < ((s.modLine l LineEngine.roundEnd).line l).freeCount := by
    rw [State.line_modLine_self, LineEngine.freeCount_roundEnd]
    exact Nat.not_lt.mpr full
  unfold State.roundEnd
  dsimp only
  split
  · next closed => exact absurd closed policy
  · rw [if_neg none, s.modLine_eq l LineEngine.roundEnd, State.bump_setLine, State.modLine_setLine]
    rfl

theorem State.roundEnd_called {s : State} {l : Line} (policy : s.cfg.policies.get l ≠ .callClosed)
    (room : (s.line l).orders.length + (s.line l).reservations.length < 8) : s.roundEnd l = s.setLine l
      (LineEngine.checkLead s.cfg.holdOff (Tx.fresh (.call (s.cfg.policies.get l)) 0)
        { (s.line l).roundEnded (s.line l).counters with reservations := (s.line l).reservations ++ [.call] }) := by
  have free : 0 < (s.line l).roundEnd.freeCount := LineEngine.freeCount_roundEnd.mpr room
  have free' : 0 < ((s.modLine l LineEngine.roundEnd).line l).freeCount := by rw [State.line_modLine_self]; exact free
  unfold State.roundEnd
  dsimp only
  split
  · next closed => exact absurd closed policy
  · rw [if_pos free', State.startTx, State.modLine_modLine, State.modLine_modLine, State.modLine_eq,
      LineEngine.reserve_of_room free]
    rfl

/-- A round end after a round without a transaction brings a call or the rest. -/
theorem State.roundEnd_of_idle {s : State} {l : Line} (idle : (s.line l).txSinceRound = false) :
    (((s.roundEnd l).line l).tx.isSome || ((s.roundEnd l).line l).resting) = true := by
  by_cases policy : s.cfg.policies.get l = .callClosed
  · rw [State.roundEnd_closed policy, State.line_setLine_self]
    simp [idle]
  · by_cases room : (s.line l).orders.length + (s.line l).reservations.length < 8
    · rw [State.roundEnd_called policy room, State.line_setLine_self, LineEngine.tx_checkLead_call]
      rfl
    · rw [State.roundEnd_skipped policy (Nat.not_lt.mp room), State.line_setLine_self]
      simp [idle]

/-- In a round in which no transaction was begun, the round end is the last one of the choice, so that the count of the
round ends bounds nothing. -/
theorem State.chooseTx_of_idle {s : State} {l : Line} (free : ∀ x ∈ (s.line l).orders, x.chosen = false)
    (idle : (s.line l).txSinceRound = false) (n : Nat) : State.chooseTx l (n + 1) s = State.chooseTx l 1 s := by
  have round := State.round_chooseOrder (n := (s.line l).orders.length + 1) free
  cases chosen : State.chooseOrder l ((s.line l).orders.length + 1) s with
  | mk t ended =>
    rw [chosen] at round
    cases ended with
    | true => rw [State.chooseTx_of_order chosen, State.chooseTx_of_order chosen]
    | false =>
      cases next : t.nextStation? l with
      | some st => rw [State.chooseTx_of_station chosen next, State.chooseTx_of_station chosen next]
      | none =>
        have last := State.roundEnd_of_idle (s := t) (l := l) ((round rfl).trans idle)
        rw [State.chooseTx_of_over chosen next, State.chooseTx_of_over chosen next, if_pos last, if_pos last]

end Sys2Proof.Machine
end

section
/-! The rest of a line after an empty round, and the levels of its data lead. -/

namespace Sys2Proof.Machine

/-! ### Round ends of an empty queue under CLOSED (R92, R94) -/

/-- The line engine after the end of a round without an order and without a call. -/
def LineEngine.closedRound (e : LineEngine) : LineEngine :=
  { e with
    roundCounter := e.roundCounter + 1
    position := 0
    resting := !e.txSinceRound
    txSinceRound := false }

theorem State.roundEnd_of_empty {s : State} {l : Line} (empty : (s.line l).orders = [])
    (policy : s.cfg.policies.get l = .callClosed) : s.roundEnd l = s.setLine l (s.line l).closedRound := by
  rw [State.roundEnd_closed policy, LineEngine.roundEnded, empty, List.map_nil, ← empty]
  rfl

/-- With an empty queue under CLOSED, an empty round brings its end, and with it the rest or the next round. -/
theorem State.chooseTx_of_empty {s : State} {l : Line} (idle : (s.line l).tx = none) (free : (s.line l).waiting = none)
    (empty : (s.line l).orders = []) (policy : s.cfg.policies.get l = .callClosed) (roundOver : s.RoundOver l) (n : Nat) :
    State.chooseTx l (n + 1) s = if (s.line l).txSinceRound = false then s.setLine l (s.line l).closedRound
      else State.chooseTx l n (s.setLine l (s.line l).closedRound) := by
  have passed : NoneSendable (s.line l).orders := by rw [empty]; exact fun _ mem => absurd mem List.not_mem_nil
  have idle' : (s.line l).closedRound.tx = none := idle
  rw [State.chooseTx_of_over (State.chooseOrder_of_noneSendable free passed) (State.nextStation?_of_over roundOver),
    State.roundEnd_of_empty empty policy, State.line_setLine_self, idle', Option.isSome_none, Bool.false_or]
  simp [LineEngine.closedRound]

/-- Where no record holds a station, every round is over. -/
theorem State.roundOver_of_unheld {s : State} {l : Line} (unheld : ∀ (st : Station) (h : Handle), s.mapAt l st ≠ .held h) :
    s.RoundOver l := fun st h _ _ ⟨held, _⟩ => unheld st h held

/-- After a round in which a transaction was begun, a line with nothing to do ends two rounds. -/
theorem State.chooseTx_of_unheld {s : State} {l : Line} (idle : (s.line l).tx = none) (free : (s.line l).waiting = none)
    (empty : (s.line l).orders = []) (policy : s.cfg.policies.get l = .callClosed)
    (unheld : ∀ (st : Station) (h : Handle), s.mapAt l st ≠ .held h) (busy : (s.line l).txSinceRound = true) :
    State.chooseTx l 2 s = s.setLine l (s.line l).closedRound.closedRound := by
  have once := State.chooseTx_of_empty idle free empty policy (State.roundOver_of_unheld unheld) 1
  have twice := State.chooseTx_of_empty (s := s.setLine l (s.line l).closedRound) (l := l)
    (by rw [State.line_setLine_self]; exact idle) (by rw [State.line_setLine_self]; exact free)
    (by rw [State.line_setLine_self]; exact empty) policy (State.roundOver_of_unheld unheld) 0
  have ended : (s.line l).closedRound.txSinceRound = false := rfl
  rw [State.line_setLine_self, if_pos ended, State.setLine_setLine] at twice
  rw [once, if_neg (by simp [busy]), twice]

/-! ### The data lead (R77) -/

theorem exec_dataLeadRecessive_eq (s : State) (l : Line) :
    exec (.dataLeadRecessive l) s = .next (s.setLine l ((s.line l).leadRecessive s.cfg.holdOff)) := rfl

/-- A frame that waits at its stuck-line check begins with the recessive lead; else the level is taken over. -/
theorem LineEngine.leadRecessive_of_checks {e : LineEngine} (checks : e.checks = true) (holdOff : Nat) :
    e.leadRecessive holdOff = LineEngine.beginFrame holdOff { e with leadDominant := false } := if_pos checks

theorem LineEngine.leadRecessive_of_not {e : LineEngine} (checks : e.checks = false) (holdOff : Nat) :
    e.leadRecessive holdOff = { e with leadDominant := false } := if_neg (by simp [checks])

theorem LineEngine.checks_of_idle {e : LineEngine} (idle : e.tx = none) : e.checks = false := by
  rw [LineEngine.checks, idle]

theorem LineEngine.checks_of_repeated {e : LineEngine} {t : Tx} (tx : e.tx = some t) (check : t.phase = .check)
    (again : t.repeated = true) : e.checks = true := by
  rw [LineEngine.checks_of_tx tx, check, again]; rfl

theorem LineEngine.checks_of_paused {e : LineEngine} {t : Tx} (tx : e.tx = some t) (first : t.repeated = false)
    (paused : e.state = .paused) : e.checks = false := by
  rw [LineEngine.checks_of_tx tx, first, paused]
  exact Bool.and_false _

theorem LineEngine.checks_of_unpaused {e : LineEngine} {t : Tx} (tx : e.tx = some t) (check : t.phase = .check)
    (unpaused : e.state ≠ .paused) : e.checks = true := by
  rw [LineEngine.checks_of_tx tx, check]
  simp [unpaused]

theorem exec_dataLeadRecessive_of_begins {s : State} {l : Line} {e : LineEngine} (checks : (s.line l).checks = true)
    (begins : LineEngine.beginFrame s.cfg.holdOff { s.line l with leadDominant := false } = e) :
    exec (.dataLeadRecessive l) s = .next (s.setLine l e) := by
  rw [exec_dataLeadRecessive_eq, LineEngine.leadRecessive_of_checks checks, begins]

/-- The first frame of a poll makes its station the position of the round, and is counted (R94, R95). -/
theorem LineEngine.beginFrame_of_poll {e : LineEngine} {t : Tx} {st : Station} {ref : Ref} {solicited : Bool}
    (tx : e.tx = some t) (first : t.repeated = false) (work : t.work = .poll st ref solicited) (holdOff : Nat) :
    e.beginFrame holdOff =
      { e with
        tx := some { t with phase := .sending, frame := pollFrame st solicited, holdOffLimit := holdOff }
        txSinceRound := true
        position := st.val + 1
        counters := (e.bump .polls).counters } := by
  have again : ¬ t.repeated = true := by simp [first]
  unfold LineEngine.beginFrame
  split
  · next idle => rw [tx] at idle; cases idle
  · next t' tx' =>
    cases tx.symm.trans tx'
    rw [if_neg again]
    dsimp only
    split
    · next order => rw [work] at order; cases order
    · next st' ref' solicited' poll =>
      cases work.symm.trans poll
      rfl
    · next call => rw [work] at call; cases call
    · next flush => rw [work] at flush; cases flush

/-- Settles O32: a line that may not choose does nothing; an empty queue under CLOSED brings the ends of the empty rounds
and the rest; and a waiting frame begins with the recessive lead, by its work. -/
theorem restsAndLeads : Obligations.RestsAndLeads := by
  intro s l
  refine ⟨exec_nextTransaction_of_not, fun chooses empty policy => ?_, fun resting => ?_, fun idle => ?_,
    fun t tx check => ?_⟩
  · obtain ⟨-, idle, free, awake⟩ := id chooses
    rw [exec_nextTransaction_of_chooses chooses]
    refine ⟨fun roundOver quiet => ?_, fun unheld busy => ?_⟩
    · rw [State.chooseTx_of_empty idle free empty policy roundOver, if_pos quiet]
      simp only [LineEngine.closedRound, quiet]
      rfl
    · rw [State.chooseTx_of_unheld idle free empty policy unheld busy]
      simp only [LineEngine.closedRound, BitVec.add_assoc]
      rfl
  · exact congrArg Host.Outcome.next (if_pos resting)
  · exact ⟨by rw [exec_dataLeadRecessive_eq, LineEngine.leadRecessive_of_not (LineEngine.checks_of_idle idle)], rfl⟩
  · have waits : LineEngine.tx { s.line l with leadDominant := false } = some t := tx
    refine ⟨fun again => ?_, fun first paused => ?_, fun first unpaused => ?_⟩
    · exact exec_dataLeadRecessive_of_begins (LineEngine.checks_of_repeated tx check again)
        (LineEngine.beginFrame_of_repeated waits again s.cfg.holdOff)
    · rw [exec_dataLeadRecessive_eq, LineEngine.leadRecessive_of_not (LineEngine.checks_of_paused tx first paused)]
    · have checks := LineEngine.checks_of_unpaused tx check unpaused
      exact ⟨fun st ref b work => exec_dataLeadRecessive_of_begins checks
          (LineEngine.beginFrame_of_poll waits first work s.cfg.holdOff),
        fun p work => exec_dataLeadRecessive_of_begins checks (LineEngine.beginFrame_of_call waits first work s.cfg.holdOff),
        fun work => exec_dataLeadRecessive_of_begins checks (LineEngine.beginFrame_of_flush waits first work s.cfg.holdOff),
        fun o ⟨_, work, chosen⟩ => exec_dataLeadRecessive_of_begins checks
          (LineEngine.beginFrame_of_order waits first work chosen s.cfg.holdOff),
        fun work unchosen => exec_dataLeadRecessive_of_begins checks
          (LineEngine.beginFrame_of_withdrawn waits first work unchosen s.cfg.holdOff)⟩

end Sys2Proof.Machine
end

section
/-! What NEXT_TRANSACTION sends, drops, defers, polls or ends, by the first order of the queue and the stations of the
round. -/

namespace Sys2Proof.Machine

/-! ### The frames of the orders (R97, R99, R148) -/

theorem Order.station?_of_station {o : Order} {st : Station} (dest : o.dest = .station st)
    (stays : ∀ target, o.payload ≠ .reassign target) : o.station? = some st := by
  unfold Order.station?
  rw [dest]
  dsimp only
  split
  · next target _ payload => exact absurd payload (stays target)
  · rfl

theorem Order.station?_of_pair {o : Order} {first second : Station} (dest : o.dest = .pair first second) :
    o.station? = some (if o.onSecond then second else first) := by
  rw [Order.station?, dest]

/-- A REASSIGN in its probe goes to the target first, then to the old station (R99). -/
theorem Order.station?_of_reassign {o : Order} {st target : Station} (dest : o.dest = .station st)
    (payload : o.payload = .reassign target) :
    o.station? = some (if o.phase = .probe ∧ o.targetMissed = false then target else st) := by
  unfold Order.station?
  rw [dest, payload]
  dsimp only
  split
  · next phase same =>
    cases same
    cases o.targetMissed <;> simp [phase]
  · next other => exact congrArg some (if_neg fun ⟨probe, _⟩ => other target probe rfl).symm

theorem Order.frame_of_release {o : Order} {st : Station} (payload : o.payload = .release)
    (station : o.station? = some st) : o.frame = withCheck [0x05, stationByte st] := by
  rw [Order.frame, payload, station]
  exact rfl

theorem Order.frame_of_answer {o : Order} {code : Byte} {content : List Byte} {st : Station}
    (payload : o.payload = .answer code content) (station : o.station? = some st) :
    o.frame = withCheck ([0x06, stationByte st, code] ++ content) := by
  rw [Order.frame, payload, station]
  exact rfl

theorem Order.frame_of_reassign {o : Order} {st target : Station} (payload : o.payload = .reassign target)
    (dest : o.dest = .station st) : o.frame = withCheck (if o.phase = .probe
      then [0x01, stationByte (if o.targetMissed then st else target), 0x00]
      else [0x04, stationByte st, stationByte target]) := by
  rw [Order.frame, payload, Order.station?_of_reassign dest payload]
  dsimp only
  by_cases probe : o.phase = .probe
  · rw [if_pos probe, if_pos probe]
    cases missed : o.targetMissed <;> simp [probe, pollFrame, flagByte]
  · rw [if_neg probe, if_neg probe, if_neg (fun both => probe both.1), reassignFrame]

/-! ### The first order of the queue (R92, R97) -/

/-- The first order that passes its checks is sent, with its identity check taken as the records stand. -/
theorem exec_nextTransaction_sends {s : State} {l : Line} {pre rest : List Order} {o : Order} (chooses : (s.line l).Chooses)
    (lead : (s.line l).leadDominant = false) (first : (s.line l).First pre o rest) (sends : s.examine l o = .send) :
    exec (.nextTransaction l) s = .next (s.setLine l
      { s.line l with
        orders := pre ++ { o with progress := .sending, transmitted := true, chosen := true } :: rest
        txSinceRound := true
        tx := some (Tx.begun .order o.frame (s.orderCheck o) s.cfg.holdOff) }) := by
  obtain ⟨-, -, free, -⟩ := id chooses
  rw [exec_nextTransaction_of_chooses chooses, State.chooseTx_of_order (State.chooseOrder_send free first sends _),
    State.startTx, State.modLine_setLine,
    LineEngine.checkLead_order (e := (s.line l).queued (pre ++ o.taken :: rest) (s.line l).counters) lead (first.chosen? _),
    first.modChosen]
  rfl

/-- The choice goes on without an order that left the queue, or that cannot be taken any more. -/
theorem exec_nextTransaction_passes {s : State} {l : Line} {pre rest mid : List Order} {o : Order}
    {counters : Vector Nat 32} (chooses : (s.line l).Chooses) (first : (s.line l).First pre o rest)
    (settled : ∀ x ∈ mid, x.sendable = false ∧ x.chosen = false)
    (next : ∀ n, State.chooseOrder l (n + 1) s
      = State.chooseOrder l n (s.setLine l ((s.line l).queued (pre ++ mid ++ rest) counters))) :
    exec (.nextTransaction l) s
      = exec (.nextTransaction l) (s.setLine l ((s.line l).queued (pre ++ mid ++ rest) counters)) :=
  exec_nextTransaction_goesOn chooses (by rw [State.line_setLine_self]; exact chooses)
    (State.goesOn_queued first settled counters) next

/-- An order concluded in the choice: with no claim outstanding its outcome is the line claim, and the choice goes on; else
the outcome waits, and the choice is over (R93). -/
theorem exec_nextTransaction_handsOver {s : State} {l : Line} {pre rest : List Order} {o x : Order}
    {counters : Vector Nat 32} {c : LineClaim} (chooses : (s.line l).Chooses) (first : (s.line l).First pre o rest)
    (settled : x.sendable = false ∧ x.chosen = false)
    (next : ∀ n, State.chooseOrder l (n + 1) s = State.chooseOrder l n
      (s.setLine l (((s.line l).queued (pre ++ x :: rest) counters).handed c)).grant) :
    ((s.line l).claim = none → exec (.nextTransaction l) s = exec (.nextTransaction l)
        (s.setLine l (((s.line l).queued (pre ++ x :: rest) counters).handed c)).grant)
      ∧ ((s.line l).claim ≠ none → exec (.nextTransaction l) s
        = .next (s.setLine l (((s.line l).queued (pre ++ x :: rest) counters).handed c)).grant) := by
  obtain ⟨running, idle, free, awake⟩ := id chooses
  have goes := State.goesOn_queued (mid := [x]) first
    (fun y mem => by rw [List.mem_singleton.mp mem]; exact settled) counters
  rw [List.append_assoc, List.singleton_append] at goes
  refine ⟨fun unclaimed => ?_, fun claimed => ?_⟩
  · refine exec_nextTransaction_goesOn chooses ?_ (goes.handed c) next
    have none : (((s.line l).queued (pre ++ x :: rest) counters).handed c).waiting = none := by
      have unclaimed' : ((s.line l).queued (pre ++ x :: rest) counters).claim = none := unclaimed
      rw [LineEngine.handed, unclaimed']
      exact free
    rw [State.line_grant, State.line_setLine_self]
    exact ⟨running, idle, none, awake⟩
  · refine exec_nextTransaction_waits chooses ?_ next
    have some : (s.line l).claim.isSome = true := Option.isSome_iff_ne_none.mpr claimed
    rw [State.line_grant, State.line_setLine_self]
    exact (congrArg Option.isSome (if_pos some)).trans rfl

/-! ### The station of the round (R94, R95) -/

theorem LineEngine.awaitsRequest_iff {e : LineEngine} {ref : Ref} :
    e.awaitsRequest ref = true ↔ Reservation.poll ref ∈ e.reservations := List.contains_iff_mem

/-- The poll of a station starts with solicitation, and reserves an entry, where a request is neither pending nor awaited,
and an entry is free. -/
theorem State.startPoll_solicited {s : State} {l : Line} {st : Station} {h : Handle} {r : Record}
    (polls : s.PollsAt l st h r) (pending : r.requestPending = false)
    (awaits : Reservation.poll (s.refOf h) ∉ (s.line l).reservations)
    (room : (s.line l).orders.length + (s.line l).reservations.length < 8) : s.startPoll l st =
      (s.modLine l (LineEngine.reserve (.poll (s.refOf h)))).startTx l (.poll st (s.refOf h) true)
        (identityCheck r.identity) := by
  have unawaited : (s.line l).awaitsRequest (s.refOf h) = false :=
    Bool.eq_false_iff.mpr (mt LineEngine.awaitsRequest_iff.mp awaits)
  have free : 0 < (s.line l).freeCount := LineEngine.freeCount_pos.mpr room
  rw [State.startPoll, State.pollable?_eq_some.mpr polls]
  dsimp only
  rw [pending, unawaited, decide_eq_true free]
  exact rfl

theorem State.startPoll_unsolicited {s : State} {l : Line} {st : Station} {h : Handle} {r : Record}
    (polls : s.PollsAt l st h r) (bars : r.requestPending = true
      ∨ Reservation.poll (s.refOf h) ∈ (s.line l).reservations
      ∨ 8 ≤ (s.line l).orders.length + (s.line l).reservations.length) :
    s.startPoll l st = s.startTx l (.poll st (s.refOf h) false) (identityCheck r.identity) := by
  have barred : (!r.requestPending && !(s.line l).awaitsRequest (s.refOf h) && decide (0 < (s.line l).freeCount)) = false := by
    rcases bars with pending | awaits | full
    · rw [pending]; rfl
    · rw [LineEngine.awaitsRequest_iff.mpr awaits, Bool.not_true, Bool.and_false]; rfl
    · rw [decide_eq_false (mt LineEngine.freeCount_pos.mp (Nat.not_lt.mpr full)), Bool.and_false]
  rw [State.startPoll, State.pollable?_eq_some.mpr polls]
  dsimp only
  rw [barred]
  exact rfl

theorem exec_nextTransaction_polls {s : State} {l : Line} {st : Station} {h : Handle} {r : Record}
    (chooses : (s.line l).Chooses) (passed : NoneSendable (s.line l).orders) (next : s.NextPolled l st h r) :
    exec (.nextTransaction l) s = .next (s.startPoll l st) := by
  obtain ⟨-, -, free, -⟩ := id chooses
  rw [exec_nextTransaction_of_chooses chooses, State.chooseTx_of_station
    (State.chooseOrder_of_noneSendable free passed) (State.nextStation?_of_next next)]

/-- The poll that is begun, with the reservations the line then has. -/
theorem State.startTx_poll {s : State} {l : Line} (lead : (s.line l).leadDominant = false)
    (st : Station) (ref : Ref) (solicited : Bool) (check : Byte) : s.startTx l (.poll st ref solicited) check =
      s.setLine l
        { s.line l with
          position := st.val + 1
          txSinceRound := true
          tx := some (Tx.begun (.poll st ref solicited) (withCheck [0x01, stationByte st, if solicited then 0x01 else 0x00])
            check s.cfg.holdOff)
          counters := ((s.line l).bump .polls).counters } := by
  rw [State.startTx, State.modLine_eq, LineEngine.checkLead_poll lead]
  rfl

/-! ### The end of the round (R92, R94, R101) -/

theorem exec_nextTransaction_over {s : State} {l : Line} (chooses : (s.line l).Chooses)
    (passed : NoneSendable (s.line l).orders) (roundOver : s.RoundOver l) : exec (.nextTransaction l) s =
      .next (if ((s.roundEnd l).line l).tx.isSome || ((s.roundEnd l).line l).resting
        then s.roundEnd l else State.chooseTx l 1 (s.roundEnd l)) := by
  obtain ⟨-, -, free, -⟩ := id chooses
  rw [exec_nextTransaction_of_chooses chooses, State.chooseTx_of_over
    (State.chooseOrder_of_noneSendable free passed) (State.nextStation?_of_over roundOver)]

/-- A round end without a call: the line rests after a round without a transaction, else the next round follows. -/
theorem exec_nextTransaction_uncalled {s : State} {l : Line} {counters : Vector Nat 32} (chooses : (s.line l).Chooses)
    (passed : NoneSendable (s.line l).orders) (roundOver : s.RoundOver l) (free : ∀ x ∈ (s.line l).orders, x.chosen = false)
    (ended : s.roundEnd l
      = s.setLine l { (s.line l).roundEnded counters with resting := !(s.line l).txSinceRound }) :
    ((s.line l).txSinceRound = false → exec (.nextTransaction l) s
        = .next (s.setLine l
          { (s.line l).roundEnded counters with resting := true, txSinceRound := (s.line l).txSinceRound }))
      ∧ ((s.line l).txSinceRound = true → exec (.nextTransaction l) s = exec (.nextTransaction l)
        (s.setLine l { (s.line l).roundEnded counters with resting := (s.line l).resting })) := by
  obtain ⟨running, idle, unwaited, awake⟩ := id chooses
  rw [exec_nextTransaction_over chooses passed roundOver, ended, State.line_setLine_self]
  refine ⟨fun quiet => ?_, fun busy => ?_⟩
  · rw [quiet]
    exact congrArg Host.Outcome.next (if_pos (Bool.or_true _))
  · have goes : ¬ ((s.line l).tx.isSome || !(s.line l).txSinceRound) = true := by simp [idle, busy]
    have next : ((s.setLine l { (s.line l).roundEnded counters with resting := (s.line l).resting }).line l).Chooses := by
      rw [State.line_setLine_self]; exact ⟨running, idle, unwaited, awake⟩
    rw [exec_nextTransaction_of_chooses next]
    refine congrArg Host.Outcome.next ((if_neg goes).trans ?_)
    rw [busy, awake]
    refine (State.chooseTx_of_idle ?_ ?_ 1).symm
    · rw [State.line_setLine_self]
      intro x mem
      obtain ⟨o, own, rfl⟩ := List.mem_map.mp mem
      exact free o own
    · rw [State.line_setLine_self]; rfl

end Sys2Proof.Machine
end

section
/-! What NEXT_TRANSACTION does with each kind of order, with the station of the round, and at the end of the round. -/

namespace Sys2Proof.Machine

/-! ### The checks of each kind of order (R132, R148) -/

theorem State.examine_of_identity {s : State} {l : Line} {o : Order}
    (kind : o.payload.kind = .assign ∨ o.payload.kind = .refuse) : s.examine l o = .send := by
  have other : o.payload.kind ≠ .answer ∧ o.payload.kind ≠ .release := by
    rcases kind with kind | kind <;> rw [kind] <;> decide
  exact State.examine_of_other (fun ⟨_, _, _, _, payload, _⟩ => other.1 (by rw [payload]; rfl))
    (fun ⟨_, _, payload, _⟩ => other.2 (by rw [payload]; rfl))

theorem State.examine_of_reassign {s : State} {l : Line} {o : Order} {target : Station}
    (payload : o.payload = .reassign target) : s.examine l o = .send :=
  State.examine_of_other (fun ⟨_, _, _, _, other, _⟩ => by rw [payload] at other; cases other)
    (fun ⟨_, _, other, _⟩ => by rw [payload] at other; cases other)

theorem State.examine_of_release {s : State} {l : Line} {o : Order} {st : Station} (payload : o.payload = .release)
    (dest : o.dest = .station st) : s.examine l o = .send :=
  State.examine_of_other (fun ⟨_, _, _, _, other, _⟩ => by rw [payload] at other; cases other)
    (fun ⟨_, _, _, other⟩ => by rw [dest] at other; cases other)

theorem State.examine_of_terminal {s : State} {l : Line} {o : Order} {code : Byte} {content : List Byte}
    (payload : o.payload = .answer code content) (terminal : o.ref = none) : s.examine l o = .send :=
  State.examine_of_other (fun ⟨_, _, _, _, _, record, _⟩ => by rw [terminal] at record; cases record)
    (fun ⟨_, _, other, _⟩ => by rw [payload] at other; cases other)

theorem State.examine_of_firstStation {s : State} {l : Line} {o : Order} {first second : Station}
    (payload : o.payload = .release) (dest : o.dest = .pair first second) (old : o.onSecond = false) :
    s.examine l o = .send := by
  rw [State.examine_of_pair payload dest, old]
  exact if_neg Bool.false_ne_true

theorem State.examine_of_secondStation {s : State} {l : Line} {o : Order} {first second : Station}
    (payload : o.payload = .release) (dest : o.dest = .pair first second) (onSecond : o.onSecond = true) :
    s.examine l o = if s.mapAt l second = .quarantined then .send else .skip := by
  rw [State.examine_of_pair payload dest, onSecond]
  by_cases quarantined : s.mapAt l second = .quarantined <;> simp [quarantined]

/-! ### An order that the choice goes over -/

theorem exec_nextTransaction_defers {s : State} {l : Line} {pre rest : List Order} {o : Order}
    (chooses : (s.line l).Chooses) (first : (s.line l).First pre o rest) (skips : s.examine l o = .skip)
    (more : o.lastAttempt = false) : exec (.nextTransaction l) s
      = exec (.nextTransaction l) (s.setLine l ((s.line l).queued (pre ++ o.passedOver :: rest) (s.line l).counters)) := by
  obtain ⟨-, -, free, -⟩ := id chooses
  have idle : o.passedOver.sendable = false := by simp [Order.sendable, Order.passedOver]
  have passes := exec_nextTransaction_passes (mid := [o.passedOver]) (counters := (s.line l).counters) chooses first
    (fun x mem => by rw [List.mem_singleton.mp mem]; exact ⟨idle, first.own_free⟩)
    (fun n => by
      rw [List.append_assoc, List.singleton_append, State.chooseOrder_skip free first skips,
        State.attemptEnd_deferred first more])
  rwa [List.append_assoc, List.singleton_append] at passes

theorem exec_nextTransaction_dropsGone {s : State} {l : Line} {pre rest : List Order} {o : Order}
    (chooses : (s.line l).Chooses) (first : (s.line l).First pre o rest) (drops : s.examine l o = .dropGone) :
    exec (.nextTransaction l) s = exec (.nextTransaction l)
      (s.setLine l ((s.line l).queued (pre ++ rest) ((s.line l).bump .staleAnswers).counters)) := by
  obtain ⟨-, -, free, -⟩ := id chooses
  have passes := exec_nextTransaction_passes (mid := []) (counters := ((s.line l).bump .staleAnswers).counters) chooses
    first (fun _ mem => absurd mem List.not_mem_nil)
    (fun n => by rw [List.append_nil, State.chooseOrder_dropGone free first drops])
  rwa [List.append_nil] at passes

/-! ### What an ANSWER finds of its record (R132) -/

theorem State.examine_of_gone {s : State} {l : Line} {o : Order} {code : Byte} {content : List Byte} {ref : Ref}
    {st : Station} (payload : o.payload = .answer code content) (record : o.ref = some ref) (dest : o.dest = .station st)
    (gone : s.current? ref = none) : s.examine l o = .dropGone := by
  have passes : ¬ s.answerPasses l ref st = true := fun passes => by
    obtain ⟨r, current, -⟩ := State.answerPasses_iff.mp passes
    rw [gone] at current; cases current
  rw [State.examine_of_answer payload record dest, if_neg passes, gone]
  exact if_neg Bool.false_ne_true

theorem State.examine_of_current {s : State} {l : Line} {o : Order} {code : Byte} {content : List Byte} {ref : Ref}
    {st : Station} {r : Record} (payload : o.payload = .answer code content) (record : o.ref = some ref)
    (dest : o.dest = .station st) (current : s.current? ref = some r) :
    (r.line = l ∧ r.station = st ∧ s.mapAt l st = .held ref.handle → s.examine l o = .send)
      ∧ (¬ (r.line = l ∧ r.station = st ∧ s.mapAt l st = .held ref.handle) → s.examine l o = .dropCurrent) := by
  rw [State.examine_of_answer payload record dest]
  refine ⟨fun stands => if_pos (State.answerPasses_iff.mpr ⟨r, current, stands⟩), fun moved => ?_⟩
  have passes : ¬ s.answerPasses l ref st = true := fun passes => by
    obtain ⟨x, current', stands⟩ := State.answerPasses_iff.mp passes
    cases current.symm.trans current'
    exact moved stands
  rw [if_neg passes, current]
  exact if_pos rfl

/-- Settles O31: the first order that can be taken is sent, dropped or skipped by its checks; without one the next station
is polled; and without a station the round ends, with a call where an entry is free. -/
theorem nextTransactionSendsOrPolls : Obligations.NextTransactionSendsOrPolls := by
  intro s l chooses lead free
  have unwaited : (s.line l).waiting = none := chooses.2.2.1
  refine ⟨fun pre rest o orders passed waits ready => ?_, fun passed st h r next => ?_, fun passed roundOver => ?_⟩
  · have first : (s.line l).First pre o rest := ⟨orders, passed, waits, ready, free⟩
    have sends : ∀ {frame : List Byte}, s.examine l o = .send → o.frame = frame → _ := fun {frame} clean same =>
      same ▸ exec_nextTransaction_sends chooses lead first clean
    refine ⟨fun kind => sends (State.examine_of_identity kind) rfl,
      fun target st payload dest => sends (State.examine_of_reassign payload) (Order.frame_of_reassign payload dest),
      fun st payload dest => sends (State.examine_of_release payload dest)
        (Order.frame_of_release payload (Order.station?_of_station dest (by simp [payload]))),
      fun first' second payload dest => ?_, fun code content st payload dest => ?_⟩
    · have station := Order.station?_of_pair dest
      refine ⟨fun old => ?_, fun onSecond kept => ?_, fun onSecond left more => ?_,
        fun ref record onSecond left last => ?_⟩
      · rw [old, if_neg Bool.false_ne_true] at station
        exact sends (State.examine_of_firstStation payload dest old) (Order.frame_of_release payload station)
      · rw [onSecond, if_pos rfl] at station
        have clean := State.examine_of_secondStation (s := s) (l := l) payload dest onSecond
        rw [if_pos kept] at clean
        exact sends clean (Order.frame_of_release payload station)
      · have skips := State.examine_of_secondStation (s := s) (l := l) payload dest onSecond
        rw [if_neg left] at skips
        exact exec_nextTransaction_defers chooses first skips (decide_eq_false (Nat.not_le.mpr more))
      · have skips := State.examine_of_secondStation (s := s) (l := l) payload dest onSecond
        rw [if_neg left] at skips
        have kind : o.payload.kind = .release := by rw [payload]; rfl
        refine exec_nextTransaction_handsOver (x := { o.spentOver with progress := .concluding }) chooses first
          ⟨rfl, first.own_free⟩ fun n => ?_
        rw [State.chooseOrder_skip unwaited first skips, State.attemptEnd_exhausted first
          (decide_eq_true last) (by rw [kind]; decide) record, kind]
    · have frame := Order.frame_of_answer payload (Order.station?_of_station dest (by simp [payload]))
      refine ⟨fun terminal => sends (State.examine_of_terminal payload terminal) frame, fun ref record =>
        ⟨fun gone => exec_nextTransaction_dropsGone chooses first (State.examine_of_gone payload record dest gone),
          fun r current => ?_⟩⟩
      obtain ⟨clean, drops⟩ := State.examine_of_current (l := l) payload record dest current
      have kind : o.payload.kind = .answer := by rw [payload]; rfl
      refine ⟨fun stands => sends (clean stands) frame, fun moved => exec_nextTransaction_handsOver
        (x := { o with progress := .concluding }) chooses first ⟨rfl, first.own_free⟩ fun n => ?_⟩
      rw [State.chooseOrder_dropCurrent unwaited first (drops moved) record, kind]
  · obtain ⟨-, polls, -⟩ := id next
    rw [exec_nextTransaction_polls chooses passed next]
    refine ⟨fun pending awaits room => ?_, fun bars => ?_⟩
    · have reserved := LineEngine.reserve_of_room (LineEngine.freeCount_pos.mpr room) (.poll (s.refOf h))
      rw [State.startPoll_solicited polls pending awaits room, State.modLine_eq, reserved, State.startTx_poll
        (by rw [State.line_setLine_self]; exact lead), State.line_setLine_self, State.setLine_setLine]
      rfl
    · rw [State.startPoll_unsolicited polls bars, State.startTx_poll lead]
      rfl
  · refine ⟨fun policy => exec_nextTransaction_uncalled chooses passed roundOver free (State.roundEnd_closed policy),
      fun policy => ⟨fun room => ?_, fun full => exec_nextTransaction_uncalled chooses passed roundOver free
        (State.roundEnd_skipped policy full)⟩⟩
    rw [exec_nextTransaction_over chooses passed roundOver, State.roundEnd_called policy room, State.line_setLine_self,
      LineEngine.checkLead_call (e := { (s.line l).roundEnded (s.line l).counters with
        reservations := (s.line l).reservations ++ [.call] }) lead]
    exact congrArg Host.Outcome.next (if_pos rfl)

end Sys2Proof.Machine
end

section
/-! Visits to the slots of a line: what the visit to one slot leaves elsewhere, and what all of them leave of one slot. -/

namespace Sys2Proof.Machine

/-! ### A visit to one slot (R84, R85) -/

/-- What the visit to a slot changes beyond the slot, if its record is on the line: the stations of the record on the map
of the line, the end of the line's list, and the orders and reservations of the record. -/
structure State.VisitTo (s t : State) (l : Line) (h : Handle) : Prop where
  slots : ∀ k : Handle, k ≠ h → t.slot k = s.slot k
  outside : ∀ r : Record, s.record? h = some r → r.line ≠ l → t.slot h = s.slot h
  map : ∀ (k : Line) (st : Station), (k = l → ∀ r : Record, s.record? h = some r → r.line = l → r.state ≠ .lapsed →
    st ≠ r.station ∧ r.state ≠ .moving st) → t.mapAt k st = s.mapAt k st
  quar : ∃ made, t.quarOf l = s.quarOf l ++ made
  quarOther : t.quarOf (otherLine l) = s.quarOf (otherLine l)
  shrunk : (s.line l).Shrunk (t.line l)
  live : ∀ (j : OrderKind) (ref : Ref), s.refOf h ≠ ref → (t.line l).liveOrder? j ref = (s.line l).liveOrder? j ref
  polls : ∀ ref : Ref, Reservation.poll ref ∉ (s.line l).reservations → Reservation.poll ref ∉ (t.line l).reservations
  lineOther : t.line (otherLine l) = s.line (otherLine l)
  arb : t.arb = s.arb
  cfg : t.cfg = s.cfg
  clock : t.clock = s.clock

theorem State.VisitTo.refl (s : State) (l : Line) (h : Handle) : s.VisitTo s l h :=
  ⟨fun _ _ => rfl, fun _ _ _ => rfl, fun _ _ _ => rfl, ⟨[], (List.append_nil _).symm⟩, rfl, .refl _, fun _ _ _ => rfl,
    fun _ => id, rfl, rfl, rfl, rfl⟩

theorem LineEngine.liveOrder?_unrequested_of_ne (e : LineEngine) (k : OrderKind) {ref other : Ref} (ne : other ≠ ref)
    (pending : Bool) : (e.unrequested other pending).liveOrder? k ref = e.liveOrder? k ref := by
  rw [LineEngine.unrequested_eq]
  cases pending
  · rfl
  · exact e.liveOrder?_withdraw_of_ne k .answer ne

theorem LineEngine.noPoll_unrequested_of_none {e : LineEngine} {ref : Ref} (absent : Reservation.poll ref ∉ e.reservations)
    (other : Ref) (pending : Bool) : Reservation.poll ref ∉ (e.unrequested other pending).reservations :=
  fun listed => absent (List.mem_filter.mp listed).1

theorem LineEngine.shrunk_unrequested (e : LineEngine) (ref : Ref) (pending : Bool) :
    e.Shrunk (e.unrequested ref pending) := by
  rw [LineEngine.unrequested_eq]
  cases pending
  · exact LineEngine.shrunk_releasePolls ..
  · exact (LineEngine.shrunk_withdraw .answer ref e).trans (LineEngine.shrunk_releasePolls ..)

/-! ### The line claim at one record (R84) -/

/-- The states of a record, as the line claim tells them apart. -/
theorem RecState.stop_cases (state : RecState) : (state = .joining ∨ state = .retiring ∨ ∃ x, state = .moving x)
    ∨ (state = .bound ∨ state = .quiet ∨ state = .reserved ∨ state = .lapsed) := by
  cases state <;> simp

theorem State.stopRecord_of_joining {s : State} {h : Handle} {r : Record} (joining : r.state = .joining) :
    s.stopRecord r.line h r = s.endRecord h .joinAbandoned := by
  rw [State.stopRecord, joining]

theorem State.stopRecord_of_retiring {s : State} {h : Handle} {r : Record} (retiring : r.state = .retiring) :
    s.stopRecord r.line h r = s.endRecord h .releaseUnconfirmed := by
  rw [State.stopRecord, retiring]

theorem State.stopRecord_of_other {s : State} {h : Handle} {r : Record}
    (other : r.state = .bound ∨ r.state = .quiet ∨ r.state = .reserved ∨ r.state = .lapsed) :
    s.stopRecord r.line h r = if r.requestPending then s.withdrawRequest h else s := by
  rcases other with state | state | state | state <;> rw [State.stopRecord, state]

section
variable {s : State} {h : Handle} {r : Record} (found : s.record? h = some r)
include found

/-- A visit whose record is on the line leaves no slot on another line to speak of. -/
theorem State.ofOwn (t : State) : ∀ q : Record, s.record? h = some q → q.line ≠ r.line → t.slot h = s.slot h :=
  fun _ found' other => absurd (congrArg Record.line (Option.some.inj (found'.symm.trans found))) other

theorem State.visitTo_endRecord (stands : r.state ≠ .lapsed) (o : RecOutcome) :
    s.VisitTo (s.endRecord h o) r.line h := by
  have line := State.line_endRecord s found o
  have own : (s.endRecord h o).line r.line = (s.line r.line).without (s.refOf h) r := by rw [line, if_pos rfl]
  refine ⟨fun k ne => s.slot_endRecord_of_ne o ne, State.ofOwn found _, fun k st untouched => ?_,
    ⟨_, State.quarOf_endRecord found o _⟩, ?_, s.linesShrunk_endRecord h o r.line, fun j ref ne => ?_, fun ref absent => ?_,
    ?_, s.arb_endRecord h o, s.cfg_endRecord h o, s.clock_endRecord h o⟩
  · rw [State.mapAt_endRecord found o]
    exact if_neg fun ⟨same, station, _⟩ => (untouched same r found rfl stands).1 station
  · rw [State.quarOf_endRecord found o, if_neg fun both => otherLine_ne _ both.1, List.append_nil]
  · rw [own]; exact LineEngine.liveOrder?_without_of_ne _ j ne r
  · rw [own]; exact LineEngine.noPoll_without_of_none absent _ r
  · rw [line, if_neg (otherLine_ne _)]

theorem State.visitTo_lapseRecord (runs : r.state.leaseRuns = true) : s.VisitTo (s.lapseRecord h) r.line h := by
  have stands : r.state ≠ .lapsed := fun lapsed => by rw [lapsed] at runs; cases runs
  have line := State.line_lapseRecord s found runs
  have own : (s.lapseRecord h).line r.line = (s.line r.line).without (s.refOf h) r := by rw [line, if_pos rfl]
  refine ⟨fun k ne => s.slot_lapseRecord_of_ne ne, State.ofOwn found _, fun k st untouched => ?_,
    ⟨_, State.quarOf_lapseRecord found _⟩, ?_, s.linesShrunk_lapseRecord h r.line, fun j ref ne => ?_, fun ref absent => ?_,
    ?_, s.arb_lapseRecord h, s.cfg_lapseRecord h, s.clock_lapseRecord h⟩
  · rw [State.mapAt_lapseRecord found]
    exact s.mapAfterLapse_of_ne _ (fun same => (untouched same r found rfl stands).1)
      (fun same => (untouched same r found rfl stands).2)
  · rw [State.quarOf_lapseRecord found, if_neg (otherLine_ne _), List.append_nil]
  · rw [own]; exact LineEngine.liveOrder?_without_of_ne _ j ne r
  · rw [own]; exact LineEngine.noPoll_without_of_none absent _ r
  · rw [line, if_neg (otherLine_ne _)]

theorem State.visitTo_withdrawRequest : s.VisitTo (s.withdrawRequest h) r.line h := by
  have withdrawn := State.withdrawRequest_is s found
  have own : (s.withdrawRequest h).line r.line = (s.line r.line).unrequested (s.refOf h) r.requestPending := by
    rw [withdrawn, State.line_setRecord, State.line_setLine_self]
  refine ⟨fun k ne => s.slot_withdrawRequest_of_ne ne, State.ofOwn found _, fun k st _ => ?_, ⟨[], ?_⟩, ?_,
    s.linesShrunk_withdrawRequest h r.line, fun j ref ne => ?_, fun ref absent => ?_, ?_, s.arb_withdrawRequest h,
    s.cfg_withdrawRequest h, s.clock_withdrawRequest h⟩
  · rw [withdrawn, State.mapAt_setRecord, State.mapAt_setLine]
  · rw [withdrawn, State.quarOf_setRecord, State.quarOf_setLine, List.append_nil]
  · rw [withdrawn, State.quarOf_setRecord, State.quarOf_setLine]
  · rw [own]; exact LineEngine.liveOrder?_unrequested_of_ne _ j ne _
  · rw [own]; exact LineEngine.noPoll_unrequested_of_none absent _ _
  · rw [withdrawn, State.line_setRecord, State.line_setLine_other]

/-- A move that the line claim aborts: its REASSIGN and a pending request are withdrawn, and the record is BOUND. -/
theorem State.stopRecord_of_moving {x : Station} (moving : r.state = .moving x) : s.stopRecord r.line h r
    = ((((s.abandonMove h r.line x).setRecord h { r with state := .bound, outcome := .moveAborted }).mark h
        (ChangeMask.state ||| ChangeMask.outcome)).setLine r.line
        (((s.line r.line).withdraw .reassign (s.refOf h)).unrequested (s.refOf h) r.requestPending)).setRecord h
        { r with state := .bound, outcome := .moveAborted, requestPending := false } := by
  rw [State.stopRecord, moving]
  dsimp only
  rw [State.modRecord_eq _ _ _ r (by simpa using found),
    State.withdrawRequest_is (r := { r with state := .bound, outcome := .moveAborted }) _ (by simp)]
  simp [State.line_abandonMove]

/-- A move that the line claim aborts leaves the rest of the line. -/
theorem State.visitTo_stopMoving {x : Station} (moving : r.state = .moving x) :
    s.VisitTo (s.stopRecord r.line h r) r.line h := by
  have stands : r.state ≠ .lapsed := by rw [moving]; nofun
  rw [State.stopRecord_of_moving found moving]
  refine ⟨fun k ne => ?_, State.ofOwn found _, fun k st untouched => ?_,
    ⟨if s.moveSent h then [⟨x, s.arb.grantCfg.quarHold, none⟩] else [], ?_⟩, ?_, ?_, fun j ref ne => ?_, fun ref absent => ?_,
    ?_, ?_, ?_, ?_⟩
  · simp [State.slot_setRecord, State.slot_mark, ne]
  · simp only [State.mapAt_setRecord, State.mapAt_setLine, State.mapAt_mark, State.mapAt_abandonMove]
    exact if_neg fun ⟨same, target⟩ => (untouched same r found rfl stands).2 (target ▸ moving)
  · simp [State.quarOf_abandonMove]
  · simp [State.quarOf_abandonMove]
  · rw [State.line_setRecord, State.line_setLine_self]
    exact (LineEngine.shrunk_withdraw ..).trans (LineEngine.shrunk_unrequested ..)
  · rw [State.line_setRecord, State.line_setLine_self, LineEngine.liveOrder?_unrequested_of_ne _ j ne,
      LineEngine.liveOrder?_withdraw_of_ne _ j .reassign ne]
  · rw [State.line_setRecord, State.line_setLine_self]
    exact LineEngine.noPoll_unrequested_of_none (e := (s.line r.line).withdraw .reassign (s.refOf h)) absent _ _
  · simp [State.line_abandonMove]
  · simp
  · simp
  · simp

theorem State.visitTo_stopRecord : s.VisitTo (s.stopRecord r.line h r) r.line h := by
  rcases r.state.stop_cases with (joining | retiring | ⟨x, moving⟩) | other
  · rw [State.stopRecord_of_joining joining]
    exact State.visitTo_endRecord found (by rw [joining]; nofun) _
  · rw [State.stopRecord_of_retiring retiring]
    exact State.visitTo_endRecord found (by rw [retiring]; nofun) _
  · exact State.visitTo_stopMoving found moving
  · rw [State.stopRecord_of_other other]
    split
    · exact State.visitTo_withdrawRequest found
    · exact .refl s r.line h

theorem State.stopSlot_of_own : State.stopSlot r.line s h = s.stopRecord r.line h r := by
  rw [State.stopSlot, found]
  exact if_pos rfl

theorem State.flushSlot_of_aging (aging : r.state = .bound ∨ r.state = .quiet) :
    State.flushSlot r.line s h = s.lapseRecord h := by
  rw [State.flushSlot, found]
  exact if_pos ⟨rfl, aging⟩

theorem State.flushSlot_of_other {l : Line} (other : ¬ (r.line = l ∧ (r.state = .bound ∨ r.state = .quiet))) :
    State.flushSlot l s h = s := by
  rw [State.flushSlot, found]
  exact if_neg other

end

/-! ### The visits of the two claims -/

theorem State.visitTo_stopSlot (l : Line) (s : State) (h : Handle) : s.VisitTo (State.stopSlot l s h) l h := by
  unfold State.stopSlot
  split
  · next r found =>
    split
    · next own => exact own ▸ State.visitTo_stopRecord found
    · exact .refl s l h
  · exact .refl s l h

theorem State.visitTo_flushSlot (l : Line) (s : State) (h : Handle) : s.VisitTo (State.flushSlot l s h) l h := by
  unfold State.flushSlot
  split
  · next r found =>
    split
    · next ages =>
      obtain ⟨own, aging⟩ := ages
      have runs : r.state.leaseRuns = true := by rcases aging with state | state <;> rw [state] <;> rfl
      exact own ▸ State.visitTo_lapseRecord found runs
    · exact .refl s l h
  · exact .refl s l h

end Sys2Proof.Machine
end

section
/-! The visits of a claim to all slots: what they leave outside the line, and what they leave of the visit to one slot. -/

namespace Sys2Proof.Machine

/-! ### Outside the line -/

/-- What the visits of a claim of a line leave: the records of the other line, its list, its map and that line, the
entries of the line's own list, and the line engine but for its orders and reservations. -/
structure State.WorksOn (s t : State) (l : Line) : Prop where
  slots : ∀ (h : Handle) (r : Record), s.record? h = some r → r.line ≠ l → t.slot h = s.slot h
  quar : ∃ made, t.quarOf l = s.quarOf l ++ made
  quarOther : t.quarOf (otherLine l) = s.quarOf (otherLine l)
  mapOther : ∀ st : Station, t.mapAt (otherLine l) st = s.mapAt (otherLine l) st
  shrunk : (s.line l).Shrunk (t.line l)
  lineOther : t.line (otherLine l) = s.line (otherLine l)
  arb : t.arb = s.arb
  cfg : t.cfg = s.cfg
  clock : t.clock = s.clock

theorem State.WorksOn.refl (s : State) (l : Line) : s.WorksOn s l :=
  ⟨fun _ _ _ _ => rfl, ⟨[], (List.append_nil _).symm⟩, rfl, fun _ => rfl, .refl _, rfl, rfl, rfl, rfl⟩

theorem State.WorksOn.trans {s t u : State} {l : Line} (first : s.WorksOn t l) (second : t.WorksOn u l) :
    s.WorksOn u l := by
  obtain ⟨made, quar⟩ := first.quar
  obtain ⟨made', quar'⟩ := second.quar
  refine ⟨fun h r found other => ?_, ⟨made ++ made', by rw [quar', quar, List.append_assoc]⟩,
    second.quarOther.trans first.quarOther, fun st => (second.mapOther st).trans (first.mapOther st),
    first.shrunk.trans second.shrunk, second.lineOther.trans first.lineOther, second.arb.trans first.arb,
    second.cfg.trans first.cfg, second.clock.trans first.clock⟩
  have same := first.slots h r found other
  exact (second.slots h r ((congrArg Slot.content same).trans found) other).trans same

theorem State.VisitTo.worksOn {s t : State} {l : Line} {h : Handle} (visit : s.VisitTo t l h) : s.WorksOn t l := by
  refine ⟨fun k r found other => ?_, visit.quar, visit.quarOther,
    fun st => visit.map _ st fun same => absurd same (otherLine_ne l), visit.shrunk, visit.lineOther, visit.arb, visit.cfg,
    visit.clock⟩
  by_cases own : k = h
  · subst own; exact visit.outside r found other
  · exact visit.slots k own

theorem State.WorksOn.mem_quarOf {s t : State} {l : Line} (works : s.WorksOn t l) {q : QuarEntry}
    (listed : q ∈ s.quarOf l) : q ∈ t.quarOf l := by
  obtain ⟨made, quar⟩ := works.quar
  rw [quar]
  exact List.mem_append_left _ listed

/-! ### One slot, while others are visited -/

/-- What visits to other slots leave of a slot: the slot itself, the orders of its record that are not withdrawn, and the
absence of a reservation of a poll of it. -/
structure State.Passed (s t : State) (l : Line) (h : Handle) : Prop where
  slot : t.slot h = s.slot h
  live : ∀ j : OrderKind, (t.line l).liveOrder? j (s.refOf h) = (s.line l).liveOrder? j (s.refOf h)
  polls : Reservation.poll (s.refOf h) ∉ (s.line l).reservations →
    Reservation.poll (s.refOf h) ∉ (t.line l).reservations

theorem State.Passed.refl (s : State) (l : Line) (h : Handle) : s.Passed s l h := ⟨rfl, fun _ => rfl, id⟩

theorem State.Passed.refOf {s t : State} {l : Line} {h : Handle} (passed : s.Passed t l h) : t.refOf h = s.refOf h :=
  State.refOf_congr passed.slot

theorem State.Passed.record? {s t : State} {l : Line} {h : Handle} (passed : s.Passed t l h) :
    t.record? h = s.record? h := congrArg Slot.content passed.slot

theorem State.Passed.trans {s t u : State} {l : Line} {h : Handle} (first : s.Passed t l h) (second : t.Passed u l h) :
    s.Passed u l h := by
  obtain ⟨slot, live, polls⟩ := second
  rw [first.refOf] at live polls
  exact ⟨slot.trans first.slot, fun j => (live j).trans (first.live j), polls ∘ first.polls⟩

theorem State.VisitTo.passed {s t : State} {l : Line} {h k : Handle} (visit : s.VisitTo t l k) (ne : h ≠ k) :
    s.Passed t l h :=
  ⟨visit.slots h ne, fun j => visit.live j _ fun same => ne (congrArg Ref.handle same).symm, visit.polls _⟩

theorem State.Passed.moveSent {s t : State} {l : Line} {h : Handle} {r : Record} (passed : s.Passed t l h)
    (found : s.record? h = some r) (own : r.line = l) : t.moveSent h = s.moveSent h := by
  simp only [State.moveSent, passed.record?, found, passed.refOf, own, passed.live]

/-! ### The visits in their order -/

section
variable {visit : State → Handle → State} {l : Line} (visits : ∀ (s : State) (h : Handle), s.VisitTo (visit s h) l h)
include visits

theorem State.worksOn_visits (hs : List Handle) (s : State) : s.WorksOn (hs.foldl visit s) l :=
  List.foldlRecOn (motive := fun t => s.WorksOn t l) hs visit (.refl s l) fun v works h _ => works.trans (visits v h).worksOn

theorem State.passed_visits {h : Handle} (hs : List Handle) (fresh : h ∉ hs) (s : State) :
    s.Passed (hs.foldl visit s) l h :=
  List.foldlRecOn (motive := fun t => s.Passed t l h) hs visit (.refl s l h) fun v passed k listed =>
    passed.trans ((visits v k).passed fun same => fresh (same ▸ listed))

/-- Where the maps agree with the records, visits to other slots leave the station and the target of a record (R12). -/
theorem State.mapAt_visits {s : State} (law : s.MapLaw) {h : Handle} {st : Station}
    (own : s.mapAt l st = .held h ∨ s.mapAt l st = .target h) : ∀ (hs : List Handle), hs.Nodup → h ∉ hs → ∀ v : State,
      (∀ k ∈ hs, v.slot k = s.slot k) → (hs.foldl visit v).mapAt l st = v.mapAt l st
  | [], _, _, _, _ => rfl
  | k :: hs, distinct, fresh, v, unvisited => by
    obtain ⟨first, distinct⟩ := List.nodup_cons.mp distinct
    have ne : k ≠ h := fun same => fresh (same ▸ List.mem_cons_self)
    have later : ∀ j ∈ hs, (visit v k).slot j = s.slot j := fun j listed =>
      ((visits v k).slots j fun same => first (same ▸ listed)).trans (unvisited j (List.mem_cons_of_mem _ listed))
    rw [List.foldl_cons, State.mapAt_visits law own hs distinct (fun listed => fresh (List.mem_cons_of_mem _ listed)) _ later]
    refine (visits v k).map l st fun _ r found line stands => ?_
    have found' : s.record? k = some r := (congrArg Slot.content (unvisited k List.mem_cons_self)).symm.trans found
    refine ⟨fun station => ?_, fun moving => ?_⟩
    · have held := (law l st k).1.mpr ⟨r, found', line, stands, station.symm⟩
      rw [held] at own
      simp [ne] at own
    · have target := (law l st k).2.mpr ⟨r, found', line, moving⟩
      rw [target] at own
      simp [ne] at own

end

/-- The visit to a slot among the visits to all: the state it finds, the state it leaves, and the end of the visits. -/
structure State.Visited (s v u t : State) (l : Line) (h : Handle) : Prop where
  before : s.Passed v l h
  after : u.Passed t l h
  worksBefore : s.WorksOn v l
  worksAfter : u.WorksOn t l
  map : s.MapLaw → ∀ st : Station, s.mapAt l st = .held h ∨ s.mapAt l st = .target h →
    v.mapAt l st = s.mapAt l st ∧ t.mapAt l st = u.mapAt l st

theorem State.visited {visit : State → Handle → State} {l : Line}
    (visits : ∀ (s : State) (h : Handle), s.VisitTo (visit s h) l h) (s : State) (h : Handle) :
    ∃ v, s.Visited v (visit v h) (allHandles.foldl visit s) l h := by
  obtain ⟨first, rest, split⟩ := List.append_of_mem (mem_allHandles h)
  have distinct := nodup_allHandles
  rw [split] at distinct ⊢
  rw [List.foldl_append, List.foldl_cons]
  obtain ⟨distinctFirst, distinctRest, apart⟩ := List.nodup_append.mp distinct
  obtain ⟨freshRest, distinctRest⟩ := List.nodup_cons.mp distinctRest
  have freshFirst : h ∉ first := fun listed => apart h listed h List.mem_cons_self rfl
  refine ⟨first.foldl visit s, State.passed_visits visits first freshFirst s, State.passed_visits visits rest freshRest _,
    State.worksOn_visits visits first s, State.worksOn_visits visits rest _, fun law st own => ⟨?_, ?_⟩⟩
  · exact State.mapAt_visits visits law own first distinctFirst freshFirst s fun _ _ => rfl
  · refine State.mapAt_visits visits law own rest distinctRest freshRest _ fun k listed => ?_
    have ne : k ≠ h := fun same => freshRest (same ▸ listed)
    have fresh : k ∉ first := fun listed' => apart k listed' k (List.mem_cons_of_mem _ listed) rfl
    exact ((visits _ h).slots k ne).trans (State.passed_visits visits first fresh s).slot

end Sys2Proof.Machine
end

section
/-! LINE_CLAIM and FLUSH_CLAIM: what the visits do at each record of the line, and what becomes of the line engine. -/

namespace Sys2Proof.Machine

/-! ### The visit to a record of the line -/

section
variable {s : State} {h : Handle} {r : Record} (found : s.record? h = some r)
include found

theorem State.slot_endRecord_of_pinned (pinned : r.pinned = true) (o : RecOutcome) : (s.endRecord h o).slot h =
    { s.slot h with
      content := some (r.returned o), mask := (s.slot h).mask ||| (ChangeMask.state ||| ChangeMask.outcome) } := by
  rw [State.endRecord_of_pinned found pinned, State.slot_mark, if_pos rfl, State.slot_setRecord, if_pos rfl,
    State.slot_setLine]

theorem State.slot_stopRecord_of_moving {x : Station} (moving : r.state = .moving x) :
    (s.stopRecord r.line h r).slot h =
      { s.slot h with
        content := some { r with state := .bound, outcome := .moveAborted, requestPending := false }
        mask := (s.slot h).mask ||| (ChangeMask.state ||| ChangeMask.outcome) } := by
  rw [State.stopRecord_of_moving found moving]
  simp

theorem State.quarOf_stopRecord_of_moving {x : Station} (moving : r.state = .moving x) :
    (s.stopRecord r.line h r).quarOf r.line
      = s.quarOf r.line ++ if s.moveSent h then [⟨x, s.arb.grantCfg.quarHold, none⟩] else [] := by
  rw [State.stopRecord_of_moving found moving]
  simp [State.quarOf_abandonMove]

theorem State.mapAt_stopRecord_of_moving {x : Station} (moving : r.state = .moving x) (st : Station) :
    (s.stopRecord r.line h r).mapAt r.line st
      = if st = x then (if s.moveSent h then .quarantined else .free) else s.mapAt r.line st := by
  rw [State.stopRecord_of_moving found moving]
  simp [State.mapAt_abandonMove]

theorem State.slot_stopRecord_of_other
    (other : r.state = .bound ∨ r.state = .quiet ∨ r.state = .reserved ∨ r.state = .lapsed) :
    (s.stopRecord r.line h r).slot h = { s.slot h with content := some { r with requestPending := false } } := by
  have content : (s.slot h).content = some r := found
  rw [State.stopRecord_of_other other]
  split
  · rw [State.withdrawRequest_is s found, State.slot_setRecord, if_pos rfl, State.slot_setLine]
  · next quiet =>
    have same : ({ r with requestPending := false } : Record) = r := by
      rw [← Bool.eq_false_iff.mpr quiet]
    rw [same, ← content]

end

/-! ### The line engine after the visits (R80, R84, R85; log 26) -/

theorem LineEngine.tryRunning_of_ready {e : LineEngine} (ready : e.state = .starting ∧ e.stage = .ready ∧ e.stopDue = false
    ∧ e.flushDue = false) : e.tryRunning = { e with state := .running, stage := .none, txSinceRound := false } :=
  if_pos ready

theorem LineEngine.tryRunning_of_not {e : LineEngine} (not : ¬ (e.state = .starting ∧ e.stage = .ready ∧ e.stopDue = false
    ∧ e.flushDue = false)) : e.tryRunning = e := if_neg not

/-- A line that becomes RUNNING holds no FLUSH back, before and after. -/
theorem LineEngine.flushHeld_tryRunning (e : LineEngine) : e.tryRunning.flushHeld = e.flushHeld := by
  by_cases ready : e.state = .starting ∧ e.stage = .ready ∧ e.stopDue = false ∧ e.flushDue = false
  · rw [LineEngine.tryRunning_of_ready ready]
    simp [LineEngine.flushHeld, ready.2.1, StartStage.flushRemains]
  · rw [LineEngine.tryRunning_of_not ready]

/-- What the trial for RUNNING leaves of a line engine. -/
theorem LineEngine.tryRunning_eq (e : LineEngine) : ∃ state stage x, e.tryRunning =
    { e with state := state, stage := stage, txSinceRound := x } := by
  by_cases ready : e.state = .starting ∧ e.stage = .ready ∧ e.stopDue = false ∧ e.flushDue = false
  · exact ⟨_, _, _, LineEngine.tryRunning_of_ready ready⟩
  · exact ⟨_, _, _, LineEngine.tryRunning_of_not ready⟩

/-- A claim whose work leaves a line engine, and which then completes. -/
def State.concluded (s : State) (l : Line) (e : LineEngine) : State := (s.setLine l e.tryRunning).completeLine l

section
variable (s : State) (l : Line) (e : LineEngine)

/-- What the end of the claim leaves of the line engine: its claim, the waiting result and its transaction aside. -/
theorem State.line_concluded : ∃ state stage x c w t, (s.concluded l e).line l =
    { e with
      state := state, stage := stage, txSinceRound := x, claim := c, waiting := w, tx := t
      flushDue := e.flushDue || (e.flushHeld && !e.leadDominant) } := by
  obtain ⟨state, stage, x, tried⟩ := e.tryRunning_eq
  obtain ⟨c, w, t, completed⟩ := (s.setLine l e.tryRunning).line_completeLine_self l
  rw [State.line_setLine_self, LineEngine.flushHeld_tryRunning] at completed
  refine ⟨state, stage, x || (e.flushHeld && !e.leadDominant), c, w, t, ?_⟩
  rw [State.concluded, completed, tried]

theorem State.concluded_of_ready (ready : e.state = .starting ∧ e.stage = .ready ∧ e.stopDue = false ∧ e.flushDue = false) :
    ((s.concluded l e).line l).state = .running ∧ ((s.concluded l e).line l).stage = .none
      ∧ ((s.concluded l e).line l).txSinceRound = false := by
  have running := LineEngine.tryRunning_of_ready ready
  refine ⟨?_, ?_, ?_⟩
  · rw [State.concluded, State.state_completeLine, State.line_setLine_self, running]
  · rw [State.concluded, State.stage_completeLine, State.line_setLine_self, running]
  · obtain ⟨c, w, t, completed⟩ := (s.setLine l e.tryRunning).line_completeLine_self l
    rw [State.line_setLine_self, running] at completed
    rw [State.concluded, running, completed]
    simp [LineEngine.flushHeld]

theorem State.concluded_of_not
    (not : ¬ (e.state = .starting ∧ e.stage = .ready ∧ e.stopDue = false ∧ e.flushDue = false)) :
    ((s.concluded l e).line l).state = e.state ∧ ((s.concluded l e).line l).stage = e.stage := by
  have stays := LineEngine.tryRunning_of_not not
  rw [State.concluded, State.state_completeLine, State.stage_completeLine, State.line_setLine_self, stays]
  exact ⟨rfl, rfl⟩

@[simp] theorem State.slot_concluded (h : Handle) : (s.concluded l e).slot h = s.slot h := by
  simp [State.concluded]

@[simp] theorem State.mapAt_concluded (k : Line) (st : Station) : (s.concluded l e).mapAt k st = s.mapAt k st := by
  simp [State.concluded]

@[simp] theorem State.quarOf_concluded (k : Line) : (s.concluded l e).quarOf k = s.quarOf k := by
  simp [State.concluded]

@[simp] theorem State.line_concluded_other : (s.concluded l e).line (otherLine l) = s.line (otherLine l) := by
  simp [State.concluded]

@[simp] theorem State.cfg_concluded : (s.concluded l e).cfg = s.cfg := by simp [State.concluded]

@[simp] theorem State.clock_concluded : (s.concluded l e).clock = s.clock := by simp [State.concluded]

end

/-- The line engine after the visits of a claim but for what the claim itself does to it. -/
theorem State.WorksOn.line {s t : State} {l : Line} (works : s.WorksOn t l) : ∃ orders reservations,
    t.line l = { s.line l with orders := orders, reservations := reservations } := by
  obtain ⟨orders, reservations, same, -⟩ := works.shrunk
  exact ⟨orders, reservations, same⟩

theorem exec_lineClaim_of_runs {s : State} {l : Line} (runs : s.LineRuns l .line) : exec .lineClaim s = .next
    ((allHandles.foldl (State.stopSlot l) s).concluded l (s.line l).cleared) := by
  obtain ⟨orders, reservations, line⟩ := (State.worksOn_visits (State.visitTo_stopSlot l) allHandles s).line
  rw [runs.exec_eq rfl, State.lineWork, State.modLine_modLine, State.modLine_eq, line]
  rfl

theorem exec_flushClaim_of_runs {s : State} {l : Line} (runs : s.LineRuns l .flush) : exec .flushClaim s = .next
    ((allHandles.foldl (State.flushSlot l) s).concluded l
      { (allHandles.foldl (State.flushSlot l) s).line l with flushDue := false }) := by
  rw [runs.exec_eq rfl, State.flushWork, State.modLine_modLine, State.modLine_eq]
  rfl

end Sys2Proof.Machine
end

section
/-! What LINE_CLAIM and FLUSH_CLAIM leave of each record, from the visit to its slot among the visits to all. -/

namespace Sys2Proof.Machine

/-! ### What the end of a claim leaves outside the line, and of its start -/

theorem State.WorksOn.elsewhere {s t : State} {l : Line} (works : s.WorksOn t l) (e : LineEngine) :
    (∀ (h : Handle) (r : Record), s.record? h = some r → r.line ≠ l → (t.concluded l e).slot h = s.slot h)
      ∧ (∃ made, (t.concluded l e).quarOf l = s.quarOf l ++ made)
      ∧ (t.concluded l e).quarOf (otherLine l) = s.quarOf (otherLine l)
      ∧ (∀ st : Station, (t.concluded l e).mapAt (otherLine l) st = s.mapAt (otherLine l) st)
      ∧ (t.concluded l e).line (otherLine l) = s.line (otherLine l) ∧ (t.concluded l e).cfg = s.cfg
      ∧ (t.concluded l e).clock = s.clock := by
  simp only [State.slot_concluded, State.quarOf_concluded, State.mapAt_concluded, State.line_concluded_other,
    State.cfg_concluded, State.clock_concluded]
  exact ⟨works.slots, works.quar, works.quarOther, works.mapOther, works.lineOther, works.cfg, works.clock⟩

/-- The last claim that a STARTING line owes makes it RUNNING. -/
theorem State.starts_concluded (t : State) (l : Line) {e : LineEngine} {lastOwed : Prop}
    (owes : lastOwed ↔ e.stopDue = false ∧ e.flushDue = false) :
    (e.state = .starting → e.stage = .ready → lastOwed →
        ((t.concluded l e).line l).state = .running ∧ ((t.concluded l e).line l).stage = .none
          ∧ ((t.concluded l e).line l).txSinceRound = false)
      ∧ (¬ (e.state = .starting ∧ e.stage = .ready ∧ lastOwed) →
        ((t.concluded l e).line l).state = e.state ∧ ((t.concluded l e).line l).stage = e.stage) := by
  rw [owes]
  exact ⟨fun starting ready last => t.concluded_of_ready l e ⟨starting, ready, last⟩, t.concluded_of_not l e⟩

/-- A record that stays in its slot, changed, with STATE and OUTCOME marked (R45). -/
def State.KeptAs (s t : State) (h : Handle) (q : Record) : Prop :=
  t.record? h = some q ∧ (t.slot h).mask = (s.slot h).mask ||| (ChangeMask.state ||| ChangeMask.outcome)
    ∧ (t.slot h).gen = (s.slot h).gen

theorem State.keptAs_of_slot {s t : State} {h : Handle} {q : Record} (same : t.slot h = { s.slot h with
    content := some q, mask := (s.slot h).mask ||| (ChangeMask.state ||| ChangeMask.outcome) }) : s.KeptAs t h q :=
  ⟨congrArg Slot.content same, congrArg Slot.mask same, by rw [same]⟩

/-! ### Each record of the line -/

section
variable {s v t : State} {h : Handle} {r : Record} (found : s.record? h = some r) (e : LineEngine)
include found

/-- A record that the claim ends: back to RESERVED where it is pinned, else freed with its station quarantined. -/
theorem State.Visited.ends {o : RecOutcome} (visited : s.Visited v (v.endRecord h o) t r.line h)
    (stands : r.state ≠ .lapsed) :
    (r.pinned = true → s.KeptAs (t.concluded r.line e) h (r.returned o))
      ∧ (r.pinned = false → ((t.concluded r.line e).slot h).FreedFrom (s.slot h) r o ChangeMask.outcome
        ∧ ⟨r.station, s.arb.grantCfg.quarHold, none⟩ ∈ (t.concluded r.line e).quarOf r.line)
      ∧ (s.DirectoryLaw → (t.concluded r.line e).mapAt r.line r.station = if r.pinned then .held h else .quarantined) := by
  have found' : v.record? h = some r := visited.before.record?.trans found
  refine ⟨fun pinned => State.keptAs_of_slot ?_, fun unpinned => ⟨?_, ?_⟩, fun law => ?_⟩
  · rw [State.slot_concluded, visited.after.slot, State.slot_endRecord_of_pinned found' pinned, visited.before.slot]
  · rw [State.slot_concluded, visited.after.slot, ← visited.before.slot]
    exact State.freedFrom_endRecord found' unpinned o
  · rw [State.quarOf_concluded]
    refine visited.worksAfter.mem_quarOf ?_
    rw [State.quarOf_endRecord found', visited.worksBefore.arb, if_pos ⟨rfl, unpinned⟩]
    exact List.mem_append_right _ List.mem_cons_self
  · have held := (law.1 r.line r.station h).1.mpr ⟨r, found, rfl, stands, rfl⟩
    obtain ⟨before, after⟩ := visited.map law.1 r.station (.inl held)
    rw [State.mapAt_concluded, after, State.mapAt_endRecord found', before, held]
    cases r.pinned <;> simp

/-- A move that the line claim aborts: the record is BOUND at its station again, and its target is quarantined or free. -/
theorem State.Visited.aborts (visited : s.Visited v (State.stopSlot r.line v h) t r.line h) {x : Station}
    (moving : r.state = .moving x) :
    s.KeptAs (t.concluded r.line e) h { r with state := .bound, outcome := .moveAborted, requestPending := false }
      ∧ (s.moveSent h = true → ⟨x, s.arb.grantCfg.quarHold, none⟩ ∈ (t.concluded r.line e).quarOf r.line)
      ∧ (s.DirectoryLaw → (t.concluded r.line e).mapAt r.line r.station = .held h
        ∧ (t.concluded r.line e).mapAt r.line x = if s.moveSent h then .quarantined else .free) := by
  have found' : v.record? h = some r := visited.before.record?.trans found
  have sent : v.moveSent h = s.moveSent h := visited.before.moveSent found rfl
  rw [State.stopSlot_of_own found'] at visited
  refine ⟨State.keptAs_of_slot ?_, fun reassigned => ?_, fun law => ?_⟩
  · rw [State.slot_concluded, visited.after.slot, State.slot_stopRecord_of_moving found' moving, visited.before.slot]
  · rw [State.quarOf_concluded]
    refine visited.worksAfter.mem_quarOf ?_
    rw [State.quarOf_stopRecord_of_moving found' moving, visited.worksBefore.arb, sent, if_pos reassigned]
    exact List.mem_append_right _ List.mem_cons_self
  · have held := (law.1 r.line r.station h).1.mpr ⟨r, found, rfl, by rw [moving]; nofun, rfl⟩
    have target := (law.1 r.line x h).2.mpr ⟨r, found, rfl, moving⟩
    have apart : r.station ≠ x := fun same => by rw [same, target] at held; cases held
    obtain ⟨before, after⟩ := visited.map law.1 r.station (.inl held)
    obtain ⟨-, after'⟩ := visited.map law.1 x (.inr target)
    constructor
    · rw [State.mapAt_concluded, after, State.mapAt_stopRecord_of_moving found' moving, if_neg apart, before, held]
    · rw [State.mapAt_concluded, after', State.mapAt_stopRecord_of_moving found' moving, if_pos rfl, sent]

/-- What LINE_CLAIM leaves of a record of the line (R84). -/
theorem State.Visited.stops (visited : s.Visited v (State.stopSlot r.line v h) t r.line h) :
    let u := t.concluded r.line e
    let ends := fun (o : RecOutcome) =>
      (r.pinned = true → s.KeptAs u h (r.returned o))
        ∧ (r.pinned = false → (u.slot h).FreedFrom (s.slot h) r o ChangeMask.outcome
          ∧ ⟨r.station, s.arb.grantCfg.quarHold, none⟩ ∈ u.quarOf r.line)
        ∧ (s.DirectoryLaw → u.mapAt r.line r.station = if r.pinned then .held h else .quarantined)
    (r.state = .joining → ends .joinAbandoned)
      ∧ (r.state = .retiring → ends .releaseUnconfirmed)
      ∧ (∀ x : Station, r.state = .moving x →
        s.KeptAs u h { r with state := .bound, outcome := .moveAborted, requestPending := false }
        ∧ (s.moveSent h = true → ⟨x, s.arb.grantCfg.quarHold, none⟩ ∈ u.quarOf r.line)
        ∧ (s.DirectoryLaw → u.mapAt r.line r.station = .held h
          ∧ u.mapAt r.line x = if s.moveSent h then .quarantined else .free))
      ∧ (r.state = .bound ∨ r.state = .quiet ∨ r.state = .reserved ∨ r.state = .lapsed →
        u.slot h = { s.slot h with content := some { r with requestPending := false } }) := by
  have found' : v.record? h = some r := visited.before.record?.trans found
  have own := State.stopSlot_of_own found'
  refine ⟨fun joining => ?_, fun retiring => ?_, fun x moving => visited.aborts found e moving, fun other => ?_⟩
  · rw [own, State.stopRecord_of_joining joining] at visited
    exact visited.ends found e (by rw [joining]; nofun)
  · rw [own, State.stopRecord_of_retiring retiring] at visited
    exact visited.ends found e (by rw [retiring]; nofun)
  · rw [State.slot_concluded, visited.after.slot, own, State.slot_stopRecord_of_other found' other, visited.before.slot]

/-- What FLUSH_CLAIM leaves of a BOUND or QUIET record of the line (R85). -/
theorem State.Visited.lapses (visited : s.Visited v (State.flushSlot r.line v h) t r.line h)
    (aging : r.state = .bound ∨ r.state = .quiet) :
    Reservation.poll (s.refOf h) ∉ (t.line r.line).reservations
      ∧ (r.requestPending = true → (t.line r.line).liveOrder? .answer (s.refOf h) = none)
      ∧ (r.pinned = true → s.KeptAs (t.concluded r.line e) h (r.returned .lapsed))
      ∧ (r.pinned = false → s.KeptAs (t.concluded r.line e) h r.lapsed
        ∧ ⟨r.station, s.arb.grantCfg.quarHold, some (s.refOf h)⟩ ∈ (t.concluded r.line e).quarOf r.line)
      ∧ (s.DirectoryLaw → (t.concluded r.line e).mapAt r.line r.station = if r.pinned then .held h else .quarantined) := by
  have found' : v.record? h = some r := visited.before.record?.trans found
  have runs : r.state.leaseRuns = true := by rcases aging with state | state <;> rw [state] <;> rfl
  have stands : r.state ≠ .lapsed := by rcases aging with state | state <;> rw [state] <;> nofun
  have still : ∀ x, r.state ≠ .moving x := by rcases aging with state | state <;> rw [state] <;> nofun
  rw [State.flushSlot_of_aging found' aging] at visited
  have slot := v.slot_lapseRecord h h r found'
  rw [if_pos rfl, Record.afterLapse_eq, visited.before.slot] at slot
  have line := State.line_lapseRecord v found' runs r.line
  rw [if_pos rfl, visited.before.refOf] at line
  have refOf : (v.lapseRecord h).refOf h = s.refOf h :=
    (congrArg (fun x : Slot => Ref.mk h x.gen) slot).trans rfl
  have polls := visited.after.polls
  have live := visited.after.live .answer
  rw [refOf, line] at polls live
  have whole := visited.after.slot.trans slot
  refine ⟨polls (LineEngine.noPoll_without _ _ r), fun pending => live.trans (LineEngine.noAnswer_without _ _ pending),
    fun pinned => State.keptAs_of_slot ?_, fun unpinned => ⟨State.keptAs_of_slot ?_, ?_⟩, fun law => ?_⟩
  · rw [State.slot_concluded, whole, if_pos pinned]
  · rw [State.slot_concluded, whole, if_neg (by simp [unpinned])]
  · rw [State.quarOf_concluded]
    refine visited.worksAfter.mem_quarOf ?_
    rw [State.quarOf_lapseRecord found', if_pos rfl, State.stationEntries, visited.worksBefore.arb, visited.before.refOf,
      if_neg (by simp [unpinned])]
    exact List.mem_append_right _ (List.mem_append_right _ List.mem_cons_self)
  · have held := (law.1 r.line r.station h).1.mpr ⟨r, found, rfl, stands, rfl⟩
    obtain ⟨before, after⟩ := visited.map law.1 r.station (.inl held)
    rw [State.mapAt_concluded, after, State.mapAt_lapseRecord found', State.mapAfterLapse, before, held]
    cases r.pinned <;> simp [still]

end

/-! ### The obligation -/

/-- Settles O52, from what each visit does at its slot, what the visits to the other slots leave of it, and what the end of
the claim leaves of the line engine. -/
theorem lineAndFlushClaims : Obligations.LineAndFlushClaims := by
  intro s l
  refine ⟨fun runs => ?_, fun runs => ?_⟩
  · have work := exec_lineClaim_of_runs runs
    have works := State.worksOn_visits (State.visitTo_stopSlot l) allHandles s
    have visited := State.visited (State.visitTo_stopSlot l) s
    generalize allHandles.foldl (State.stopSlot l) s = t at work works visited
    obtain ⟨state, stage, x, c, w, tx, line⟩ := t.line_concluded l (s.line l).cleared
    have started := State.starts_concluded t l (e := (s.line l).cleared) (lastOwed := (s.line l).flushDue = false)
      ⟨fun last => ⟨rfl, last⟩, And.right⟩
    refine ⟨t.concluded l (s.line l).cleared, work, congrArg LineEngine.orders line,
      congrArg LineEngine.reservations line, congrArg LineEngine.position line, congrArg LineEngine.roundCounter line,
      congrArg LineEngine.exclusions line, congrArg LineEngine.tracker line, congrArg LineEngine.stopDue line,
      (congrArg LineEngine.counters line).trans rfl, congrArg LineEngine.flushDue line,
      started, works.elsewhere _, fun h r found own => ?_⟩
    subst own
    obtain ⟨v, visited⟩ := visited h
    exact visited.stops found _
  · have work := exec_flushClaim_of_runs runs
    have works := State.worksOn_visits (State.visitTo_flushSlot l) allHandles s
    have visited := State.visited (State.visitTo_flushSlot l) s
    generalize allHandles.foldl (State.flushSlot l) s = t at work works visited
    obtain ⟨orders, reservations, worked⟩ := works.line
    obtain ⟨state, stage, x, c, w, tx, line⟩ := t.line_concluded l { t.line l with flushDue := false }
    have started := State.starts_concluded t l (e := { t.line l with flushDue := false })
      (lastOwed := (t.line l).stopDue = false) ⟨fun last => ⟨last, rfl⟩, And.left⟩
    refine ⟨t.concluded l { t.line l with flushDue := false }, work, by rw [line, worked]; rfl, by rw [line, worked],
      by rw [worked] at started ⊢; exact started, works.elsewhere _, fun h r found own => ⟨fun aging => ?_,
      fun bound quiet => ?_⟩⟩
    · subst own
      obtain ⟨v, visited⟩ := visited h
      rw [line]
      exact visited.lapses found _ aging
    · obtain ⟨v, visited⟩ := visited h
      have found' : v.record? h = some r := visited.before.record?.trans found
      rw [State.slot_concluded, visited.after.slot, State.flushSlot_of_other found' fun ⟨_, aging⟩ => aging.elim bound quiet,
        visited.before.slot]

end Sys2Proof.Machine
end
